-- ==== Sys2Proof/Word.lean ====
section
/-! DEFINITION. The word types of the block and the type of its binary64 numbers. -/

namespace Sys2Proof

/-- One byte of the register file (R22). -/
abbrev Byte := BitVec 8

/-- A 16-bit register value or operand. -/
abbrev Half := BitVec 16

/-- A 32-bit address, operand, or register value zero-extended to 32 bits. -/
abbrev Word := BitVec 32

/-- A binary64 number (R11) held by its exact value: `units` counts the least positive binary64
number, 2^-1074. Every binary64 number the block can reach is finite and not negative (R162, R163,
R192, R199), so this count is the number; `F64.bits` gives its IEEE 754 pattern (log 17, DEDUCED). -/
structure F64 where
  units : Nat
deriving DecidableEq, Repr

end Sys2Proof
end

