-- ==== Sys2Proof/Syntax.lean ====
section
/-! DEFINITION. The operations of the block (R90): one constructor of `Instr` per row of
spec/opcode_table.json, the operand types, and a request as the environment makes it (R91, R92). -/

namespace Sys2Proof

/-- The names of the 27 interrupt sources (R7, R28): the 22 of the default binding, and five more for the sources that it
does not name. A name is a label: which of them the table `SOURCES` has, and what it says of each, is a parameter
(Machine/Sources.lean). -/
inductive Source where
  | spi2 | tmr1 | uart1 | wdt | rtc | tmr2 | kb | pwm1
  | int0 | int1 | int2 | int3 | uart2 | pwm2
  | irq1 | irq2 | irq3 | irq6 | irq5 | spi1 | rti | emiq
  | unnamed1 | unnamed2 | unnamed3 | unnamed4 | unnamed5
deriving DecidableEq, Repr

/-- The board input record (R29): owned outside the block, only read by it. -/
structure Inputs where
  sdCardInserted : Bool
  keyRow0 : Bool
  keyRow1 : Bool
  keyRow2 : Bool
  dockConnected : Bool
deriving DecidableEq, Repr

/-- The kinds of fault that the address-space component reports (R332). -/
inductive FaultKind where
  | wpv | beto | prv
deriving DecidableEq, Repr

/-- An operation with its operands (R90). -/
inductive Instr where
  | read8 (addr : Word)
  | read16 (addr : Word)
  | read32 (addr : Word)
  | write8 (addr : Word) (value : Byte)
  | write16 (addr : Word) (value : Half)
  | write32 (addr : Word) (value : Word)
  | tick
  | resetAll
  | iack (level : BitVec 3)
  | isSysclkRunning
  | isRegWindowRelocated
  | setRtc (days hours minutes seconds : Nat)
  | inputChange (inputs : Inputs)
  | setLowPowerStop
  | busFaultWpv
  | busFaultBeto
  | busFaultPrv
  | extIrq (source : Source) (line : Bool)
deriving DecidableEq, Repr

/-- The `inputs` part of an operand record as it arrives: a field may be missing, and then the record is
not a full one (R92, R308). -/
structure InputsRecord where
  sdCardInserted : Option Bool
  keyRow0 : Option Bool
  keyRow1 : Option Bool
  keyRow2 : Option Bool
  dockConnected : Option Bool
deriving DecidableEq, Repr

/-- An operand record (R92). Each operation reads its own fields of it and no other; `value` has room for the widest WRITE
(log 15). -/
structure Operand where
  addr : Word
  value : Word
  days : Nat
  hours : Nat
  minutes : Nat
  seconds : Nat
  inputs : InputsRecord
  source : Source
deriving DecidableEq, Repr

/-- An operation as the environment invokes it: the 8-bit descriptor and the operand record (R91). -/
structure Request where
  descriptor : Byte
  operand : Operand
deriving DecidableEq, Repr

end Sys2Proof
end

