-- ==== Sys2Proof/WellFormed.lean ====
section
/-! DEFINITION. Which operations are well formed: the stated operand ranges of R94 and R236 that do not depend on a parameter.
The range of SET_RTC's days and of EXT_IRQ's source are parameters', and the operations themselves check them. -/

namespace Sys2Proof

/-- Why an operation's operands are out of their stated range (R94). -/
inductive IllFormed where
  /-- SET_RTC outside `hours < 24`, `minutes < 60`, `seconds < 60` (R236); the range of the days is a parameter's, which
  SET_RTC itself checks. -/
  | rtcOutOfRange
deriving DecidableEq, Repr

/-- The range of SET_RTC's time of day (R236). -/
def timeInRange (hours minutes seconds : Nat) : Bool :=
  decide (hours < 24) && decide (minutes < 60) && decide (seconds < 60)

/-- What is wrong with an operation's operands, if anything (R94). -/
def Instr.illFormed : Instr → Option IllFormed
  | .read8 _ | .read16 _ | .read32 _ | .write8 _ _ | .write16 _ _ | .write32 _ _ | .tick | .resetAll | .iack _
  | .isSysclkRunning | .isRegWindowRelocated | .inputChange _ | .setLowPowerStop | .busFaultWpv | .busFaultBeto
  | .busFaultPrv | .extIrq _ _ => none
  | .setRtc _ h m s => if timeInRange h m s then none else some .rtcOutOfRange

/-- The operation's operands are in their stated ranges. -/
def Instr.wf (i : Instr) : Bool := i.illFormed.isNone

end Sys2Proof
end

