-- ==== Sys2Proof/Decode.lean ====
section
/-! DEFINITION. The decoder of operation requests (R91 to R94, R97), total on any descriptor byte and operand record,
and after it the encoder. -/

namespace Sys2Proof

/-- Why a request is refused (R94). -/
inductive DecodeError where
  /-- The descriptor matches no row of the table (R93, R94). -/
  | reservedDescriptor (d : Byte)
  /-- INPUT_CHANGE with a record that lacks a field (R92, R308). -/
  | incompleteInputs
  /-- WRITE8 or WRITE16 with a value of more than 8n bits (R92; log 15). -/
  | valueTooWide
  /-- An operand is out of its stated range (R94). -/
  | illFormed (why : IllFormed)
deriving DecidableEq, Repr

/-- The full `inputs` record, if no field is missing (R92, R308). -/
def InputsRecord.full? (r : InputsRecord) : Option Inputs :=
  match r.sdCardInserted, r.keyRow0, r.keyRow1, r.keyRow2, r.dockConnected with
  | some sd, some k0, some k1, some k2, some dock => some ⟨sd, k0, k1, k2, dock⟩
  | _, _, _, _, _ => none

/-- The record with every field of `i` present. -/
def InputsRecord.ofInputs (i : Inputs) : InputsRecord :=
  ⟨some i.sdCardInserted, some i.keyRow0, some i.keyRow1, some i.keyRow2, some i.dockConnected⟩

/-- The operand record of zeros: every number 0, every input false, and the first source name (log 15). -/
def Operand.zero : Operand :=
  { addr := 0, value := 0, days := 0, hours := 0, minutes := 0, seconds := 0
    inputs := ⟨some false, some false, some false, some false, some false⟩
    source := .spi2 }

/-- `OPC`, the operation class: `d[7:4]` (R91). -/
def opcOf (d : Byte) : Nat := d.toNat / 16

/-- `SUB`, the sub-field: `d[3:0]` (R91). -/
def subOf (d : Byte) : Nat := d.toNat % 16

/-- The value of a WRITE of `bits` bits, if the record's value is one: R92 gives it exactly 8n bits. A wider one is out of
the operand's range and is refused, as D2 has it; R94 does not name WRITE (log 15, DESIGN CHOICE). -/
def Operand.valueOf? (op : Operand) (bits : Nat) : Option (BitVec bits) :=
  if op.value.toNat < 2 ^ bits then some (op.value.setWidth bits) else none

/-- The operation a descriptor selects, its operands taken from the record, before the ranges are checked
(R91, R92, R97). -/
def decodeShape (q : Request) : Except DecodeError Instr :=
  let d := q.descriptor
  let op := q.operand
  match opcOf d, subOf d with
  | 0x0, 0 => .ok (.read8 op.addr)
  | 0x0, 1 => .ok (.read16 op.addr)
  | 0x0, 2 => .ok (.read32 op.addr)
  | 0x1, 0 =>
    match op.valueOf? 8 with
    | some v => .ok (.write8 op.addr v)
    | none => .error .valueTooWide
  | 0x1, 1 =>
    match op.valueOf? 16 with
    | some v => .ok (.write16 op.addr v)
    | none => .error .valueTooWide
  | 0x1, 2 => .ok (.write32 op.addr op.value)
  | 0x2, 0 => .ok .tick
  | 0x3, 0 => .ok .resetAll
  | 0x4, sub => if sub < 8 then .ok (.iack (d.setWidth 3)) else .error (.reservedDescriptor d)
  | 0x5, 0 => .ok .isSysclkRunning
  | 0x5, 1 => .ok .isRegWindowRelocated
  | 0x6, 0 => .ok (.setRtc op.days op.hours op.minutes op.seconds)
  | 0x7, 0 =>
    match op.inputs.full? with
    | some i => .ok (.inputChange i)
    | none => .error .incompleteInputs
  | 0x8, 0 => .ok .setLowPowerStop
  | 0x9, 0 => .ok .busFaultWpv
  | 0x9, 1 => .ok .busFaultBeto
  | 0x9, 2 => .ok .busFaultPrv
  | 0xA, 0 => .ok (.extIrq op.source false)
  | 0xA, 1 => .ok (.extIrq op.source true)
  | _, _ => .error (.reservedDescriptor d)

/-- The decoder (R93, R94): the operation with its operands in range, or the reason it is refused. -/
def decode (q : Request) : Except DecodeError Instr :=
  match decodeShape q with
  | .error e => .error e
  | .ok i =>
    match i.illFormed with
    | none => .ok i
    | some why => .error (.illFormed why)

/-- The descriptor byte of an operation: `{OPC, SUB}` (R91, R97). -/
def descriptorOf : Instr → Byte
  | .read8 _ => 0x00
  | .read16 _ => 0x01
  | .read32 _ => 0x02
  | .write8 _ _ => 0x10
  | .write16 _ _ => 0x11
  | .write32 _ _ => 0x12
  | .tick => 0x20
  | .resetAll => 0x30
  | .iack l => 0x40 ||| l.setWidth 8
  | .isSysclkRunning => 0x50
  | .isRegWindowRelocated => 0x51
  | .setRtc _ _ _ _ => 0x60
  | .inputChange _ => 0x70
  | .setLowPowerStop => 0x80
  | .busFaultWpv => 0x90
  | .busFaultBeto => 0x91
  | .busFaultPrv => 0x92
  | .extIrq _ x => if x then 0xA1 else 0xA0

/-- The operand record of an operation: its own fields set, every other field zero (R92). -/
def operandOf : Instr → Operand
  | .read8 a | .read16 a | .read32 a => { Operand.zero with addr := a }
  | .write8 a v => { Operand.zero with addr := a, value := v.setWidth 32 }
  | .write16 a v => { Operand.zero with addr := a, value := v.setWidth 32 }
  | .write32 a v => { Operand.zero with addr := a, value := v }
  | .setRtc d h m s => { Operand.zero with days := d, hours := h, minutes := m, seconds := s }
  | .inputChange i => { Operand.zero with inputs := InputsRecord.ofInputs i }
  | .extIrq x _ => { Operand.zero with source := x }
  | .tick | .resetAll | .iack _ | .isSysclkRunning | .isRegWindowRelocated | .setLowPowerStop | .busFaultWpv
  | .busFaultBeto | .busFaultPrv => Operand.zero

/-- The encoder: the request that invokes an operation (R91, R92). -/
def encode (i : Instr) : Request := ⟨descriptorOf i, operandOf i⟩

/-- A row of spec/opcode_table.json: a descriptor `d` matches it when `d & mask = pattern` (R93). -/
structure OpcodeRow where
  mnemonic : String
  pattern : Byte
  mask : Byte
deriving DecidableEq, Repr

/-- The rows of spec/opcode_table.json. -/
def opcodeTable : List OpcodeRow :=
  [⟨"READ8", 0x00, 0xFF⟩, ⟨"READ16", 0x01, 0xFF⟩, ⟨"READ32", 0x02, 0xFF⟩,
   ⟨"WRITE8", 0x10, 0xFF⟩, ⟨"WRITE16", 0x11, 0xFF⟩, ⟨"WRITE32", 0x12, 0xFF⟩,
   ⟨"TICK", 0x20, 0xFF⟩, ⟨"RESET_ALL", 0x30, 0xFF⟩, ⟨"IACK", 0x40, 0xF8⟩,
   ⟨"IS_SYSCLK_RUNNING", 0x50, 0xFF⟩, ⟨"IS_REG_WINDOW_RELOCATED", 0x51, 0xFF⟩,
   ⟨"SET_RTC", 0x60, 0xFF⟩, ⟨"INPUT_CHANGE", 0x70, 0xFF⟩, ⟨"SET_LOW_POWER_STOP", 0x80, 0xFF⟩,
   ⟨"BUS_FAULT.WPV", 0x90, 0xFF⟩, ⟨"BUS_FAULT.BETO", 0x91, 0xFF⟩, ⟨"BUS_FAULT.PRV", 0x92, 0xFF⟩,
   ⟨"EXT_IRQ", 0xA0, 0xFE⟩]

/-- The rows a descriptor matches (R93). -/
def matchingRows (d : Byte) : List OpcodeRow := opcodeTable.filter fun r => d &&& r.mask = r.pattern

/-- The table's mnemonic of an operation. -/
def mnemonicOf : Instr → String
  | .read8 _ => "READ8"
  | .read16 _ => "READ16"
  | .read32 _ => "READ32"
  | .write8 _ _ => "WRITE8"
  | .write16 _ _ => "WRITE16"
  | .write32 _ _ => "WRITE32"
  | .tick => "TICK"
  | .resetAll => "RESET_ALL"
  | .iack _ => "IACK"
  | .isSysclkRunning => "IS_SYSCLK_RUNNING"
  | .isRegWindowRelocated => "IS_REG_WINDOW_RELOCATED"
  | .setRtc _ _ _ _ => "SET_RTC"
  | .inputChange _ => "INPUT_CHANGE"
  | .setLowPowerStop => "SET_LOW_POWER_STOP"
  | .busFaultWpv => "BUS_FAULT.WPV"
  | .busFaultBeto => "BUS_FAULT.BETO"
  | .busFaultPrv => "BUS_FAULT.PRV"
  | .extIrq _ _ => "EXT_IRQ"

/-- The request whose descriptor is the number `w` and whose operand record is zero (log 15). -/
def requestOfWord (w : Nat) : Request := ⟨BitVec.ofNat 8 w, Operand.zero⟩

/-- The operation the decoder reads from a table word: the table gives a row the 8 bits of its descriptor, and
the operand record it gives no bits is zero (R91, R99; log 15). -/
def decodeTableWord (nbits w : Nat) : Option Instr :=
  if 8 ≤ nbits ∧ w < 256 then (decode (requestOfWord w)).toOption else none

end Sys2Proof
end

