-- ==== Sys2Proof/Machine/Bits.lean ====
section
/-! DEFINITION. Bit-field reads and writes of a value (R8, R96). -/

namespace Sys2Proof.Machine

/-- The word with ones at the `len` bits from bit `lo` up. -/
def fieldMask (lo len : Nat) : Word := BitVec.ofNat 32 (2 ^ len - 1) <<< lo

/-- `v[lo+len-1 : lo]`, an unsigned integer (R8, R96). -/
def getBits (v : Word) (lo len : Nat) : Nat := (v >>> lo).toNat % 2 ^ len

/-- `v` with `x`, truncated to `len` bits, stored from bit `lo` up and every other bit kept (R96). -/
def setBits (v : Word) (lo len x : Nat) : Word :=
  (v &&& ~~~fieldMask lo len) ||| ((BitVec.ofNat 32 x <<< lo) &&& fieldMask lo len)

/-- The masked store of R79: the bits of `mask` that `be` covers come from `v`, the others stay. -/
def mergeBits (old v mask be : Word) : Word := (old &&& ~~~(mask &&& be)) ||| (v &&& mask &&& be)

end Sys2Proof.Machine
end

