-- ==== Sys2Proof/Machine/Names.lean ====
section
/-! DEFINITION. The catalogues of names that the rules use: the banks (R270), the timers (R190), the registers (R26) and
their fields (R27). Where a register or a field lies is no part of its name: that is the parameter `REGMAP`,
Machine/RegMap.lean. -/

namespace Sys2Proof.Machine

/-- The four chip-select banks, in decode order (R270, R278). -/
inductive Bank where
  | rom | sed | usb | ram
deriving DecidableEq, Repr

/-- The two timers (R190). -/
inductive TimerId where
  | t1 | t2
deriving DecidableEq, Repr

/-- Both timers, in the order of R198. -/
def TimerId.all : List TimerId := [.t1, .t2]

/-- The banks, in decode order (R278). -/
def Bank.all : List Bank := [.rom, .sed, .usb, .ram]

/-! Registers -/

/-- The named registers (R26), under the spec's names. -/
inductive Reg where
  | scr | ivr | icr | imr | isr | ipr | ilcr | pllcr | pllfsr
  | tctl1 | tctl2 | tprer1 | tprer2 | tcmp1 | tcmp2 | tcn1 | tcn2 | tstat1 | tstat2
  | rtctime | dayr | rtcctl | rtcisr | rtcienr | watchdog
  | csa | csb | csc | csd | csgba | csgbb | csgbc | csgbd | csugba | csctrl1 | csctrl2
  | pbdir | pbdata | pbpuen | pbsel
  | pddir | pddata | pdpuen | pdsel
  | pgdir | pgdata | pgpuen | pgsel
  | pkdir | pkdata | pkpuen | pksel
  | pdpol | pdirqen | pdkben | pdirqeg
deriving DecidableEq, Repr

/-- TCTLn. -/
def Reg.tctl : TimerId → Reg
  | .t1 => .tctl1
  | .t2 => .tctl2

/-- TPRERn. -/
def Reg.tprer : TimerId → Reg
  | .t1 => .tprer1
  | .t2 => .tprer2

/-- TCMPn. -/
def Reg.tcmp : TimerId → Reg
  | .t1 => .tcmp1
  | .t2 => .tcmp2

/-- TCNn. -/
def Reg.tcn : TimerId → Reg
  | .t1 => .tcn1
  | .t2 => .tcn2

/-- TSTATn. -/
def Reg.tstat : TimerId → Reg
  | .t1 => .tstat1
  | .t2 => .tstat2

/-- The control register of a bank (R26). -/
def Reg.cs : Bank → Reg
  | .rom => .csa
  | .sed => .csb
  | .usb => .csc
  | .ram => .csd

/-- The base-address register of a bank (R26). -/
def Reg.csgb : Bank → Reg
  | .rom => .csgba
  | .sed => .csgbb
  | .usb => .csgbc
  | .ram => .csgbd

/-- The registers of the interrupt controller, the PLL and SCR (R26). -/
def Reg.controlRegs : List Reg := [.scr, .ivr, .icr, .imr, .isr, .ipr, .ilcr, .pllcr, .pllfsr]

/-- The registers of the timers, the RTC and the watchdog (R26). -/
def Reg.timeRegs : List Reg :=
  [.tctl1, .tctl2, .tprer1, .tprer2, .tcmp1, .tcmp2, .tcn1, .tcn2, .tstat1, .tstat2,
   .rtctime, .dayr, .rtcctl, .rtcisr, .rtcienr, .watchdog]

/-- The registers whose write recomputes the bank descriptors (R277). -/
def Reg.chipSelectRegs : List Reg :=
  [.csa, .csb, .csc, .csd, .csgba, .csgbb, .csgbc, .csgbd, .csugba, .csctrl1, .csctrl2]

/-- The port registers (R305). -/
def Reg.portRegs : List Reg :=
  [.pbdir, .pbdata, .pbpuen, .pbsel, .pddir, .pddata, .pdpuen, .pdsel, .pgdir, .pgdata, .pgpuen, .pgsel,
   .pkdir, .pkdata, .pkpuen, .pksel, .pdpol, .pdirqen, .pdkben, .pdirqeg]

/-- Every named register (R26). -/
def Reg.all : List Reg := Reg.controlRegs ++ Reg.timeRegs ++ Reg.chipSelectRegs ++ Reg.portRegs

/-- The width class of a register in bytes: R26's column. The exact width is REGMAP's. -/
def Reg.classBytes : Reg → Nat
  | .scr | .ivr
  | .pbdir | .pbdata | .pbpuen | .pbsel | .pddir | .pddata | .pdpuen | .pdsel
  | .pgdir | .pgdata | .pgpuen | .pgsel | .pkdir | .pkdata | .pkpuen | .pksel
  | .pdpol | .pdirqen | .pdkben | .pdirqeg => 1
  | .imr | .isr | .ipr | .rtctime => 4
  | .icr | .ilcr | .pllcr | .pllfsr
  | .tctl1 | .tctl2 | .tprer1 | .tprer2 | .tcmp1 | .tcmp2 | .tcn1 | .tcn2 | .tstat1 | .tstat2
  | .dayr | .rtcctl | .rtcisr | .rtcienr | .watchdog
  | .csa | .csb | .csc | .csd | .csgba | .csgbb | .csgbc | .csgbd | .csugba | .csctrl1 | .csctrl2 => 2

/-- The words of one bit per source: `MASK_BITS` is 32 (R7). -/
def Reg.isMaskWord : Reg → Bool
  | .imr | .isr | .ipr => true
  | _ => false

/-- The registers that software does not write: their `WMASK` is 0 in every map (R144, R195). -/
def Reg.readOnly : List Reg := [.ipr, .tcn1, .tcn2]

/-! Fields -/

/-- The named fields of the registers (R27), those without an effect in the model too (93, I10). The fields of the port
registers and of IMR, ISR and IPR are their bits: pin `i` is bit `i`, a source has the bit that `SOURCES` gives it. -/
inductive Field where
  -- SCR (R336)
  | beto | wpv | prv | beten | so | dmap | wdth8
  -- IVR (R141), ICR (R146, R306)
  | vector
  | pol1 | pol2 | pol3 | pol5 | pol6 | et1 | et2 | et3 | et6
  /-- ILCR's 3-bit programmable levels (R96, R136): as many as fit into 16 bits. -/
  | lvl (k : Fin 5)
  -- PLLCR, PLLFSR (R160)
  | sysclksel | presc1 | presc2 | clken | displl | wksel
  | clk32 | prot | qcnt | pcnt
  -- TCTLn, TPRERn, TCMPn, TCNn, TSTATn (R190)
  | ten (n : TimerId) | clksource (n : TimerId) | irqen (n : TimerId) | om (n : TimerId) | cap (n : TimerId) | frr (n : TimerId)
  | prescaler (n : TimerId) | compare (n : TimerId) | count (n : TimerId) | comp (n : TimerId) | capt (n : TimerId)
  -- RTCTIME, DAYR, RTCCTL (R220)
  | hours | minutes | seconds | days | rtcEn | ref384
  -- RTCISR, and RTCIENR in the same layout (R224, R228)
  | sw | min | alm | day | sec | hr | sam (i : Fin 8)
  -- WATCHDOG (R220)
  | wdtEn | wdtIsel | wdtIntf | wdtCntr
  -- CSx, CSGBx, CSUGBA, CSCTRL1, CSCTRL2 (R272 to R274)
  | csEn (b : Bank) | csSiz (b : Bank) | csRo (b : Bank) | csSop (b : Bank) | csRdop (b : Bank) | csUpsiz (b : Bank)
  /-- The bit of CSD that RAM's alternate unit may need (R27, R273). -/
  | ramAlt
  | gba (b : Bank) | ugen | ugba (b : Bank) | ram8m | pgate
deriving DecidableEq, Repr

/-- The register a field belongs to (R27). RTCIENR has RTCISR's layout. -/
def Field.reg : Field → Reg
  | .beto | .wpv | .prv | .beten | .so | .dmap | .wdth8 => .scr
  | .vector => .ivr
  | .pol1 | .pol2 | .pol3 | .pol5 | .pol6 | .et1 | .et2 | .et3 | .et6 => .icr
  | .lvl _ => .ilcr
  | .sysclksel | .presc1 | .presc2 | .clken | .displl | .wksel => .pllcr
  | .clk32 | .prot | .qcnt | .pcnt => .pllfsr
  | .ten n | .clksource n | .irqen n | .om n | .cap n | .frr n => .tctl n
  | .prescaler n => .tprer n
  | .compare n => .tcmp n
  | .count n => .tcn n
  | .comp n | .capt n => .tstat n
  | .hours | .minutes | .seconds => .rtctime
  | .days => .dayr
  | .rtcEn | .ref384 => .rtcctl
  | .sw | .min | .alm | .day | .sec | .hr | .sam _ => .rtcisr
  | .wdtEn | .wdtIsel | .wdtIntf | .wdtCntr => .watchdog
  | .csEn b | .csSiz b | .csRo b | .csSop b | .csRdop b | .csUpsiz b => .cs b
  | .ramAlt => .csd
  | .gba b => .csgb b
  | .ugen | .ugba _ => .csugba
  | .ram8m => .csctrl1
  | .pgate => .csctrl2

/-- The fields that no timer, bank or number tells apart. -/
def Field.single : List Field :=
  [.beto, .wpv, .prv, .beten, .so, .dmap, .wdth8, .vector, .pol1, .pol2, .pol3, .pol5, .pol6, .et1, .et2, .et3, .et6,
   .sysclksel, .presc1, .presc2, .clken, .displl, .wksel, .clk32, .prot, .qcnt, .pcnt,
   .hours, .minutes, .seconds, .days, .rtcEn, .ref384, .sw, .min, .alm, .day, .sec, .hr,
   .wdtEn, .wdtIsel, .wdtIntf, .wdtCntr, .ramAlt, .ugen, .ram8m, .pgate]

/-- The fields of a timer. -/
def Field.ofTimer (n : TimerId) : List Field :=
  [.ten n, .clksource n, .irqen n, .om n, .cap n, .frr n, .prescaler n, .compare n, .count n, .comp n, .capt n]

/-- The fields of a bank. -/
def Field.ofBank (b : Bank) : List Field :=
  [.csEn b, .csSiz b, .csRo b, .csSop b, .csRdop b, .csUpsiz b, .gba b, .ugba b]

/-- The programmable levels. -/
def Field.levels : List Field := (List.finRange 5).map Field.lvl

/-- The ladder bits, `SAM0` to `SAM7` (R228). -/
def Field.ladder : List Field := (List.finRange 8).map Field.sam

/-- Every named field. -/
def Field.all : List Field :=
  Field.single ++ Field.levels ++ Field.ladder ++ TimerId.all.flatMap Field.ofTimer ++ Bank.all.flatMap Field.ofBank

/-- The fields that a `REGMAP` need not give a place: those whose position R27 leaves OPEN even in the default binding,
and the programmable levels, of which it may have fewer than five. -/
def Field.mayLack : Field → Bool
  | .csSop _ | .csRdop _ | .csUpsiz _ | .ramAlt | .ram8m | .pgate | .lvl _ => true
  | _ => false

/-- The widths in bits that a field may have. R96 fixes those of the level, wake-select, counter and compare fields and R191
that of the prescaler, and "every other field width is from `REGMAP`" (R96): at least one bit for the fields that are numbers
or codes or that no rule reads, and one bit for the fields that the rules call flags or bits or read as a truth value
(log 1, DEDUCED). -/
def Field.widthOk (f : Field) (n : Nat) : Bool :=
  match f with
  | .lvl _ => n == 3
  | .wksel => n == 2
  | .count _ | .compare _ => n == 16
  | .prescaler _ => n == 8
  | .days => true
  | .hours | .minutes | .seconds | .vector | .sysclksel | .presc1 | .presc2 | .clken | .clk32 | .qcnt | .pcnt
  | .clksource _ | .om _ | .cap _ | .ref384 | .wdtCntr | .csSiz _ | .csUpsiz _ | .gba _ | .ugba _ => decide (1 ≤ n)
  | _ => n == 1

/-- The ILCR fields of the default binding (R27). -/
abbrev Field.spi1lvl : Field := .lvl 0
@[inherit_doc Field.spi1lvl] abbrev Field.uart2lvl : Field := .lvl 1
@[inherit_doc Field.spi1lvl] abbrev Field.pwm2lvl : Field := .lvl 2
@[inherit_doc Field.spi1lvl] abbrev Field.tmr2lvl : Field := .lvl 3

/-- The ICR polarity field of port-D pin `i`, 4 to 7: POL1, POL2, POL3, POL6 (R306). -/
def Field.pinPol : Nat → Field
  | 4 => .pol1
  | 5 => .pol2
  | 6 => .pol3
  | _ => .pol6

/-- The ICR edge field of port-D pin `i`, 4 to 7: ET1, ET2, ET3, ET6 (R306). -/
def Field.pinEt : Nat → Field
  | 4 => .et1
  | 5 => .et2
  | 6 => .et3
  | _ => .et6

end Sys2Proof.Machine
end

