-- ==== Sys2Proof/Config.lean ====
section
/-! DEFINITION. What the spec's source fixes as a number (R7), and the parameters for which the spec gives
no default: opaque constants, so that a claim about them holds for every value. The parameters that have a
default, the two catalogues REGMAP and SOURCES among them, stand in Machine/Bindings.lean. -/

namespace Sys2Proof.Machine

/-- The port registers that the status-flag functions may read (R304): direction, select and data of
ports B, G and K. -/
structure PortLatches where
  pbdir : Byte
  pbsel : Byte
  pbdata : Byte
  pgdir : Byte
  pgsel : Byte
  pgdata : Byte
  pkdir : Byte
  pksel : Byte
  pkdata : Byte
deriving DecidableEq, Repr

end Sys2Proof.Machine

namespace Sys2Proof.Config

open Sys2Proof.Machine

/-- `WINDOW_SIZE`: bytes in the register file (R7). -/
def windowSize : Nat := 4096

/-- `NUM_SOURCES`: the number of interrupt sources of the hardware (R7, R28). -/
def numSources : Nat := 27

/-- `CRYSTAL_HZ`: TICK operations per emulated second (R7). -/
def crystalHz : Nat := 32768

/-- `PLL_DISABLE_DELAY`: CPU cycles between a PLL-disable write and the halt (R7). -/
def pllDisableDelay : Nat := 30

/-- The "uninitialized interrupt" vector (R150). -/
def uninitializedVector : Byte := 15

/-- Position of the RAM alternate-size flag RAM8M in CSCTRL1, where REGMAP gives none: OPEN in R27, R273 (log 10). -/
opaque ram8mPos : Fin 16

/-- Position of the protection gate PGATE in CSCTRL2, where REGMAP gives none: OPEN in R27, R274 (log 10). -/
opaque pgatePos : Fin 16

/-- Position of SOP in a bank's control register, where REGMAP gives none: OPEN in R27, R274 (log 10). -/
opaque sopPos : Bank → Fin 16

/-- Position of RDOP in a bank's control register, where REGMAP gives none: OPEN in R27, R274 (log 10). -/
opaque rdopPos : Bank → Fin 16

/-- `CS_UNPROT_SIZE`: unprotected size in bytes of a bank, from its control register and CSCTRL2. A
parameter with no default (R275; log 9). -/
opaque csUnprotSize : Bank → Half → Half → Nat

/-- `CS_BASE`, where it is not the default of R272: a family of base-address functions of a bank, its base register and
CSUGBA (R7, R272; log 8). -/
opaque csBaseOther : Nat → Bank → Half → Half → Word

/-- The alarm-LED flag's function: a `PORT_PINS` function with no default (R304; log 11). -/
opaque alarmLed : PortLatches → Bool

/-- The LCD-enabled flag's function: a `PORT_PINS` function with no default (R304; log 11). -/
opaque lcdEnabled : PortLatches → Bool

/-- The backlight-enabled flag's function: a `PORT_PINS` function with no default (R304; log 11). -/
opaque backlightEnabled : PortLatches → Bool

/-- The vibrator-enabled flag's function: a `PORT_PINS` function with no default (R304; log 11). -/
opaque vibratorEnabled : PortLatches → Bool

end Sys2Proof.Config
end

