-- ==== Sys2Proof/Machine/Memory.lean ====
section
/-! DEFINITION. The register file as memory (R22): a list of (offset, byte) cells in one canonical form. -/

namespace Sys2Proof.Machine

/-- The register file: offsets strictly rising and below 4096, and no cell that holds what an unlisted
offset reads as (`Memory.wf`). -/
abbrev Memory := List Host.Cell

/-- What an unlisted offset reads as: 0, the default reset contents (R33; log 3). -/
def unlistedByte : Byte := 0

/-- `RF[o]` (R9). -/
def Memory.read : Memory → Nat → Byte
  | [], _ => unlistedByte
  | (k, v) :: m, o => if o = k then v else Memory.read m o

/-- Removes the cells at offset `o`. -/
def Memory.erase : Memory → Nat → Memory
  | [], _ => []
  | (k, v) :: m, o => if o = k then Memory.erase m o else (k, v) :: Memory.erase m o

/-- Puts byte `b` at offset `o` before the first cell with a greater offset, in place of a cell at `o`. -/
def Memory.insert : Memory → Nat → Byte → Memory
  | [], o, b => [(o, b)]
  | (k, v) :: m, o, b =>
    if o < k then (o, b) :: (k, v) :: m
    else if o = k then (o, b) :: m
    else (k, v) :: Memory.insert m o b

/-- `RF[o] <- b`, keeping the canonical form. -/
def Memory.write (m : Memory) (o : Nat) (b : Byte) : Memory :=
  if b = unlistedByte then m.erase o else m.insert o b

/-- The cells from offset `lo` on are in canonical form. -/
def Memory.wfFrom : Nat → Memory → Bool
  | _, [] => true
  | lo, (k, v) :: m =>
    decide (lo ≤ k) && decide (k < Config.windowSize) && decide (v ≠ unlistedByte) && Memory.wfFrom (k + 1) m

/-- The canonical form of the register file. -/
def Memory.wf (m : Memory) : Bool := Memory.wfFrom 0 m

/-- The `n` bytes from offset `o`, most significant byte first (R72). -/
def Memory.readSpan (m : Memory) (o : Nat) : Nat → Word
  | 0 => 0
  | n + 1 => (Memory.readSpan m o n <<< 8) ||| (m.read (o + n)).setWidth 32

/-- Stores the low `n` bytes of `v` from offset `o`, most significant byte first (R72). -/
def Memory.writeSpan (m : Memory) (o : Nat) (v : Word) : Nat → Memory
  | 0 => m
  | n + 1 => (Memory.writeSpan m o (v >>> 8) n).write (o + n) (v.setWidth 8)

end Sys2Proof.Machine
end

