-- ==== Sys2Proof/Machine/RegMap.lean ====
section
/-! DEFINITION. The parameter `REGMAP` (R7, R26): the offset, width, write mask and field layout of every named register, as
a table; which tables are well formed (R95); its default binding (R27; log 1, PRESUMED); and register and field access to
a register file under a map (R9, R96). -/

namespace Sys2Proof.Machine

/-- The place of a field in its register: `len` bits from bit `lo` up (R96). -/
structure FieldRow where
  field : Field
  lo : Nat
  len : Nat
deriving DecidableEq, Repr

/-- A row of `REGMAP` (R27): a register, its offset, its width in bytes, its `WMASK` (of no use where the write rule is a
handler without one), and its fields. -/
structure RegRow where
  reg : Reg
  offset : Nat
  bytes : Nat
  wmask : Word
  fields : List FieldRow
deriving DecidableEq, Repr

/-- The rows of a `REGMAP`, in any order, well formed or not. -/
structure RegTable where
  rows : List RegRow
deriving DecidableEq, Repr

/-- The row of a register, if the table has one. -/
def RegTable.row? (k : RegTable) (r : Reg) : Option RegRow := k.rows.find? fun e => e.reg == r

/-- The row of a register; an empty one where the table has none. -/
def RegTable.row (k : RegTable) (r : Reg) : RegRow := (k.row? r).getD ⟨r, 0, 0, 0, []⟩

/-- `OFF(R)` (R95). -/
def RegTable.offset (k : RegTable) (r : Reg) : Nat := (k.row r).offset

/-- `width(R) / 8`: the bytes a register occupies (R22). -/
def RegTable.bytes (k : RegTable) (r : Reg) : Nat := (k.row r).bytes

/-- `WMASK(R)` (R79). -/
def RegTable.wmask (k : RegTable) (r : Reg) : Word := (k.row r).wmask

/-- The bits a register has: ones at its `width` low bits. -/
def RegTable.fullMask (k : RegTable) (r : Reg) : Word := fieldMask 0 (8 * k.bytes r)

/-- The row of a field, if the table gives it a place. -/
def RegTable.fieldRow? (k : RegTable) (f : Field) : Option FieldRow := (k.row f.reg).fields.find? fun e => e.field == f

/-- The table gives the field a place. -/
def RegTable.lists (k : RegTable) (f : Field) : Bool := (k.fieldRow? f).isSome

/-- The lowest bit of a field to which the table gives no place: a constant without a body for the flags that R273 and R274
read at a position OPEN in R27 (log 10). -/
def Field.openLo : Field → Nat
  | .csSop b => Config.sopPos b
  | .csRdop b => Config.rdopPos b
  | .ram8m => Config.ram8mPos
  | .pgate => Config.pgatePos
  | _ => 0

/-- The width of such a field: one bit for those flags, and none for a field that is absent. -/
def Field.openLen : Field → Nat
  | .csSop _ | .csRdop _ | .ram8m | .pgate => 1
  | _ => 0

/-- The lowest bit of a field in its register (R96). -/
def RegTable.lo (k : RegTable) (f : Field) : Nat :=
  match k.fieldRow? f with
  | some e => e.lo
  | none => f.openLo

/-- The width of a field in bits (R96). -/
def RegTable.len (k : RegTable) (f : Field) : Nat :=
  match k.fieldRow? f with
  | some e => e.len
  | none => f.openLen

/-- The word with ones at the field's bits. -/
def RegTable.mask (k : RegTable) (f : Field) : Word := fieldMask (k.lo f) (k.len f)

/-- The bytes of a register: at least one, no more than its class (R26), inside the window (R95), and all 32 bits for a word
of one bit per source (R7, `MASK_BITS`). RTCIENR is as wide as RTCISR, whose layout it has (R27). -/
def RegTable.sizeOk (k : RegTable) (r : Reg) : Bool :=
  decide (1 ≤ k.bytes r) && decide (k.bytes r ≤ r.classBytes) && decide (k.offset r + k.bytes r ≤ Config.windowSize) &&
    (!r.isMaskWord || k.bytes r == 4) && k.bytes .rtcienr == k.bytes .rtcisr

/-- `WMASK` has no bit outside the register (R79), and is 0 for a register that software does not write (R144, R195). -/
def RegTable.maskOk (k : RegTable) (r : Reg) : Bool :=
  k.wmask r &&& k.fullMask r == k.wmask r && (!Reg.readOnly.contains r || k.wmask r == 0)

/-- Two registers share no byte (R95). -/
def RegTable.apart (k : RegTable) (r q : Reg) : Bool :=
  r == q || decide (k.offset r + k.bytes r ≤ k.offset q) || decide (k.offset q + k.bytes q ≤ k.offset r)

/-- A field has a place inside its register, of a width that the rules allow; a field that may lack one may. -/
def RegTable.placeOk (k : RegTable) (f : Field) : Bool :=
  if k.lists f then decide (k.lo f + k.len f ≤ 8 * k.bytes f.reg) && f.widthOk (k.len f) else f.mayLack

/-- Two fields of a register share no bit. -/
def RegTable.fieldsApart (k : RegTable) (f g : Field) : Bool :=
  f == g || !(f.reg == g.reg) || !k.lists f || !k.lists g ||
    decide (k.lo f + k.len f ≤ k.lo g) || decide (k.lo g + k.len g ≤ k.lo f)

/-- A well-formed `REGMAP`. R95 asks that no two registers share a byte and that every register lies in the window; the rest
is what the other rules say of widths and masks, and that fields are fields of their register (log 1, DEDUCED). -/
def RegTable.wf (k : RegTable) : Bool :=
  Reg.all.all (fun r => k.sizeOk r && k.maskOk r && Reg.all.all fun q => k.apart r q) &&
    Field.all.all fun f => k.placeOk f && Field.all.all fun g => k.fieldsApart f g

/-- `REGMAP` (R7): a table that is well formed. No other is a map: "a model refuses an ill-formed `REGMAP`" (R95). -/
structure RegMap extends RegTable where
  wf : toRegTable.wf = true
deriving DecidableEq, Repr

/-- The map of a table; refused where the table is ill formed (R95; 93, I3). -/
def RegMap.ofTable? (k : RegTable) : Option RegMap := if h : k.wf = true then some ⟨k, h⟩ else none

/-! The default binding (R27) -/

/-- The rows of the interrupt controller, the PLL and SCR (R27). PLLCR's mask is the table's 0x3FBB, so bits 13 to 11 are
stored, although the table lists no field there and R27 says that such bits are outside WMASK (log 1, DESIGN CHOICE). -/
def defaultControlRows : List RegRow :=
  [⟨.scr, 0x000, 1, 0,
      [⟨.beto, 7, 1⟩, ⟨.wpv, 6, 1⟩, ⟨.prv, 5, 1⟩, ⟨.beten, 4, 1⟩, ⟨.so, 3, 1⟩, ⟨.dmap, 2, 1⟩, ⟨.wdth8, 0, 1⟩]⟩,
   ⟨.ivr, 0x300, 1, 0xF8, [⟨.vector, 3, 5⟩]⟩,
   ⟨.icr, 0x302, 2, 0xFF80,
      [⟨.pol1, 15, 1⟩, ⟨.pol2, 14, 1⟩, ⟨.pol3, 13, 1⟩, ⟨.pol6, 12, 1⟩, ⟨.et1, 11, 1⟩, ⟨.et2, 10, 1⟩, ⟨.et3, 9, 1⟩,
       ⟨.et6, 8, 1⟩, ⟨.pol5, 7, 1⟩]⟩,
   ⟨.imr, 0x304, 4, 0x00FF3FFF, []⟩,
   ⟨.isr, 0x30C, 4, 0, []⟩,
   ⟨.ipr, 0x310, 4, 0, []⟩,
   ⟨.ilcr, 0x314, 2, 0x7777, [⟨.spi1lvl, 12, 3⟩, ⟨.uart2lvl, 8, 3⟩, ⟨.pwm2lvl, 4, 3⟩, ⟨.tmr2lvl, 0, 3⟩]⟩,
   ⟨.pllcr, 0x200, 2, 0x3FBB,
      [⟨.sysclksel, 8, 3⟩, ⟨.presc1, 7, 1⟩, ⟨.presc2, 5, 1⟩, ⟨.clken, 4, 1⟩, ⟨.displl, 3, 1⟩, ⟨.wksel, 0, 2⟩]⟩,
   ⟨.pllfsr, 0x202, 2, 0x4FFF, [⟨.clk32, 15, 1⟩, ⟨.prot, 14, 1⟩, ⟨.qcnt, 8, 4⟩, ⟨.pcnt, 0, 8⟩]⟩]

/-- The rows of a timer, from its first offset on (R27). -/
def defaultTimerRows (n : TimerId) (o : Nat) : List RegRow :=
  [⟨.tctl n, o, 2, 0x01FF,
      [⟨.ten n, 0, 1⟩, ⟨.clksource n, 1, 3⟩, ⟨.irqen n, 4, 1⟩, ⟨.om n, 5, 1⟩, ⟨.cap n, 6, 2⟩, ⟨.frr n, 8, 1⟩]⟩,
   ⟨.tprer n, o + 2, 2, 0x00FF, [⟨.prescaler n, 0, 8⟩]⟩,
   ⟨.tcmp n, o + 4, 2, 0xFFFF, [⟨.compare n, 0, 16⟩]⟩,
   ⟨.tcn n, o + 8, 2, 0, [⟨.count n, 0, 16⟩]⟩,
   ⟨.tstat n, o + 10, 2, 0, [⟨.comp n, 0, 1⟩, ⟨.capt n, 1, 1⟩]⟩]

/-- The rows of the RTC and the watchdog (R27). RTCIENR has the layout of RTCISR. -/
def defaultRtcRows : List RegRow :=
  [⟨.rtctime, 0xB00, 4, 0x1F3F003F, [⟨.hours, 24, 5⟩, ⟨.minutes, 16, 6⟩, ⟨.seconds, 0, 6⟩]⟩,
   ⟨.watchdog, 0xB0A, 2, 0, [⟨.wdtEn, 0, 1⟩, ⟨.wdtIsel, 1, 1⟩, ⟨.wdtIntf, 7, 1⟩, ⟨.wdtCntr, 8, 2⟩]⟩,
   ⟨.rtcctl, 0xB0C, 2, 0x00A0, [⟨.rtcEn, 7, 1⟩, ⟨.ref384, 5, 1⟩]⟩,
   ⟨.rtcisr, 0xB0E, 2, 0,
      [⟨.sw, 0, 1⟩, ⟨.min, 1, 1⟩, ⟨.alm, 2, 1⟩, ⟨.day, 3, 1⟩, ⟨.sec, 4, 1⟩, ⟨.hr, 5, 1⟩, ⟨.sam 0, 8, 1⟩, ⟨.sam 1, 9, 1⟩,
       ⟨.sam 2, 10, 1⟩, ⟨.sam 3, 11, 1⟩, ⟨.sam 4, 12, 1⟩, ⟨.sam 5, 13, 1⟩, ⟨.sam 6, 14, 1⟩, ⟨.sam 7, 15, 1⟩]⟩,
   ⟨.rtcienr, 0xB10, 2, 0xFF3F, []⟩,
   ⟨.dayr, 0xB1A, 2, 0x01FF, [⟨.days, 0, 9⟩]⟩]

/-- The rows of a bank: its control register and its base register (R27). -/
def defaultBankRows (b : Bank) (o g : Nat) : List RegRow :=
  [⟨.cs b, o, 2, 0xFFFF, [⟨.csEn b, 0, 1⟩, ⟨.csSiz b, 1, 3⟩, ⟨.csRo b, 15, 1⟩]⟩,
   ⟨.csgb b, g, 2, 0xFFFE, [⟨.gba b, 1, 15⟩]⟩]

/-- The rows that the banks share (R27). -/
def defaultSharedRows : List RegRow :=
  [⟨.csugba, 0x108, 2, 0xF777,
      [⟨.ugen, 15, 1⟩, ⟨.ugba .rom, 12, 3⟩, ⟨.ugba .sed, 8, 3⟩, ⟨.ugba .usb, 4, 3⟩, ⟨.ugba .ram, 0, 3⟩]⟩,
   ⟨.csctrl1, 0x10A, 2, 0xFFFF, []⟩,
   ⟨.csctrl2, 0x10C, 2, 0xFFFF, []⟩]

/-- The rows of the ports (R27). -/
def defaultPortRows : List RegRow :=
  [⟨.pbdir, 0x408, 1, 0xFF, []⟩, ⟨.pbdata, 0x409, 1, 0xFF, []⟩, ⟨.pbpuen, 0x40A, 1, 0xFF, []⟩,
   ⟨.pbsel, 0x40B, 1, 0xFF, []⟩, ⟨.pddir, 0x418, 1, 0xFF, []⟩, ⟨.pddata, 0x419, 1, 0xFF, []⟩,
   ⟨.pdpuen, 0x41A, 1, 0xFF, []⟩, ⟨.pdsel, 0x41B, 1, 0xFF, []⟩, ⟨.pdpol, 0x41C, 1, 0xFF, []⟩,
   ⟨.pdirqen, 0x41D, 1, 0xFF, []⟩, ⟨.pdkben, 0x41E, 1, 0xFF, []⟩, ⟨.pdirqeg, 0x41F, 1, 0xFF, []⟩,
   ⟨.pgdir, 0x430, 1, 0xFF, []⟩, ⟨.pgdata, 0x431, 1, 0xFF, []⟩, ⟨.pgpuen, 0x432, 1, 0xFF, []⟩,
   ⟨.pgsel, 0x433, 1, 0xFF, []⟩, ⟨.pkdir, 0x440, 1, 0xFF, []⟩, ⟨.pkdata, 0x441, 1, 0xFF, []⟩,
   ⟨.pkpuen, 0x442, 1, 0xFF, []⟩, ⟨.pksel, 0x443, 1, 0xFF, []⟩]

/-- The table of R27. -/
def defaultRegTable : RegTable :=
  ⟨defaultControlRows ++ defaultTimerRows .t1 0x600 ++ defaultTimerRows .t2 0x610 ++ defaultRtcRows ++
    defaultBankRows .rom 0x110 0x100 ++ defaultBankRows .sed 0x112 0x102 ++ defaultBankRows .usb 0x114 0x104 ++
    defaultBankRows .ram 0x116 0x106 ++ defaultSharedRows ++ defaultPortRows⟩

/-- The default binding of `REGMAP`, which is well formed (R27, R95). -/
def RegMap.default : RegMap := ⟨defaultRegTable, by decide +kernel⟩

/-! Access under a map -/

/-- The register that owns offset `o`, if any (R95). -/
def RegMap.regAt (k : RegMap) (o : Nat) : Option Reg :=
  Reg.all.find? fun r => decide (k.offset r ≤ o) && decide (o < k.offset r + k.bytes r)

/-- `reg[R]` of a register file, zero-extended to 32 bits (R9). -/
def Memory.reg (m : Memory) (k : RegMap) (r : Reg) : Word := m.readSpan (k.offset r) (k.bytes r)

/-- `reg[R] <- v` on a register file (R9). -/
def Memory.setReg (m : Memory) (k : RegMap) (r : Reg) (v : Word) : Memory := m.writeSpan (k.offset r) v (k.bytes r)

/-- The value of a field (R96). -/
def Memory.field (m : Memory) (k : RegMap) (f : Field) : Nat := getBits (m.reg k f.reg) (k.lo f) (k.len f)

/-- A one-bit field as a Bool. -/
def Memory.flag (m : Memory) (k : RegMap) (f : Field) : Bool := m.field k f == 1

end Sys2Proof.Machine
end

