-- ==== Sys2Proof/Machine/Sources.lean ====
section
/-! DEFINITION. The parameter `SOURCES` (R7, R28): the table of interrupt sources, with the name, bit, level, wake kind and
owner of each; which tables are well formed; and its default binding (log 2, PRESUMED). -/

namespace Sys2Proof.Machine

/-- A source's level: fixed, or one of the 3-bit programmable fields of ILCR (R28, R136). -/
inductive LevelKind where
  | fixed (n : Fin 8)
  | prog (k : Fin 5)
deriving DecidableEq, Repr

/-- A source's wake kind (R28, R137). -/
inductive WakeKind where
  | always | edgeOnly | never
deriving DecidableEq, Repr

/-- Which rule raises and clears a source (R28): EXT_IRQ (R135), a timer (R200, R197), the watchdog (R234, R231), the RTC's
seconds (R224, R230), the ladder (R226, R230), the keyboard rows (R307), or port-D pin `i` (R306). -/
inductive Owner where
  | external | timer (n : TimerId) | watchdog | rtcSecond | ladder | keyboard | pin (i : Fin 8)
deriving DecidableEq, Repr

/-- A row of `SOURCES` (R28): the source's name, its bit in IPR, IMR and ISR, its level, its wake kind and its owner. -/
structure SourceRow where
  name : Source
  bit : Fin 32
  level : LevelKind
  wake : WakeKind
  owner : Owner
deriving DecidableEq, Repr

/-- The owners that are rules of the block itself. Each raises and clears one source: TMR1, TMR2, WDT, RTC, RTI, KB, and
`pinSource(i)` of the eight pins, under the names of the default binding. -/
def Owner.rules : List Owner :=
  [.timer .t1, .timer .t2, .watchdog, .rtcSecond, .ladder, .keyboard] ++ (List.finRange 8).map Owner.pin

/-- A well-formed table: no more than `NUM_SOURCES` rows, no two of one name, of one bit or of one owner that is a rule, and a
row for every owner that is a rule, since the rules name its source (log 2, DEDUCED). -/
def sourcesWf (rows : List SourceRow) : Bool :=
  decide (rows.length ≤ Config.numSources) &&
    decide (rows.Pairwise fun x y => x.name ≠ y.name ∧ x.bit ≠ y.bit ∧ (x.owner = y.owner → x.owner = .external)) &&
    Owner.rules.all fun o => rows.any fun x => x.owner == o

/-- `SOURCES` (R7): a table that is well formed. Names without a row are absent: their bits are never pending (R28). -/
structure Sources where
  rows : List SourceRow
  wf : sourcesWf rows = true
deriving DecidableEq, Repr

/-- The row of a name, if the table has one. -/
def Sources.named? (t : Sources) (x : Source) : Option SourceRow := t.rows.find? fun e => e.name == x

/-- The source that a rule raises and clears: the row whose owner it is. -/
def Sources.source (t : Sources) (o : Owner) : SourceRow :=
  (t.rows.find? fun e => e.owner == o).getD ⟨.spi2, 0, .fixed 0, .never, o⟩

/-- The owner of `pinSource(i)` (R306). -/
def Owner.ofPin (i : Nat) : Owner := .pin (Fin.ofNat 8 i)

/-- The source is driven by EXT_IRQ (R135). -/
def SourceRow.isExternal (x : SourceRow) : Bool := x.owner == .external

/-- The word with a one at the source's bit. -/
def SourceRow.mask (x : SourceRow) : Word := (1 : Word) <<< x.bit.val

/-- The ones of every source's bit. -/
def Sources.allMask (t : Sources) : Word := t.rows.foldl (fun m x => m ||| x.mask) 0

/-- The ILCR fields that the table's programmable levels name (R28). -/
def Sources.levelFields (t : Sources) : List Field :=
  t.rows.filterMap fun x =>
    match x.level with
    | .fixed _ => none
    | .prog k => some (.lvl k)

/-- The 22 rows of R28. -/
def defaultSourceRows : List SourceRow :=
  [⟨.spi2, 0, .fixed 4, .always, .external⟩,
   ⟨.tmr1, 1, .fixed 6, .always, .timer .t1⟩,
   ⟨.uart1, 2, .fixed 4, .always, .external⟩,
   ⟨.wdt, 3, .fixed 4, .always, .watchdog⟩,
   ⟨.rtc, 4, .fixed 4, .always, .rtcSecond⟩,
   ⟨.tmr2, 5, .prog 3, .always, .timer .t2⟩,
   ⟨.kb, 6, .fixed 4, .always, .keyboard⟩,
   ⟨.pwm1, 7, .fixed 6, .always, .external⟩,
   ⟨.int0, 8, .fixed 4, .edgeOnly, .pin 0⟩,
   ⟨.int1, 9, .fixed 4, .edgeOnly, .pin 1⟩,
   ⟨.int2, 10, .fixed 4, .edgeOnly, .pin 2⟩,
   ⟨.int3, 11, .fixed 4, .edgeOnly, .pin 3⟩,
   ⟨.uart2, 12, .prog 1, .always, .external⟩,
   ⟨.pwm2, 13, .prog 2, .always, .external⟩,
   ⟨.irq1, 16, .fixed 1, .always, .pin 4⟩,
   ⟨.irq2, 17, .fixed 2, .always, .pin 5⟩,
   ⟨.irq3, 18, .fixed 3, .always, .pin 6⟩,
   ⟨.irq6, 19, .fixed 6, .always, .pin 7⟩,
   ⟨.irq5, 20, .fixed 5, .always, .external⟩,
   ⟨.spi1, 21, .prog 0, .always, .external⟩,
   ⟨.rti, 22, .fixed 4, .always, .ladder⟩,
   ⟨.emiq, 23, .fixed 7, .always, .external⟩]

/-- The default binding of `SOURCES` (R28): five of the 27 names have no row. -/
def Sources.default : Sources := ⟨defaultSourceRows, by decide +kernel⟩

end Sys2Proof.Machine
end

