-- ==== Sys2Proof/Machine/Bindings.lean ====
section
/-! DEFINITION. The parameters that the spec leaves OPEN with a suggested default (R7): the machine takes them as an
argument, the field `params` of its state, which no operation writes. Their default bindings, which no source states
(93, G1 to G25), stand beside them; `State.reset` has those. The two catalogues REGMAP and SOURCES are among them, their types and
defaults in Machine/RegMap.lean and Machine/Sources.lean; the parameters without a default are in Config.lean. -/

namespace Sys2Proof.Machine

/-- A block of addresses: those that agree with `pattern` on the ones of `mask`. -/
structure AddressBlock where
  mask : Word
  pattern : Word
deriving DecidableEq, Repr

/-- The address lies in the block. -/
def AddressBlock.holds (b : AddressBlock) (addr : Word) : Bool := addr &&& b.mask == b.pattern

/-- `PRESC1_DIV`: the divisors of the PRESC1 codes, from code 0 on (R162). A divisor is positive. -/
structure Presc1Divisors where
  divisors : List PNat
deriving DecidableEq, Repr

/-- The divisor of a PRESC1 code. Every code of a map's PRESC1 has one (`Params.presc1Covered`). -/
def Presc1Divisors.ofField (d : Presc1Divisors) (v : Nat) : Nat := (d.divisors.getD v 1).val

/-- `SYSCLK_DIV`: the divisors of the system-clock codes 0 to 3 (R163). -/
structure SysclkDivisors where
  code0 : PNat
  code1 : PNat
  code2 : PNat
  code3 : PNat
deriving DecidableEq, Repr

/-- The divisor of a SYSCLKSEL code: the table's for 0 to 3, and 1 for 4 to 7 (R163), as for the codes above 7 that a field
of more than three bits has: "only the first four divider codes having effect" (R163; log 5, DEDUCED). -/
def SysclkDivisors.ofCode (d : SysclkDivisors) : Nat → Nat
  | 0 => d.code0.val
  | 1 => d.code1.val
  | 2 => d.code2.val
  | 3 => d.code3.val
  | _ => 1

/-- The source kinds of the timers' clock selector (R192). -/
inductive TimerClock where
  | stop | sysclk | sysclk16 | tin | clk32
deriving DecidableEq, Repr

/-- `TIMER_SRC`: the source kinds of the CLKSOURCE codes, from code 0 on (R192). -/
structure TimerSources where
  kinds : List TimerClock
deriving DecidableEq, Repr

/-- The source kind of a CLKSOURCE code. Every code of a map's CLKSOURCE has one (`Params.timerSrcCovered`). -/
def TimerSources.ofCode (t : TimerSources) (c : Nat) : TimerClock := t.kinds.getD c .stop

/-- `WDT_STEP`, `WDT_MASK` and `WDT_EXPIRY` (R233). -/
structure WatchdogConstants where
  step : Half
  mask : Half
  expiry : Half
deriving DecidableEq, Repr

/-- `CS_BASE`: the default function of R272, or another function of the bank, its base register and CSUGBA: one of a
family without a body, so that a claim holds for every such function (log 8). -/
inductive CsBase where
  | default
  | other (id : Nat)
deriving DecidableEq, Repr

/-- `PORT_PINS`, the input bits: the port-D bits of the battery, the SD card and the keyboard rows, and the port-K bit of
the dock. The five port-D bits are distinct (R301). -/
structure InputPins where
  bat : Fin 8
  sd : Fin 8
  keyRow0 : Fin 8
  keyRow1 : Fin 8
  keyRow2 : Fin 8
  dock : Fin 8
  distinct : [bat, sd, keyRow0, keyRow1, keyRow2].Nodup := by decide
deriving DecidableEq, Repr

/-- The bytes of an image as a register file in canonical form; of two cells at one offset the later counts. -/
def imageMemory (image : List Host.Cell) : Memory :=
  image.foldl (fun m c => m.write (c.1 % Config.windowSize) c.2) []

/-- The OPEN parameters with a suggested default (R7). -/
structure Params where
  /-- `REGMAP`: the registers' offsets, widths, write masks and fields (R26, R27, R95). -/
  regMap : RegMap
  /-- `SOURCES`: the interrupt sources (R28). -/
  sources : Sources
  /-- A programmable level names a field of ILCR that the map has (R28). -/
  levelsListed : (sources.levelFields.all fun f => regMap.lists f) = true
  /-- `PERIPH_NIBBLE`: top nibble of a valid register address (R70). -/
  periphNibble : BitVec 4
  /-- `PSEUDO_BLOCK`: the emulator pseudo-register block, the union of these blocks (R75). Every set of 32-bit addresses is
  such a union. -/
  pseudoBlock : List AddressBlock
  /-- `PRESC1_DIV` (R162). -/
  presc1Div : Presc1Divisors
  /-- Every code of the map's PRESC1 has a divisor. -/
  presc1Covered : 2 ^ regMap.len .presc1 ≤ presc1Div.divisors.length
  sysclkDiv : SysclkDivisors
  /-- `TIMER_SRC` (R192). -/
  timerSrc : TimerSources
  /-- Every code of the map's CLKSOURCE fields has a source kind. -/
  timerSrcCovered : ∀ n ∈ TimerId.all, 2 ^ regMap.len (.clksource n) ≤ timerSrc.kinds.length
  wdt : WatchdogConstants
  csBase : CsBase
  pins : InputPins
  /-- `RESET_IMAGE`: the bytes of the register file's reset contents that are not 0 (R33, R440). -/
  resetImage : List Host.Cell
  /-- The image sets no IPR bit that belongs to no source, since those bits "are always 0" (R130; log 3, DEDUCED). -/
  imageOwned : (imageMemory resetImage).reg regMap .ipr &&& ~~~sources.allMask = 0
deriving DecidableEq, Repr

/-- The default bindings (R7; logs 1 to 8 and 16, PRESUMED): the tables of R27 and R28; nibble 0xF; `addr[15:12] == 0xE`;
divisors 1, 2 and 2, 4, 8, 16; the CLKSOURCE codes of R27; the watchdog constants of R233; R272's base; the test wiring of
R301; all zero. -/
def Params.default : Params :=
  { regMap := .default
    sources := .default
    levelsListed := by decide +kernel
    periphNibble := 0xF
    pseudoBlock := [⟨0xF000, 0xE000⟩]
    presc1Div := ⟨[1, 2]⟩
    presc1Covered := by decide +kernel
    sysclkDiv := ⟨2, 4, 8, 16⟩
    timerSrc := ⟨[.stop, .sysclk, .sysclk16, .tin, .clk32, .clk32, .clk32, .clk32]⟩
    timerSrcCovered := by decide +kernel
    wdt := { step := 0x0100, mask := 0x0383, expiry := 0x0200 }
    csBase := .default
    pins := { bat := 7, sd := 5, keyRow0 := 0, keyRow1 := 1, keyRow2 := 2, dock := 2 }
    resetImage := []
    imageOwned := by decide +kernel }

/-- `DAY_BITS`: the width of the day counter, which is the width that `REGMAP` gives DAYR.DAYS, by default 9 (R7, R27, R220;
log 7). -/
def Params.dayBits (p : Params) : Nat := p.regMap.len .days

/-- `PSEUDO_BLOCK(addr)` (R75). -/
def Params.inPseudoBlock (p : Params) (addr : Word) : Bool := p.pseudoBlock.any fun b => b.holds addr

/-- `RESET_IMAGE` as a register file (R440). -/
def Params.resetMemory (p : Params) : Memory := imageMemory p.resetImage

/-- `WAKE_TICKS`: 32, 48, 64, 96 by wake-select code (R167). -/
def wakeTicks : Nat → Int
  | 0 => 32
  | 1 => 48
  | 2 => 64
  | _ => 96

end Sys2Proof.Machine
end

