-- ==== Sys2Proof/Machine/Descriptors.lean ====
section
/-! DEFINITION. What is derived from the registers alone: the chip-select bank descriptors (R270 to R276), the
collaborator's address decode (R278), and the status flags (R304). -/

namespace Sys2Proof.Machine

/-- A bank's descriptor (R270). Its address range is computed, never stored (`BankDescriptor.covers`). -/
structure BankDescriptor where
  enabled : Bool
  readOnly : Bool
  base : Word
  size : Nat
  supervisorOnly : Bool
  readOnlyProtected : Bool
  unprotectedSize : Nat
deriving DecidableEq, Repr

/-- The four descriptors `chips[b]`; the ROM bank's also carries `bootMode` (R270). -/
structure Chips where
  rom : BankDescriptor
  romBootMode : Bool
  sed : BankDescriptor
  usb : BankDescriptor
  ram : BankDescriptor
deriving DecidableEq, Repr

/-- The four externally visible status flags (R304). -/
structure StatusFlags where
  alarmLed : Bool
  lcdEnabled : Bool
  backlightEnabled : Bool
  vibratorEnabled : Bool
deriving DecidableEq, Repr

/-- `CS_BASE(b)` (R272): the default formula while the parameter is the default one (log 8), and otherwise the function it
names. -/
def csBase (p : Params) (m : Memory) (b : Bank) : Word :=
  match p.csBase with
  | .default =>
    (((m.reg p.regMap (.csgb b)) >>> 1) <<< 14) |||
      (if m.flag p.regMap .ugen then BitVec.ofNat 32 (m.field p.regMap (.ugba b)) <<< 29 else 0)
  | .other id =>
    Config.csBaseOther id b ((m.reg p.regMap (.csgb b)).setWidth 16) ((m.reg p.regMap .csugba).setWidth 16)

/-- RAM's alternate unit is on: RAM8M is set, and the bit of CSD is too where `REGMAP` has one (R273; log 10). -/
def ramAlternate (k : RegMap) (m : Memory) : Bool := m.flag k .ram8m && (!k.lists .ramAlt || m.flag k .ramAlt)

/-- `unit(b)`: 128 KiB for ROM and SED, 32 KiB for USB and RAM, 8 MiB for RAM in its alternate mode (R273). -/
def csUnit (k : RegMap) (m : Memory) : Bank → Nat
  | .rom | .sed => 0x20000
  | .usb => 0x8000
  | .ram => if ramAlternate k m then 0x800000 else 0x8000

/-- `size(b) = unit(b) << CSx.SIZ` (R273). -/
def csSize (k : RegMap) (m : Memory) (b : Bank) : Nat := csUnit k m b <<< m.field k (.csSiz b)

/-- The three protection-capable banks (R274). -/
def protectable : Bank → Bool
  | .rom => false
  | .sed | .usb | .ram => true

/-- `unprotectedSize(b)`: the bank's size for ROM, the parameter for the others (R275; log 9). -/
def csUnprotected (k : RegMap) (m : Memory) (b : Bank) : Nat :=
  if protectable b then Config.csUnprotSize b ((m.reg k (.cs b)).setWidth 16) ((m.reg k .csctrl2).setWidth 16)
  else csSize k m b

/-- The descriptor of a bank (R272 to R275). -/
def describeBank (p : Params) (m : Memory) (b : Bank) : BankDescriptor :=
  { enabled := m.flag p.regMap (.csEn b)
    readOnly := m.flag p.regMap (.csRo b)
    base := csBase p m b
    size := csSize p.regMap m b
    supervisorOnly := protectable b && m.flag p.regMap (.csSop b) && m.flag p.regMap .pgate
    readOnlyProtected := protectable b && m.flag p.regMap (.csRdop b) && m.flag p.regMap .pgate
    unprotectedSize := csUnprotected p.regMap m b }

/-- The four descriptors, a pure function of the chip-select registers and `bootMode`, under the parameters (R270, R271). -/
def describeChips (p : Params) (m : Memory) (bootMode : Bool) : Chips :=
  { rom := describeBank p m .rom
    romBootMode := bootMode
    sed := describeBank p m .sed
    usb := describeBank p m .usb
    ram := describeBank p m .ram }

/-- `chips[b]` (R270). -/
def Chips.bank (c : Chips) : Bank → BankDescriptor
  | .rom => c.rom
  | .sed => c.sed
  | .usb => c.usb
  | .ram => c.ram

/-- `a` lies in `[base, base + size)` (R270). -/
def BankDescriptor.covers (d : BankDescriptor) (a : Word) : Bool :=
  decide (d.base.toNat ≤ a.toNat) && decide (a.toNat < d.base.toNat + d.size)

/-- The bank claims the address: it is enabled and its range holds it, or it is the ROM in boot mode, which maps
the full address range (R276, R278). -/
def Chips.claims (c : Chips) (b : Bank) (a : Word) : Bool :=
  (b == .rom && c.romBootMode) || ((c.bank b).enabled && (c.bank b).covers a)

/-- The address-space component's decode: the first bank in the order ROM, SED, USB, RAM that claims the address
(R278). The block states it for its collaborator and does not use it. -/
def Chips.decodeAddr (c : Chips) (a : Word) : Option Bank := Bank.all.find? fun b => c.claims b a

/-- The port B, G and K registers that the status-flag functions read (R304). -/
def portLatches (k : RegMap) (m : Memory) : PortLatches :=
  { pbdir := (m.reg k .pbdir).setWidth 8
    pbsel := (m.reg k .pbsel).setWidth 8
    pbdata := (m.reg k .pbdata).setWidth 8
    pgdir := (m.reg k .pgdir).setWidth 8
    pgsel := (m.reg k .pgsel).setWidth 8
    pgdata := (m.reg k .pgdata).setWidth 8
    pkdir := (m.reg k .pkdir).setWidth 8
    pksel := (m.reg k .pksel).setWidth 8
    pkdata := (m.reg k .pkdata).setWidth 8 }

/-- The status flags of the current port registers (R304; log 11). -/
def describeStatus (k : RegMap) (m : Memory) : StatusFlags :=
  { alarmLed := Config.alarmLed (portLatches k m)
    lcdEnabled := Config.lcdEnabled (portLatches k m)
    backlightEnabled := Config.backlightEnabled (portLatches k m)
    vibratorEnabled := Config.vibratorEnabled (portLatches k m) }

end Sys2Proof.Machine
end

