-- ==== Sys2Proof/Machine/Float64.lean ====
section
/-! DEFINITION. The binary64 operations of the rate and accumulator arithmetic (R11): each is the exact result rounded
to nearest, ties to even. Numbers are counts of 2^-1074 (`F64`; log 17). -/

namespace Sys2Proof

/-- Units in the number one: 2^1074. -/
def F64.one : Nat := 2 ^ 1074

/-- The count of units nearest to `num / den` among the counts that are binary64 numbers, those with at most 53
significant bits; on a tie the one with the even significand (R11). -/
def F64.roundQuot (num den : Nat) : Nat :=
  let drop := (num / den).log2 - 52
  let step := den * 2 ^ drop
  let sig := num / step
  let rest := num % step
  let sig := if step < 2 * rest ∨ (2 * rest = step ∧ sig % 2 = 1) then sig + 1 else sig
  sig * 2 ^ drop

/-- `+0.0` (R33). -/
def F64.zero : F64 := ⟨0⟩

/-- Conversion of an integer to binary64 (R11). -/
def F64.ofNat (n : Nat) : F64 := ⟨F64.roundQuot (n * F64.one) 1⟩

/-- Addition (R11). -/
def F64.add (a b : F64) : F64 := ⟨F64.roundQuot (a.units + b.units) 1⟩

/-- Subtraction (R11); no rule subtracts a greater number from a lesser (R199). -/
def F64.sub (a b : F64) : F64 := ⟨F64.roundQuot (a.units - b.units) 1⟩

/-- Division (R11); no rule divides by zero. -/
def F64.div (a b : F64) : F64 := ⟨F64.roundQuot (a.units * F64.one) b.units⟩

/-- Floor, as an integer (R11, R199). -/
def F64.floor (a : F64) : Nat := a.units / F64.one

/-- The count is a binary64 number: rounding leaves it. -/
def F64.isBinary64 (a : F64) : Bool := F64.roundQuot a.units 1 == a.units

/-- The IEEE 754 bit pattern of a finite number: sign 0, biased exponent, fraction. -/
def F64.bits (a : F64) : BitVec 64 :=
  if a.units < 2 ^ 52 then BitVec.ofNat 64 a.units
  else
    let e := a.units.log2 - 52
    BitVec.ofNat 64 ((e + 1) * 2 ^ 52 + (a.units / 2 ^ e - 2 ^ 52))

end Sys2Proof
end

