-- ==== Sys2Proof/Machine/State.lean ====
section
/-! DEFINITION. The state of the block (R22, R24), its output events (R10), the ways an operation can be refused (R94),
and the state after RESET_ALL (R33). -/

namespace Sys2Proof.Machine

/-- An output event: a call into a collaborator (R10). -/
inductive Event where
  /-- The CPU interrupt-priority-level input. -/
  | setIpl (level : BitVec 3)
  /-- "Force CPU to exit after N more cycles". -/
  | shortenBudget (cycles : Nat)
  /-- The notification to the address-space component, with the four bank descriptors. -/
  | mapChanged (descriptors : Chips)
  /-- The full-system-reset entry point. -/
  | systemReset
  /-- The bus-error report of a fault (R337). -/
  | busError (kind : FaultKind)
deriving DecidableEq, Repr

/-- The value an operation returns (R6, R90). -/
inductive Returned where
  | nothing
  | byte (v : Byte)
  | half (v : Half)
  | word (v : Word)
  | bool (b : Bool)
deriving DecidableEq, Repr

/-- The block: the register file, the internal state of R24 under the names of the spec, and after them the
model's own fields (logs 4, 13, 14). -/
structure State where
  /-- The register file (R22). -/
  rf : Memory
  /-- The ROM bank's boot-mode flag (R276). -/
  bootMode : Bool
  /-- The derived bank descriptors (R270). -/
  chips : Chips
  /-- PLL wake countdown, -1 when idle (R167, R168). -/
  wakeCountdown : Int
  /-- Timer 1's fractional carry accumulator (R199). -/
  timerAcc1 : F64
  /-- Timer 2's fractional carry accumulator (R199). -/
  timerAcc2 : F64
  /-- TSTAT1 bits that a read has exposed (R196). -/
  timerReadAck1 : Half
  /-- TSTAT2 bits that a read has exposed (R196). -/
  timerReadAck2 : Half
  /-- The RTC's fixed-frequency tick counter (R221). -/
  tickCounter : Nat
  /-- The low-power stop flag (R331). -/
  lowPowerStop : Bool
  /-- The level last delivered to the CPU (R134). -/
  cpuIpl : BitVec 3
  /-- Per port-D pin, whether it was active at the previous evaluation (R306). -/
  portDPrevActive : Byte
  /-- The externally owned board inputs (R29). -/
  inputs : Inputs
  /-- The four status flags (R304). -/
  statusFlags : StatusFlags
  /-- MODEL's own: the parameters of R7 that the model takes as an argument; no operation writes them (log 4). -/
  params : Params
  /-- MODEL's own: the operations invoked and not yet performed, oldest first (R6, R82; log 13). -/
  requests : List Request
  /-- MODEL's own: the value the last operation returned (R6; log 14). -/
  returned : Returned
  /-- MODEL's own: the events the last operation emitted, in order (R10; log 14). -/
  events : List Event
deriving DecidableEq, Repr

/-- Why the machine stops with a fault. There is no constructor: "No exceptions/error returns cross this core's
boundary" (R400), so no operation faults. -/
inductive Fault where
deriving DecidableEq, Repr

/-- Why no step is taken (R94, R402). A refusal is safe: the model stops, and says why. -/
inductive Refusal where
  /-- An instruction with no meaning yet; raised by exec's arm alone. Safe. -/
  | notModelled (mnemonic : String)
  /-- A reserved descriptor; raised by step (R94). Safe. -/
  | reservedDescriptor (d : Byte)
  /-- INPUT_CHANGE with an incomplete record; raised by step (R308). Safe. -/
  | incompleteInputs
  /-- WRITE8 or WRITE16 with a value of more than 8n bits; raised by step (R92; log 15). Safe. -/
  | valueTooWide
  /-- SET_RTC out of range; raised by step and by SET_RTC (R236). Safe. -/
  | rtcOutOfRange
  /-- EXT_IRQ of a name that is no external-request source of `SOURCES`; raised by EXT_IRQ (R135). Safe. -/
  | notExternalRequest (source : Source)
deriving DecidableEq, Repr

/-- The inputs before the first INPUT_CHANGE: all false (log 12, DESIGN CHOICE). -/
def noInputs : Inputs := ⟨false, false, false, false, false⟩

/-- The block right after RESET_ALL (R33, R440), nothing invoked yet (log 13), under the default parameters. -/
def State.reset : State :=
  { rf := []
    bootMode := true
    chips := describeChips Params.default [] true
    wakeCountdown := -1
    timerAcc1 := F64.zero
    timerAcc2 := F64.zero
    timerReadAck1 := 0
    timerReadAck2 := 0
    tickCounter := 0
    lowPowerStop := false
    cpuIpl := 0
    portDPrevActive := 0
    inputs := noInputs
    statusFlags := describeStatus .default []
    params := Params.default
    requests := []
    returned := .nothing
    events := [.mapChanged (describeChips Params.default [] true), .setIpl 0] }

end Sys2Proof.Machine
end

