-- ==== Sys2Proof/Machine/Flags.lean ====
section
/-! DEFINITION. The flag computations, as functions of values: threshold crossing, the sticky fault flags, the timer status
bits, the once-per-second events, the ladder bits and the watchdog's next value. -/

namespace Sys2Proof.Machine

/-- The field's value in a written word, `w[F]`. -/
def RegTable.ofWord (k : RegTable) (f : Field) (w : Word) : Nat := getBits w (k.lo f) (k.len f)

/-- The ones of several fields of a register. -/
def RegTable.masks (k : RegTable) (fs : List Field) : Word := fs.foldl (fun w f => w ||| k.mask f) 0

/-- The threshold-crossing test (R12). -/
def crossed (old new t : Nat) : Bool := decide (old < t) && decide (t ≤ new)

/-- The field of a fault kind in SCR (R332). -/
def Field.ofFault : FaultKind → Field
  | .wpv => .wpv
  | .beto => .beto
  | .prv => .prv

/-- The three sticky fault flags of SCR (R333). -/
def RegTable.faultFlags (k : RegTable) : Word := k.masks [.beto, .wpv, .prv]

/-- The bits of SCR that a write stores as a plain write does: BETEN, SO, DMAP, WDTH8, by default 0x1D (R336). -/
def RegTable.scrPlain (k : RegTable) : Word := k.masks [.beten, .so, .dmap, .wdth8]

/-- SCR after a write: a written 1 clears a fault flag and a 0 keeps it, and the plain bits are stored (R336). -/
def RegTable.scrAfterWrite (k : RegTable) (old v be : Word) : Word :=
  mergeBits (old &&& ~~~(v &&& be &&& k.faultFlags)) v k.scrPlain be

/-- `STATUS_BITS` of TSTATn: COMP and CAPT, by default 0x0003 (R197). -/
def RegTable.tstatStatusBits (k : RegTable) (n : TimerId) : Word := k.masks [.comp n, .capt n]

/-- `clr`: the TSTATn bits a write clears, seen set by an earlier read and now written 0 (R197). -/
def RegTable.tstatCleared (k : RegTable) (n : TimerId) (v be ack : Word) : Word := ~~~v &&& be &&& ack &&& k.tstatStatusBits n

/-- `RTC_BITS` (R228). -/
def RegTable.rtcBits (k : RegTable) : Word := k.masks [.sec, .min, .hr, .day]

/-- `LADDER_BITS` (R228). -/
def RegTable.ladderBits (k : RegTable) : Word := k.masks Field.ladder

/-- The bits of WATCHDOG that a write stores: EN and ISEL (R231). -/
def RegTable.watchdogPlain (k : RegTable) : Word := k.masks [.wdtEn, .wdtIsel]

/-- The time of day and the day count (R220). -/
structure TimeOfDay where
  days : Nat
  hours : Nat
  minutes : Nat
  seconds : Nat
deriving DecidableEq, Repr

/-- A time field of limit `limit` rolls over in this second, to 0 with a carry to the next field: at a carry into it that
takes it to its limit or above (R223), and at or above its limit with no carry into it too (R225, which D32 names for
out-of-range fields; log 22, DEDUCED). -/
def fieldRolls (limit value : Nat) (carryIn : Bool) : Bool := decide (limit ≤ value + carryIn.toNat)

/-- The field after that second. -/
def fieldNext (limit value : Nat) (carryIn : Bool) : Nat :=
  if fieldRolls limit value carryIn then 0 else value + carryIn.toNat

/-- The seconds roll over in this second. -/
def TimeOfDay.secondsRoll (t : TimeOfDay) : Bool := fieldRolls 60 t.seconds true

/-- The minutes roll over in this second. -/
def TimeOfDay.minutesRoll (t : TimeOfDay) : Bool := fieldRolls 60 t.minutes t.secondsRoll

/-- The hours roll over in this second. -/
def TimeOfDay.hoursRoll (t : TimeOfDay) : Bool := fieldRolls 24 t.hours t.minutesRoll

/-- One second later, where the day counter has `dayBits` bits (R223, R225). -/
def TimeOfDay.next (dayBits : Nat) (t : TimeOfDay) : TimeOfDay :=
  { days := if t.hoursRoll then (t.days + 1) % 2 ^ dayBits else t.days
    hours := fieldNext 24 t.hours t.minutesRoll
    minutes := fieldNext 60 t.minutes t.secondsRoll
    seconds := fieldNext 60 t.seconds true }

/-- `ev`: the event bits of that second and of its carries (R223, R224). -/
def RegTable.timeEvents (k : RegTable) (t : TimeOfDay) : Word :=
  k.mask .sec ||| (if t.secondsRoll then k.mask .min else 0) ||| (if t.minutesRoll then k.mask .hr else 0) |||
    (if t.hoursRoll then k.mask .day else 0)

/-- `f_i`: the frequency of ladder member `i`, 4 * 2^i Hz (R226, R227). -/
def ladderHz (i : Nat) : Nat := 4 * 2 ^ i

/-- `bits`: the ladder members that fire at a tick count, `SAM_i` of each (R226, R228). -/
def RegTable.ladderFired (k : RegTable) (tickCounter : Nat) : Word :=
  (List.finRange 8).foldl
    (fun bits (i : Fin 8) =>
      if tickCounter % (Config.crystalHz / ladderHz i.val) = 0 then bits ||| k.mask (.sam i) else bits) 0

/-- `w`: the WATCHDOG value after one enabled second, before its expiry is acted on (R233). -/
def watchdogNext (c : WatchdogConstants) (old : Half) : Half := (old + c.step) &&& c.mask

/-- The value holds the expiry bit (R233). -/
def watchdogExpired (c : WatchdogConstants) (w : Half) : Bool := w &&& c.expiry != 0

end Sys2Proof.Machine
end

