-- ==== Sys2Proof/Machine/Ops.lean ====
section
/-! DEFINITION. The named operations over the state: register and field access (R9, R79, R96), events (R10), the interrupt
delivery that every source goes through (R131 to R137, R150, R403), the PLL's wake arming (R167), and the
recomputations of derived state (R271, R304). The block takes no exception and has no return operation of its
own (R400, R407, R408): `raiseSource`, `checkInterrupts` and `ackVector` are its whole share of one. -/

namespace Sys2Proof.Machine

/-- The state as an operation starts on it: nothing returned, no event emitted yet (R6, R10; log 14). -/
def State.startOp (s : State) : State := { s with returned := .nothing, events := [] }

/-- The access reaches the register file: a valid address, whose top nibble is `PERIPH_NIBBLE`, outside the pseudo-register
block (R70, R75, R77). -/
def State.reaches (s : State) (addr : Word) : Bool :=
  addr.extractLsb' 28 4 == s.params.periphNibble && !s.params.inPseudoBlock addr

/-- `emit Event` (R9, R10). -/
def State.emit (s : State) (e : Event) : State := { s with events := s.events ++ [e] }

/-- The operation's returned value (R6). -/
def State.give (s : State) (v : Returned) : State := { s with returned := v }

/-- `reg[R]` (R9), zero-extended to 32 bits. -/
def State.reg (s : State) (r : Reg) : Word := s.rf.reg s.params.regMap r

/-- `reg[R] <- v` (R9). -/
def State.setReg (s : State) (r : Reg) (v : Word) : State := { s with rf := s.rf.setReg s.params.regMap r v }

/-- Bit `n` of a register. -/
def State.bit (s : State) (r : Reg) (n : Nat) : Bool := (s.reg r).getLsbD n

/-- A field's value (R96). -/
def State.field (s : State) (f : Field) : Nat := s.rf.field s.params.regMap f

/-- `R.F <- x` (R96). -/
def State.setField (s : State) (f : Field) (x : Nat) : State :=
  s.setReg f.reg (setBits (s.reg f.reg) (s.params.regMap.lo f) (s.params.regMap.len f) x)

/-- A one-bit field as a Bool. -/
def State.flag (s : State) (f : Field) : Bool := s.rf.flag s.params.regMap f

/-- A write of the bits of `mask`: bits outside it or outside the byte enables keep their value. -/
def State.maskedWrite (s : State) (r : Reg) (mask v be : Word) : State := s.setReg r (mergeBits (s.reg r) v mask be)

/-- The plain write of R119: bits outside `WMASK` or outside the byte enables keep their value. -/
def State.plainWrite (s : State) (r : Reg) (v be : Word) : State := s.maskedWrite r (s.params.regMap.wmask r) v be

/-- `timerAcc[n]` (R24). -/
def State.timerAcc (s : State) : TimerId → F64
  | .t1 => s.timerAcc1
  | .t2 => s.timerAcc2

/-- `timerAcc[n] <- x`. -/
def State.setTimerAcc (s : State) (n : TimerId) (x : F64) : State :=
  match n with
  | .t1 => { s with timerAcc1 := x }
  | .t2 => { s with timerAcc2 := x }

/-- `timerReadAck[n]` (R24). -/
def State.timerReadAck (s : State) : TimerId → Half
  | .t1 => s.timerReadAck1
  | .t2 => s.timerReadAck2

/-- `timerReadAck[n] <- x`. -/
def State.setTimerReadAck (s : State) (n : TimerId) (x : Half) : State :=
  match n with
  | .t1 => { s with timerReadAck1 := x }
  | .t2 => { s with timerReadAck2 := x }

/-- `pllOn()` (R164). -/
def State.pllOn (s : State) : Bool := !s.flag Field.displl

/-- `pllWakeIfOff()` (R167). -/
def State.pllWakeIfOff (s : State) : State :=
  if s.flag Field.displl && s.wakeCountdown == -1 then
    { s with wakeCountdown := wakeTicks (s.field Field.wksel) }
  else s

/-- The polarity bit of port-D pin `i`: PDPOL for pins 0 to 3, ICR.POL1, POL2, POL3, POL6 for pins 4 to 7 (R306). -/
def State.pinPolarity (s : State) (i : Nat) : Bool :=
  if i < 4 then s.bit .pdpol i else s.flag (Field.pinPol i)

/-- The edge choice of port-D pin `i`: PDIRQEG for pins 0 to 3, ICR.ET1, ET2, ET3, ET6 for pins 4 to 7 (R306). -/
def State.pinEdge (s : State) (i : Nat) : Bool :=
  if i < 4 then s.bit .pdirqeg i else s.flag (Field.pinEt i)

/-- The source that a rule raises and clears, by the table of the parameters (R28). -/
def State.source (s : State) (o : Owner) : SourceRow := s.params.sources.source o

/-- `wakeCapable(s)` (R137). An edge-only source without a pin does not wake (log 2). -/
def State.wakeCapable (s : State) (x : SourceRow) : Bool :=
  match x.wake, x.owner with
  | .always, _ => true
  | .edgeOnly, .pin i => s.bit .pdirqeg i
  | .edgeOnly, _ => false
  | .never, _ => false

/-- `edgeClearable(s)`: a port-D pin source configured edge-sensitive (R143). -/
def State.edgeClearable (s : State) (x : SourceRow) : Bool :=
  match x.owner with
  | .pin i => s.pinEdge i
  | _ => false

/-- The source's pending flag, `IPR[bit(s)]` (R130). -/
def State.pending (s : State) (x : SourceRow) : Bool := s.bit .ipr x.bit

/-- The source's mask bit, `IMR[bit(s)]` (R130). -/
def State.masked (s : State) (x : SourceRow) : Bool := s.bit .imr x.bit

/-- The source's active flag, `ISR[bit(s)]` (R130). -/
def State.active (s : State) (x : SourceRow) : Bool := s.bit .isr x.bit

/-- `recomputeIsr()`: active is pending and not masked (R133). -/
def State.recomputeIsr (s : State) : State := s.setReg .isr (s.reg .ipr &&& ~~~s.reg .imr)

/-- `raiseSource(s)` (R131). -/
def State.raiseSource (s : State) (x : SourceRow) : State :=
  let s := (s.setReg .ipr (s.reg .ipr ||| x.mask)).recomputeIsr
  if s.wakeCapable x && !s.masked x then s.pllWakeIfOff else s

/-- `clearSource(s)` (R132). -/
def State.clearSource (s : State) (x : SourceRow) : State :=
  (s.setReg .ipr (s.reg .ipr &&& ~~~x.mask)).recomputeIsr

/-- `levelOf(s)` (R136). -/
def State.levelOf (s : State) (x : SourceRow) : Nat :=
  match x.level with
  | .fixed n => n
  | .prog k => s.field (.lvl k)

/-- `level(state)`: the greatest level of the active sources, 0 if there is none (R134). -/
def State.level (s : State) : Nat :=
  s.params.sources.rows.foldl (fun m x => if s.active x then max m (s.levelOf x) else m) 0

/-- `checkInterrupts()` (R134). -/
def State.checkInterrupts (s : State) : State :=
  { s with cpuIpl := BitVec.ofNat 3 s.level }.emit (.setIpl (BitVec.ofNat 3 s.level))

/-- `ackVector(l)` (R150). -/
def State.ackVector (s : State) (l : BitVec 3) : Byte :=
  if s.reg .ivr = 0 then Config.uninitializedVector else (s.reg .ivr).setWidth 8 ||| l.setWidth 8

/-- `recomputeChips()` (R271). -/
def State.recomputeChips (s : State) : State :=
  let c := describeChips s.params s.rf s.bootMode
  { s with chips := c }.emit (.mapChanged c)

/-- `recomputeStatusFlags()` (R304). -/
def State.recomputeStatusFlags (s : State) : State := { s with statusFlags := describeStatus s.params.regMap s.rf }

/-- Latches a fault flag, and reports it while BETEN is set (R332, R333, R337). -/
def State.busFault (s : State) (k : FaultKind) : State :=
  let s := s.setField (Field.ofFault k) 1
  if s.flag Field.beten then s.emit (.busError k) else s

/-- The next request, if one has been invoked, and the state without it (R82; log 13). -/
def State.fetch (s : State) : Option (Request × State) :=
  match s.requests with
  | [] => none
  | q :: rest => some (q, { s with requests := rest })

/-- The refusal of a request that the decoder refuses (R94). -/
def Refusal.ofDecodeError : DecodeError → Refusal
  | .reservedDescriptor d => .reservedDescriptor d
  | .incompleteInputs => .incompleteInputs
  | .valueTooWide => .valueTooWide
  | .illFormed .rtcOutOfRange => .rtcOutOfRange

end Sys2Proof.Machine
end

