-- ==== Sys2Proof/Machine/ChipSelect.lean ====
section
/-! DEFINITION. The chip-select write handler (R276, R277); the descriptors' formulas stand in Machine/Descriptors.lean. -/

namespace Sys2Proof.Machine

/-- Boot mode after a write to `r`: it ends at the first CSA write that leaves EN set (R276). -/
def State.endBootMode (s : State) (r : Reg) : State :=
  if r = .csa ∧ s.flag (Field.csEn .rom) = true then { s with bootMode := false } else s

/-- Write to a chip-select register (R277): all four banks are recomputed and announced, changed or not. -/
def State.writeChipSelect (s : State) (r : Reg) (v be : Word) : State :=
  ((s.plainWrite r v be).endBootMode r).recomputeChips

end Sys2Proof.Machine
end

