-- ==== Sys2Proof/Machine/HostControl.lean ====
section
/-! DEFINITION. The SCR handler (R336) and the operations of R330 to R332; what the host may observe (R334). -/

namespace Sys2Proof.Machine

/-- SCR write (R336). -/
def State.writeScr (s : State) (v be : Word) : State := s.setReg .scr (s.params.regMap.scrAfterWrite (s.reg .scr) v be)

/-- IS_REG_WINDOW_RELOCATED (R330). -/
def execIsRegWindowRelocated (s : State) : Host.Outcome State Fault Refusal :=
  .next (s.startOp.give (.bool (s.flag Field.dmap)))

/-- SET_LOW_POWER_STOP (R331). -/
def execSetLowPowerStop (s : State) : Host.Outcome State Fault Refusal :=
  .next { s.startOp with lowPowerStop := true }

/-- BUS_FAULT WPV: protected-write violation (R332). -/
def execBusFaultWpv (s : State) : Host.Outcome State Fault Refusal := .next (s.startOp.busFault .wpv)

/-- BUS_FAULT BETO: bus-error timeout (R332). -/
def execBusFaultBeto (s : State) : Host.Outcome State Fault Refusal := .next (s.startOp.busFault .beto)

/-- BUS_FAULT PRV: privilege violation (R332). -/
def execBusFaultPrv (s : State) : Host.Outcome State Fault Refusal := .next (s.startOp.busFault .prv)

/-- What the host may observe at any time besides returned values and events (R334). -/
structure HostView where
  cpuIpl : BitVec 3
  lowPowerStop : Bool
  statusFlags : StatusFlags
  chips : Chips
  poweredOff : Bool
  wakeCountdown : Int
deriving DecidableEq, Repr

/-- The host's observation of a state (R334). -/
def State.hostView (s : State) : HostView :=
  ⟨s.cpuIpl, s.lowPowerStop, s.statusFlags, s.chips, s.flag Field.displl, s.wakeCountdown⟩

end Sys2Proof.Machine
end

