-- ==== Sys2Proof/Machine/Operands.lean ====
section
/-! DEFINITION. The operand forms of an access: the offset of an address (R71), and the split of a span by
register (R73, R86). -/

namespace Sys2Proof.Machine

/-- The register offset of an address, `addr[11:0]` (R71). -/
def offsetOf (addr : Word) : Nat := (addr.extractLsb' 0 12).toNat

/-- The offset of byte `i` of a span from offset `o`: spans wrap (R73). -/
def spanOffset (o i : Nat) : Nat := (o + i) % Config.windowSize

/-- Byte `i` of an `n`-byte value, most significant first (R72). -/
def spanByte (v : Word) (n i : Nat) : Byte := (v >>> (8 * (n - 1 - i))).setWidth 8

/-- The shift of the byte at offset `p` inside its register, `8 * (w-1-k)` (R110, R114). -/
def RegTable.laneShift (k : RegTable) (r : Reg) (p : Nat) : Nat := 8 * (k.bytes r - 1 - (p - k.offset r))

/-- What a write passes to one register's handler: the value and the byte-enable mask (R86). -/
structure Touch where
  reg : Reg
  v : Word
  be : Word
deriving DecidableEq, Repr

/-- Adds a byte lane to its register's touch; a register not touched yet goes last (R114). -/
def addTouch : List Touch → Reg → Word → Word → List Touch
  | [], r, v, be => [⟨r, v, be⟩]
  | t :: ts, r, v, be =>
    if t.reg = r then ⟨r, t.v ||| v, t.be ||| be⟩ :: ts else t :: addTouch ts r v be

/-- The split of a write as it is built: the register file with the unowned bytes stored, and the touches in
the order of each register's first byte (R86, R114). -/
structure WriteSplit where
  rf : Memory
  touches : List Touch
deriving DecidableEq, Repr

/-- Splits off the byte of a write at offset `p` (R76, R114). -/
def WriteSplit.addByte (k : RegMap) (w : WriteSplit) (p : Nat) (b : Byte) : WriteSplit :=
  match k.regAt p with
  | none => { w with rf := w.rf.write p b }
  | some r =>
    { w with touches := addTouch w.touches r (b.setWidth 32 <<< k.laneShift r p) ((0xFF : Word) <<< k.laneShift r p) }

/-- The split of an `n`-byte write of `v` at offset `o` (R86, R114). -/
def splitWrite (k : RegMap) (rf : Memory) (o n : Nat) (v : Word) : WriteSplit :=
  (List.range n).foldl (fun w i => w.addByte k (spanOffset o i) (spanByte v n i)) ⟨rf, []⟩

/-- The address `@NAME` of a register under the default binding (R98). -/
def Reg.addr (r : Reg) : Word := 0xFFFFF000 + BitVec.ofNat 32 (RegMap.default.offset r)

end Sys2Proof.Machine
end

