-- ==== Sys2Proof/Machine/PortD.lean ====
section
/-! DEFINITION. The port logic (R300 to R309): read synthesis, port-D interrupt evaluation, the port write handlers, and
INPUT_CHANGE. -/

namespace Sys2Proof.Machine

/-- The word with bit `n` set when `b` holds. -/
def bitIf (b : Bool) (n : Nat) : Byte := if b then (1 : Byte) <<< n else 0

/-- `rawD`: the port-D input vector (R302): battery OK, SD card, and the three active-low keyboard rows. -/
def rawPortD (p : InputPins) (x : Inputs) : Byte :=
  bitIf true p.bat ||| bitIf x.sdCardInserted p.sd ||| bitIf (!x.keyRow0) p.keyRow0 |||
    bitIf (!x.keyRow1) p.keyRow1 ||| bitIf (!x.keyRow2) p.keyRow2

/-- `rawK`: the port-K input vector (R303). -/
def rawPortK (p : InputPins) (x : Inputs) : Byte := bitIf x.dockConnected p.dock

/-- An 8-bit register's value. -/
def State.reg8 (s : State) (r : Reg) : Byte := (s.reg r).setWidth 8

/-- `pinD`: the port-D inputs after the polarity XOR (R302). -/
def State.pinD (s : State) : Byte := rawPortD s.params.pins s.inputs ^^^ s.reg8 .pdpol

/-- The value a read of PDDATA returns (R302). -/
def State.readPddata (s : State) : Byte :=
  (s.pinD &&& ~~~s.reg8 .pddir) ||| (s.reg8 .pddata &&& s.reg8 .pddir)

/-- The value a read of PKDATA returns (R303). -/
def State.readPkdata (s : State) : Byte :=
  (rawPortK s.params.pins s.inputs &&& ~~~s.reg8 .pkdir) ||| (s.reg8 .pkdata &&& s.reg8 .pkdir)

/-- `act`: port-D interrupt pin `i` is enabled, an input, and active (R306). -/
def State.pinActive (s : State) (i : Nat) : Bool :=
  s.bit .pdirqen i && !s.bit .pddir i && ((rawPortD s.params.pins s.inputs).getLsbD i != s.pinPolarity i)

/-- `portDPrevActive[i] <- b` (R306). -/
def State.setPrevActive (s : State) (i : Nat) (b : Bool) : State :=
  { s with portDPrevActive := (s.portDPrevActive &&& ~~~((1 : Byte) <<< i)) ||| bitIf b i }

/-- `pinSource(i)` (R306). -/
def State.pinSource (s : State) (i : Nat) : SourceRow := s.source (Owner.ofPin i)

/-- The evaluation of one port-D interrupt pin (R306). -/
def State.evalPin (s : State) (i : Nat) : State :=
  let x := s.pinSource i
  let act := s.pinActive i
  let t :=
    if s.pinEdge i then
      if act && !s.portDPrevActive.getLsbD i then s.raiseSource x else s
    else if act then s.raiseSource x
    else s.clearSource x
  t.setPrevActive i act

/-- `kb`: some keyboard-enabled port-D input reads 0 (R306, R307). -/
def State.keyboardLow (s : State) : Bool := (~~~s.pinD &&& s.reg8 .pdkben &&& ~~~s.reg8 .pddir) != 0

/-- The keyboard source follows the pins (R307). -/
def State.evalKeyboard (s : State) : State :=
  if s.keyboardLow then s.raiseSource (s.source .keyboard) else s.clearSource (s.source .keyboard)

/-- `evalPortD()` (R306): the eight interrupt pins in order, then the keyboard OR. -/
def State.evalPortD (s : State) : State := ((List.range 8).foldl State.evalPin s).evalKeyboard

/-- The port registers whose write recomputes the status flags (R309). -/
def triggersStatusFlags : Reg → Bool
  | .pbdir | .pbsel | .pbdata | .pgdir | .pgsel | .pgdata | .pkdir | .pksel | .pkdata => true
  | _ => false

/-- The port registers whose write runs the port-D evaluation (R309). -/
def triggersPortD : Reg → Bool
  | .pkdir | .pksel | .pkdata | .pddir | .pdsel | .pddata | .pdpol | .pdirqen | .pdirqeg | .pdkben => true
  | _ => false

/-- Port register write (R305), with the triggers of R309 in their order. -/
def State.writePort (s : State) (r : Reg) (v be : Word) : State :=
  let s := s.plainWrite r v be
  let s := if triggersStatusFlags r then s.recomputeStatusFlags else s
  if triggersPortD r then s.evalPortD else s

/-- INPUT_CHANGE (R308). -/
def execInputChange (inputs : Inputs) (s : State) : Host.Outcome State Fault Refusal :=
  .next ({ s.startOp with inputs := inputs }.evalPortD.checkInterrupts)

end Sys2Proof.Machine
end

