-- ==== Sys2Proof/Machine/InterruptController.lean ====
section
/-! DEFINITION. The interrupt controller's register write handlers (R141 to R146) and its operations IACK and EXT_IRQ
(R138, R135). -/

namespace Sys2Proof.Machine

/-- IMR write (R142): unmasking is not a raise and performs no wake test. -/
def State.writeImr (s : State) (v be : Word) : State := (s.plainWrite .imr v be).recomputeIsr

/-- ISR write (R143): a written 1 clears an edge-clearable source, every other bit is ignored. -/
def State.writeIsr (s : State) (v be : Word) : State :=
  s.params.sources.rows.foldl
    (fun s x => if s.edgeClearable x && (v &&& be).getLsbD x.bit then s.clearSource x else s) s

/-- ICR write (R146). -/
def State.writeIcr (s : State) (v be : Word) : State := (s.plainWrite .icr v be).evalPortD

/-- IACK (R138): the vector is returned and the low-power stop ends; no pending flag, mask or level changes
(R139, R149). -/
def execIack (level : BitVec 3) (s : State) : Host.Outcome State Fault Refusal :=
  .next ({ s.startOp with lowPowerStop := false }.give (.byte (s.ackVector level)))

/-- The external-request source of a name, if the table has one (R135). -/
def Sources.external? (t : Sources) (x : Source) : Option SourceRow := (t.named? x).filter SourceRow.isExternal

/-- EXT_IRQ (R135); refused for a name that is no external-request source (R94). -/
def execExtIrq (source : Source) (line : Bool) (s : State) : Host.Outcome State Fault Refusal :=
  match s.params.sources.external? source with
  | some x => .next ((if line then s.startOp.raiseSource x else s.startOp.clearSource x).checkInterrupts)
  | none => .refused (.notExternalRequest source)

end Sys2Proof.Machine
end

