-- ==== Sys2Proof/Machine/RtcWatchdog.lean ====
section
/-! DEFINITION. The RTC, the periodic-interrupt ladder and the watchdog (R220 to R237), and SET_RTC (R236). -/

namespace Sys2Proof.Machine

/-- The time the registers hold (R220). -/
def State.timeOfDay (s : State) : TimeOfDay :=
  ⟨s.field Field.days, s.field Field.hours, s.field Field.minutes, s.field Field.seconds⟩

/-- The four time fields are stored, and no other bit (R96, R223, R236). -/
def State.setTimeOfDay (s : State) (t : TimeOfDay) : State :=
  (((s.setField Field.seconds t.seconds).setField Field.minutes t.minutes).setField Field.hours t.hours).setField
    Field.days t.days

/-- The enabled events are latched in RTCISR, and the rule's source is raised if there is one (R224, R226). -/
def State.latchRtc (s : State) (bits : Word) (o : Owner) : State :=
  let hits := bits &&& s.reg .rtcienr
  let s := s.setReg .rtcisr (s.reg .rtcisr ||| hits)
  if hits = 0 then s else s.raiseSource (s.source o)

/-- The time of day one second later (R223). -/
def State.nextTime (s : State) : TimeOfDay := s.timeOfDay.next s.params.dayBits

/-- The events of that second (R224). -/
def State.timeEvents (s : State) : Word := s.params.regMap.timeEvents s.timeOfDay

/-- `rtcSecond()` (R223, R224). -/
def State.rtcSecond (s : State) : State :=
  if s.flag Field.rtcEn then
    (s.setTimeOfDay s.nextTime).latchRtc s.timeEvents .rtcSecond
  else s

/-- `rtiLadder()` (R226): not gated by the RTC enable. -/
def State.rtiLadder (s : State) : State := s.latchRtc (s.params.regMap.ladderFired s.tickCounter) .ladder

/-- The watchdog's value after this second (R233). -/
def State.watchdogValue (s : State) : Half := watchdogNext s.params.wdt ((s.reg .watchdog).setWidth 16)

/-- This second's value holds the expiry bit (R233). -/
def State.watchdogExpires (s : State) : Bool := watchdogExpired s.params.wdt s.watchdogValue

/-- This second's watchdog step expires in reset mode: the TICK is to be aborted (R233, R235). -/
def State.watchdogResets (s : State) : Bool :=
  s.flag Field.wdtEn && s.watchdogExpires && !s.flag Field.wdtIsel

/-- `watchdogSecond()` where it does not abort (R233, R234). -/
def State.watchdogSecond (s : State) : State :=
  if s.flag Field.wdtEn then
    let t := s.setReg .watchdog (s.watchdogValue.setWidth 32)
    if s.watchdogExpires then (t.setField Field.wdtIntf 1).raiseSource (s.source .watchdog) else t
  else s

/-- RTCISR write, write-one-to-clear (R230). -/
def State.writeRtcisr (s : State) (v be : Word) : State :=
  let t := s.setReg .rtcisr (s.reg .rtcisr &&& ~~~(v &&& be))
  let u := if t.reg .rtcisr &&& s.params.regMap.rtcBits = 0 then t.clearSource (s.source .rtcSecond) else t
  if u.reg .rtcisr &&& s.params.regMap.ladderBits = 0 then u.clearSource (s.source .ladder) else u

/-- WATCHDOG write (R231): EN and ISEL stored, the count restarted, INTF cleared by a written 1. -/
def State.writeWatchdog (s : State) (v be : Word) : State :=
  let s := (s.maskedWrite .watchdog (s.params.regMap.watchdogPlain) v be).setField Field.wdtCntr 0
  if s.params.regMap.ofWord Field.wdtIntf (v &&& be) = 1 then (s.setField Field.wdtIntf 0).clearSource (s.source .watchdog)
  else s

/-- The range of SET_RTC's operands (R236): the limits that the request was checked against, and the day counter's
width. -/
def State.rtcInRange (s : State) (days hours minutes seconds : Nat) : Bool :=
  timeInRange hours minutes seconds && decide (days < 2 ^ s.params.dayBits)

/-- SET_RTC (R236): the four time fields only; refused out of range. -/
def execSetRtc (days hours minutes seconds : Nat) (s : State) : Host.Outcome State Fault Refusal :=
  if s.rtcInRange days hours minutes seconds then
    .next (s.startOp.setTimeOfDay ⟨days, hours, minutes, seconds⟩)
  else .refused .rtcOutOfRange

end Sys2Proof.Machine
end

