-- ==== Sys2Proof/Machine/Pll.lean ====
section
/-! DEFINITION. The PLL and clock model (R160 to R171). -/

namespace Sys2Proof.Machine

/-- `dmaclkPerTick`: PLL output cycles per tick (R162). -/
def State.dmaclkPerTick (s : State) : F64 :=
  F64.div (F64.ofNat (2 * (14 * (s.field Field.pcnt + 1) + s.field Field.qcnt + 1)))
    (F64.ofNat (s.params.presc1Div.ofField (s.field Field.presc1)))

/-- `sysclkPerTick`: system clocks per tick (R163). -/
def State.sysclkPerTick (s : State) : F64 :=
  F64.div s.dmaclkPerTick (F64.ofNat (s.params.sysclkDiv.ofCode (s.field Field.sysclksel)))

/-- PLLFSR write (R165): dropped whole while PROT is set. -/
def State.writePllfsr (s : State) (v be : Word) : State :=
  if s.flag Field.prot then s else s.plainWrite .pllfsr v be

/-- PLLCR write (R166): a value with the disable bit set shortens the CPU's budget; the countdown is not touched. -/
def State.writePllcr (s : State) (v be : Word) : State :=
  let s := s.plainWrite .pllcr v be
  if s.params.regMap.ofWord Field.displl (v &&& be) = 1 then s.emit (.shortenBudget Config.pllDisableDelay) else s

/-- `pllWakeStep()` (R168). -/
def State.pllWakeStep (s : State) : State :=
  if s.wakeCountdown = -1 then s
  else
    let k := s.wakeCountdown - 1
    if k = 0 then { s with wakeCountdown := -1 }.setField Field.displl 0
    else { s with wakeCountdown := k }

/-- IS_SYSCLK_RUNNING (R169). -/
def execIsSysclkRunning (s : State) : Host.Outcome State Fault Refusal :=
  .next (s.startOp.give (.bool s.pllOn))

end Sys2Proof.Machine
end

