-- ==== Sys2Proof/Machine/Timers.lean ====
section
/-! DEFINITION. The two timers (R190 to R203). -/

namespace Sys2Proof.Machine

/-- `prescaler(n)`: the prescale divisor, 1 to 256 (R191). -/
def State.prescaler (s : State) (n : TimerId) : Nat := s.field (Field.prescaler n) + 1

/-- `delta(n)`: the per-tick increment (R192). -/
def State.timerDelta (s : State) (n : TimerId) : F64 :=
  let p := F64.ofNat (s.prescaler n)
  match s.params.timerSrc.ofCode (s.field (Field.clksource n)) with
  | .stop | .tin => F64.zero
  | .sysclk => if s.pllOn then F64.div s.sysclkPerTick p else F64.zero
  | .sysclk16 => if s.pllOn then F64.div (F64.div s.sysclkPerTick (F64.ofNat 16)) p else F64.zero
  | .clk32 => F64.div (F64.ofNat 1) p

/-- A match: COMP is set, and TMRn is raised while IRQEN is set (R200). -/
def State.timerMatch (s : State) (n : TimerId) : State :=
  let s := s.setField (Field.comp n) 1
  if s.flag (Field.irqen n) then s.raiseSource (s.source (.timer n)) else s

/-- `timerTick(n)` (R198 to R201): add, fold, test for a match, write the counter back. -/
def State.timerTick (s : State) (n : TimerId) : State :=
  if s.flag (Field.ten n) then
    let acc := F64.add (s.timerAcc n) (s.timerDelta n)
    let k := acc.floor
    let old := s.field (Field.count n)
    let cmp := s.field (Field.compare n)
    let new := (old + k) % 65536
    let t := s.setTimerAcc n (F64.sub acc (F64.ofNat k))
    if crossed old new cmp then
      (t.timerMatch n).setField (Field.count n) (if s.flag (Field.frr n) then new else (new + 65536 - cmp) % 65536)
    else t.setField (Field.count n) new
  else s

/-- TSTATn write (R197): a status bit seen set by an earlier read and now written 0 is cleared. -/
def State.writeTstat (s : State) (n : TimerId) (v be : Word) : State :=
  let clr := s.params.regMap.tstatCleared n v be ((s.timerReadAck n).setWidth 32)
  let s := s.setReg (Reg.tstat n) (s.reg (Reg.tstat n) &&& ~~~clr)
  let s := s.setTimerReadAck n (s.timerReadAck n &&& ~~~(clr.setWidth 16))
  if s.flag (Field.comp n) then s else s.clearSource (s.source (.timer n))

end Sys2Proof.Machine
end

