-- ==== Sys2Proof/Machine/BusAccess.lean ====
section
/-! DEFINITION. The register access procedures and operations (R110 to R120). -/

namespace Sys2Proof.Machine

/-- `readValue(R)` (R120): the value of a register read. -/
def State.readValue (s : State) (r : Reg) : Word :=
  match r with
  | .pddata => s.readPddata.setWidth 32
  | .pkdata => s.readPkdata.setWidth 32
  | _ => s.reg r

/-- The side effect of a register read (R80, R120): a TSTATn read records the status bits it exposed (R196). -/
def State.noteRead (s : State) (r : Reg) : State :=
  match r with
  | .tstat1 => { s with timerReadAck1 := (s.reg .tstat1).setWidth 16 }
  | .tstat2 => { s with timerReadAck2 := (s.reg .tstat2).setWidth 16 }
  | _ => s

/-- The byte of an access at offset `p`: the byte lane of the register that owns it, or the stored byte (R110). -/
def State.readByteAt (s : State) (p : Nat) : Byte :=
  match s.params.regMap.regAt p with
  | none => s.rf.read p
  | some r => (s.readValue r >>> s.params.regMap.laneShift r p).setWidth 8

/-- The side effect of reading the byte at offset `p` (R110). Registers are read once per access; a second byte
of the same register finds the same status, so noting it again changes nothing. -/
def State.noteReadAt (s : State) (p : Nat) : State :=
  match s.params.regMap.regAt p with
  | none => s
  | some r => s.noteRead r

/-- The bytes of a span from offset `o`, assembled most significant first (R72, R110). -/
def State.readWindow (s : State) (o n : Nat) : Word :=
  (List.range n).foldl (fun acc i => (acc <<< 8) ||| (s.readByteAt (spanOffset o i)).setWidth 32) 0

/-- The side effects of reading a span (R80, R110). -/
def State.noteWindow (s : State) (o n : Nat) : State :=
  (List.range n).foldl (fun t i => t.noteReadAt (spanOffset o i)) s

/-- The value `MemRead(addr, n)` returns (R110); 0 for an invalid or pseudo-block address (R75, R77). -/
def State.memReadValue (s : State) (addr : Word) (n : Nat) : Word :=
  if s.reaches addr then s.readWindow (offsetOf addr) n else 0

/-- The state after `MemRead(addr, n)` (R110). -/
def State.memReadState (s : State) (addr : Word) (n : Nat) : State :=
  if s.reaches addr then s.noteWindow (offsetOf addr) n else s

/-- `writeHandler(R, v, be)` (R118). -/
def State.writeHandler (s : State) (r : Reg) (v be : Word) : State :=
  match r with
  | .scr => s.writeScr v be
  | .ivr | .ilcr => s.plainWrite r v be
  | .icr => s.writeIcr v be
  | .imr => s.writeImr v be
  | .isr => s.writeIsr v be
  | .ipr => s
  | .pllcr => s.writePllcr v be
  | .pllfsr => s.writePllfsr v be
  | .tctl1 | .tctl2 | .tprer1 | .tprer2 | .tcmp1 | .tcmp2 => s.plainWrite r v be
  | .tcn1 | .tcn2 => s
  | .tstat1 => s.writeTstat .t1 v be
  | .tstat2 => s.writeTstat .t2 v be
  | .rtctime | .dayr | .rtcctl | .rtcienr => s.plainWrite r v be
  | .rtcisr => s.writeRtcisr v be
  | .watchdog => s.writeWatchdog v be
  | .csa | .csb | .csc | .csd | .csgba | .csgbb | .csgbc | .csgbd | .csugba | .csctrl1 | .csctrl2 =>
    s.writeChipSelect r v be
  | .pbdir | .pbdata | .pbpuen | .pbsel | .pddir | .pddata | .pdpuen | .pdsel
  | .pgdir | .pgdata | .pgpuen | .pgsel | .pkdir | .pkdata | .pkpuen | .pksel
  | .pdpol | .pdirqen | .pdkben | .pdirqeg => s.writePort r v be

/-- Runs the handlers of the touched registers, once each, in order (R86, R114). -/
def State.runHandlers (s : State) (ts : List Touch) : State :=
  ts.foldl (fun s t => s.writeHandler t.reg t.v t.be) s

/-- The part of `MemWrite` before `checkInterrupts()`: the unowned bytes are stored and the handlers run (R114). -/
def State.writeWindow (s : State) (o n : Nat) (v : Word) : State :=
  let w := splitWrite s.params.regMap s.rf o n v
  { s with rf := w.rf }.runHandlers w.touches

/-- `MemWrite(addr, n, v)` (R114): nothing at all for an invalid or pseudo-block address (R75, R77). -/
def State.memWrite (s : State) (addr : Word) (n : Nat) (v : Word) : State :=
  if s.reaches addr then (s.writeWindow (offsetOf addr) n v).checkInterrupts else s

/-- READ8 (R111). -/
def execRead8 (addr : Word) (s : State) : Host.Outcome State Fault Refusal :=
  .next ((s.startOp.memReadState addr 1).give (.byte ((s.memReadValue addr 1).setWidth 8)))

/-- READ16 (R112). -/
def execRead16 (addr : Word) (s : State) : Host.Outcome State Fault Refusal :=
  .next ((s.startOp.memReadState addr 2).give (.half ((s.memReadValue addr 2).setWidth 16)))

/-- READ32 (R113). -/
def execRead32 (addr : Word) (s : State) : Host.Outcome State Fault Refusal :=
  .next ((s.startOp.memReadState addr 4).give (.word (s.memReadValue addr 4)))

/-- WRITE8 (R115). -/
def execWrite8 (addr : Word) (value : Byte) (s : State) : Host.Outcome State Fault Refusal :=
  .next (s.startOp.memWrite addr 1 (value.setWidth 32))

/-- WRITE16 (R116). -/
def execWrite16 (addr : Word) (value : Half) (s : State) : Host.Outcome State Fault Refusal :=
  .next (s.startOp.memWrite addr 2 (value.setWidth 32))

/-- WRITE32 (R117). -/
def execWrite32 (addr : Word) (value : Word) (s : State) : Host.Outcome State Fault Refusal :=
  .next (s.startOp.memWrite addr 4 value)

end Sys2Proof.Machine
end

