-- ==== Sys2Proof/Machine/Reset.lean ====
section
/-! DEFINITION. RESET_ALL (R440). -/

namespace Sys2Proof.Machine

/-- RESET_ALL's steps (R440): everything but `inputs` is set again, then the derived state is recomputed. R440's last
`evalPortD()` can set IPR and ISR bits of port-D sources and arm the wake countdown where the reset image, not all zero,
enables a pin or a keyboard row; R33's table has the image with only ISR recomputed, and -1. The model follows R440
(log 23, DESIGN CHOICE). -/
def State.resetAll (s : State) : State :=
  let s := { s with rf := s.params.resetMemory }.recomputeIsr
  let s := { s with
    bootMode := true
    wakeCountdown := -1
    timerAcc1 := F64.zero
    timerAcc2 := F64.zero
    timerReadAck1 := 0
    timerReadAck2 := 0
    tickCounter := 0
    lowPowerStop := false
    portDPrevActive := 0 }
  s.recomputeChips.recomputeStatusFlags.evalPortD.checkInterrupts

/-- RESET_ALL (R440). -/
def execResetAll (s : State) : Host.Outcome State Fault Refusal := .next s.startOp.resetAll

end Sys2Proof.Machine
end

