-- ==== Sys2Proof/Machine/Tick.lean ====
section
/-! DEFINITION. The clock tick (R260 to R264). -/

namespace Sys2Proof.Machine

/-- This TICK is a second boundary (R221). -/
def State.secondBoundary (s : State) : Bool := s.tickCounter + 1 == Config.crystalHz

/-- The tick counter's step (R221). -/
def State.countTick (s : State) : State :=
  { s with tickCounter := if s.secondBoundary then 0 else s.tickCounter + 1 }

/-- The part of a TICK after the once-per-second path, in the order of R261. -/
def State.tickTail (s : State) : State :=
  ((((s.rtiLadder).timerTick .t1).timerTick .t2).pllWakeStep).checkInterrupts

/-- TICK (R260). On a second boundary the RTC and then the watchdog run first; a watchdog expiry in reset mode
emits SystemReset and ends the tick at once (R262). -/
def State.tick (s : State) : State :=
  if s.secondBoundary then
    let t := s.countTick.rtcSecond
    if t.watchdogResets then t.emit .systemReset else t.watchdogSecond.tickTail
  else s.countTick.tickTail

/-- TICK (R260). -/
def execTick (s : State) : Host.Outcome State Fault Refusal := .next s.startOp.tick

end Sys2Proof.Machine
end

