-- ==== Sys2Proof/Machine/Dispatch.lean ====
section
/-! DEFINITION. The dispatch of an operation to its meaning, one arm per row of spec/opcode_table.json. -/

namespace Sys2Proof.Machine

/-- One operation as one atomic step (R6, R90). -/
def exec (i : Instr) (s : State) : Host.Outcome State Fault Refusal :=
  match i with
  | .read8 addr => Sys2Proof.Machine.execRead8 addr s
  | .read16 addr => Sys2Proof.Machine.execRead16 addr s
  | .read32 addr => Sys2Proof.Machine.execRead32 addr s
  | .write8 addr value => Sys2Proof.Machine.execWrite8 addr value s
  | .write16 addr value => Sys2Proof.Machine.execWrite16 addr value s
  | .write32 addr value => Sys2Proof.Machine.execWrite32 addr value s
  | .tick => Sys2Proof.Machine.execTick s
  | .resetAll => Sys2Proof.Machine.execResetAll s
  | .iack level => Sys2Proof.Machine.execIack level s
  | .isSysclkRunning => Sys2Proof.Machine.execIsSysclkRunning s
  | .isRegWindowRelocated => Sys2Proof.Machine.execIsRegWindowRelocated s
  | .setRtc days hours minutes seconds => Sys2Proof.Machine.execSetRtc days hours minutes seconds s
  | .inputChange inputs => Sys2Proof.Machine.execInputChange inputs s
  | .setLowPowerStop => Sys2Proof.Machine.execSetLowPowerStop s
  | .busFaultWpv => Sys2Proof.Machine.execBusFaultWpv s
  | .busFaultBeto => Sys2Proof.Machine.execBusFaultBeto s
  | .busFaultPrv => Sys2Proof.Machine.execBusFaultPrv s
  | .extIrq source line => Sys2Proof.Machine.execExtIrq source line s

end Sys2Proof.Machine
end

