-- ==== Sys2Proof/Machine/Step.lean ====
section
/-! DEFINITION. One step of the machine: the next invoked operation is fetched, decoded and performed (R5, R6, R82). -/

namespace Sys2Proof.Machine

/-- One step. With nothing invoked the block does nothing (R5; log 13); a request the decoder refuses is refused
and no step is taken (R94, R402). -/
def step (s : State) : Host.Outcome State Fault Refusal :=
  match s.fetch with
  | none => .next s
  | some (q, t) =>
    match decode q with
    | .ok i => exec i t
    | .error e => .refused (Refusal.ofDecodeError e)

/-- The state whose very next step performs the operation of descriptor `w`, every operand bit zero (log 15): the
request is put first among those invoked. `nbits` is the table's width of the row. -/
def State.withFetchWord (s : State) (_nbits w : Nat) : State :=
  { s with requests := requestOfWord w :: s.requests }

end Sys2Proof.Machine
end

