-- ==== Sys2Proof/Safety.lean ====
section
/-! DEFINITION. What a legal state is: the invariants the spec states of every state between operations (R30, R32, R130,
R270), and the canonical form of the register file. -/

namespace Sys2Proof.Machine

/-- `ISR = IPR & ~IMR` (R30). -/
abbrev State.isrConsistent (s : State) : Prop := s.reg .isr = s.reg .ipr &&& ~~~s.reg .imr

/-- The IPR bits that belong to no source are 0 (R130). -/
abbrev State.pendingBitsOwned (s : State) : Prop := s.reg .ipr &&& ~~~s.params.sources.allMask = 0

/-- `cpuIpl` is the level of the active sources (R31). -/
abbrev State.iplCurrent (s : State) : Prop := s.cpuIpl = BitVec.ofNat 3 s.level

/-- An accumulator is a binary64 number in [0, 1) (R24, R32). -/
abbrev accLegal (a : F64) : Prop := a.units < F64.one ∧ a.isBinary64 = true

/-- The ranges of the internal counters (R32). -/
abbrev State.countersLegal (s : State) : Prop :=
  accLegal s.timerAcc1 ∧ accLegal s.timerAcc2 ∧ s.tickCounter < Config.crystalHz ∧
    -1 ≤ s.wakeCountdown ∧ s.wakeCountdown ≤ 96

/-- The bank descriptors are the function of the registers and `bootMode` (R270). -/
abbrev State.chipsCurrent (s : State) : Prop := s.chips = describeChips s.params s.rf s.bootMode

/-- The status flags are the functions of the port registers (R304). -/
abbrev State.statusCurrent (s : State) : Prop := s.statusFlags = describeStatus s.params.regMap s.rf

/-- The legal states: what the spec says holds at the end of every operation, but for the level of an aborted
TICK (R31). -/
structure State.Legal (s : State) : Prop where
  memory : s.rf.wf = true
  isr : s.isrConsistent
  owned : s.pendingBitsOwned
  counters : s.countersLegal
  chips : s.chipsCurrent
  status : s.statusCurrent

end Sys2Proof.Machine
end

