-- ==== Sys2Proof/Certificates/Slice0/Obligations.lean ====
section
/-! DEFINITION. The statements of this row, one `def Obligations.<Name> : Prop` each, and before them the words they are
written in. -/

namespace Sys2Proof.Claims

open Sys2Proof.Machine

/-! The words of the statements -/

/-- The bit of a one-bit field in its register, as `REGMAP` gives it (R27, R96). -/
def bitOf (s : State) (f : Field) : Nat := s.params.regMap.lo f

/-- The byte at offset `p` belongs to register `r` (R95). -/
def Owns (s : State) (r : Reg) (p : Nat) : Prop :=
  s.params.regMap.offset r ≤ p ∧ p < s.params.regMap.offset r + s.params.regMap.bytes r

/-- Every byte of the register file outside the listed registers reads as before. -/
def BytesKept (rs : List Reg) (s t : State) : Prop :=
  ∀ p, (∀ r ∈ rs, ¬Owns s r p) → t.rf.read p = s.rf.read p

/-- The level of the active sources is delivered, and nothing else is emitted (R134). -/
def Delivered (t : State) : Prop :=
  t.cpuIpl = BitVec.ofNat 3 t.level ∧ t.events = [.setIpl t.cpuIpl]

/-- The address, size in bytes and value of a write operation (R92, R97). -/
def writeParts : Instr → Option (Word × Nat × Word)
  | .write8 a v => some (a, 1, v.setWidth 32)
  | .write16 a v => some (a, 2, v.setWidth 32)
  | .write32 a v => some (a, 4, v)
  | _ => none

/-- The access of `n` bytes at `a` touches register `r`: one of its bytes, wrapped at 4096, is the register's
(R73, R86). -/
def Touches (s : State) (r : Reg) (a : Word) (n : Nat) : Prop := ∃ i < n, Owns s r ((offsetOf a + i) % 4096)

/-- The operation is a write that reaches the register file and touches register `r`. -/
def WritesTo (s : State) (i : Instr) (r : Reg) : Prop :=
  ∃ a n v, writeParts i = some (a, n, v) ∧ s.reaches a = true ∧ Touches s r a n

/-- The access of `n` bytes at `a` reaches the register file and every byte of it is register `r`'s. -/
def Inside (s : State) (r : Reg) (a : Word) (n : Nat) : Prop :=
  s.reaches a = true ∧ s.params.regMap.offset r ≤ offsetOf a ∧
    offsetOf a + n ≤ s.params.regMap.offset r + s.params.regMap.bytes r

/-- The place in `r` of the lowest bit of an access inside it (R72, R86). -/
def laneLo (s : State) (r : Reg) (a : Word) (n : Nat) : Nat :=
  8 * (s.params.regMap.offset r + s.params.regMap.bytes r - (offsetOf a + n))

/-- `be_R`: ones at the bits of `r` that the access covers (R86). -/
def laneMask (s : State) (r : Reg) (a : Word) (n : Nat) : Word := fieldMask (laneLo s r a n) (8 * n)

/-- `v_R`: the written value at its place in `r`, zero elsewhere (R86). -/
def laneValue (s : State) (r : Reg) (a : Word) (n : Nat) (v : Word) : Word := v <<< laneLo s r a n

/-- The plain write of `v` to the covered bits `be` of a register that held `old` (R79, R119). -/
def stored (s : State) (r : Reg) (old v be : Word) : Word :=
  (old &&& ~~~(s.params.regMap.wmask r &&& be)) ||| (v &&& s.params.regMap.wmask r &&& be)

/-- The wake countdown's length by the wake-select code (R167). -/
def wakeLength (code : Nat) : Int :=
  if code = 0 then 32 else if code = 1 then 48 else if code = 2 then 64 else 96

/-- `w` is the wake countdown after raises on `s`, where `wakes` says that an unmasked wake-capable source was
among them: 32, 48, 64 or 96 by WKSEL where it is armed (R131, R167). -/
def WakeAfter (s : State) (wakes : Prop) (w : Int) : Prop :=
  (wakes ∧ s.field Field.displl = 1 ∧ s.wakeCountdown = -1 → w = wakeLength (s.field Field.wksel)) ∧
  (¬(wakes ∧ s.field Field.displl = 1 ∧ s.wakeCountdown = -1) → w = s.wakeCountdown)

/-- A raise of the source arms the wake countdown: the source is not masked, and its wake kind is `always`, or it is edge-only
and its port-D pin has PDIRQEG set (R131, R137). -/
def Wakes (s : State) (x : SourceRow) : Prop :=
  s.masked x = false ∧ (x.wake = .always ∨ x.wake = .edgeOnly ∧ ∃ i, x.owner = .pin i ∧ s.bit .pdirqeg i = true)

/-! Port D (R302, R306, R307) -/

/-- What the board drives on port-D pin `i`: the battery bit is 1, the card's bit is 1 with a card in, a row's bit is 1
while no key of it is pressed, and a bit that no input drives is 0 (R302). -/
def portDInput (p : InputPins) (x : Inputs) (i : Nat) : Bool :=
  decide (i = p.bat) || (x.sdCardInserted && decide (i = p.sd)) || (!x.keyRow0 && decide (i = p.keyRow0)) ||
    (!x.keyRow1 && decide (i = p.keyRow1)) || (!x.keyRow2 && decide (i = p.keyRow2))

/-- The polarity of port-D pin `i`: PDPOL for pins 0 to 3, ICR.POL1, POL2, POL3, POL6 for pins 4 to 7 (R306). -/
def pinPol (s : State) (i : Nat) : Bool :=
  if i < 4 then s.bit .pdpol i
  else if i = 4 then s.flag .pol1 else if i = 5 then s.flag .pol2 else if i = 6 then s.flag .pol3 else s.flag .pol6

/-- Port-D pin `i` is an enabled input whose polarity-corrected value is 1 (R306). -/
def PinActive (s : State) (i : Nat) : Prop :=
  s.bit .pdirqen i = true ∧ s.bit .pddir i = false ∧ portDInput s.params.pins s.inputs i ≠ pinPol s i

/-- Port-D pin `i` is configured edge-sensitive (R306): PDIRQEG for pins 0 to 3, ICR.ET1, ET2, ET3, ET6 for
pins 4 to 7. -/
def PinEdge (s : State) (i : Nat) : Prop :=
  if i < 4 then s.bit .pdirqeg i = true
  else if i = 4 then s.field .et1 = 1 else if i = 5 then s.field .et2 = 1
  else if i = 6 then s.field .et3 = 1 else s.field .et6 = 1

/-- The evaluation raises the source of port-D pin `i` (R306). -/
def PinRaised (s : State) (i : Nat) : Prop :=
  PinActive s i ∧ (PinEdge s i → s.portDPrevActive.getLsbD i = false)

/-- Some keyboard-enabled port-D input reads 0 after the polarity (R307). -/
def KeyboardLow (s : State) : Prop :=
  ∃ i < 8, s.bit .pdkben i = true ∧ s.bit .pddir i = false ∧ portDInput s.params.pins s.inputs i = s.bit .pdpol i

/-- `t` is what the port-D evaluation makes of `s`, as far as the register file, the wake countdown and the
previous activity go (R306, R307). -/
structure PortDEvaluated (s t : State) : Prop where
  /-- An edge pin's source latches; a level pin's source follows the pin. -/
  pins : ∀ i < 8, t.pending (s.pinSource i) = true ↔
    PinRaised s i ∨ (PinEdge s i ∧ s.pending (s.pinSource i) = true)
  /-- The keyboard source follows the rows. -/
  keyboard : t.pending (s.source .keyboard) = true ↔ KeyboardLow s
  /-- No other pending flag changes. -/
  others : ∀ n, (∀ i < 8, n ≠ (s.pinSource i).bit.val) → n ≠ (s.source .keyboard).bit.val → t.bit .ipr n = s.bit .ipr n
  active : t.reg .isr = t.reg .ipr &&& ~~~t.reg .imr
  previous : ∀ i < 8, t.portDPrevActive.getLsbD i = true ↔ PinActive s i
  /-- A raise of an unmasked wake-capable source arms the countdown. -/
  wake : WakeAfter s ((KeyboardLow s ∧ Wakes s (s.source .keyboard)) ∨
    ∃ i < 8, PinRaised s i ∧ Wakes s (s.pinSource i)) t.wakeCountdown
  bytes : BytesKept [.ipr, .isr] s t

/-! One TICK, in terms of the state it starts from (R221 to R234, R198 to R201) -/

/-- The TICK is a second boundary (R221). -/
def Boundary (s : State) : Prop := s.tickCounter + 1 = 32768

/-- `tickCounter` during and after the TICK (R221). -/
def nextCounter (s : State) : Nat := if s.tickCounter + 1 = 32768 then 0 else s.tickCounter + 1

/-- `w` of R233: the WATCHDOG register one step on, under the mask. -/
def watchdogStepped (s : State) : Half := ((s.reg .watchdog).setWidth 16 + s.params.wdt.step) &&& s.params.wdt.mask

/-- The watchdog steps onto its expiry bit in this TICK (R233). -/
def WatchdogExpires (s : State) : Prop :=
  Boundary s ∧ s.field Field.wdtEn = 1 ∧ watchdogStepped s &&& s.params.wdt.expiry ≠ 0

/-- The TICK is aborted (R235, R262). -/
def Aborts (s : State) : Prop := WatchdogExpires s ∧ s.field Field.wdtIsel = 0

/-- The RTC counts a second in this TICK (R223). -/
def RtcRuns (s : State) : Prop := Boundary s ∧ s.field Field.rtcEn = 1

/-- The seconds roll over when the RTC counts a second (R223). -/
def SecondsRoll (s : State) : Prop := 60 ≤ s.field Field.seconds + 1

/-- The minutes roll over when the RTC counts a second: at a carry of the seconds that takes them to their limit (R223), or at
or above the limit (R225; log 22). -/
def MinutesRoll (s : State) : Prop :=
  (SecondsRoll s ∧ 60 ≤ s.field Field.minutes + 1) ∨ 60 ≤ s.field Field.minutes

/-- The hours roll over when the RTC counts a second: see `MinutesRoll`. -/
def HoursRoll (s : State) : Prop := (MinutesRoll s ∧ 24 ≤ s.field Field.hours + 1) ∨ 24 ≤ s.field Field.hours

/-- The bits of RTCTIME and of DAYR that hold the time of day (R220). -/
def timeMask (s : State) : Word :=
  s.params.regMap.mask .hours ||| s.params.regMap.mask .minutes ||| s.params.regMap.mask .seconds

/-- `x` as a field of the map's width holds it (R96); the default map's fields hold every time of day as it is. -/
def fits (s : State) (f : Field) (x : Nat) : Nat := x % 2 ^ s.params.regMap.len f

/-- `t` holds the time of day that a TICK makes of that of `s` (R223, R225; log 22). -/
def TimeOfDayAfter (s t : State) : Prop :=
  (¬RtcRuns s → t.reg .rtctime = s.reg .rtctime ∧ t.reg .dayr = s.reg .dayr) ∧
  (RtcRuns s →
    (SecondsRoll s → t.field Field.seconds = 0) ∧
    (¬SecondsRoll s → t.field Field.seconds = fits s .seconds (s.field Field.seconds + 1)) ∧
    (MinutesRoll s → t.field Field.minutes = 0) ∧
    (¬MinutesRoll s → SecondsRoll s → t.field Field.minutes = fits s .minutes (s.field Field.minutes + 1)) ∧
    (¬MinutesRoll s → ¬SecondsRoll s → t.field Field.minutes = s.field Field.minutes) ∧
    (HoursRoll s → t.field Field.hours = 0) ∧
    (¬HoursRoll s → MinutesRoll s → t.field Field.hours = fits s .hours (s.field Field.hours + 1)) ∧
    (¬HoursRoll s → ¬MinutesRoll s → t.field Field.hours = s.field Field.hours) ∧
    (HoursRoll s →
      t.field Field.days = (s.field Field.days + 1) % 2 ^ s.params.dayBits) ∧
    (¬HoursRoll s → t.field Field.days = s.field Field.days) ∧
    t.reg .rtctime &&& ~~~timeMask s = s.reg .rtctime &&& ~~~timeMask s ∧
    t.reg .dayr &&& ~~~s.params.regMap.mask .days = s.reg .dayr &&& ~~~s.params.regMap.mask .days)

/-- The once-per-second event at bit `n` of RTCISR happens in this TICK: SEC, MIN, HR or DAY (R224). -/
def SecondEvent (s : State) (n : Nat) : Prop :=
  RtcRuns s ∧ (n = bitOf s .sec ∨ (n = bitOf s .min ∧ SecondsRoll s) ∨ (n = bitOf s .hr ∧ MinutesRoll s) ∨
    (n = bitOf s .day ∧ HoursRoll s))

/-- The ladder member at bit `n` of RTCISR fires at this TICK: SAM0 to SAM7, every 8192 ticks down to every 64
(R226, R227). -/
def LadderEvent (s : State) (n : Nat) : Prop :=
  ∃ i : Fin 8, n = bitOf s (.sam i) ∧ nextCounter s % (8192 / 2 ^ i.val) = 0

/-- The accumulator of timer `n` before its integer part is taken (R198). -/
def sum (s : State) (n : TimerId) : F64 := F64.add (s.timerAcc n) (s.timerDelta n)

/-- The counter of timer `n` before write-back: `new` of R199. -/
def advanced (s : State) (n : TimerId) : Nat :=
  (s.field (Field.count n) + (sum s n).units / F64.one) % 65536

/-- Timer `n` is enabled and crosses its compare value in this TICK (R12, R200). -/
def Matches (s : State) (n : TimerId) : Prop :=
  s.field (Field.ten n) = 1 ∧ s.field (Field.count n) < s.field (Field.compare n) ∧
    s.field (Field.compare n) ≤ advanced s n

/-- A TICK that is not aborted raises the source, by its owner (R200, R224, R226, R234). -/
def TickRaises (s : State) (x : SourceRow) : Prop :=
  match x.owner with
  | .rtcSecond => ∃ n, SecondEvent s n ∧ s.bit .rtcienr n = true
  | .watchdog => WatchdogExpires s ∧ s.field Field.wdtIsel = 1
  | .ladder => ∃ n, LadderEvent s n ∧ s.bit .rtcienr n = true
  | .timer n => Matches s n ∧ s.field (Field.irqen n) = 1
  | .external | .keyboard | .pin _ => False

/-- A run of consecutive TICK operations: `f k` is the state after `k` of them. -/
def Ticks (f : Nat → State) : Prop := ∀ k, exec .tick (f k) = .next (f (k + 1))

/-! Reads (R110, R302, R303) -/

/-- What the bit `k` of the byte at offset `p` reads as: PDDATA and PKDATA synthesised, every other byte as
stored (R23, R302, R303). -/
def readBit (s : State) (p k : Nat) : Bool :=
  if p = s.params.regMap.offset .pddata then
    if s.bit .pddir k then s.bit .pddata k else portDInput s.params.pins s.inputs k != s.bit .pdpol k
  else if p = s.params.regMap.offset .pkdata then
    if s.bit .pkdir k then s.bit .pkdata k else decide (k = s.params.pins.dock) && s.inputs.dockConnected
  else (s.rf.read p).getLsbD k

/-- `t` is `s` after a read of `n` bytes at `a` that returned `v`: only `timerReadAck` of a TSTATn that the
read touched is refreshed (R80, R196). -/
def AfterRead (s t : State) (a : Word) (n : Nat) (v : Returned) : Prop :=
  (Touches s .tstat1 a n → t.timerReadAck1 = (s.reg .tstat1).setWidth 16) ∧
  (¬Touches s .tstat1 a n → t.timerReadAck1 = s.timerReadAck1) ∧
  (Touches s .tstat2 a n → t.timerReadAck2 = (s.reg .tstat2).setWidth 16) ∧
  (¬Touches s .tstat2 a n → t.timerReadAck2 = s.timerReadAck2) ∧
  t = { s with timerReadAck1 := t.timerReadAck1, timerReadAck2 := t.timerReadAck2, returned := v, events := [] }

/-! Descriptors (R94) -/

/-- The reserved descriptors, class by class (R94). -/
def Reserved (d : Byte) : Prop :=
  let opc := d.toNat / 16
  let sub := d.toNat % 16
  ((opc = 0 ∨ opc = 1) ∧ 3 ≤ sub) ∨
  ((opc = 2 ∨ opc = 3 ∨ opc = 6 ∨ opc = 7 ∨ opc = 8) ∧ sub ≠ 0) ∨
  (opc = 4 ∧ 8 ≤ sub) ∨
  (opc = 5 ∧ 2 ≤ sub) ∨
  (opc = 9 ∧ 3 ≤ sub) ∨
  (opc = 10 ∧ 2 ≤ sub) ∨
  11 ≤ opc

/-! Rounding (R11) -/

/-- A count of 2^-1074 that is a binary64 number: at most 53 significant bits (the range above is never met). -/
def Representable (m : Nat) : Prop := ∃ sig e, sig < 2 ^ 53 ∧ m = sig * 2 ^ e

/-- `r` is the binary64 number nearest to `num / den` units: no other is nearer, and if another is as near, `r` is an
even multiple of the gap between the two (R11). -/
def Nearest (r num den : Nat) : Prop :=
  Representable r ∧
  ∀ m, Representable m → m ≠ r →
    let errR := ((r : Int) * den - num).natAbs
    let errM := ((m : Int) * den - num).natAbs
    errR ≤ errM ∧ (errR = errM → 2 * ((m : Int) - r).natAbs ∣ r)

/-- The registers with a plain write and no trigger (R119, R141, R145, R193, R194, R229, R309). -/
def plainRegs : List Reg :=
  [.ivr, .ilcr, .tctl1, .tctl2, .tprer1, .tprer2, .tcmp1, .tcmp2, .rtctime, .dayr, .rtcctl, .rtcienr,
   .pbpuen, .pdpuen, .pgpuen, .pkpuen]

/-- The registers whose write recomputes the status flags (R309). -/
def statusTriggers : List Reg :=
  [.pbdir, .pbsel, .pbdata, .pgdir, .pgsel, .pgdata, .pkdir, .pksel, .pkdata]

/-- The registers whose write runs the port-D evaluation (R146, R309). -/
def portDTriggers : List Reg :=
  [.icr, .pkdir, .pksel, .pkdata, .pddir, .pdsel, .pddata, .pdpol, .pdirqen, .pdirqeg, .pdkben]

/-- The operation that reports a fault kind (R332). -/
def faultOp : FaultKind → Instr
  | .wpv => .busFaultWpv
  | .beto => .busFaultBeto
  | .prv => .busFaultPrv

/-- The code of a fault kind in its descriptor (R332). -/
def faultCode : FaultKind → Byte
  | .wpv => 0
  | .beto => 1
  | .prv => 2

/-- The bit of SCR that latches a fault kind (R332). -/
def faultBit (s : State) (k : FaultKind) : Nat := bitOf s (Field.ofFault k)

/-- The operations that, on `s`, may change the pending flag of a source, by its owner (R28, R130). -/
def MayChangePending (s : State) (i : Instr) (x : SourceRow) : Prop :=
  match x.owner with
  | .external => ∃ line, i = .extIrq x.name line
  | .timer n => i = .tick ∨ WritesTo s i (Reg.tstat n)
  | .watchdog => i = .tick ∨ WritesTo s i .watchdog
  | .rtcSecond | .ladder => i = .tick ∨ WritesTo s i .rtcisr
  | .keyboard => (∃ x, i = .inputChange x) ∨ ∃ r ∈ portDTriggers, WritesTo s i r
  | .pin _ => (∃ x, i = .inputChange x) ∨ WritesTo s i .isr ∨ ∃ r ∈ portDTriggers, WritesTo s i r

end Sys2Proof.Claims

open Sys2Proof Sys2Proof.Machine Sys2Proof.Claims

/-! Descriptors and requests -/

/-- Decoding an encoded operation gives it back, for every operation with its operands in range; and what the decoder
accepts is well-formed (R91, R92, R94, R97). The limit on SET_RTC's days is not the decoder's: it depends on a parameter, and
SET_RTC itself refuses it (R236). -/
def Obligations.DecodeEncode : Prop :=
  (∀ i : Instr, i.wf = true → decode (encode i) = .ok i) ∧ ∀ (q : Request) (i : Instr), decode q = .ok i → i.wf = true

/-- A descriptor matches no row of the table and is refused as reserved, or exactly one row, whose operation is the
only one it can decode to (R93). -/
def Obligations.DescriptorSelectsOneRow : Prop :=
  ∀ q : Request,
    (matchingRows q.descriptor = [] ∧ decode q = .error (.reservedDescriptor q.descriptor)) ∨
    (∃ r, matchingRows q.descriptor = [r] ∧ (∀ i, decode q = .ok i → mnemonicOf i = r.mnemonic) ∧
      ∀ d, decode q ≠ .error (.reservedDescriptor d))

/-- The requests that are refused, each by its name, and that every other request is performed (R94; that a WRITE's value of
more than 8n bits is among them is the model's reading of R92 and D2, log 15). -/
def Obligations.RefusedRequests : Prop :=
  ∀ (s : State) (q : Request) (rest : List Request), s.requests = q :: rest →
    let d := q.descriptor
    let op := q.operand
    let rtcOk := op.hours < 24 ∧ op.minutes < 60 ∧ op.seconds < 60 ∧ op.days < 2 ^ s.params.dayBits
    let inputsOk := op.inputs.sdCardInserted ≠ none ∧ op.inputs.keyRow0 ≠ none ∧ op.inputs.keyRow1 ≠ none ∧
      op.inputs.keyRow2 ≠ none ∧ op.inputs.dockConnected ≠ none
    let sourceOk := ∃ x ∈ s.params.sources.rows, x.name = op.source ∧ x.owner = .external
    let valueOk := (d = 0x10 → op.value.toNat < 2 ^ 8) ∧ (d = 0x11 → op.value.toNat < 2 ^ 16)
    (s.params.sources = .default →
      (sourceOk ↔ op.source ∈ [Source.spi2, .uart1, .pwm1, .uart2, .pwm2, .irq5, .spi1, .emiq])) ∧
    (Reserved d → step s = .refused (.reservedDescriptor d)) ∧
    (¬valueOk → step s = .refused .valueTooWide) ∧
    (d = 0x60 → ¬rtcOk → step s = .refused .rtcOutOfRange) ∧
    (d = 0x70 → ¬inputsOk → step s = .refused .incompleteInputs) ∧
    (d = 0xA0 ∨ d = 0xA1 → ¬sourceOk → step s = .refused (.notExternalRequest op.source)) ∧
    (¬Reserved d → valueOk → (d = 0x60 → rtcOk) → (d = 0x70 → inputsOk) → (d = 0xA0 ∨ d = 0xA1 → sourceOk) →
      ∃ t, step s = .next t)

/-- A few descriptors written out bit by bit, with the operations they stand for (R91). -/
def Obligations.WrittenDescriptors : Prop :=
  ∀ op : Operand,
    decode ⟨0b00000010, op⟩ = .ok (.read32 op.addr) ∧
    (∀ v : Half, decode ⟨0b00010001, { op with value := v.setWidth 32 }⟩ = .ok (.write16 op.addr v)) ∧
    decode ⟨0b00100000, op⟩ = .ok .tick ∧
    decode ⟨0b00110000, op⟩ = .ok .resetAll ∧
    decode ⟨0b01000110, op⟩ = .ok (.iack 6) ∧
    decode ⟨0b01010001, op⟩ = .ok .isRegWindowRelocated ∧
    decode ⟨0b10000000, op⟩ = .ok .setLowPowerStop ∧
    decode ⟨0b10010010, op⟩ = .ok .busFaultPrv ∧
    decode ⟨0b10100001, { op with source := .emiq }⟩ = .ok (.extIrq .emiq true)

/-- A step performs the oldest operation invoked, on the state without it; with none invoked it changes nothing
(R6, R82; that requests wait in a queue is the model's choice, log 13). -/
def Obligations.StepPerformsRequest : Prop :=
  (∀ s : State, s.requests = [] → step s = .next s) ∧
  ∀ (s : State) (q : Request) (rest : List Request) (i : Instr),
    s.requests = q :: rest → decode q = .ok i → step s = exec i { s with requests := rest }

/-! Invariants -/

/-- State.reset is a legal state, and its level is the one delivered (R30, R31, R32, R270). -/
def Obligations.ResetIsLegal : Prop := State.reset.Legal ∧ State.reset.iplCurrent

/-- Every step keeps the register file in its canonical form: offsets strictly rising and below 4096, and no cell equal to
0, which an unlisted offset reads as (log 3). -/
def Obligations.StepKeepsMemoryForm : Prop :=
  ∀ s t : State, s.rf.wf = true → step s = .next t → t.rf.wf = true

/-- `ISR = IPR & ~IMR` holds after reset and is kept by every step; and an operation that changes IPR or IMR makes it
hold whatever held before (R30). -/
def Obligations.StepKeepsIsr : Prop :=
  State.reset.isrConsistent ∧
  (∀ s t : State, s.isrConsistent → step s = .next t → t.isrConsistent) ∧
  ∀ (i : Instr) (s t : State), exec i s = .next t →
    t.reg .ipr ≠ s.reg .ipr ∨ t.reg .imr ≠ s.reg .imr → t.isrConsistent

/-- The IPR bits that belong to no source stay 0, and with them those of ISR (R130). That a
reset image sets none of them is a condition on the parameter (log 3). -/
def Obligations.StepKeepsUnownedBitsClear : Prop :=
  ∀ s t : State, s.pendingBitsOwned → s.isrConsistent → step s = .next t →
    t.pendingBitsOwned ∧ ∀ n, (∀ x ∈ s.params.sources.rows, x.bit.val ≠ n) → t.bit .ipr n = false ∧ t.bit .isr n = false

/-- Every step keeps the ranges of the internal counters: the accumulators in [0, 1) and binary64 numbers, the tick
counter below 32768, the wake countdown between -1 and 96 (R32). -/
def Obligations.StepKeepsCounterRanges : Prop :=
  ∀ s t : State, s.countersLegal → step s = .next t → t.countersLegal

/-- Every step keeps the bank descriptors and the status flags equal to the functions of the registers that define
them (R270, R304). -/
def Obligations.StepKeepsDerivedState : Prop :=
  (∀ s t : State, s.chipsCurrent → step s = .next t → t.chipsCurrent) ∧
  ∀ s t : State, s.statusCurrent → step s = .next t → t.statusCurrent

/-- The delivered level stays the level of the active sources through every operation but a TICK that emits
SystemReset (R31). -/
def Obligations.LevelStaysCurrent : Prop :=
  ∀ (i : Instr) (s t : State), s.iplCurrent → exec i s = .next t → Event.systemReset ∉ t.events → t.iplCurrent

/-! Rules about every operation -/

/-- The operation ends with `checkInterrupts()` (R134; a write that does not reach the register file returns
before it, R114). -/
def Sys2Proof.Claims.Delivers (i : Instr) (s : State) : Prop :=
  (∃ a n v, writeParts i = some (a, n, v) ∧ s.reaches a = true) ∨ (i = .tick ∧ ¬Aborts s) ∨ i = .resetAll ∨
    (∃ x, i = .inputChange x) ∨ ∃ x line, i = .extIrq x line

/-- The level a source contributes: a constant, or a 3-bit field of ILCR (R28, R136). -/
def Sys2Proof.Claims.sourceLevel (s : State) (x : SourceRow) : Nat :=
  match x.level with
  | .fixed n => n
  | .prog k => s.field (.lvl k)

/-- The levels of the 22 sources of the default tables (R27, R28; logs 1 and 2). -/
def Sys2Proof.Claims.defaultLevel (s : State) : Source → Nat
  | .emiq => 7
  | .tmr1 | .pwm1 | .irq6 => 6
  | .irq5 => 5
  | .spi2 | .uart1 | .wdt | .rtc | .kb | .int0 | .int1 | .int2 | .int3 | .rti => 4
  | .irq3 => 3
  | .irq2 => 2
  | .irq1 => 1
  | .spi1 => (s.reg .ilcr).toNat / 2 ^ 12 % 8
  | .uart2 => (s.reg .ilcr).toNat / 2 ^ 8 % 8
  | .pwm2 => (s.reg .ilcr).toNat / 2 ^ 4 % 8
  | .tmr2 => (s.reg .ilcr).toNat % 8
  | .unnamed1 | .unnamed2 | .unnamed3 | .unnamed4 | .unnamed5 => 0

/-- The operations that evaluate the level emit SetIpl once, as their last event, with the greatest level of the
active sources, each at its own level, or 0; every other operation emits none and leaves the level (R134). Under the default
tables the levels are those of R28. -/
def Obligations.LevelIsTheMaximum : Prop :=
  ∀ (i : Instr) (s t : State), exec i s = .next t →
    (Delivers i s →
      (∃ before, t.events = before ++ [.setIpl t.cpuIpl] ∧ ∀ l, Event.setIpl l ∉ before) ∧
      (∀ x ∈ s.params.sources.rows, t.active x = true → sourceLevel t x ≤ t.cpuIpl.toNat) ∧
      (t.cpuIpl = 0 ∨ ∃ x ∈ s.params.sources.rows, t.active x = true ∧ sourceLevel t x = t.cpuIpl.toNat) ∧
      (s.params.regMap = .default → s.params.sources = .default →
        ∀ x ∈ s.params.sources.rows, sourceLevel t x = defaultLevel t x.name)) ∧
    (¬Delivers i s → (∀ l, Event.setIpl l ∉ t.events) ∧ t.cpuIpl = s.cpuIpl)

/-- BusError and SystemReset come from their own operations alone, and never beside SetIpl (R262, R337, R406). -/
def Obligations.ErrorEvents : Prop :=
  ∀ (i : Instr) (s t : State), exec i s = .next t →
    (∀ k, Event.busError k ∈ t.events → i = faultOp k ∧ s.field Field.beten = 1 ∧ t.events = [.busError k]) ∧
    (Event.systemReset ∈ t.events → i = .tick ∧ Aborts s ∧ t.events = [.systemReset])

/-- A pending flag changes only by an operation of the source's owner or by RESET_ALL (R130, R28). -/
def Obligations.PendingChangesByOwner : Prop :=
  ∀ (i : Instr) (s t : State), ∀ x ∈ s.params.sources.rows, exec i s = .next t → t.pending x ≠ s.pending x →
    i = .resetAll ∨ MayChangePending s i x

/-- A fault flag is set only by its BUS_FAULT and cleared only by a written 1 (R333, R336), but for RESET_ALL, which loads
the reset image, set or clear (R440; log 3). A write reaches SCR through the byte of its span at SCR's offset. -/
def Obligations.FaultFlagsSticky : Prop :=
  ∀ (i : Instr) (s t : State) (k : FaultKind), exec i s = .next t →
    (t.bit .scr (faultBit s k) = true ↔
      i = faultOp k ∨
      (i = .resetAll ∧ (s.params.resetMemory.reg s.params.regMap .scr).getLsbD (faultBit s k) = true) ∨
      (i ≠ .resetAll ∧ s.bit .scr (faultBit s k) = true ∧
        ¬∃ a n v j, writeParts i = some (a, n, v) ∧ s.reaches a = true ∧ j < n ∧
          (offsetOf a + j) % 4096 = s.params.regMap.offset .scr ∧ v.getLsbD (8 * (n - 1 - j) + faultBit s k) = true))

/-- Boot mode is set by RESET_ALL alone, and ends at a write to CSA after which CSA.EN is 1 (R276). -/
def Obligations.BootModeOneWay : Prop :=
  ∀ (i : Instr) (s t : State), exec i s = .next t →
    (t.bootMode = true ↔
      i = .resetAll ∨ (s.bootMode = true ∧ ¬(WritesTo s i .csa ∧ t.field (Field.csEn .rom) = 1)))

/-- The low-power stop flag is set by SET_LOW_POWER_STOP (descriptor 0x80), cleared by IACK and RESET_ALL, and kept by every other
operation (R138, R331, R440). -/
def Obligations.LowPowerStopFlag : Prop :=
  (∀ op : Operand, decode ⟨0x80, op⟩ = .ok .setLowPowerStop) ∧
  (∀ s, exec .setLowPowerStop s = .next { s with lowPowerStop := true, returned := .nothing, events := [] }) ∧
  ∀ (i : Instr) (s t : State), exec i s = .next t →
    (t.lowPowerStop = true ↔
      i = .setLowPowerStop ∨ (s.lowPowerStop = true ∧ i ≠ .resetAll ∧ ∀ l, i ≠ .iack l))

/-- Once PROT is set, nothing but RESET_ALL changes PLLFSR: the P and Q values and PROT itself stay (R165, R440). -/
def Obligations.ProtectedFrequencyStays : Prop :=
  ∀ (i : Instr) (s t : State), i ≠ .resetAll → s.field Field.prot = 1 → exec i s = .next t →
    t.reg .pllfsr = s.reg .pllfsr

/-- A write inside IPR or TCNn has no effect but the level's evaluation, and no operation but TICK and RESET_ALL
changes a timer's counter (R144, R195). -/
def Obligations.ReadOnlyRegisters : Prop :=
  (∀ (i : Instr) (s : State) (a : Word) (n : Nat) (v : Word) (r : Reg), r = .ipr ∨ r = .tcn1 ∨ r = .tcn2 →
    writeParts i = some (a, n, v) → Inside s r a n →
    ∃ t, exec i s = .next t ∧ Delivered t ∧
      t = { s with cpuIpl := t.cpuIpl, returned := .nothing, events := t.events }) ∧
  ∀ (i : Instr) (s t : State) (m : TimerId), exec i s = .next t → i ≠ .tick → i ≠ .resetAll →
    t.reg (Reg.tcn m) = s.reg (Reg.tcn m)

/-- TICK neither reads the board inputs nor runs the port-D evaluation, and no operation but INPUT_CHANGE changes the
inputs (R264). -/
def Obligations.TickIgnoresInputs : Prop :=
  (∀ (s t : State) (x : Inputs), exec .tick s = .next t →
    exec .tick { s with inputs := x } = .next { t with inputs := x }) ∧
  (∀ s t : State, exec .tick s = .next t → t.portDPrevActive = s.portDPrevActive) ∧
  ∀ (i : Instr) (s t : State), exec i s = .next t → (∀ x, i ≠ .inputChange x) → t.inputs = s.inputs

/-! RESET_ALL and the operations without an address -/

/-- RESET_ALL (descriptor 0x30) gives every piece of state but the board inputs its reset value, whatever it held: it loads
the reset image, computes what is derived from it, evaluates port D, and delivers the level after MapChanged; with the
default all-zero image nothing is pending, the level is 0, and under the default parameters the state is that of State.reset
(R440; log 3). The model follows R440 where R33's table leaves the evaluation's effects out (log 23). `u` is the state
before the port-D evaluation. -/
def Obligations.ResetAll : Prop :=
  (∀ op : Operand, decode ⟨0x30, op⟩ = .ok .resetAll) ∧
  ∀ s : State, ∃ t u : State, exec .resetAll s = .next t ∧
    (∀ p, ¬Owns s .isr p → u.rf.read p = s.params.resetMemory.read p) ∧
    u.reg .isr = u.reg .ipr &&& ~~~u.reg .imr ∧
    u = { s with
      rf := u.rf, bootMode := true, chips := describeChips s.params u.rf true, wakeCountdown := -1,
      timerAcc1 := ⟨0⟩, timerAcc2 := ⟨0⟩, timerReadAck1 := 0, timerReadAck2 := 0, tickCounter := 0,
      lowPowerStop := false, portDPrevActive := 0, statusFlags := describeStatus s.params.regMap u.rf, returned := .nothing,
      events := [.mapChanged u.chips] } ∧
    PortDEvaluated u t ∧ t.cpuIpl = BitVec.ofNat 3 t.level ∧ t.events = [.mapChanged u.chips, .setIpl t.cpuIpl] ∧
    t = { u with
      rf := t.rf, wakeCountdown := t.wakeCountdown, portDPrevActive := t.portDPrevActive, cpuIpl := t.cpuIpl,
      events := t.events } ∧
    (s.params.resetImage = [] →
      (∀ p, t.rf.read p = 0) ∧ t.wakeCountdown = -1 ∧ t.portDPrevActive = 0 ∧ t.cpuIpl = 0) ∧
    (s.params = Params.default → t = { State.reset with inputs := s.inputs, requests := s.requests })

/-- After RESET_ALL the PLL is on and its rates are 30.0 and 15.0, with the default image and divisors (R441). -/
def Obligations.ResetRates : Prop :=
  ∀ s t : State, s.params = Params.default → exec .resetAll s = .next t →
    t.field Field.displl = 0 ∧ t.dmaclkPerTick = F64.ofNat 30 ∧ t.sysclkPerTick = F64.ofNat 15 ∧
      t.dmaclkPerTick.bits = 0x403E000000000000 ∧ t.sysclkPerTick.bits = 0x402E000000000000

/-- IACK (descriptor 0x40 with its level) returns 15 while IVR is 0 and `IVR | level` otherwise, ends the low-power stop, and changes nothing else: no
pending flag, no mask and no level (R138, R139, R150). -/
def Obligations.Iack : Prop :=
  (∀ (l : BitVec 3) (op : Operand), decode ⟨0x40 ||| l.setWidth 8, op⟩ = .ok (.iack l)) ∧
  ∀ (l : BitVec 3) (s : State),
    exec (.iack l) s = .next { s with
      lowPowerStop := false
      returned := .byte (if s.reg .ivr = 0 then 15 else (s.reg .ivr).setWidth 8 ||| l.setWidth 8)
      events := [] }

/-- EXT_IRQ (descriptor 0xA0 with its line value) drives the pending flag of an external source to the line value, wakes a powered-down PLL when it raises
an unmasked one, and delivers the level; for a name that is no such source it is refused (R135). -/
def Obligations.ExtIrq : Prop :=
  (∀ (x : Source) (op : Operand),
    decode ⟨0xA0, { op with source := x }⟩ = .ok (.extIrq x false) ∧
    decode ⟨0xA1, { op with source := x }⟩ = .ok (.extIrq x true)) ∧
  ∀ (x : Source) (line : Bool) (s : State),
    ((∀ y ∈ s.params.sources.rows, y.name = x → y.owner ≠ .external) →
      exec (.extIrq x line) s = .refused (.notExternalRequest x)) ∧
    ∀ y ∈ s.params.sources.rows, y.name = x → y.owner = .external → ∃ t, exec (.extIrq x line) s = .next t ∧
      (∀ n, t.bit .ipr n = if n = y.bit.val then line else s.bit .ipr n) ∧
      t.reg .isr = t.reg .ipr &&& ~~~t.reg .imr ∧
      WakeAfter s (line = true ∧ Wakes s y) t.wakeCountdown ∧
      Delivered t ∧ BytesKept [.ipr, .isr] s t ∧
      t = { s with
        rf := t.rf, wakeCountdown := t.wakeCountdown, cpuIpl := t.cpuIpl, returned := .nothing, events := t.events }

/-- SET_RTC (descriptor 0x60) stores its four fields, each truncated to the width that the map gives it, and changes nothing
else; out of range it is refused (R236, R96). Under the default map nothing is truncated. -/
def Obligations.SetRtc : Prop :=
  ∀ (d h m sec : Nat) (s : State),
    (¬(h < 24 ∧ m < 60 ∧ sec < 60 ∧ d < 2 ^ s.params.dayBits) → exec (.setRtc d h m sec) s = .refused .rtcOutOfRange) ∧
    (h < 24 ∧ m < 60 ∧ sec < 60 ∧ d < 2 ^ s.params.dayBits →
      ∀ op : Operand, decode ⟨0x60, { op with days := d, hours := h, minutes := m, seconds := sec }⟩ =
        .ok (.setRtc d h m sec)) ∧
    (h < 24 ∧ m < 60 ∧ sec < 60 ∧ d < 2 ^ s.params.dayBits → ∃ t, exec (.setRtc d h m sec) s = .next t ∧
      t.field Field.days = d ∧ t.field Field.hours = fits s .hours h ∧ t.field Field.minutes = fits s .minutes m ∧
      t.field Field.seconds = fits s .seconds sec ∧
      (s.params.regMap = .default → fits s .hours h = h ∧ fits s .minutes m = m ∧ fits s .seconds sec = sec) ∧
      t.reg .rtctime &&& ~~~timeMask s = s.reg .rtctime &&& ~~~timeMask s ∧
      t.reg .dayr &&& ~~~s.params.regMap.mask .days = s.reg .dayr &&& ~~~s.params.regMap.mask .days ∧
      BytesKept [.rtctime, .dayr] s t ∧
      t = { s with rf := t.rf, returned := .nothing, events := [] })

/-- INPUT_CHANGE (descriptor 0x70) replaces the inputs, evaluates port D and delivers the level; with an incomplete record
it is refused (R306, R308). -/
def Obligations.InputChange : Prop :=
  (∀ (x : Inputs) (op : Operand), decode ⟨0x70, { op with inputs := .ofInputs x }⟩ = .ok (.inputChange x)) ∧
  (∀ op : Operand, op.inputs.full? = none → decode ⟨0x70, op⟩ = .error .incompleteInputs) ∧
  ∀ (x : Inputs) (s : State), ∃ t, exec (.inputChange x) s = .next t ∧
    PortDEvaluated { s with inputs := x } t ∧ Delivered t ∧
    t = { s with
      inputs := x, rf := t.rf, wakeCountdown := t.wakeCountdown, portDPrevActive := t.portDPrevActive,
      cpuIpl := t.cpuIpl, returned := .nothing, events := t.events }

/-- The two queries (descriptors 0x50 and 0x51) return whether the PLL is on and whether SCR.DMAP is 1, and change
nothing (R169, R330). -/
def Obligations.Queries : Prop :=
  (∀ op : Operand, decode ⟨0x50, op⟩ = .ok .isSysclkRunning ∧ decode ⟨0x51, op⟩ = .ok .isRegWindowRelocated) ∧
  ∀ s : State,
    exec .isSysclkRunning s =
      .next { s with returned := .bool (decide (s.field Field.displl = 0)), events := [] } ∧
    exec .isRegWindowRelocated s =
      .next { s with returned := .bool (decide (s.field Field.dmap = 1)), events := [] }

/-- A BUS_FAULT (descriptor 0x90 with its code) latches its flag in SCR, and emits BusError exactly while BETEN is 1
(R332). -/
def Obligations.BusFault : Prop :=
  (∀ (k : FaultKind) (op : Operand), decode ⟨0x90 ||| faultCode k, op⟩ = .ok (faultOp k)) ∧
  ∀ (k : FaultKind) (s : State), ∃ t, exec (faultOp k) s = .next t ∧
    t.reg .scr = s.reg .scr ||| ((1 : Word) <<< faultBit s k) ∧
    t.events = (if s.field Field.beten = 1 then [.busError k] else []) ∧
    BytesKept [.scr] s t ∧ t = { s with rf := t.rf, returned := .nothing, events := t.events }

/-! Reads -/

/-- A read that reaches the register file returns the bytes of its span, most significant first and wrapped at 4096, with
PDDATA and PKDATA synthesised, and changes nothing but `timerReadAck` (R23, R72, R73, R80, R302, R303). -/
def Obligations.ReadValue : Prop :=
  ∀ (a : Word) (s : State), s.reaches a = true →
    (∃ t v, exec (.read8 a) s = .next t ∧ AfterRead s t a 1 (.byte v) ∧
      ∀ k < 8, v.getLsbD k = readBit s (offsetOf a) k) ∧
    (∃ t v, exec (.read16 a) s = .next t ∧ AfterRead s t a 2 (.half v) ∧
      ∀ k < 16, v.getLsbD k = readBit s ((offsetOf a + (1 - k / 8)) % 4096) (k % 8)) ∧
    (∃ t v, exec (.read32 a) s = .next t ∧ AfterRead s t a 4 (.word v) ∧
      ∀ k < 32, v.getLsbD k = readBit s ((offsetOf a + (3 - k / 8)) % 4096) (k % 8))

/-- Outside the valid addresses, and in the pseudo-register block, a read returns 0 and a write does nothing and emits
nothing (R75, R77); under the default parameters the addresses that reach the register file are those with 0xF in the top
nibble and no 0xE in bits 15 to 12 (log 4). -/
def Obligations.InvalidAccess : Prop :=
  (∀ (a : Word) (s : State), s.params = Params.default →
    (s.reaches a = true ↔ a.extractLsb' 28 4 = 0xF ∧ a.extractLsb' 12 4 ≠ 0xE)) ∧
  ∀ (a : Word) (s : State), a.extractLsb' 28 4 ≠ s.params.periphNibble ∨ s.params.inPseudoBlock a = true →
    exec (.read8 a) s = .next { s with returned := .byte 0, events := [] } ∧
    exec (.read16 a) s = .next { s with returned := .half 0, events := [] } ∧
    exec (.read32 a) s = .next { s with returned := .word 0, events := [] } ∧
    (∀ v, exec (.write8 a v) s = .next { s with returned := .nothing, events := [] }) ∧
    (∀ v, exec (.write16 a v) s = .next { s with returned := .nothing, events := [] }) ∧
    ∀ v, exec (.write32 a v) s = .next { s with returned := .nothing, events := [] }

/-! Writes -/

/-- What a write that reaches the register file can change: the bytes of its span that no register owns, which it stores;
the registers its span touches, and IPR and ISR; and of the state outside the register file only what those
registers' handlers may change (R76, R86, R114, R118). -/
def Obligations.WriteFrame : Prop :=
  ∀ (i : Instr) (s : State) (a : Word) (n : Nat) (v : Word),
    writeParts i = some (a, n, v) → s.reaches a = true →
    ∃ t, exec i s = .next t ∧
      (∀ j < n, s.params.regMap.regAt ((offsetOf a + j) % 4096) = none →
        t.rf.read ((offsetOf a + j) % 4096) = (v >>> (8 * (n - 1 - j))).setWidth 8) ∧
      (∀ p, (∀ j < n, p ≠ (offsetOf a + j) % 4096) → (∀ r, Owns s r p → ¬Touches s r a n ∧ r ≠ .ipr ∧ r ≠ .isr) →
        t.rf.read p = s.rf.read p) ∧
      (¬Touches s .csa a n → t.bootMode = s.bootMode) ∧
      ((∀ r ∈ Reg.chipSelectRegs, ¬Touches s r a n) → t.chips = s.chips) ∧
      (¬Touches s .tstat1 a n → t.timerReadAck1 = s.timerReadAck1) ∧
      (¬Touches s .tstat2 a n → t.timerReadAck2 = s.timerReadAck2) ∧
      ((∀ r ∈ portDTriggers, ¬Touches s r a n) →
        t.portDPrevActive = s.portDPrevActive ∧ t.wakeCountdown = s.wakeCountdown) ∧
      ((∀ r ∈ statusTriggers, ¬Touches s r a n) → t.statusFlags = s.statusFlags) ∧
      t = { s with
        rf := t.rf, bootMode := t.bootMode, chips := t.chips, timerReadAck1 := t.timerReadAck1,
        timerReadAck2 := t.timerReadAck2, portDPrevActive := t.portDPrevActive, wakeCountdown := t.wakeCountdown,
        statusFlags := t.statusFlags, cpuIpl := t.cpuIpl, returned := .nothing, events := t.events }

/-- A write whose span no register owns is plain storage: its bytes are stored, and a read of the same span returns
them (R76). -/
def Obligations.PlainStorage : Prop :=
  ∀ (a : Word) (s : State), s.reaches a = true →
    (∀ v : Byte, s.params.regMap.regAt (offsetOf a) = none →
      ∃ t u, exec (.write8 a v) s = .next t ∧ exec (.read8 a) t = .next u ∧ u.returned = .byte v ∧
        (∀ p, p ≠ offsetOf a → t.rf.read p = s.rf.read p) ∧ Delivered t ∧
        t = { s with rf := t.rf, cpuIpl := t.cpuIpl, returned := .nothing, events := t.events }) ∧
    (∀ v : Half, (∀ j < 2, s.params.regMap.regAt ((offsetOf a + j) % 4096) = none) →
      ∃ t u, exec (.write16 a v) s = .next t ∧ exec (.read16 a) t = .next u ∧ u.returned = .half v ∧
        (∀ p, (∀ j < 2, p ≠ (offsetOf a + j) % 4096) → t.rf.read p = s.rf.read p) ∧ Delivered t ∧
        t = { s with rf := t.rf, cpuIpl := t.cpuIpl, returned := .nothing, events := t.events }) ∧
    (∀ v : Word, (∀ j < 4, s.params.regMap.regAt ((offsetOf a + j) % 4096) = none) →
      ∃ t u, exec (.write32 a v) s = .next t ∧ exec (.read32 a) t = .next u ∧ u.returned = .word v ∧
        (∀ p, (∀ j < 4, p ≠ (offsetOf a + j) % 4096) → t.rf.read p = s.rf.read p) ∧ Delivered t ∧
        t = { s with rf := t.rf, cpuIpl := t.cpuIpl, returned := .nothing, events := t.events })

/-- A write inside a register with a plain write stores the bits that the mask and the byte enables allow, keeps the
others, and does nothing else but deliver the level (R119). -/
def Obligations.PlainWrite : Prop :=
  ∀ (i : Instr) (s : State) (a : Word) (n : Nat) (v : Word) (r : Reg), r ∈ plainRegs →
    writeParts i = some (a, n, v) → Inside s r a n →
    ∃ t, exec i s = .next t ∧ t.reg r = stored s r (s.reg r) (laneValue s r a n v) (laneMask s r a n) ∧
      BytesKept [r] s t ∧ Delivered t ∧
      t = { s with rf := t.rf, cpuIpl := t.cpuIpl, returned := .nothing, events := t.events }

/-- A write inside IMR is a plain write after which ISR is computed again; it wakes nothing (R142). -/
def Obligations.ImrWrite : Prop :=
  ∀ (i : Instr) (s : State) (a : Word) (n : Nat) (v : Word), writeParts i = some (a, n, v) → Inside s .imr a n →
    ∃ t, exec i s = .next t ∧ t.reg .imr = stored s .imr (s.reg .imr) (laneValue s .imr a n v) (laneMask s .imr a n) ∧
      t.reg .isr = t.reg .ipr &&& ~~~t.reg .imr ∧ BytesKept [.imr, .isr] s t ∧ Delivered t ∧
      t = { s with rf := t.rf, cpuIpl := t.cpuIpl, returned := .nothing, events := t.events }

/-- A 1 written to ISR clears the pending flag of a port-D pin source that is configured edge-sensitive; every other
written bit is ignored (R143). -/
def Obligations.IsrWrite : Prop :=
  ∀ (i : Instr) (s : State) (a : Word) (n : Nat) (v : Word), s.isrConsistent →
    writeParts i = some (a, n, v) → Inside s .isr a n →
    ∃ t, exec i s = .next t ∧
      (∀ b, t.bit .ipr b = true ↔ s.bit .ipr b = true ∧
        ¬∃ p < 8, b = (s.pinSource p).bit.val ∧ PinEdge s p ∧
          (laneValue s .isr a n v &&& laneMask s .isr a n).getLsbD b = true) ∧
      t.reg .isr = t.reg .ipr &&& ~~~t.reg .imr ∧ BytesKept [.ipr, .isr] s t ∧ Delivered t ∧
      t = { s with rf := t.rf, cpuIpl := t.cpuIpl, returned := .nothing, events := t.events }

/-- A write inside ICR or a port register stores it, computes the status flags again for the registers they depend on, and
then evaluates port D for the registers it depends on (R146, R305, R309). `u` is the state after the store. -/
def Obligations.PortWrite : Prop :=
  ∀ (i : Instr) (s : State) (a : Word) (n : Nat) (v : Word) (r : Reg), r ∈ Reg.icr :: Reg.portRegs →
    writeParts i = some (a, n, v) → Inside s r a n →
    ∃ t u : State, exec i s = .next t ∧
      u.reg r = stored s r (s.reg r) (laneValue s r a n v) (laneMask s r a n) ∧ BytesKept [r] s u ∧
      u = { s with rf := u.rf } ∧
      (r ∈ portDTriggers → PortDEvaluated u t) ∧
      (r ∉ portDTriggers →
        t.rf = u.rf ∧ t.portDPrevActive = s.portDPrevActive ∧ t.wakeCountdown = s.wakeCountdown) ∧
      t.statusFlags = (if r ∈ statusTriggers then describeStatus s.params.regMap u.rf else s.statusFlags) ∧
      Delivered t ∧
      t = { s with
        rf := t.rf, wakeCountdown := t.wakeCountdown, portDPrevActive := t.portDPrevActive,
        statusFlags := t.statusFlags, cpuIpl := t.cpuIpl, returned := .nothing, events := t.events }

/-- A write inside PLLFSR is dropped whole while PROT is 1, and is a plain write otherwise (R165). -/
def Obligations.PllfsrWrite : Prop :=
  ∀ (i : Instr) (s : State) (a : Word) (n : Nat) (v : Word), writeParts i = some (a, n, v) → Inside s .pllfsr a n →
    ∃ t, exec i s = .next t ∧
      t.reg .pllfsr = (if s.field Field.prot = 1 then s.reg .pllfsr
        else stored s .pllfsr (s.reg .pllfsr) (laneValue s .pllfsr a n v) (laneMask s .pllfsr a n)) ∧
      BytesKept [.pllfsr] s t ∧ Delivered t ∧
      t = { s with rf := t.rf, cpuIpl := t.cpuIpl, returned := .nothing, events := t.events }

/-- A write inside PLLCR is a plain write; with the disable bit written 1 it also emits ShortenBudget(30), and in no case
does it touch the wake countdown (R166). -/
def Obligations.PllcrWrite : Prop :=
  ∀ (i : Instr) (s : State) (a : Word) (n : Nat) (v : Word), writeParts i = some (a, n, v) → Inside s .pllcr a n →
    ∃ t, exec i s = .next t ∧
      t.reg .pllcr = stored s .pllcr (s.reg .pllcr) (laneValue s .pllcr a n v) (laneMask s .pllcr a n) ∧
      t.cpuIpl = BitVec.ofNat 3 t.level ∧
      t.events = (if (laneValue s .pllcr a n v &&& laneMask s .pllcr a n).getLsbD (bitOf s .displl) then [.shortenBudget 30] else []) ++
        [.setIpl t.cpuIpl] ∧
      BytesKept [.pllcr] s t ∧
      t = { s with rf := t.rf, cpuIpl := t.cpuIpl, returned := .nothing, events := t.events }

/-- A write inside TSTATn clears the status bits that a read has exposed and that are written 0, and TMRn's pending flag
when COMP is then 0 (R197). -/
def Obligations.TstatWrite : Prop :=
  ∀ (i : Instr) (s : State) (a : Word) (n : Nat) (v : Word) (m : TimerId), s.isrConsistent →
    writeParts i = some (a, n, v) → Inside s (Reg.tstat m) a n →
    ∃ t, exec i s = .next t ∧
      (∀ b, t.bit (Reg.tstat m) b = true ↔ s.bit (Reg.tstat m) b = true ∧
        ¬((b = bitOf s (.comp m) ∨ b = bitOf s (.capt m)) ∧ (laneMask s (Reg.tstat m) a n).getLsbD b = true ∧ (laneValue s (Reg.tstat m) a n v).getLsbD b = false ∧
          (s.timerReadAck m).getLsbD b = true)) ∧
      (∀ b, (t.timerReadAck m).getLsbD b = true ↔ (s.timerReadAck m).getLsbD b = true ∧
        ¬((b = bitOf s (.comp m) ∨ b = bitOf s (.capt m)) ∧ (laneMask s (Reg.tstat m) a n).getLsbD b = true ∧
          (laneValue s (Reg.tstat m) a n v).getLsbD b = false)) ∧
      (∀ b, t.bit .ipr b = true ↔ s.bit .ipr b = true ∧
        (b = (s.source (.timer m)).bit.val → t.field (.comp m) = 1)) ∧
      t.reg .isr = t.reg .ipr &&& ~~~t.reg .imr ∧ BytesKept [Reg.tstat m, .ipr, .isr] s t ∧ Delivered t ∧
      t = ({ s with rf := t.rf, cpuIpl := t.cpuIpl, returned := .nothing, events := t.events } : State).setTimerReadAck
        m (t.timerReadAck m)

/-- A write inside RTCISR clears the bits written 1, then RTC's pending flag when no RTC bit remains and RTI's when no
ladder bit remains (R230). -/
def Obligations.RtcisrWrite : Prop :=
  ∀ (i : Instr) (s : State) (a : Word) (n : Nat) (v : Word), s.isrConsistent →
    writeParts i = some (a, n, v) → Inside s .rtcisr a n →
    ∃ t, exec i s = .next t ∧
      t.reg .rtcisr = s.reg .rtcisr &&& ~~~(laneValue s .rtcisr a n v &&& laneMask s .rtcisr a n) ∧
      (∀ b, t.bit .ipr b = true ↔ s.bit .ipr b = true ∧
        (b = (s.source .rtcSecond).bit.val →
          t.field .sec = 1 ∨ t.field .min = 1 ∨ t.field .hr = 1 ∨ t.field .day = 1) ∧
        (b = (s.source .ladder).bit.val → ∃ k, t.field (.sam k) = 1)) ∧
      t.reg .isr = t.reg .ipr &&& ~~~t.reg .imr ∧ BytesKept [.rtcisr, .ipr, .isr] s t ∧ Delivered t ∧
      t = { s with rf := t.rf, cpuIpl := t.cpuIpl, returned := .nothing, events := t.events }

/-- A write inside WATCHDOG stores EN and ISEL where it covers them, restarts the count, and clears INTF and WDT's
pending flag when INTF is written 1 (R231). -/
def Obligations.WatchdogWrite : Prop :=
  ∀ (i : Instr) (s : State) (a : Word) (n : Nat) (v : Word), s.isrConsistent →
    writeParts i = some (a, n, v) → Inside s .watchdog a n →
    ∃ t, exec i s = .next t ∧
      (∀ b, t.bit .watchdog b =
        if (s.params.regMap.mask .wdtCntr).getLsbD b then false
        else if (laneMask s .watchdog a n).getLsbD b then
          if b = bitOf s .wdtEn ∨ b = bitOf s .wdtIsel then (laneValue s .watchdog a n v).getLsbD b
          else if b = bitOf s .wdtIntf then s.bit .watchdog b && !(laneValue s .watchdog a n v).getLsbD b
          else s.bit .watchdog b
        else s.bit .watchdog b) ∧
      (∀ b, t.bit .ipr b = true ↔ s.bit .ipr b = true ∧
        ¬(b = (s.source .watchdog).bit.val ∧
          (laneValue s .watchdog a n v &&& laneMask s .watchdog a n).getLsbD (bitOf s .wdtIntf) = true)) ∧
      t.reg .isr = t.reg .ipr &&& ~~~t.reg .imr ∧ BytesKept [.watchdog, .ipr, .isr] s t ∧ Delivered t ∧
      t = { s with rf := t.rf, cpuIpl := t.cpuIpl, returned := .nothing, events := t.events }

/-- A byte written to SCR clears the fault flags written 1, keeps those written 0, and stores BETEN, SO, DMAP and WDTH8
(R336). -/
def Obligations.ScrWrite : Prop :=
  ∀ (a : Word) (v : Byte) (s : State), s.reaches a = true → offsetOf a = s.params.regMap.offset .scr →
    ∃ t, exec (.write8 a v) s = .next t ∧
      (∀ b < 8, t.bit .scr b =
        if b = bitOf s .beto ∨ b = bitOf s .wpv ∨ b = bitOf s .prv then s.bit .scr b && !v.getLsbD b
        else if b = bitOf s .beten ∨ b = bitOf s .so ∨ b = bitOf s .dmap ∨ b = bitOf s .wdth8 then v.getLsbD b
        else s.bit .scr b) ∧
      BytesKept [.scr] s t ∧ Delivered t ∧
      t = { s with rf := t.rf, cpuIpl := t.cpuIpl, returned := .nothing, events := t.events }

/-- A write inside a chip-select register is a plain write; all four bank descriptors are computed again and announced
by MapChanged, changed or not, before the level is delivered (R277). -/
def Obligations.ChipSelectWrite : Prop :=
  ∀ (i : Instr) (s : State) (a : Word) (n : Nat) (v : Word) (r : Reg), r ∈ Reg.chipSelectRegs →
    writeParts i = some (a, n, v) → Inside s r a n →
    ∃ t, exec i s = .next t ∧ t.reg r = stored s r (s.reg r) (laneValue s r a n v) (laneMask s r a n) ∧
      (t.bootMode = true ↔ s.bootMode = true ∧ ¬(r = .csa ∧ t.field (.csEn .rom) = 1)) ∧
      t.chips = describeChips s.params t.rf t.bootMode ∧
      t.cpuIpl = BitVec.ofNat 3 t.level ∧ t.events = [.mapChanged t.chips, .setIpl t.cpuIpl] ∧
      BytesKept [r] s t ∧
      t = { s with
        rf := t.rf, bootMode := t.bootMode, chips := t.chips, cpuIpl := t.cpuIpl, returned := .nothing,
        events := t.events }

/-- The formulas of a bank's descriptor, computed from the registers (R272, R273, R274, R275); the base is
the default function or, under another parameter, that parameter's (log 8). -/
def Obligations.BankFormulas : Prop :=
  ∀ s : State, s.chipsCurrent → ∀ b : Bank,
    let c := s.chips.bank b
    let unit := match b with
      | .rom | .sed => 128 * 1024
      | .usb => 32 * 1024
      | .ram =>
        if s.field .ram8m = 1 ∧ (s.params.regMap.lists .ramAlt = true → s.field .ramAlt = 1) then 8 * 1024 * 1024
        else 32 * 1024
    (c.enabled = true ↔ s.field (.csEn b) = 1) ∧ (c.readOnly = true ↔ s.field (.csRo b) = 1) ∧
    c.size = unit * 2 ^ s.field (Field.csSiz b) ∧
    (s.params.csBase = .default → ∀ k < 32, c.base.getLsbD k =
      if k < 14 then false
      else if k < 29 then s.bit (Reg.csgb b) (k - 13)
      else decide (s.field .ugen = 1) && (s.field (.ugba b)).testBit (k - 29)) ∧
    (∀ id, s.params.csBase = .other id →
      c.base = Config.csBaseOther id b ((s.reg (Reg.csgb b)).setWidth 16) ((s.reg .csugba).setWidth 16)) ∧
    (b = .rom → c.supervisorOnly = false ∧ c.readOnlyProtected = false ∧ c.unprotectedSize = c.size) ∧
    (b ≠ .rom →
      (c.supervisorOnly = true ↔ s.field (Field.csSop b) = 1 ∧ s.field Field.pgate = 1) ∧
      (c.readOnlyProtected = true ↔ s.field (Field.csRdop b) = 1 ∧ s.field Field.pgate = 1) ∧
      c.unprotectedSize =
        Config.csUnprotSize b ((s.reg (Reg.cs b)).setWidth 16) ((s.reg .csctrl2).setWidth 16))

/-- An address decodes to the first bank, in the order ROM, SED, USB, RAM, that is enabled and whose range holds it; in
boot mode that is the ROM (R276, R278). -/
def Obligations.BankDecodeOrder : Prop :=
  ∀ (c : Chips) (a : Word),
    let inRange (b : Bank) : Prop :=
      (c.bank b).enabled = true ∧ (c.bank b).base.toNat ≤ a.toNat ∧ a.toNat < (c.bank b).base.toNat + (c.bank b).size
    (c.romBootMode = true → c.decodeAddr a = some .rom) ∧
    (c.romBootMode = false →
      (c.decodeAddr a = some .rom ↔ inRange .rom) ∧
      (c.decodeAddr a = some .sed ↔ inRange .sed ∧ ¬inRange .rom) ∧
      (c.decodeAddr a = some .usb ↔ inRange .usb ∧ ¬inRange .rom ∧ ¬inRange .sed) ∧
      (c.decodeAddr a = some .ram ↔ inRange .ram ∧ ¬inRange .rom ∧ ¬inRange .sed ∧ ¬inRange .usb) ∧
      (c.decodeAddr a = none ↔ ∀ b, ¬inRange b))

/-- The `n`-byte access at `a` may be cut before its byte `k`: no register has bytes on both sides of the cut, but for the
32-bit registers, whose write rules do in two parts what they do in one (R119, R142, R143, R144). -/
def Sys2Proof.Claims.Cuts (s : State) (a : Word) (n k : Nat) : Prop :=
  ∀ r : Reg, (∃ i < k, Owns s r ((offsetOf a + i) % 4096)) → (∃ i < n, k ≤ i ∧ Owns s r ((offsetOf a + i) % 4096)) →
    r ∈ [Reg.imr, .isr, .ipr, .rtctime]

/-- `b` is an address that reaches the register file at byte `k` of the access at `a` (R73). -/
def Sys2Proof.Claims.ByteOf (s : State) (a : Word) (k : Nat) (b : Word) : Prop :=
  s.reaches b = true ∧ offsetOf b = (offsetOf a + k) % 4096

/-- A write whose bytes lie in several registers, or in registers and plain storage, leaves the state that the writes of its
parts leave, first byte first; only the events differ, because the level is evaluated once. A WRITE16 is two WRITE8s, or
lies inside one register; a WRITE32 is two WRITE16s, or a WRITE8, a WRITE16 and a WRITE8. Spans wrap at 4096 (R73, R86,
R114, R116, R117). -/
def Obligations.WriteInParts : Prop :=
  ∀ (a : Word) (s : State), s.rf.wf = true → s.reaches a = true →
    (Cuts s a 2 1 ∨ ∃ r, Inside s r a 2) ∧ (Cuts s a 4 2 ∨ Cuts s a 4 1 ∧ Cuts s a 4 3) ∧
    (∀ (v : Half) (b : Word) (t u w : State), Cuts s a 2 1 → ByteOf s a 1 b →
      exec (.write16 a v) s = .next t →
      exec (.write8 a (v.extractLsb' 8 8)) s = .next u → exec (.write8 b (v.extractLsb' 0 8)) u = .next w →
      t = { w with events := t.events } ∧ t.events = u.events.dropLast ++ w.events) ∧
    (∀ (v b : Word) (t u w : State), Cuts s a 4 2 → ByteOf s a 2 b →
      exec (.write32 a v) s = .next t →
      exec (.write16 a (v.extractLsb' 16 16)) s = .next u → exec (.write16 b (v.extractLsb' 0 16)) u = .next w →
      t = { w with events := t.events } ∧ t.events = u.events.dropLast ++ w.events) ∧
    ∀ (v b c : Word) (t u x w : State), Cuts s a 4 1 → Cuts s a 4 3 → ByteOf s a 1 b → ByteOf s a 3 c →
      exec (.write32 a v) s = .next t →
      exec (.write8 a (v.extractLsb' 24 8)) s = .next u → exec (.write16 b (v.extractLsb' 8 16)) u = .next x →
      exec (.write8 c (v.extractLsb' 0 8)) x = .next w →
      t = { w with events := t.events } ∧ t.events = u.events.dropLast ++ x.events.dropLast ++ w.events

/-! TICK -/

/-- TICK runs; its counter, its events, and all that it can change. The part after the once-per-second path runs unless
the watchdog expires in reset mode (R221, R260, R263). -/
def Obligations.TickFrame : Prop :=
  ∀ s : State, ∃ t, exec .tick s = .next t ∧ t.tickCounter = nextCounter s ∧
    (¬Aborts s → Delivered t) ∧
    BytesKept [.rtctime, .dayr, .rtcisr, .watchdog, .ipr, .isr, .tcn1, .tcn2, .tstat1, .tstat2, .pllcr] s t ∧
    t = { s with
      rf := t.rf, wakeCountdown := t.wakeCountdown, timerAcc1 := t.timerAcc1, timerAcc2 := t.timerAcc2,
      tickCounter := t.tickCounter, cpuIpl := t.cpuIpl, returned := .nothing, events := t.events }

/-- A TICK in which the watchdog expires in reset mode emits SystemReset alone and stops: the RTC's count of this TICK
stays, and the watchdog register, the ladder, both timers, the wake countdown but for the RTC's raise and the level are as
before (R262; log 22 says what the RTC's count makes of minutes and hours at or above their limits, R225). -/
def Obligations.TickAborted : Prop :=
  ∀ s : State, Aborts s → ∃ t, exec .tick s = .next t ∧ t.events = [.systemReset] ∧
    TimeOfDayAfter s t ∧
    (∀ b, t.bit .rtcisr b = true ↔ s.bit .rtcisr b = true ∨ (SecondEvent s b ∧ s.bit .rtcienr b = true)) ∧
    (∀ x ∈ s.params.sources.rows, t.pending x = true ↔
      s.pending x = true ∨ (x.owner = .rtcSecond ∧ TickRaises s x)) ∧
    WakeAfter s (TickRaises s (s.source .rtcSecond) ∧ Wakes s (s.source .rtcSecond)) t.wakeCountdown ∧
    BytesKept [.rtctime, .dayr, .rtcisr, .ipr, .isr] s t ∧
    t = { s with
      rf := t.rf, tickCounter := 0, wakeCountdown := t.wakeCountdown, returned := .nothing, events := t.events }

/-- The time of day after a TICK, the aborted ones too: one second later when the RTC runs, with binary fields that carry at
60, 60 and 24 and above, and a day counter that wraps at its width; no other bit of its two registers changes (R223, R225;
the width of the day counter is log 7; minutes and hours at or above their limits without a carry into them are log 22). -/
def Obligations.TickTimeOfDay : Prop :=
  ∀ s t : State, exec .tick s = .next t → TimeOfDayAfter s t

/-- RTCISR after a TICK that is not aborted: the enabled once-per-second events and ladder members of this TICK are
latched, and no bit is cleared (R224, R226; log 22). -/
def Obligations.TickRtcEvents : Prop :=
  ∀ s t : State, ¬Aborts s → exec .tick s = .next t →
    ∀ b, t.bit .rtcisr b = true ↔
      s.bit .rtcisr b = true ∨ ((SecondEvent s b ∨ LadderEvent s b) ∧ s.bit .rtcienr b = true)

/-- WATCHDOG after a TICK that is not aborted: on a second boundary with EN set it takes the stepped value under the mask,
with INTF set on expiry; and it is as before otherwise. With the default constants and the default REGMAP the two-bit
counter steps, the bits outside the mask are cleared, and the watchdog expires when the counter goes to 2 or 3 (R233, R234;
logs 1 and 7). -/
def Obligations.TickWatchdog : Prop :=
  ∀ s t : State, ¬Aborts s → exec .tick s = .next t →
    (¬(Boundary s ∧ s.field Field.wdtEn = 1) → t.reg .watchdog = s.reg .watchdog) ∧
    (Boundary s ∧ s.field Field.wdtEn = 1 →
      (WatchdogExpires s → t.reg .watchdog =
        ((watchdogStepped s).setWidth 32 &&& s.params.regMap.fullMask .watchdog) ||| s.params.regMap.mask .wdtIntf) ∧
      (¬WatchdogExpires s → t.reg .watchdog =
        (watchdogStepped s).setWidth 32 &&& s.params.regMap.fullMask .watchdog) ∧
      (s.params.wdt = Params.default.wdt → s.params.regMap = .default →
        t.field Field.wdtCntr = (s.field Field.wdtCntr + 1) % 4 ∧
        (WatchdogExpires s ↔ s.field Field.wdtCntr = 1 ∨ s.field Field.wdtCntr = 2) ∧
        ∀ b, b ≠ 8 → b ≠ 9 → (t.bit .watchdog b = true ↔
          (s.bit .watchdog b = true ∧ (b = 0 ∨ b = 1 ∨ b = 7)) ∨ (b = 7 ∧ WatchdogExpires s))))

/-- A timer in a TICK that is not aborted: the accumulator takes the increment and keeps its fraction, the integer part
goes to the counter, a crossing of the compare value sets COMP, and in reset-on-compare mode the compare value is
subtracted (R198, R199, R200, R201). -/
def Obligations.TickTimer : Prop :=
  ∀ (s t : State) (n : TimerId), ¬Aborts s → exec .tick s = .next t →
    (s.field (Field.ten n) = 0 → t.timerAcc n = s.timerAcc n ∧ t.reg (Reg.tcn n) = s.reg (Reg.tcn n) ∧
      t.reg (Reg.tstat n) = s.reg (Reg.tstat n)) ∧
    (s.field (Field.ten n) = 1 →
      t.timerAcc n = ⟨(sum s n).units % F64.one⟩ ∧
      (Matches s n → t.field (Field.count n) =
        if s.field (Field.frr n) = 0 then advanced s n - s.field (Field.compare n) else advanced s n) ∧
      (¬Matches s n → t.field (Field.count n) = advanced s n) ∧
      ∀ b, t.bit (Reg.tstat n) b = true ↔ s.bit (Reg.tstat n) b = true ∨ (b = bitOf s (.comp n) ∧ Matches s n))

/-- The pending flags after a TICK that is not aborted: those of before and those of the sources that its second
events, its watchdog, its ladder and its timers raise; none is cleared (R200, R224, R226, R234). -/
def Obligations.TickPending : Prop :=
  ∀ s t : State, ¬Aborts s → exec .tick s = .next t →
    ∀ b, t.bit .ipr b = true ↔ s.bit .ipr b = true ∨ ∃ x ∈ s.params.sources.rows, x.bit.val = b ∧ TickRaises s x

/-- The wake countdown in a TICK that is not aborted: a raise of this TICK may arm it, and an armed countdown steps in the
same TICK; the step to 0 turns the PLL on and leaves it idle (R168). Which sources this TICK raises is R200, R224, R226 and
R234, with the second events of log 22; what arms the countdown is R131 and R167. -/
def Obligations.TickWake : Prop :=
  ∀ s t : State, ¬Aborts s → exec .tick s = .next t →
    ∃ w, WakeAfter s (∃ x ∈ s.params.sources.rows, TickRaises s x ∧ Wakes s x) w ∧
      (w = -1 → t.wakeCountdown = -1 ∧ t.reg .pllcr = s.reg .pllcr) ∧
      (w = 1 → t.wakeCountdown = -1 ∧ t.reg .pllcr = s.reg .pllcr &&& ~~~s.params.regMap.mask .displl) ∧
      (w ≠ -1 → w ≠ 1 → t.wakeCountdown = w - 1 ∧ t.reg .pllcr = s.reg .pllcr)

/-- A countdown armed with `k` turns the PLL on at the `k`-th TICK and not before, while the watchdog is off (R168). -/
def Obligations.WakeCountdownRun : Prop :=
  ∀ (f : Nat → State) (k : Nat), Ticks f → (f 0).wakeCountdown = k → 1 ≤ k → (f 0).field Field.displl = 1 →
    (f 0).field Field.wdtEn = 0 →
    (∀ j < k, (f j).field Field.displl = 1 ∧ (f j).wakeCountdown = (k : Int) - j) ∧
    (f k).field Field.displl = 0 ∧ (f k).wakeCountdown = -1

/-- With the default constants and the default REGMAP, an enabled watchdog in reset mode that starts at 0 on a second
boundary emits SystemReset at the second boundary after it, 65536 TICKs later, and not before (R237; logs 1 and 7). -/
def Obligations.WatchdogRun : Prop :=
  ∀ f : Nat → State, Ticks f → (f 0).params.wdt = Params.default.wdt → (f 0).params.regMap = .default →
    (f 0).tickCounter = 0 →
    (f 0).field Field.wdtEn = 1 → (f 0).field Field.wdtIsel = 0 → (f 0).field Field.wdtCntr = 0 →
    (∀ j, 1 ≤ j → j < 65536 → Event.systemReset ∉ (f j).events) ∧ (f 65536).events = [.systemReset]

/-! Rates (R11, R162, R163, R192) -/

/-- The four operations of the rate and accumulator arithmetic are the binary64 operations: each gives the binary64 number
nearest to its exact result, ties to even (R11). -/
def Obligations.RoundsToNearest : Prop :=
  (∀ n : Nat, Nearest (F64.ofNat n).units (n * F64.one) 1) ∧
  ∀ a b : F64,
    Nearest (F64.add a b).units (a.units + b.units) 1 ∧
    (b.units ≤ a.units → Nearest (F64.sub a b).units (a.units - b.units) 1) ∧
    (0 < b.units → Nearest (F64.div a b).units (a.units * F64.one) b.units) ∧
    a.floor * F64.one ≤ a.units ∧ a.units < (a.floor + 1) * F64.one

/-- The PLL rates: the binary64 quotients of R162 and R163 by the divisors that the parameters give the prescaler code
and the divider code, and every prescaler code has one. With the default divisors they are exact: `sysclkPerTick` times its
two divisors is 2 * (14 * (P + 1) + Q + 1) (R162, R163; log 5). -/
def Obligations.PllRates : Prop :=
  ∀ s : State,
    let cycles := 2 * (14 * (s.field Field.pcnt + 1) + s.field Field.qcnt + 1)
    let d := s.params.presc1Div
    let e := s.params.sysclkDiv
    let c := s.field Field.sysclksel
    let div : Nat :=
      if c = 0 then e.code0 else if c = 1 then e.code1 else if c = 2 then e.code2 else if c = 3 then e.code3 else 1
    ∃ presc : PNat, d.divisors[s.field Field.presc1]? = some presc ∧
    Nearest s.dmaclkPerTick.units (cycles * F64.one * F64.one) (F64.ofNat presc).units ∧
    Nearest s.sysclkPerTick.units (s.dmaclkPerTick.units * F64.one) (F64.ofNat div).units ∧
    (d = Params.default.presc1Div → e = Params.default.sysclkDiv →
      presc.val = (if s.field Field.presc1 = 0 then 1 else 2) ∧ div = (if c < 4 then 2 * 2 ^ c else 1) ∧
      s.dmaclkPerTick.units * presc = cycles * F64.one ∧
      s.sysclkPerTick.units * (presc * div) = cycles * F64.one)

/-- A timer's increment: nothing for the stopped and unattached sources, nothing for the system-clock sources while the PLL is
off, and otherwise the source's rate over the prescaler, the nearest binary64 number; and the sources of the default codes
(R192; log 6). Under the default parameters the division by 16 is exact. -/
def Obligations.TimerIncrement : Prop :=
  ∀ (s : State) (n : TimerId),
    let c := s.field (Field.clksource n)
    let p := s.field (Field.prescaler n) + 1
    let cycles := s.sysclkPerTick.units
    ∃ k, s.params.timerSrc.kinds[c]? = some k ∧
    (k = .stop ∨ k = .tin → (s.timerDelta n).units = 0) ∧
    (k = .sysclk ∨ k = .sysclk16 → s.field Field.displl = 1 → (s.timerDelta n).units = 0) ∧
    (k = .sysclk → s.field Field.displl = 0 → (s.timerDelta n).units = F64.roundQuot cycles p) ∧
    (k = .sysclk16 → s.field Field.displl = 0 →
      (s.timerDelta n).units = F64.roundQuot (F64.roundQuot cycles 16) p) ∧
    (k = .clk32 → (s.timerDelta n).units = F64.roundQuot F64.one p) ∧
    (s.params.timerSrc = Params.default.timerSrc →
      (c = 0 → k = .stop) ∧ (c = 1 → k = .sysclk) ∧ (c = 2 → k = .sysclk16) ∧ (c = 3 → k = .tin) ∧
      (4 ≤ c → k = .clk32)) ∧
    (s.params = Params.default → c = 2 → s.field Field.displl = 0 →
      (s.timerDelta n).units = F64.roundQuot cycles (16 * p))
end

