-- ==== Sys2Proof/Laws/Bits.lean ====
section
/-! SUPPORT. The laws of bit-field reads and writes, bit by bit and field by field. -/

namespace Sys2Proof.Machine

theorem getLsbD_fieldMask (lo len i : Nat) :
    (fieldMask lo len).getLsbD i = (decide (i < 32) && decide (lo ≤ i) && decide (i < lo + len)) := by
  simp only [fieldMask, BitVec.getLsbD_shiftLeft, BitVec.getLsbD_ofNat, Nat.testBit_two_pow_sub_one]
  by_cases h1 : i < 32 <;> by_cases h2 : lo ≤ i <;> by_cases h3 : i < lo + len <;>
    simp [h1, h2, h3, Nat.not_le.mp, Nat.not_lt.mpr] <;> omega

theorem getLsbD_mergeBits (old v mask be : Word) (i : Nat) :
    (mergeBits old v mask be).getLsbD i =
      if mask.getLsbD i && be.getLsbD i then v.getLsbD i else old.getLsbD i := by
  simp only [mergeBits, BitVec.getLsbD_or, BitVec.getLsbD_and, BitVec.getLsbD_not]
  by_cases hi : i < 32
  · cases mask.getLsbD i <;> cases be.getLsbD i <;> simp [hi]
  · simp [BitVec.getLsbD_of_ge _ _ (Nat.not_lt.mp hi)]

theorem getLsbD_setBits (v : Word) (lo len x i : Nat) :
    (setBits v lo len x).getLsbD i =
      if i < 32 ∧ lo ≤ i ∧ i < lo + len then x.testBit (i - lo) else v.getLsbD i := by
  simp only [setBits, BitVec.getLsbD_or, BitVec.getLsbD_and, BitVec.getLsbD_not, getLsbD_fieldMask,
    BitVec.getLsbD_shiftLeft, BitVec.getLsbD_ofNat]
  by_cases hi : i < 32
  · by_cases h1 : lo ≤ i <;> by_cases h2 : i < lo + len <;> simp [hi, h1, h2]
    · have h3 : i - lo < 32 := by omega
      have h4 : ¬ i < lo := by omega
      simp [h3, h4]
  · simp [hi, BitVec.getLsbD_of_ge _ _ (Nat.not_lt.mp hi)]

theorem testBit_getBits (v : Word) (lo len i : Nat) :
    (getBits v lo len).testBit i = (decide (i < len) && v.getLsbD (lo + i)) := by
  simp only [getBits, Nat.testBit_mod_two_pow, BitVec.testBit_toNat, BitVec.getLsbD_ushiftRight]

theorem getBits_lt (v : Word) (lo len : Nat) : getBits v lo len < 2 ^ len :=
  Nat.mod_lt _ (Nat.two_pow_pos len)

/-- A field reads what was stored in it, cut to its width (R96). -/
theorem getBits_setBits_same (v : Word) (lo len x : Nat) (h : lo + len ≤ 32) :
    getBits (setBits v lo len x) lo len = x % 2 ^ len := by
  refine Nat.eq_of_testBit_eq fun i => ?_
  rw [testBit_getBits, getLsbD_setBits, Nat.testBit_mod_two_pow]
  by_cases hi : i < len
  · have : lo + i < 32 := by omega
    simp [hi, this]
  · simp [hi]

/-- A store in one field leaves a disjoint field (R96). -/
theorem getBits_setBits_disjoint (v : Word) (lo len x lo' len' : Nat) (h : lo' + len' ≤ lo ∨ lo + len ≤ lo') :
    getBits (setBits v lo len x) lo' len' = getBits v lo' len' := by
  refine Nat.eq_of_testBit_eq fun i => ?_
  rw [testBit_getBits, testBit_getBits, getLsbD_setBits]
  by_cases hi : i < len'
  · rw [if_neg (by omega)]
  · simp [hi]

/-- A one-bit field is the bit. -/
theorem getBits_one (v : Word) (lo : Nat) : getBits v lo 1 = (v.getLsbD lo).toNat := by
  refine Nat.eq_of_testBit_eq fun i => ?_
  rw [testBit_getBits]
  cases i with
  | zero => cases h : v.getLsbD lo <;> simp
  | succ i => cases h : v.getLsbD lo <;> simp [Nat.testBit_succ]

/-- Fields are unchanged by a masked store that covers none of their bits. -/
theorem getBits_mergeBits_disjoint (old v mask be : Word) (lo len : Nat)
    (h : ∀ i, lo ≤ i → i < lo + len → (mask.getLsbD i && be.getLsbD i) = false) :
    getBits (mergeBits old v mask be) lo len = getBits old lo len := by
  refine Nat.eq_of_testBit_eq fun i => ?_
  rw [testBit_getBits, testBit_getBits, getLsbD_mergeBits]
  by_cases hi : i < len
  · simp [h (lo + i) (by omega) (by omega)]
  · simp [hi]

/-- A field the store covers whole reads what was written. -/
theorem getBits_mergeBits_covered (old v mask be : Word) (lo len : Nat)
    (h : ∀ i, lo ≤ i → i < lo + len → (mask.getLsbD i && be.getLsbD i) = true) :
    getBits (mergeBits old v mask be) lo len = getBits v lo len := by
  refine Nat.eq_of_testBit_eq fun i => ?_
  rw [testBit_getBits, testBit_getBits, getLsbD_mergeBits]
  by_cases hi : i < len
  · simp [h (lo + i) (by omega) (by omega)]
  · simp [hi]

end Sys2Proof.Machine
end

