-- ==== Sys2Proof/Laws/Memory.lean ====
section
/-! SUPPORT. The laws of the register file: read after write, the canonical form is kept and is canonical, and the spans. -/

namespace Sys2Proof.Machine

theorem Memory.read_erase (m : Memory) (o p : Nat) :
    (m.erase o).read p = if p = o then unlistedByte else m.read p := by
  induction m with
  | nil => by_cases h : p = o <;> simp [Memory.erase, Memory.read, h]
  | cons c m ih =>
    obtain ⟨k, v⟩ := c
    by_cases hk : o = k
    · subst hk
      by_cases hp : p = o
      · subst hp
        simp [Memory.erase, ih]
      · simp [Memory.erase, Memory.read, ih, hp]
    · by_cases hp : p = o
      · subst hp
        simp [Memory.erase, Memory.read, ih, hk]
      · simp [Memory.erase, Memory.read, ih, hk, hp]

theorem Memory.read_insert (m : Memory) (o p : Nat) (b : Byte) :
    (m.insert o b).read p = if p = o then b else m.read p := by
  induction m with
  | nil => by_cases h : p = o <;> simp [Memory.insert, Memory.read, h]
  | cons c m ih =>
    obtain ⟨k, v⟩ := c
    by_cases hlt : o < k
    · simp [Memory.insert, Memory.read, hlt]
    · by_cases hk : o = k
      · subst hk
        by_cases hp : p = o <;> simp [Memory.insert, Memory.read, hp]
      · by_cases hp : p = o
        · subst hp
          simp [Memory.insert, Memory.read, ih, hlt, hk]
        · simp [Memory.insert, Memory.read, ih, hlt, hk, hp]

/-- Reading after a write: the written byte where it was written, the old byte elsewhere. -/
theorem Memory.read_write (m : Memory) (o p : Nat) (b : Byte) :
    (m.write o b).read p = if p = o then b else m.read p := by
  unfold Memory.write
  split
  · next h => rw [Memory.read_erase, h]
  · rw [Memory.read_insert]

theorem Memory.wfFrom_mono {m : Memory} {lo lo' : Nat} (h : lo' ≤ lo) (hm : Memory.wfFrom lo m = true) :
    Memory.wfFrom lo' m = true := by
  cases m with
  | nil => rfl
  | cons c m =>
    obtain ⟨k, v⟩ := c
    simp only [Memory.wfFrom, Bool.and_eq_true, decide_eq_true_eq] at hm ⊢
    exact ⟨⟨⟨Nat.le_trans h hm.1.1.1, hm.1.1.2⟩, hm.1.2⟩, hm.2⟩

theorem Memory.wfFrom_erase {m : Memory} {lo : Nat} (o : Nat) (hm : Memory.wfFrom lo m = true) :
    Memory.wfFrom lo (m.erase o) = true := by
  induction m generalizing lo with
  | nil => rfl
  | cons c m ih =>
    obtain ⟨k, v⟩ := c
    simp only [Memory.wfFrom, Bool.and_eq_true, decide_eq_true_eq] at hm
    simp only [Memory.erase]
    split
    · exact Memory.wfFrom_mono (by omega) (ih hm.2)
    · simp only [Memory.wfFrom, Bool.and_eq_true, decide_eq_true_eq]
      exact ⟨hm.1, ih hm.2⟩

theorem Memory.wfFrom_insert {m : Memory} {lo o : Nat} {b : Byte} (hlo : lo ≤ o) (ho : o < Config.windowSize)
    (hb : b ≠ unlistedByte) (hm : Memory.wfFrom lo m = true) : Memory.wfFrom lo (m.insert o b) = true := by
  induction m generalizing lo with
  | nil => simp [Memory.insert, Memory.wfFrom, hlo, ho, hb]
  | cons c m ih =>
    obtain ⟨k, v⟩ := c
    have hm' := hm
    simp only [Memory.wfFrom, Bool.and_eq_true, decide_eq_true_eq] at hm
    simp only [Memory.insert]
    split
    · simp only [Memory.wfFrom, Bool.and_eq_true, decide_eq_true_eq]
      exact ⟨⟨⟨hlo, ho⟩, hb⟩, ⟨⟨by omega, hm.1.1.2⟩, hm.1.2⟩, hm.2⟩
    · split
      · next h =>
        subst h
        simp only [Memory.wfFrom, Bool.and_eq_true, decide_eq_true_eq]
        exact ⟨⟨⟨hlo, ho⟩, hb⟩, hm.2⟩
      · simp only [Memory.wfFrom, Bool.and_eq_true, decide_eq_true_eq]
        exact ⟨hm.1, ih (by omega) hm.2⟩

/-- A write inside the window keeps the canonical form. -/
theorem Memory.wf_write {m : Memory} {o : Nat} (b : Byte) (ho : o < Config.windowSize) (hm : m.wf = true) :
    (m.write o b).wf = true := by
  unfold Memory.write
  split
  · exact Memory.wfFrom_erase o hm
  · next h => exact Memory.wfFrom_insert (Nat.zero_le _) ho h hm

/-- A span write inside the window keeps the canonical form. -/
theorem Memory.wf_writeSpan {m : Memory} (o n : Nat) (v : Word) (ho : o + n ≤ Config.windowSize)
    (hm : m.wf = true) : (m.writeSpan o v n).wf = true := by
  induction n generalizing v with
  | zero => exact hm
  | succ n ih => exact Memory.wf_write _ (by omega) (ih _ (by omega))

theorem Memory.read_below {m : Memory} {lo p : Nat} (hm : Memory.wfFrom lo m = true) (hp : p < lo) :
    m.read p = unlistedByte := by
  induction m generalizing lo with
  | nil => rfl
  | cons c m ih =>
    obtain ⟨k, v⟩ := c
    simp only [Memory.wfFrom, Bool.and_eq_true, decide_eq_true_eq] at hm
    have : p ≠ k := by omega
    simp only [Memory.read, this, if_false]
    exact ih hm.2 (by omega)

/-- The form is canonical: register files in it that read alike are equal. -/
theorem Memory.eq_of_read_eq {m m' : Memory} {lo : Nat} (hm : Memory.wfFrom lo m = true)
    (hm' : Memory.wfFrom lo m' = true) (h : ∀ p, m.read p = m'.read p) : m = m' := by
  induction m generalizing m' lo with
  | nil =>
    cases m' with
    | nil => rfl
    | cons c m' =>
      obtain ⟨k, v⟩ := c
      simp only [Memory.wfFrom, Bool.and_eq_true, decide_eq_true_eq] at hm'
      have := h k
      simp only [Memory.read, if_true] at this
      exact absurd this.symm hm'.1.2
  | cons c m ih =>
    obtain ⟨k, v⟩ := c
    have h1 := hm
    simp only [Memory.wfFrom, Bool.and_eq_true, decide_eq_true_eq] at h1
    cases m' with
    | nil =>
      have := h k
      simp only [Memory.read, if_true] at this
      exact absurd this h1.1.2
    | cons c' m' =>
      obtain ⟨k', v'⟩ := c'
      have h2 := hm'
      simp only [Memory.wfFrom, Bool.and_eq_true, decide_eq_true_eq] at h2
      have hk : k = k' := by
        rcases Nat.lt_trichotomy k k' with hlt | heq | hlt
        · have e := h k
          simp only [Memory.read, if_true, Nat.ne_of_lt hlt, if_false] at e
          rw [Memory.read_below h2.2 (by omega)] at e
          exact absurd e h1.1.2
        · exact heq
        · have e := h k'
          simp only [Memory.read, if_true, Nat.ne_of_lt hlt, if_false] at e
          rw [Memory.read_below h1.2 (by omega)] at e
          exact absurd e.symm h2.1.2
      subst hk
      have hv : v = v' := by simpa [Memory.read] using h k
      subst hv
      rw [ih h1.2 h2.2]
      intro p
      by_cases hp : p < k + 1
      · rw [Memory.read_below h1.2 hp, Memory.read_below h2.2 hp]
      · have e := h p
        have : p ≠ k := by omega
        simpa [Memory.read, this] using e

/-- A span write leaves every byte outside the span. -/
theorem Memory.read_writeSpan_outside (m : Memory) (o n p : Nat) (v : Word) (h : p < o ∨ o + n ≤ p) :
    (m.writeSpan o v n).read p = m.read p := by
  induction n generalizing v with
  | zero => rfl
  | succ n ih =>
    have : p ≠ o + n := by omega
    simp only [Memory.writeSpan, Memory.read_write, this, if_false]
    exact ih _ (by omega)

/-- Two register files that agree on a span give the same span value. -/
theorem Memory.readSpan_congr {m m' : Memory} {o n : Nat} (h : ∀ i < n, m.read (o + i) = m'.read (o + i)) :
    m.readSpan o n = m'.readSpan o n := by
  induction n with
  | zero => rfl
  | succ n ih =>
    simp only [Memory.readSpan]
    rw [ih fun i hi => h i (by omega), h n (by omega)]

/-- Byte `i` of a span value, counted from its most significant byte, is the byte stored there. -/
theorem Memory.readSpan_byte (m : Memory) (o n i : Nat) (hi : i < n) (hn : n ≤ 4) :
    ((m.readSpan o n) >>> (8 * (n - 1 - i))).setWidth 8 = m.read (o + i) := by
  interval_cases n <;> interval_cases i <;> simp only [Memory.readSpan] <;> ext j hj <;>
    simp [BitVec.getLsbD_setWidth] <;> grind

/-- A span value is the span value that was last written, cut to the span's width. -/
theorem Memory.readSpan_writeSpan (m : Memory) (o n : Nat) (v : Word) (hn : n ≤ 4) :
    (m.writeSpan o v n).readSpan o n = v &&& BitVec.ofNat 32 (2 ^ (8 * n) - 1) := by
  have out : ∀ (m : Memory) (k : Nat) (b : Byte), (m.write (o + k) b).readSpan o k = m.readSpan o k := by
    intro m k b
    refine Memory.readSpan_congr fun i hi => ?_
    rw [Memory.read_write, if_neg (by omega)]
  have step : ∀ (k : Nat) (v : Word), (m.writeSpan o v (k + 1)).readSpan o (k + 1) =
      (((m.writeSpan o (v >>> 8) k).readSpan o k) <<< 8) ||| (v.setWidth 8).setWidth 32 := by
    intro k v
    simp only [Memory.readSpan, Memory.writeSpan]
    rw [out, Memory.read_write, if_pos rfl]
  induction n generalizing v with
  | zero => simp [Memory.readSpan]
  | succ n ih =>
    rw [step, ih _ (by omega)]
    refine BitVec.eq_of_getLsbD_eq fun j hj => ?_
    simp only [BitVec.getLsbD_or, BitVec.getLsbD_shiftLeft, BitVec.getLsbD_and, BitVec.getLsbD_ushiftRight,
      BitVec.getLsbD_ofNat, Nat.testBit_two_pow_sub_one, BitVec.getLsbD_setWidth]
    by_cases hj8 : j < 8
    · have : j < 8 * (n + 1) := by omega
      simp [hj8, this, hj]
    · have h1 : (j - 8 < 8 * n) ↔ (j < 8 * (n + 1)) := by omega
      have h2 : 8 + (j - 8) = j := by omega
      have h3 : j - 8 < 32 := by omega
      simp [hj8, h1, h2, h3, hj]

end Sys2Proof.Machine
end

