-- ==== Sys2Proof/Laws/RegMap.lean ====
section
/-! SUPPORT. The laws of the register map: it is well formed (R95), registers are disjoint, and a register reads what was
stored in it while every other register keeps its value. -/

namespace Sys2Proof.Machine

theorem Reg.mem_all (r : Reg) : r ∈ Reg.all := by cases r <;> decide

theorem Field.mem_all (f : Field) : f ∈ Field.all := by
  have hl : ∀ i, Field.lvl i ∈ Field.all := by decide
  have hs : ∀ i, Field.sam i ∈ Field.all := by decide
  have ht : ∀ n : TimerId, ∀ g ∈ Field.ofTimer n, g ∈ Field.all := by intro n; cases n <;> decide
  have hb : ∀ b : Bank, ∀ g ∈ Field.ofBank b, g ∈ Field.all := by intro b; cases b <;> decide
  cases f <;> first
    | exact hl _
    | exact hs _
    | (rename_i n; exact ht n _ (by simp [Field.ofTimer]))
    | (rename_i b; exact hb b _ (by simp [Field.ofBank]))
    | decide

variable (k : RegMap)

/-! What it is to be well formed, said once (R95) -/

theorem RegMap.wf_spec :
    (∀ r, k.sizeOk r = true ∧ k.maskOk r = true ∧ ∀ q, k.apart r q = true) ∧
      ∀ f, k.placeOk f = true ∧ ∀ g, k.fieldsApart f g = true := by
  have h := k.wf
  simp only [RegTable.wf, Bool.and_eq_true, List.all_eq_true] at h
  exact ⟨fun r => ⟨(h.1 r r.mem_all).1.1, (h.1 r r.mem_all).1.2, fun q => (h.1 r r.mem_all).2 q q.mem_all⟩,
    fun f => ⟨(h.2 f f.mem_all).1, fun g => (h.2 f f.mem_all).2 g g.mem_all⟩⟩

theorem RegMap.size_spec (r : Reg) :
    1 ≤ k.bytes r ∧ k.bytes r ≤ r.classBytes ∧ k.offset r + k.bytes r ≤ Config.windowSize ∧
      (r.isMaskWord = true → k.bytes r = 4) ∧ k.bytes .rtcienr = k.bytes .rtcisr := by
  have h := (k.wf_spec.1 r).1
  simp only [RegTable.sizeOk, Bool.and_eq_true, Bool.or_eq_true, decide_eq_true_eq, beq_iff_eq, Bool.not_eq_true'] at h
  obtain ⟨⟨⟨⟨h1, h2⟩, h3⟩, h4⟩, h5⟩ := h
  exact ⟨h1, h2, h3, fun hm => h4.resolve_left (by simp [hm]), h5⟩

theorem RegMap.bytes_pos (r : Reg) : 0 < k.bytes r := (k.size_spec r).1

theorem RegMap.bytes_le (r : Reg) : k.bytes r ≤ 4 :=
  Nat.le_trans (k.size_spec r).2.1 (by cases r <;> decide)

theorem RegMap.inside (r : Reg) : k.offset r + k.bytes r ≤ Config.windowSize := (k.size_spec r).2.2.1

/-- A word of one bit per source has 32 bits (R7). -/
theorem RegMap.bytes_maskWord {r : Reg} (h : r.isMaskWord = true) : k.bytes r = 4 := (k.size_spec r).2.2.2.1 h

/-- Two registers share no byte (R95). -/
theorem RegMap.disjoint {r q : Reg} (h : r ≠ q) :
    k.offset r + k.bytes r ≤ k.offset q ∨ k.offset q + k.bytes q ≤ k.offset r := by
  have w := (k.wf_spec.1 r).2.2 q
  simp only [RegTable.apart, Bool.or_eq_true, decide_eq_true_eq, beq_iff_eq] at w
  rcases w with (h1 | h1) | h1
  · exact absurd h1 h
  · exact .inl h1
  · exact .inr h1

/-- `WMASK` lies inside the register. -/
theorem RegMap.wmask_and_fullMask (r : Reg) : k.wmask r &&& k.fullMask r = k.wmask r := by
  have w := (k.wf_spec.1 r).2.1
  simp only [RegTable.maskOk, Bool.and_eq_true, beq_iff_eq] at w
  exact w.1

/-- A field that every map lists has a place inside its register, of a width that the rules allow (R96). -/
theorem RegMap.field_spec {f : Field} (h : f.mayLack = false) :
    k.lists f = true ∧ k.lo f + k.len f ≤ 8 * k.bytes f.reg ∧ f.widthOk (k.len f) = true := by
  have w := (k.wf_spec.2 f).1
  unfold RegTable.placeOk at w
  split at w
  · rename_i hl
    simp only [Bool.and_eq_true, decide_eq_true_eq] at w
    exact ⟨hl, w.1, w.2⟩
  · rw [h] at w
    exact absurd w (by decide)

/-- A one-bit field. -/
theorem RegMap.len_flag {f : Field} (h : f.mayLack = false) (h1 : ∀ n, f.widthOk n = (n == 1)) : k.len f = 1 := by
  have w := (k.field_spec h).2.2
  rw [h1] at w
  simpa using w

/-- The bit of a one-bit field lies inside its register. -/
theorem RegMap.lo_flag {f : Field} (h : f.mayLack = false) (h1 : ∀ n, f.widthOk n = (n == 1)) :
    k.lo f < 8 * k.bytes f.reg := by
  have w := (k.field_spec h).2.1
  rw [k.len_flag h h1] at w
  omega

/-- Two fields of a register share no bit. -/
theorem RegMap.fields_apart {f g : Field} (hf : f.mayLack = false) (hg : g.mayLack = false) (h : f ≠ g)
    (hr : f.reg = g.reg) : k.lo f + k.len f ≤ k.lo g ∨ k.lo g + k.len g ≤ k.lo f := by
  have w := (k.wf_spec.2 f).2 g
  simpa [RegTable.fieldsApart, h, hr, (k.field_spec hf).1, (k.field_spec hg).1] using w

/-- A programmable level is less than 8, in every map (R136). -/
theorem RegMap.len_lvl (i : Fin 5) : k.len (.lvl i) ≤ 3 := by
  have w := (k.wf_spec.2 (.lvl i)).1
  unfold RegTable.placeOk at w
  split at w
  · simp only [Bool.and_eq_true, Field.widthOk, beq_iff_eq] at w
    omega
  · rename_i h
    simp only [RegTable.lists, Bool.not_eq_true, Option.isSome_eq_false_iff, Option.isNone_iff_eq_none] at h
    simp [RegTable.len, h, Field.openLen]

/-- The register that owns an offset (R95). -/
theorem RegMap.regAt_eq_some {o : Nat} {r : Reg} : k.regAt o = some r ↔ k.offset r ≤ o ∧ o < k.offset r + k.bytes r := by
  constructor
  · intro h
    have := List.find?_some h
    simpa using this
  · intro h
    cases e : k.regAt o with
    | none =>
      have := List.find?_eq_none.mp e r r.mem_all
      simp only [Bool.and_eq_true, decide_eq_true_eq] at this
      exact absurd h this
    | some q =>
      have hq := List.find?_some e
      simp only [Bool.and_eq_true, decide_eq_true_eq] at hq
      by_cases hr : q = r
      · rw [hr]
      · have := k.disjoint hr
        omega

/-- An offset no register owns (R95). -/
theorem RegMap.regAt_eq_none {o : Nat} : k.regAt o = none ↔ ∀ r : Reg, o < k.offset r ∨ k.offset r + k.bytes r ≤ o := by
  constructor
  · intro h r
    have := List.find?_eq_none.mp h r r.mem_all
    simp only [Bool.and_eq_true, decide_eq_true_eq] at this
    omega
  · intro h
    cases e : k.regAt o with
    | none => rfl
    | some r =>
      have := k.regAt_eq_some.mp e
      have := h r
      omega

/-- Storing a register leaves every byte outside it. -/
theorem Memory.read_setReg_outside (m : Memory) (r : Reg) (v : Word) (p : Nat)
    (h : p < k.offset r ∨ k.offset r + k.bytes r ≤ p) : (m.setReg k r v).read p = m.read p :=
  Memory.read_writeSpan_outside m _ _ _ _ h

/-- A register reads what was stored in it, cut to its width; every other register keeps its value. -/
theorem Memory.reg_setReg (m : Memory) (r q : Reg) (v : Word) :
    (m.setReg k r v).reg k q = if q = r then v &&& k.fullMask r else m.reg k q := by
  split
  · next h =>
    subst h
    simp [Memory.setReg, Memory.reg, Memory.readSpan_writeSpan _ _ _ _ (k.bytes_le q), RegTable.fullMask, fieldMask]
  · next h =>
    refine Memory.readSpan_congr fun i hi => Memory.read_setReg_outside k _ _ _ _ ?_
    have := k.disjoint h
    omega

@[simp] theorem Memory.reg_setReg_same (m : Memory) (r : Reg) (v : Word) :
    (m.setReg k r v).reg k r = v &&& k.fullMask r := by simp [Memory.reg_setReg]

theorem Memory.reg_setReg_ne (m : Memory) {r q : Reg} (v : Word) (h : q ≠ r) :
    (m.setReg k r v).reg k q = m.reg k q := by simp [Memory.reg_setReg, h]

theorem Memory.wf_setReg {m : Memory} (r : Reg) (v : Word) (h : m.wf = true) : (m.setReg k r v).wf = true :=
  Memory.wf_writeSpan _ _ _ (k.inside r) h

/-- A byte that no register owns is in no register. -/
theorem Memory.reg_write_unowned (m : Memory) (p : Nat) (b : Byte) (r : Reg) (h : k.regAt p = none) :
    (m.write p b).reg k r = m.reg k r := by
  refine Memory.readSpan_congr fun i hi => ?_
  rw [Memory.read_write, if_neg]
  have := (k.regAt_eq_none).mp h r
  omega

/-- Register files that agree on a register's bytes agree on the register. -/
theorem Memory.reg_congr {m m' : Memory} {r : Reg}
    (h : ∀ p, k.offset r ≤ p → p < k.offset r + k.bytes r → m.read p = m'.read p) : m.reg k r = m'.reg k r :=
  Memory.readSpan_congr fun i hi => h _ (by omega) (by omega)

/-- Register files that agree on a register agree on its bytes. -/
theorem Memory.read_of_reg_eq {m m' : Memory} {r : Reg} (h : m.reg k r = m'.reg k r) {p : Nat}
    (h1 : k.offset r ≤ p) (h2 : p < k.offset r + k.bytes r) : m.read p = m'.read p := by
  have e1 := Memory.readSpan_byte m (k.offset r) (k.bytes r) (p - k.offset r) (by omega) (k.bytes_le r)
  have e2 := Memory.readSpan_byte m' (k.offset r) (k.bytes r) (p - k.offset r) (by omega) (k.bytes_le r)
  have hp : k.offset r + (p - k.offset r) = p := by omega
  rw [hp] at e1 e2
  rw [← e1, ← e2]
  exact congrArg (fun w : Word => (w >>> (8 * (k.bytes r - 1 - (p - k.offset r)))).setWidth 8) h

/-- A register has no bit above its width. -/
theorem Memory.reg_and_fullMask (m : Memory) (r : Reg) : m.reg k r &&& k.fullMask r = m.reg k r := by
  have key : ∀ (o n : Nat), n ≤ 4 → m.readSpan o n &&& fieldMask 0 (8 * n) = m.readSpan o n := by
    intro o n
    induction n with
    | zero => intro _; simp [Memory.readSpan]
    | succ n ih =>
      intro hn
      have ih := ih (by omega)
      refine BitVec.eq_of_getLsbD_eq fun j hj => ?_
      simp only [Memory.readSpan, BitVec.getLsbD_and, getLsbD_fieldMask, BitVec.getLsbD_or,
        BitVec.getLsbD_shiftLeft, BitVec.getLsbD_setWidth]
      by_cases h : j < 8 * (n + 1)
      · simp [h, hj]
      · have hb : (m.read (o + n)).getLsbD j = false := BitVec.getLsbD_of_ge _ _ (by omega)
        have hi := congrArg (fun w : Word => w.getLsbD (j - 8)) ih
        have hj8 : ¬ j - 8 < 8 * n := by omega
        simp only [BitVec.getLsbD_and, getLsbD_fieldMask, Nat.zero_add, hj8, decide_false, Bool.and_false] at hi
        simp [h, hb, ← hi]
  exact key _ _ (k.bytes_le r)

theorem Memory.getLsbD_reg_of_ge (m : Memory) (r : Reg) (i : Nat) (h : 8 * k.bytes r ≤ i) :
    (m.reg k r).getLsbD i = false := by
  rw [← Memory.reg_and_fullMask, BitVec.getLsbD_and, RegTable.fullMask, getLsbD_fieldMask]
  have : ¬ i < 8 * k.bytes r := by omega
  simp [this]

/-- `RESET_IMAGE` as a register file has the canonical form, whatever the parameter's cells. -/
theorem Params.wf_resetMemory (p : Params) : p.resetMemory.wf = true := by
  have key : ∀ (l : List Host.Cell) (m : Memory), m.wf = true →
      (l.foldl (fun m c => m.write (c.1 % Config.windowSize) c.2) m).wf = true := by
    intro l
    induction l with
    | nil => exact fun m h => h
    | cons c l ih => exact fun m h => ih _ (Memory.wf_write _ (Nat.mod_lt _ (by decide)) h)
  exact key p.resetImage [] rfl

/-- The default image is all zero. -/
theorem Params.resetMemory_nil {p : Params} (h : p.resetImage = []) : p.resetMemory = [] := by
  rw [Params.resetMemory, h]
  rfl

end Sys2Proof.Machine
end

