-- ==== Sys2Proof/Laws/State.lean ====
section
/-! SUPPORT. What each update of the state does to each of its fields, true by unfolding the update once. -/

namespace Sys2Proof.Machine

variable (s : State)

@[simp] theorem State.rf_startOp : (s.startOp).rf = s.rf := rfl
@[simp] theorem State.bootMode_startOp : (s.startOp).bootMode = s.bootMode := rfl
@[simp] theorem State.chips_startOp : (s.startOp).chips = s.chips := rfl
@[simp] theorem State.wakeCountdown_startOp : (s.startOp).wakeCountdown = s.wakeCountdown := rfl
@[simp] theorem State.timerAcc1_startOp : (s.startOp).timerAcc1 = s.timerAcc1 := rfl
@[simp] theorem State.timerAcc2_startOp : (s.startOp).timerAcc2 = s.timerAcc2 := rfl
@[simp] theorem State.timerReadAck1_startOp : (s.startOp).timerReadAck1 = s.timerReadAck1 := rfl
@[simp] theorem State.timerReadAck2_startOp : (s.startOp).timerReadAck2 = s.timerReadAck2 := rfl
@[simp] theorem State.tickCounter_startOp : (s.startOp).tickCounter = s.tickCounter := rfl
@[simp] theorem State.lowPowerStop_startOp : (s.startOp).lowPowerStop = s.lowPowerStop := rfl
@[simp] theorem State.cpuIpl_startOp : (s.startOp).cpuIpl = s.cpuIpl := rfl
@[simp] theorem State.portDPrevActive_startOp : (s.startOp).portDPrevActive = s.portDPrevActive := rfl
@[simp] theorem State.inputs_startOp : (s.startOp).inputs = s.inputs := rfl
@[simp] theorem State.reaches_startOp (a : Word) : (s.startOp).reaches a = s.reaches a := rfl
@[simp] theorem State.params_startOp : (s.startOp).params = s.params := rfl
@[simp] theorem State.statusFlags_startOp : (s.startOp).statusFlags = s.statusFlags := rfl
@[simp] theorem State.requests_startOp : (s.startOp).requests = s.requests := rfl
@[simp] theorem State.returned_startOp : (s.startOp).returned = .nothing := rfl
@[simp] theorem State.events_startOp : (s.startOp).events = [] := rfl

@[simp] theorem State.rf_emit (e : Event) : (s.emit e).rf = s.rf := rfl
@[simp] theorem State.bootMode_emit (e : Event) : (s.emit e).bootMode = s.bootMode := rfl
@[simp] theorem State.chips_emit (e : Event) : (s.emit e).chips = s.chips := rfl
@[simp] theorem State.wakeCountdown_emit (e : Event) : (s.emit e).wakeCountdown = s.wakeCountdown := rfl
@[simp] theorem State.timerAcc1_emit (e : Event) : (s.emit e).timerAcc1 = s.timerAcc1 := rfl
@[simp] theorem State.timerAcc2_emit (e : Event) : (s.emit e).timerAcc2 = s.timerAcc2 := rfl
@[simp] theorem State.timerReadAck1_emit (e : Event) : (s.emit e).timerReadAck1 = s.timerReadAck1 := rfl
@[simp] theorem State.timerReadAck2_emit (e : Event) : (s.emit e).timerReadAck2 = s.timerReadAck2 := rfl
@[simp] theorem State.tickCounter_emit (e : Event) : (s.emit e).tickCounter = s.tickCounter := rfl
@[simp] theorem State.lowPowerStop_emit (e : Event) : (s.emit e).lowPowerStop = s.lowPowerStop := rfl
@[simp] theorem State.cpuIpl_emit (e : Event) : (s.emit e).cpuIpl = s.cpuIpl := rfl
@[simp] theorem State.portDPrevActive_emit (e : Event) : (s.emit e).portDPrevActive = s.portDPrevActive := rfl
@[simp] theorem State.inputs_emit (e : Event) : (s.emit e).inputs = s.inputs := rfl
@[simp] theorem State.params_emit (e : Event) : (s.emit e).params = s.params := rfl
@[simp] theorem State.statusFlags_emit (e : Event) : (s.emit e).statusFlags = s.statusFlags := rfl
@[simp] theorem State.requests_emit (e : Event) : (s.emit e).requests = s.requests := rfl
@[simp] theorem State.returned_emit (e : Event) : (s.emit e).returned = s.returned := rfl
@[simp] theorem State.events_emit (e : Event) : (s.emit e).events = s.events ++ [e] := rfl

@[simp] theorem State.rf_give (v : Returned) : (s.give v).rf = s.rf := rfl
@[simp] theorem State.bootMode_give (v : Returned) : (s.give v).bootMode = s.bootMode := rfl
@[simp] theorem State.chips_give (v : Returned) : (s.give v).chips = s.chips := rfl
@[simp] theorem State.wakeCountdown_give (v : Returned) : (s.give v).wakeCountdown = s.wakeCountdown := rfl
@[simp] theorem State.timerAcc1_give (v : Returned) : (s.give v).timerAcc1 = s.timerAcc1 := rfl
@[simp] theorem State.timerAcc2_give (v : Returned) : (s.give v).timerAcc2 = s.timerAcc2 := rfl
@[simp] theorem State.timerReadAck1_give (v : Returned) : (s.give v).timerReadAck1 = s.timerReadAck1 := rfl
@[simp] theorem State.timerReadAck2_give (v : Returned) : (s.give v).timerReadAck2 = s.timerReadAck2 := rfl
@[simp] theorem State.tickCounter_give (v : Returned) : (s.give v).tickCounter = s.tickCounter := rfl
@[simp] theorem State.lowPowerStop_give (v : Returned) : (s.give v).lowPowerStop = s.lowPowerStop := rfl
@[simp] theorem State.cpuIpl_give (v : Returned) : (s.give v).cpuIpl = s.cpuIpl := rfl
@[simp] theorem State.portDPrevActive_give (v : Returned) : (s.give v).portDPrevActive = s.portDPrevActive := rfl
@[simp] theorem State.inputs_give (v : Returned) : (s.give v).inputs = s.inputs := rfl
@[simp] theorem State.params_give (v : Returned) : (s.give v).params = s.params := rfl
@[simp] theorem State.statusFlags_give (v : Returned) : (s.give v).statusFlags = s.statusFlags := rfl
@[simp] theorem State.requests_give (v : Returned) : (s.give v).requests = s.requests := rfl
@[simp] theorem State.returned_give (v : Returned) : (s.give v).returned = v := rfl
@[simp] theorem State.events_give (v : Returned) : (s.give v).events = s.events := rfl

@[simp] theorem State.rf_setReg (r : Reg) (v : Word) : (s.setReg r v).rf = s.rf.setReg s.params.regMap r v := rfl
@[simp] theorem State.bootMode_setReg (r : Reg) (v : Word) : (s.setReg r v).bootMode = s.bootMode := rfl
@[simp] theorem State.chips_setReg (r : Reg) (v : Word) : (s.setReg r v).chips = s.chips := rfl
@[simp] theorem State.wakeCountdown_setReg (r : Reg) (v : Word) : (s.setReg r v).wakeCountdown = s.wakeCountdown := rfl
@[simp] theorem State.timerAcc1_setReg (r : Reg) (v : Word) : (s.setReg r v).timerAcc1 = s.timerAcc1 := rfl
@[simp] theorem State.timerAcc2_setReg (r : Reg) (v : Word) : (s.setReg r v).timerAcc2 = s.timerAcc2 := rfl
@[simp] theorem State.timerReadAck1_setReg (r : Reg) (v : Word) : (s.setReg r v).timerReadAck1 = s.timerReadAck1 := rfl
@[simp] theorem State.timerReadAck2_setReg (r : Reg) (v : Word) : (s.setReg r v).timerReadAck2 = s.timerReadAck2 := rfl
@[simp] theorem State.tickCounter_setReg (r : Reg) (v : Word) : (s.setReg r v).tickCounter = s.tickCounter := rfl
@[simp] theorem State.lowPowerStop_setReg (r : Reg) (v : Word) : (s.setReg r v).lowPowerStop = s.lowPowerStop := rfl
@[simp] theorem State.cpuIpl_setReg (r : Reg) (v : Word) : (s.setReg r v).cpuIpl = s.cpuIpl := rfl
@[simp] theorem State.portDPrevActive_setReg (r : Reg) (v : Word) : (s.setReg r v).portDPrevActive = s.portDPrevActive := rfl
@[simp] theorem State.inputs_setReg (r : Reg) (v : Word) : (s.setReg r v).inputs = s.inputs := rfl
@[simp] theorem State.params_setReg (r : Reg) (v : Word) : (s.setReg r v).params = s.params := rfl
@[simp] theorem State.statusFlags_setReg (r : Reg) (v : Word) : (s.setReg r v).statusFlags = s.statusFlags := rfl
@[simp] theorem State.requests_setReg (r : Reg) (v : Word) : (s.setReg r v).requests = s.requests := rfl
@[simp] theorem State.returned_setReg (r : Reg) (v : Word) : (s.setReg r v).returned = s.returned := rfl
@[simp] theorem State.events_setReg (r : Reg) (v : Word) : (s.setReg r v).events = s.events := rfl

@[simp] theorem State.rf_setField (f : Field) (x : Nat) : (s.setField f x).rf = 
    s.rf.setReg s.params.regMap f.reg (setBits (s.reg f.reg) (s.params.regMap.lo f) (s.params.regMap.len f) x) := rfl
@[simp] theorem State.bootMode_setField (f : Field) (x : Nat) : (s.setField f x).bootMode = s.bootMode := rfl
@[simp] theorem State.chips_setField (f : Field) (x : Nat) : (s.setField f x).chips = s.chips := rfl
@[simp] theorem State.wakeCountdown_setField (f : Field) (x : Nat) : (s.setField f x).wakeCountdown = s.wakeCountdown := rfl
@[simp] theorem State.timerAcc1_setField (f : Field) (x : Nat) : (s.setField f x).timerAcc1 = s.timerAcc1 := rfl
@[simp] theorem State.timerAcc2_setField (f : Field) (x : Nat) : (s.setField f x).timerAcc2 = s.timerAcc2 := rfl
@[simp] theorem State.timerReadAck1_setField (f : Field) (x : Nat) : (s.setField f x).timerReadAck1 = s.timerReadAck1 := rfl
@[simp] theorem State.timerReadAck2_setField (f : Field) (x : Nat) : (s.setField f x).timerReadAck2 = s.timerReadAck2 := rfl
@[simp] theorem State.tickCounter_setField (f : Field) (x : Nat) : (s.setField f x).tickCounter = s.tickCounter := rfl
@[simp] theorem State.lowPowerStop_setField (f : Field) (x : Nat) : (s.setField f x).lowPowerStop = s.lowPowerStop := rfl
@[simp] theorem State.cpuIpl_setField (f : Field) (x : Nat) : (s.setField f x).cpuIpl = s.cpuIpl := rfl
@[simp] theorem State.portDPrevActive_setField (f : Field) (x : Nat) : (s.setField f x).portDPrevActive = s.portDPrevActive := rfl
@[simp] theorem State.inputs_setField (f : Field) (x : Nat) : (s.setField f x).inputs = s.inputs := rfl
@[simp] theorem State.params_setField (f : Field) (x : Nat) : (s.setField f x).params = s.params := rfl
@[simp] theorem State.statusFlags_setField (f : Field) (x : Nat) : (s.setField f x).statusFlags = s.statusFlags := rfl
@[simp] theorem State.requests_setField (f : Field) (x : Nat) : (s.setField f x).requests = s.requests := rfl
@[simp] theorem State.returned_setField (f : Field) (x : Nat) : (s.setField f x).returned = s.returned := rfl
@[simp] theorem State.events_setField (f : Field) (x : Nat) : (s.setField f x).events = s.events := rfl

@[simp] theorem State.rf_maskedWrite (r : Reg) (mask v be : Word) : (s.maskedWrite r mask v be).rf =
    s.rf.setReg s.params.regMap r (mergeBits (s.reg r) v mask be) := rfl
@[simp] theorem State.bootMode_maskedWrite (r : Reg) (mask v be : Word) : (s.maskedWrite r mask v be).bootMode = s.bootMode := rfl
@[simp] theorem State.chips_maskedWrite (r : Reg) (mask v be : Word) : (s.maskedWrite r mask v be).chips = s.chips := rfl
@[simp] theorem State.wakeCountdown_maskedWrite (r : Reg) (mask v be : Word) : (s.maskedWrite r mask v be).wakeCountdown = s.wakeCountdown := rfl
@[simp] theorem State.timerAcc1_maskedWrite (r : Reg) (mask v be : Word) : (s.maskedWrite r mask v be).timerAcc1 = s.timerAcc1 := rfl
@[simp] theorem State.timerAcc2_maskedWrite (r : Reg) (mask v be : Word) : (s.maskedWrite r mask v be).timerAcc2 = s.timerAcc2 := rfl
@[simp] theorem State.timerReadAck1_maskedWrite (r : Reg) (mask v be : Word) : (s.maskedWrite r mask v be).timerReadAck1 = s.timerReadAck1 := rfl
@[simp] theorem State.timerReadAck2_maskedWrite (r : Reg) (mask v be : Word) : (s.maskedWrite r mask v be).timerReadAck2 = s.timerReadAck2 := rfl
@[simp] theorem State.tickCounter_maskedWrite (r : Reg) (mask v be : Word) : (s.maskedWrite r mask v be).tickCounter = s.tickCounter := rfl
@[simp] theorem State.lowPowerStop_maskedWrite (r : Reg) (mask v be : Word) : (s.maskedWrite r mask v be).lowPowerStop = s.lowPowerStop := rfl
@[simp] theorem State.cpuIpl_maskedWrite (r : Reg) (mask v be : Word) : (s.maskedWrite r mask v be).cpuIpl = s.cpuIpl := rfl
@[simp] theorem State.portDPrevActive_maskedWrite (r : Reg) (mask v be : Word) : (s.maskedWrite r mask v be).portDPrevActive = s.portDPrevActive := rfl
@[simp] theorem State.inputs_maskedWrite (r : Reg) (mask v be : Word) : (s.maskedWrite r mask v be).inputs = s.inputs := rfl
@[simp] theorem State.params_maskedWrite (r : Reg) (mask v be : Word) : (s.maskedWrite r mask v be).params = s.params := rfl
@[simp] theorem State.statusFlags_maskedWrite (r : Reg) (mask v be : Word) : (s.maskedWrite r mask v be).statusFlags = s.statusFlags := rfl
@[simp] theorem State.requests_maskedWrite (r : Reg) (mask v be : Word) : (s.maskedWrite r mask v be).requests = s.requests := rfl
@[simp] theorem State.returned_maskedWrite (r : Reg) (mask v be : Word) : (s.maskedWrite r mask v be).returned = s.returned := rfl
@[simp] theorem State.events_maskedWrite (r : Reg) (mask v be : Word) : (s.maskedWrite r mask v be).events = s.events := rfl

@[simp] theorem State.rf_plainWrite (r : Reg) (v be : Word) : (s.plainWrite r v be).rf =
    s.rf.setReg s.params.regMap r (mergeBits (s.reg r) v (s.params.regMap.wmask r) be) := rfl
@[simp] theorem State.bootMode_plainWrite (r : Reg) (v be : Word) : (s.plainWrite r v be).bootMode = s.bootMode := rfl
@[simp] theorem State.chips_plainWrite (r : Reg) (v be : Word) : (s.plainWrite r v be).chips = s.chips := rfl
@[simp] theorem State.wakeCountdown_plainWrite (r : Reg) (v be : Word) : (s.plainWrite r v be).wakeCountdown = s.wakeCountdown := rfl
@[simp] theorem State.timerAcc1_plainWrite (r : Reg) (v be : Word) : (s.plainWrite r v be).timerAcc1 = s.timerAcc1 := rfl
@[simp] theorem State.timerAcc2_plainWrite (r : Reg) (v be : Word) : (s.plainWrite r v be).timerAcc2 = s.timerAcc2 := rfl
@[simp] theorem State.timerReadAck1_plainWrite (r : Reg) (v be : Word) : (s.plainWrite r v be).timerReadAck1 = s.timerReadAck1 := rfl
@[simp] theorem State.timerReadAck2_plainWrite (r : Reg) (v be : Word) : (s.plainWrite r v be).timerReadAck2 = s.timerReadAck2 := rfl
@[simp] theorem State.tickCounter_plainWrite (r : Reg) (v be : Word) : (s.plainWrite r v be).tickCounter = s.tickCounter := rfl
@[simp] theorem State.lowPowerStop_plainWrite (r : Reg) (v be : Word) : (s.plainWrite r v be).lowPowerStop = s.lowPowerStop := rfl
@[simp] theorem State.cpuIpl_plainWrite (r : Reg) (v be : Word) : (s.plainWrite r v be).cpuIpl = s.cpuIpl := rfl
@[simp] theorem State.portDPrevActive_plainWrite (r : Reg) (v be : Word) : (s.plainWrite r v be).portDPrevActive = s.portDPrevActive := rfl
@[simp] theorem State.inputs_plainWrite (r : Reg) (v be : Word) : (s.plainWrite r v be).inputs = s.inputs := rfl
@[simp] theorem State.params_plainWrite (r : Reg) (v be : Word) : (s.plainWrite r v be).params = s.params := rfl
@[simp] theorem State.statusFlags_plainWrite (r : Reg) (v be : Word) : (s.plainWrite r v be).statusFlags = s.statusFlags := rfl
@[simp] theorem State.requests_plainWrite (r : Reg) (v be : Word) : (s.plainWrite r v be).requests = s.requests := rfl
@[simp] theorem State.returned_plainWrite (r : Reg) (v be : Word) : (s.plainWrite r v be).returned = s.returned := rfl
@[simp] theorem State.events_plainWrite (r : Reg) (v be : Word) : (s.plainWrite r v be).events = s.events := rfl

@[simp] theorem State.rf_recomputeIsr : (s.recomputeIsr).rf = s.rf.setReg s.params.regMap .isr (s.reg .ipr &&& ~~~s.reg .imr) := rfl
@[simp] theorem State.bootMode_recomputeIsr : (s.recomputeIsr).bootMode = s.bootMode := rfl
@[simp] theorem State.chips_recomputeIsr : (s.recomputeIsr).chips = s.chips := rfl
@[simp] theorem State.wakeCountdown_recomputeIsr : (s.recomputeIsr).wakeCountdown = s.wakeCountdown := rfl
@[simp] theorem State.timerAcc1_recomputeIsr : (s.recomputeIsr).timerAcc1 = s.timerAcc1 := rfl
@[simp] theorem State.timerAcc2_recomputeIsr : (s.recomputeIsr).timerAcc2 = s.timerAcc2 := rfl
@[simp] theorem State.timerReadAck1_recomputeIsr : (s.recomputeIsr).timerReadAck1 = s.timerReadAck1 := rfl
@[simp] theorem State.timerReadAck2_recomputeIsr : (s.recomputeIsr).timerReadAck2 = s.timerReadAck2 := rfl
@[simp] theorem State.tickCounter_recomputeIsr : (s.recomputeIsr).tickCounter = s.tickCounter := rfl
@[simp] theorem State.lowPowerStop_recomputeIsr : (s.recomputeIsr).lowPowerStop = s.lowPowerStop := rfl
@[simp] theorem State.cpuIpl_recomputeIsr : (s.recomputeIsr).cpuIpl = s.cpuIpl := rfl
@[simp] theorem State.portDPrevActive_recomputeIsr : (s.recomputeIsr).portDPrevActive = s.portDPrevActive := rfl
@[simp] theorem State.inputs_recomputeIsr : (s.recomputeIsr).inputs = s.inputs := rfl
@[simp] theorem State.params_recomputeIsr : (s.recomputeIsr).params = s.params := rfl
@[simp] theorem State.statusFlags_recomputeIsr : (s.recomputeIsr).statusFlags = s.statusFlags := rfl
@[simp] theorem State.requests_recomputeIsr : (s.recomputeIsr).requests = s.requests := rfl
@[simp] theorem State.returned_recomputeIsr : (s.recomputeIsr).returned = s.returned := rfl
@[simp] theorem State.events_recomputeIsr : (s.recomputeIsr).events = s.events := rfl

@[simp] theorem State.bootMode_clearSource (x : SourceRow) : (s.clearSource x).bootMode = s.bootMode := rfl
@[simp] theorem State.chips_clearSource (x : SourceRow) : (s.clearSource x).chips = s.chips := rfl
@[simp] theorem State.wakeCountdown_clearSource (x : SourceRow) : (s.clearSource x).wakeCountdown = s.wakeCountdown := rfl
@[simp] theorem State.timerAcc1_clearSource (x : SourceRow) : (s.clearSource x).timerAcc1 = s.timerAcc1 := rfl
@[simp] theorem State.timerAcc2_clearSource (x : SourceRow) : (s.clearSource x).timerAcc2 = s.timerAcc2 := rfl
@[simp] theorem State.timerReadAck1_clearSource (x : SourceRow) : (s.clearSource x).timerReadAck1 = s.timerReadAck1 := rfl
@[simp] theorem State.timerReadAck2_clearSource (x : SourceRow) : (s.clearSource x).timerReadAck2 = s.timerReadAck2 := rfl
@[simp] theorem State.tickCounter_clearSource (x : SourceRow) : (s.clearSource x).tickCounter = s.tickCounter := rfl
@[simp] theorem State.lowPowerStop_clearSource (x : SourceRow) : (s.clearSource x).lowPowerStop = s.lowPowerStop := rfl
@[simp] theorem State.cpuIpl_clearSource (x : SourceRow) : (s.clearSource x).cpuIpl = s.cpuIpl := rfl
@[simp] theorem State.portDPrevActive_clearSource (x : SourceRow) : (s.clearSource x).portDPrevActive = s.portDPrevActive := rfl
@[simp] theorem State.inputs_clearSource (x : SourceRow) : (s.clearSource x).inputs = s.inputs := rfl
@[simp] theorem State.params_clearSource (x : SourceRow) : (s.clearSource x).params = s.params := rfl
@[simp] theorem State.statusFlags_clearSource (x : SourceRow) : (s.clearSource x).statusFlags = s.statusFlags := rfl
@[simp] theorem State.requests_clearSource (x : SourceRow) : (s.clearSource x).requests = s.requests := rfl
@[simp] theorem State.returned_clearSource (x : SourceRow) : (s.clearSource x).returned = s.returned := rfl
@[simp] theorem State.events_clearSource (x : SourceRow) : (s.clearSource x).events = s.events := rfl

@[simp] theorem State.rf_setPrevActive (i : Nat) (b : Bool) : (s.setPrevActive i b).rf = s.rf := rfl
@[simp] theorem State.bootMode_setPrevActive (i : Nat) (b : Bool) : (s.setPrevActive i b).bootMode = s.bootMode := rfl
@[simp] theorem State.chips_setPrevActive (i : Nat) (b : Bool) : (s.setPrevActive i b).chips = s.chips := rfl
@[simp] theorem State.wakeCountdown_setPrevActive (i : Nat) (b : Bool) : (s.setPrevActive i b).wakeCountdown = s.wakeCountdown := rfl
@[simp] theorem State.timerAcc1_setPrevActive (i : Nat) (b : Bool) : (s.setPrevActive i b).timerAcc1 = s.timerAcc1 := rfl
@[simp] theorem State.timerAcc2_setPrevActive (i : Nat) (b : Bool) : (s.setPrevActive i b).timerAcc2 = s.timerAcc2 := rfl
@[simp] theorem State.timerReadAck1_setPrevActive (i : Nat) (b : Bool) : (s.setPrevActive i b).timerReadAck1 = s.timerReadAck1 := rfl
@[simp] theorem State.timerReadAck2_setPrevActive (i : Nat) (b : Bool) : (s.setPrevActive i b).timerReadAck2 = s.timerReadAck2 := rfl
@[simp] theorem State.tickCounter_setPrevActive (i : Nat) (b : Bool) : (s.setPrevActive i b).tickCounter = s.tickCounter := rfl
@[simp] theorem State.lowPowerStop_setPrevActive (i : Nat) (b : Bool) : (s.setPrevActive i b).lowPowerStop = s.lowPowerStop := rfl
@[simp] theorem State.cpuIpl_setPrevActive (i : Nat) (b : Bool) : (s.setPrevActive i b).cpuIpl = s.cpuIpl := rfl
@[simp] theorem State.portDPrevActive_setPrevActive (i : Nat) (b : Bool) : (s.setPrevActive i b).portDPrevActive = (s.portDPrevActive &&& ~~~((1 : Byte) <<< i)) ||| bitIf b i := rfl
@[simp] theorem State.inputs_setPrevActive (i : Nat) (b : Bool) : (s.setPrevActive i b).inputs = s.inputs := rfl
@[simp] theorem State.params_setPrevActive (i : Nat) (b : Bool) : (s.setPrevActive i b).params = s.params := rfl
@[simp] theorem State.statusFlags_setPrevActive (i : Nat) (b : Bool) : (s.setPrevActive i b).statusFlags = s.statusFlags := rfl
@[simp] theorem State.requests_setPrevActive (i : Nat) (b : Bool) : (s.setPrevActive i b).requests = s.requests := rfl
@[simp] theorem State.returned_setPrevActive (i : Nat) (b : Bool) : (s.setPrevActive i b).returned = s.returned := rfl
@[simp] theorem State.events_setPrevActive (i : Nat) (b : Bool) : (s.setPrevActive i b).events = s.events := rfl

@[simp] theorem State.rf_checkInterrupts : (s.checkInterrupts).rf = s.rf := rfl
@[simp] theorem State.bootMode_checkInterrupts : (s.checkInterrupts).bootMode = s.bootMode := rfl
@[simp] theorem State.chips_checkInterrupts : (s.checkInterrupts).chips = s.chips := rfl
@[simp] theorem State.wakeCountdown_checkInterrupts : (s.checkInterrupts).wakeCountdown = s.wakeCountdown := rfl
@[simp] theorem State.timerAcc1_checkInterrupts : (s.checkInterrupts).timerAcc1 = s.timerAcc1 := rfl
@[simp] theorem State.timerAcc2_checkInterrupts : (s.checkInterrupts).timerAcc2 = s.timerAcc2 := rfl
@[simp] theorem State.timerReadAck1_checkInterrupts : (s.checkInterrupts).timerReadAck1 = s.timerReadAck1 := rfl
@[simp] theorem State.timerReadAck2_checkInterrupts : (s.checkInterrupts).timerReadAck2 = s.timerReadAck2 := rfl
@[simp] theorem State.tickCounter_checkInterrupts : (s.checkInterrupts).tickCounter = s.tickCounter := rfl
@[simp] theorem State.lowPowerStop_checkInterrupts : (s.checkInterrupts).lowPowerStop = s.lowPowerStop := rfl
@[simp] theorem State.cpuIpl_checkInterrupts : (s.checkInterrupts).cpuIpl = BitVec.ofNat 3 s.level := rfl
@[simp] theorem State.portDPrevActive_checkInterrupts : (s.checkInterrupts).portDPrevActive = s.portDPrevActive := rfl
@[simp] theorem State.inputs_checkInterrupts : (s.checkInterrupts).inputs = s.inputs := rfl
@[simp] theorem State.params_checkInterrupts : (s.checkInterrupts).params = s.params := rfl
@[simp] theorem State.statusFlags_checkInterrupts : (s.checkInterrupts).statusFlags = s.statusFlags := rfl
@[simp] theorem State.requests_checkInterrupts : (s.checkInterrupts).requests = s.requests := rfl
@[simp] theorem State.returned_checkInterrupts : (s.checkInterrupts).returned = s.returned := rfl
@[simp] theorem State.events_checkInterrupts : (s.checkInterrupts).events = s.events ++ [.setIpl (BitVec.ofNat 3 s.level)] := rfl

@[simp] theorem State.rf_recomputeChips : (s.recomputeChips).rf = s.rf := rfl
@[simp] theorem State.bootMode_recomputeChips : (s.recomputeChips).bootMode = s.bootMode := rfl
@[simp] theorem State.chips_recomputeChips : (s.recomputeChips).chips = describeChips s.params s.rf s.bootMode := rfl
@[simp] theorem State.wakeCountdown_recomputeChips : (s.recomputeChips).wakeCountdown = s.wakeCountdown := rfl
@[simp] theorem State.timerAcc1_recomputeChips : (s.recomputeChips).timerAcc1 = s.timerAcc1 := rfl
@[simp] theorem State.timerAcc2_recomputeChips : (s.recomputeChips).timerAcc2 = s.timerAcc2 := rfl
@[simp] theorem State.timerReadAck1_recomputeChips : (s.recomputeChips).timerReadAck1 = s.timerReadAck1 := rfl
@[simp] theorem State.timerReadAck2_recomputeChips : (s.recomputeChips).timerReadAck2 = s.timerReadAck2 := rfl
@[simp] theorem State.tickCounter_recomputeChips : (s.recomputeChips).tickCounter = s.tickCounter := rfl
@[simp] theorem State.lowPowerStop_recomputeChips : (s.recomputeChips).lowPowerStop = s.lowPowerStop := rfl
@[simp] theorem State.cpuIpl_recomputeChips : (s.recomputeChips).cpuIpl = s.cpuIpl := rfl
@[simp] theorem State.portDPrevActive_recomputeChips : (s.recomputeChips).portDPrevActive = s.portDPrevActive := rfl
@[simp] theorem State.inputs_recomputeChips : (s.recomputeChips).inputs = s.inputs := rfl
@[simp] theorem State.params_recomputeChips : (s.recomputeChips).params = s.params := rfl
@[simp] theorem State.statusFlags_recomputeChips : (s.recomputeChips).statusFlags = s.statusFlags := rfl
@[simp] theorem State.requests_recomputeChips : (s.recomputeChips).requests = s.requests := rfl
@[simp] theorem State.returned_recomputeChips : (s.recomputeChips).returned = s.returned := rfl
@[simp] theorem State.events_recomputeChips : (s.recomputeChips).events = s.events ++ [.mapChanged (describeChips s.params s.rf s.bootMode)] := rfl

@[simp] theorem State.rf_recomputeStatusFlags : (s.recomputeStatusFlags).rf = s.rf := rfl
@[simp] theorem State.bootMode_recomputeStatusFlags : (s.recomputeStatusFlags).bootMode = s.bootMode := rfl
@[simp] theorem State.chips_recomputeStatusFlags : (s.recomputeStatusFlags).chips = s.chips := rfl
@[simp] theorem State.wakeCountdown_recomputeStatusFlags : (s.recomputeStatusFlags).wakeCountdown = s.wakeCountdown := rfl
@[simp] theorem State.timerAcc1_recomputeStatusFlags : (s.recomputeStatusFlags).timerAcc1 = s.timerAcc1 := rfl
@[simp] theorem State.timerAcc2_recomputeStatusFlags : (s.recomputeStatusFlags).timerAcc2 = s.timerAcc2 := rfl
@[simp] theorem State.timerReadAck1_recomputeStatusFlags : (s.recomputeStatusFlags).timerReadAck1 = s.timerReadAck1 := rfl
@[simp] theorem State.timerReadAck2_recomputeStatusFlags : (s.recomputeStatusFlags).timerReadAck2 = s.timerReadAck2 := rfl
@[simp] theorem State.tickCounter_recomputeStatusFlags : (s.recomputeStatusFlags).tickCounter = s.tickCounter := rfl
@[simp] theorem State.lowPowerStop_recomputeStatusFlags : (s.recomputeStatusFlags).lowPowerStop = s.lowPowerStop := rfl
@[simp] theorem State.cpuIpl_recomputeStatusFlags : (s.recomputeStatusFlags).cpuIpl = s.cpuIpl := rfl
@[simp] theorem State.portDPrevActive_recomputeStatusFlags : (s.recomputeStatusFlags).portDPrevActive = s.portDPrevActive := rfl
@[simp] theorem State.inputs_recomputeStatusFlags : (s.recomputeStatusFlags).inputs = s.inputs := rfl
@[simp] theorem State.params_recomputeStatusFlags : (s.recomputeStatusFlags).params = s.params := rfl
@[simp] theorem State.statusFlags_recomputeStatusFlags : (s.recomputeStatusFlags).statusFlags = describeStatus s.params.regMap s.rf := rfl
@[simp] theorem State.requests_recomputeStatusFlags : (s.recomputeStatusFlags).requests = s.requests := rfl
@[simp] theorem State.returned_recomputeStatusFlags : (s.recomputeStatusFlags).returned = s.returned := rfl
@[simp] theorem State.events_recomputeStatusFlags : (s.recomputeStatusFlags).events = s.events := rfl

@[simp] theorem State.rf_countTick : (s.countTick).rf = s.rf := rfl
@[simp] theorem State.bootMode_countTick : (s.countTick).bootMode = s.bootMode := rfl
@[simp] theorem State.chips_countTick : (s.countTick).chips = s.chips := rfl
@[simp] theorem State.wakeCountdown_countTick : (s.countTick).wakeCountdown = s.wakeCountdown := rfl
@[simp] theorem State.timerAcc1_countTick : (s.countTick).timerAcc1 = s.timerAcc1 := rfl
@[simp] theorem State.timerAcc2_countTick : (s.countTick).timerAcc2 = s.timerAcc2 := rfl
@[simp] theorem State.timerReadAck1_countTick : (s.countTick).timerReadAck1 = s.timerReadAck1 := rfl
@[simp] theorem State.timerReadAck2_countTick : (s.countTick).timerReadAck2 = s.timerReadAck2 := rfl
@[simp] theorem State.tickCounter_countTick : (s.countTick).tickCounter = if s.secondBoundary then 0 else s.tickCounter + 1 := rfl
@[simp] theorem State.lowPowerStop_countTick : (s.countTick).lowPowerStop = s.lowPowerStop := rfl
@[simp] theorem State.cpuIpl_countTick : (s.countTick).cpuIpl = s.cpuIpl := rfl
@[simp] theorem State.portDPrevActive_countTick : (s.countTick).portDPrevActive = s.portDPrevActive := rfl
@[simp] theorem State.inputs_countTick : (s.countTick).inputs = s.inputs := rfl
@[simp] theorem State.params_countTick : (s.countTick).params = s.params := rfl
@[simp] theorem State.statusFlags_countTick : (s.countTick).statusFlags = s.statusFlags := rfl
@[simp] theorem State.requests_countTick : (s.countTick).requests = s.requests := rfl
@[simp] theorem State.returned_countTick : (s.countTick).returned = s.returned := rfl
@[simp] theorem State.events_countTick : (s.countTick).events = s.events := rfl

@[simp] theorem State.rf_setTimerAcc (n : TimerId) (x : F64) : (s.setTimerAcc n x).rf = s.rf := by cases n <;> rfl
@[simp] theorem State.bootMode_setTimerAcc (n : TimerId) (x : F64) : (s.setTimerAcc n x).bootMode = s.bootMode := by cases n <;> rfl
@[simp] theorem State.chips_setTimerAcc (n : TimerId) (x : F64) : (s.setTimerAcc n x).chips = s.chips := by cases n <;> rfl
@[simp] theorem State.wakeCountdown_setTimerAcc (n : TimerId) (x : F64) : (s.setTimerAcc n x).wakeCountdown = s.wakeCountdown := by cases n <;> rfl
@[simp] theorem State.timerAcc1_setTimerAcc (n : TimerId) (x : F64) :
    (s.setTimerAcc n x).timerAcc1 = if n = .t1 then x else s.timerAcc1 := by cases n <;> rfl
@[simp] theorem State.timerAcc2_setTimerAcc (n : TimerId) (x : F64) :
    (s.setTimerAcc n x).timerAcc2 = if n = .t2 then x else s.timerAcc2 := by cases n <;> rfl
@[simp] theorem State.timerReadAck1_setTimerAcc (n : TimerId) (x : F64) : (s.setTimerAcc n x).timerReadAck1 = s.timerReadAck1 := by cases n <;> rfl
@[simp] theorem State.timerReadAck2_setTimerAcc (n : TimerId) (x : F64) : (s.setTimerAcc n x).timerReadAck2 = s.timerReadAck2 := by cases n <;> rfl
@[simp] theorem State.tickCounter_setTimerAcc (n : TimerId) (x : F64) : (s.setTimerAcc n x).tickCounter = s.tickCounter := by cases n <;> rfl
@[simp] theorem State.lowPowerStop_setTimerAcc (n : TimerId) (x : F64) : (s.setTimerAcc n x).lowPowerStop = s.lowPowerStop := by cases n <;> rfl
@[simp] theorem State.cpuIpl_setTimerAcc (n : TimerId) (x : F64) : (s.setTimerAcc n x).cpuIpl = s.cpuIpl := by cases n <;> rfl
@[simp] theorem State.portDPrevActive_setTimerAcc (n : TimerId) (x : F64) : (s.setTimerAcc n x).portDPrevActive = s.portDPrevActive := by cases n <;> rfl
@[simp] theorem State.inputs_setTimerAcc (n : TimerId) (x : F64) : (s.setTimerAcc n x).inputs = s.inputs := by cases n <;> rfl
@[simp] theorem State.params_setTimerAcc (n : TimerId) (x : F64) : (s.setTimerAcc n x).params = s.params := by cases n <;> rfl
@[simp] theorem State.statusFlags_setTimerAcc (n : TimerId) (x : F64) : (s.setTimerAcc n x).statusFlags = s.statusFlags := by cases n <;> rfl
@[simp] theorem State.requests_setTimerAcc (n : TimerId) (x : F64) : (s.setTimerAcc n x).requests = s.requests := by cases n <;> rfl
@[simp] theorem State.returned_setTimerAcc (n : TimerId) (x : F64) : (s.setTimerAcc n x).returned = s.returned := by cases n <;> rfl
@[simp] theorem State.events_setTimerAcc (n : TimerId) (x : F64) : (s.setTimerAcc n x).events = s.events := by cases n <;> rfl

@[simp] theorem State.rf_setTimerReadAck (n : TimerId) (x : Half) : (s.setTimerReadAck n x).rf = s.rf := by cases n <;> rfl
@[simp] theorem State.bootMode_setTimerReadAck (n : TimerId) (x : Half) : (s.setTimerReadAck n x).bootMode = s.bootMode := by cases n <;> rfl
@[simp] theorem State.chips_setTimerReadAck (n : TimerId) (x : Half) : (s.setTimerReadAck n x).chips = s.chips := by cases n <;> rfl
@[simp] theorem State.wakeCountdown_setTimerReadAck (n : TimerId) (x : Half) : (s.setTimerReadAck n x).wakeCountdown = s.wakeCountdown := by cases n <;> rfl
@[simp] theorem State.timerAcc1_setTimerReadAck (n : TimerId) (x : Half) : (s.setTimerReadAck n x).timerAcc1 = s.timerAcc1 := by cases n <;> rfl
@[simp] theorem State.timerAcc2_setTimerReadAck (n : TimerId) (x : Half) : (s.setTimerReadAck n x).timerAcc2 = s.timerAcc2 := by cases n <;> rfl
@[simp] theorem State.timerReadAck1_setTimerReadAck (n : TimerId) (x : Half) :
    (s.setTimerReadAck n x).timerReadAck1 = if n = .t1 then x else s.timerReadAck1 := by cases n <;> rfl
@[simp] theorem State.timerReadAck2_setTimerReadAck (n : TimerId) (x : Half) :
    (s.setTimerReadAck n x).timerReadAck2 = if n = .t2 then x else s.timerReadAck2 := by cases n <;> rfl
@[simp] theorem State.tickCounter_setTimerReadAck (n : TimerId) (x : Half) : (s.setTimerReadAck n x).tickCounter = s.tickCounter := by cases n <;> rfl
@[simp] theorem State.lowPowerStop_setTimerReadAck (n : TimerId) (x : Half) : (s.setTimerReadAck n x).lowPowerStop = s.lowPowerStop := by cases n <;> rfl
@[simp] theorem State.cpuIpl_setTimerReadAck (n : TimerId) (x : Half) : (s.setTimerReadAck n x).cpuIpl = s.cpuIpl := by cases n <;> rfl
@[simp] theorem State.portDPrevActive_setTimerReadAck (n : TimerId) (x : Half) : (s.setTimerReadAck n x).portDPrevActive = s.portDPrevActive := by cases n <;> rfl
@[simp] theorem State.inputs_setTimerReadAck (n : TimerId) (x : Half) : (s.setTimerReadAck n x).inputs = s.inputs := by cases n <;> rfl
@[simp] theorem State.params_setTimerReadAck (n : TimerId) (x : Half) : (s.setTimerReadAck n x).params = s.params := by cases n <;> rfl
@[simp] theorem State.statusFlags_setTimerReadAck (n : TimerId) (x : Half) : (s.setTimerReadAck n x).statusFlags = s.statusFlags := by cases n <;> rfl
@[simp] theorem State.requests_setTimerReadAck (n : TimerId) (x : Half) : (s.setTimerReadAck n x).requests = s.requests := by cases n <;> rfl
@[simp] theorem State.returned_setTimerReadAck (n : TimerId) (x : Half) : (s.setTimerReadAck n x).returned = s.returned := by cases n <;> rfl
@[simp] theorem State.events_setTimerReadAck (n : TimerId) (x : Half) : (s.setTimerReadAck n x).events = s.events := by cases n <;> rfl

@[simp] theorem State.timerAcc_setTimerAcc (n : TimerId) (x : F64) : (s.setTimerAcc n x).timerAcc n = x := by
  cases n <;> rfl

@[simp] theorem State.timerReadAck_setTimerReadAck (n : TimerId) (x : Half) :
    (s.setTimerReadAck n x).timerReadAck n = x := by cases n <;> rfl

end Sys2Proof.Machine
end

