-- ==== Sys2Proof/Laws/Ops.lean ====
section
/-! SUPPORT. What each shared operation of Machine/Ops.lean can do, said once: the registers it may change, their new
values, and that everything else stays. -/

namespace Sys2Proof.Machine

/-- The register files agree on every byte outside the listed registers, under a map. -/
def SameBytesBut (k : RegMap) (rs : List Reg) (m m' : Memory) : Prop :=
  ∀ p, (∀ r ∈ rs, p < k.offset r ∨ k.offset r + k.bytes r ≤ p) → m'.read p = m.read p

/-- `t` is `s` but for the bytes of the listed registers and the wake countdown. -/
def TouchesOnly (rs : List Reg) (s t : State) : Prop :=
  SameBytesBut s.params.regMap rs s.rf t.rf ∧ t = { s with rf := t.rf, wakeCountdown := t.wakeCountdown }

theorem SameBytesBut.refl (k : RegMap) (rs : List Reg) (m : Memory) : SameBytesBut k rs m m := fun _ _ => rfl

theorem SameBytesBut.trans {k : RegMap} {rs : List Reg} {m m' m'' : Memory} (h : SameBytesBut k rs m m')
    (h' : SameBytesBut k rs m' m'') : SameBytesBut k rs m m'' := fun p hp => (h' p hp).trans (h p hp)

theorem SameBytesBut.mono {k : RegMap} {rs rs' : List Reg} {m m' : Memory} (h : SameBytesBut k rs m m')
    (hs : ∀ r ∈ rs, r ∈ rs') : SameBytesBut k rs' m m' := fun p hp => h p fun r hr => hp r (hs r hr)

theorem SameBytesBut.setReg (k : RegMap) {rs : List Reg} (m : Memory) {r : Reg} (v : Word) (h : r ∈ rs) :
    SameBytesBut k rs m (m.setReg k r v) := fun p hp => Memory.read_setReg_outside k m r v p (hp r h)

/-- A register that is not listed keeps its value. -/
theorem SameBytesBut.reg {k : RegMap} {rs : List Reg} {m m' : Memory} (h : SameBytesBut k rs m m') {q : Reg}
    (hq : q ∉ rs) : m'.reg k q = m.reg k q := by
  refine Memory.reg_congr k fun p h1 h2 => h p fun r hr => ?_
  have : q ≠ r := fun e => hq (e ▸ hr)
  have := k.disjoint this
  omega

theorem TouchesOnly.refl (rs : List Reg) (s : State) : TouchesOnly rs s s := ⟨SameBytesBut.refl _ _ _, rfl⟩

theorem TouchesOnly.params {rs : List Reg} {s t : State} (h : TouchesOnly rs s t) : t.params = s.params := by
  rw [h.2]

theorem TouchesOnly.source {rs : List Reg} {s t : State} (h : TouchesOnly rs s t) (o : Owner) :
    t.source o = s.source o := by rw [State.source, h.params, State.source]

theorem TouchesOnly.trans {rs : List Reg} {s t u : State} (h : TouchesOnly rs s t) (h' : TouchesOnly rs t u) :
    TouchesOnly rs s u := by
  have b := h'.1
  rw [h.params] at b
  refine ⟨h.1.trans b, ?_⟩
  have e := h'.2
  rw [h.2] at e
  exact e

theorem TouchesOnly.mono {rs rs' : List Reg} {s t : State} (h : TouchesOnly rs s t) (hs : ∀ r ∈ rs, r ∈ rs') :
    TouchesOnly rs' s t := ⟨h.1.mono hs, h.2⟩

theorem TouchesOnly.setReg {rs : List Reg} (s : State) {r : Reg} (v : Word) (h : r ∈ rs) :
    TouchesOnly rs s (s.setReg r v) := ⟨SameBytesBut.setReg _ s.rf v h, rfl⟩

theorem TouchesOnly.reg {rs : List Reg} {s t : State} (h : TouchesOnly rs s t) {q : Reg} (hq : q ∉ rs) :
    t.reg q = s.reg q := by
  rw [State.reg, h.params]
  exact h.1.reg hq

theorem TouchesOnly.bit {rs : List Reg} {s t : State} (h : TouchesOnly rs s t) {q : Reg} (hq : q ∉ rs) (n : Nat) :
    t.bit q n = s.bit q n := by simp only [State.bit, h.reg hq]

/-- A field is read from its register. -/
theorem State.field_eq (s : State) (f : Field) :
    s.field f = getBits (s.reg f.reg) (s.params.regMap.lo f) (s.params.regMap.len f) := rfl

theorem State.field_congr {s t : State} {f : Field} (hp : t.params = s.params) (h : t.reg f.reg = s.reg f.reg) :
    t.field f = s.field f := by rw [State.field_eq, h, hp, State.field_eq]

theorem State.flag_congr {s t : State} {f : Field} (h : t.field f = s.field f) : t.flag f = s.flag f :=
  congrArg (fun n : Nat => n == 1) h

theorem TouchesOnly.field {rs : List Reg} {s t : State} (h : TouchesOnly rs s t) {f : Field} (hf : f.reg ∉ rs) :
    t.field f = s.field f := State.field_congr h.params (h.reg hf)

theorem TouchesOnly.flag {rs : List Reg} {s t : State} (h : TouchesOnly rs s t) {f : Field} (hf : f.reg ∉ rs) :
    t.flag f = s.flag f := State.flag_congr (h.field hf)

/-! Register access -/

theorem RegMap.and_fullMask_word (k : RegMap) {r : Reg} (h : r.isMaskWord = true) (v : Word) :
    v &&& k.fullMask r = v := by
  have : k.fullMask r = BitVec.allOnes 32 := by
    simp only [RegTable.fullMask, k.bytes_maskWord h]
    decide
  rw [this, BitVec.and_allOnes]

theorem State.reg_setReg (s : State) (r q : Reg) (v : Word) :
    (s.setReg r v).reg q = if q = r then v &&& s.params.regMap.fullMask r else s.reg q :=
  Memory.reg_setReg _ s.rf r q v

@[simp] theorem State.reg_setReg_same (s : State) (r : Reg) (v : Word) :
    (s.setReg r v).reg r = v &&& s.params.regMap.fullMask r := by simp [State.reg_setReg]

theorem State.reg_setReg_ne (s : State) {r q : Reg} (v : Word) (h : q ≠ r) : (s.setReg r v).reg q = s.reg q := by
  simp [State.reg_setReg, h]

/-- A word of one bit per source holds what was stored in it. -/
theorem State.reg_setReg_word (s : State) {r : Reg} (h : r.isMaskWord = true) (v : Word) : (s.setReg r v).reg r = v := by
  rw [State.reg_setReg_same, RegMap.and_fullMask_word _ h]

/-- A register has no bit above its width. -/
theorem State.and_fullMask (s : State) (r : Reg) : s.reg r &&& s.params.regMap.fullMask r = s.reg r :=
  s.rf.reg_and_fullMask _ r

/-- A store of some of a register's bits, said bit by bit. -/
theorem State.reg_maskedWrite (s : State) (r : Reg) {mask : Word} (v be : Word)
    (h : mask &&& s.params.regMap.fullMask r = mask) :
    (s.maskedWrite r mask v be).reg r = mergeBits (s.reg r) v mask be := by
  rw [State.maskedWrite, State.reg_setReg_same]
  refine BitVec.eq_of_getLsbD_eq fun i _ => ?_
  have g1 := congrArg (fun w => w.getLsbD i) (s.and_fullMask r)
  have g2 := congrArg (fun w => w.getLsbD i) h
  simp only [BitVec.getLsbD_and] at g1 g2
  simp only [BitVec.getLsbD_and, getLsbD_mergeBits]
  cases h : (s.params.regMap.fullMask r).getLsbD i
  · simp [h] at g1 g2
    rw [g1, g2]
    simp
  · simp

/-- The bits of a register after a field was stored in it (R96). -/
theorem State.getLsbD_reg_setField (s : State) (f : Field) (x i : Nat) :
    ((s.setField f x).reg f.reg).getLsbD i =
      if s.params.regMap.lo f ≤ i ∧ i < s.params.regMap.lo f + s.params.regMap.len f ∧ i < 8 * s.params.regMap.bytes f.reg
      then x.testBit (i - s.params.regMap.lo f) else (s.reg f.reg).getLsbD i := by
  have hb := s.params.regMap.bytes_le f.reg
  have h1 := congrArg (fun w : Word => w.getLsbD i) (s.and_fullMask f.reg)
  simp only [BitVec.getLsbD_and, RegTable.fullMask, getLsbD_fieldMask] at h1
  rw [State.setField, State.reg_setReg_same, BitVec.getLsbD_and, getLsbD_setBits, RegTable.fullMask, getLsbD_fieldMask]
  by_cases hi : i < 8 * s.params.regMap.bytes f.reg
  · have : i < 32 := by omega
    simp [hi, this]
  · simp only [hi, and_false, if_false, Nat.zero_add, decide_false, Bool.and_false] at h1 ⊢
    exact h1

/-- The bits of a register after a one-bit field was stored in it. -/
theorem State.getLsbD_setField_flag (s : State) {f : Field} (h : f.mayLack = false) (h1 : ∀ n, f.widthOk n = (n == 1))
    (x i : Nat) : ((s.setField f x).reg f.reg).getLsbD i =
      if i = s.params.regMap.lo f then x.testBit 0 else (s.reg f.reg).getLsbD i := by
  have hl := s.params.regMap.lo_flag h h1
  rw [State.getLsbD_reg_setField, s.params.regMap.len_flag h h1]
  by_cases hi : i = s.params.regMap.lo f
  · rw [if_pos (by omega), if_pos hi, hi, Nat.sub_self]
  · rw [if_neg (by omega), if_neg hi]

/-- A stored field reads back, cut to its width (R96). -/
theorem State.field_setField_same (s : State) (f : Field) (x : Nat) (h : f.mayLack = false) :
    (s.setField f x).field f = x % 2 ^ s.params.regMap.len f := by
  have hin := (s.params.regMap.field_spec h).2.1
  have e : (s.setField f x).field f =
      getBits ((s.setField f x).reg f.reg) (s.params.regMap.lo f) (s.params.regMap.len f) := rfl
  rw [e]
  refine Nat.eq_of_testBit_eq fun i => ?_
  rw [testBit_getBits, State.getLsbD_reg_setField, Nat.testBit_mod_two_pow]
  by_cases hi : i < s.params.regMap.len f
  · rw [if_pos (by omega)]
    simp [hi]
  · simp [hi]

/-- A stored field leaves every other field (R96). -/
theorem State.field_setField_ne (s : State) {f g : Field} (x : Nat) (hf : f.mayLack = false) (hg : g.mayLack = false)
    (h : g ≠ f) : (s.setField f x).field g = s.field g := by
  by_cases hr : g.reg = f.reg
  · have hd := s.params.regMap.fields_apart hg hf h hr
    have e : (s.setField f x).field g =
        getBits ((s.setField f x).reg g.reg) (s.params.regMap.lo g) (s.params.regMap.len g) := rfl
    rw [e, State.field_eq]
    refine Nat.eq_of_testBit_eq fun i => ?_
    rw [testBit_getBits, testBit_getBits, hr, State.getLsbD_reg_setField]
    by_cases hi : i < s.params.regMap.len g
    · rw [if_neg (by omega)]
    · simp [hi]
  · exact State.field_congr rfl (State.reg_setReg_ne _ _ hr)

/-! The masks of fields -/

theorem RegTable.getLsbD_mask (k : RegTable) (f : Field) (i : Nat) :
    (k.mask f).getLsbD i = (decide (i < 32) && decide (k.lo f ≤ i) && decide (i < k.lo f + k.len f)) :=
  getLsbD_fieldMask _ _ _

/-- The mask of a one-bit field is its bit. -/
theorem RegMap.getLsbD_mask_flag (k : RegMap) {f : Field} (h : f.mayLack = false) (h1 : ∀ n, f.widthOk n = (n == 1))
    (i : Nat) : (k.mask f).getLsbD i = decide (i = k.lo f) := by
  have h2 := k.lo_flag h h1
  have h3 := k.bytes_le f.reg
  rw [RegTable.getLsbD_mask, k.len_flag h h1, Bool.eq_iff_iff]
  simp only [Bool.and_eq_true, decide_eq_true_eq]
  omega

/-- A bit of the masks of several fields is a bit of one of them. -/
theorem RegTable.getLsbD_masks (k : RegTable) (fs : List Field) (i : Nat) :
    (k.masks fs).getLsbD i = true ↔ ∃ f ∈ fs, (k.mask f).getLsbD i = true := by
  have key : ∀ (l : List Field) (w : Word), (l.foldl (fun w f => w ||| k.mask f) w).getLsbD i = true ↔
      w.getLsbD i = true ∨ ∃ f ∈ l, (k.mask f).getLsbD i = true := by
    intro l
    induction l with
    | nil => simp
    | cons f l ih =>
      intro w
      rw [List.foldl_cons, ih, BitVec.getLsbD_or]
      simp only [Bool.or_eq_true, List.mem_cons, exists_eq_or_imp, or_assoc]
  rw [RegTable.masks, key]
  simp

/-- The masks of fields that every map lists lie inside their register. -/
theorem RegMap.masks_and_fullMask (k : RegMap) {r : Reg} {fs : List Field}
    (h : ∀ f ∈ fs, f.reg = r ∧ f.mayLack = false) : k.masks fs &&& k.fullMask r = k.masks fs := by
  refine BitVec.eq_of_getLsbD_eq fun i hi => ?_
  rw [BitVec.getLsbD_and]
  cases hm : (k.masks fs).getLsbD i
  · rfl
  · obtain ⟨f, hf, hb⟩ := (k.getLsbD_masks fs i).1 hm
    have hin := (k.field_spec (h f hf).2).2.1
    rw [(h f hf).1] at hin
    rw [RegTable.getLsbD_mask] at hb
    simp only [Bool.and_eq_true, decide_eq_true_eq] at hb
    rw [RegTable.fullMask, getLsbD_fieldMask]
    simp only [Nat.zero_le, Nat.zero_add, decide_true, Bool.and_true, Bool.true_and, Bool.and_eq_true, decide_eq_true_eq]
    omega

/-- Two lists of fields of one register, without a field in common, have no bit in common. -/
theorem RegMap.masks_apart (k : RegMap) {r : Reg} {fs gs : List Field} (hf : ∀ f ∈ fs, f.reg = r ∧ f.mayLack = false)
    (hg : ∀ g ∈ gs, g.reg = r ∧ g.mayLack = false) (hne : ∀ f ∈ fs, f ∉ gs) {i : Nat}
    (h : (k.masks fs).getLsbD i = true) : (k.masks gs).getLsbD i = false := by
  rw [Bool.eq_false_iff]
  intro h'
  obtain ⟨f, mf, bf⟩ := (k.getLsbD_masks fs i).1 h
  obtain ⟨g, mg, bg⟩ := (k.getLsbD_masks gs i).1 h'
  have := k.fields_apart (hf f mf).2 (hg g mg).2 (fun e => hne f mf (e ▸ mg)) ((hf f mf).1.trans (hg g mg).1.symm)
  rw [RegTable.getLsbD_mask] at bf bg
  simp only [Bool.and_eq_true, decide_eq_true_eq] at bf bg
  omega

/-! Sources -/

theorem Owner.mem_rules {o : Owner} (h : o ≠ .external) : o ∈ Owner.rules := by
  have hp : ∀ i, Owner.pin i ∈ Owner.rules := by decide
  cases o with
  | external => exact absurd rfl h
  | timer n => cases n <;> decide
  | pin i => exact hp i
  | _ => decide

/-- What a well-formed table says (R28; log 2). -/
theorem Sources.wf_spec (t : Sources) :
    t.rows.length ≤ 27 ∧
      t.rows.Pairwise (fun x y => x.name ≠ y.name ∧ x.bit ≠ y.bit ∧ (x.owner = y.owner → x.owner = .external)) ∧
      ∀ o, o ≠ Owner.external → ∃ x ∈ t.rows, x.owner = o := by
  have h := t.wf
  simp only [sourcesWf, Bool.and_eq_true, decide_eq_true_eq, List.all_eq_true, List.any_eq_true, beq_iff_eq] at h
  exact ⟨h.1.1, h.1.2, fun o ho => h.2 o (Owner.mem_rules ho)⟩

/-- Two rows of one bit, or of one owner that is a rule, or of one name, are one row. -/
theorem Sources.row_inj (t : Sources) {x y : SourceRow} (hx : x ∈ t.rows) (hy : y ∈ t.rows)
    (h : x.bit = y.bit ∨ x.name = y.name ∨ (x.owner = y.owner ∧ x.owner ≠ .external)) : x = y := by
  have hp := t.wf_spec.2.1
  by_contra hne
  rcases List.pairwise_iff_getElem.mp hp with hp
  obtain ⟨i, hi, ei⟩ := List.getElem_of_mem hx
  obtain ⟨j, hj, ej⟩ := List.getElem_of_mem hy
  rcases Nat.lt_trichotomy i j with hij | hij | hij
  · have := hp i j hi hj hij
    rw [ei, ej] at this
    rcases h with h | h | h
    · exact this.2.1 h
    · exact this.1 h
    · exact h.2 (this.2.2 h.1)
  · subst hij
    exact hne (ei.symm.trans ej)
  · have := hp j i hj hi hij
    rw [ei, ej] at this
    rcases h with h | h | h
    · exact this.2.1 h.symm
    · exact this.1 h.symm
    · exact h.2 (h.1.trans (this.2.2 h.1.symm))

/-- The source of a rule is a row of the table, and the rule is its owner (R28). -/
theorem Sources.source_spec (t : Sources) {o : Owner} (h : o ≠ .external) :
    t.source o ∈ t.rows ∧ (t.source o).owner = o := by
  obtain ⟨x, hx, ho⟩ := t.wf_spec.2.2 o h
  cases e : t.rows.find? fun e => e.owner == o with
  | none =>
    have := List.find?_eq_none.mp e x hx
    simp [ho] at this
  | some y =>
    have h1 := List.mem_of_find?_eq_some e
    have h2 := List.find?_some e
    simp only [beq_iff_eq] at h2
    simp only [Sources.source, e, Option.getD_some]
    exact ⟨h1, h2⟩

theorem State.source_mem (s : State) {o : Owner} (h : o ≠ .external) : s.source o ∈ s.params.sources.rows :=
  (s.params.sources.source_spec h).1

theorem State.source_owner (s : State) {o : Owner} (h : o ≠ .external) : (s.source o).owner = o :=
  (s.params.sources.source_spec h).2

/-- The row of an owner that is a rule is the rule's source. -/
theorem State.source_eq (s : State) {x : SourceRow} (hx : x ∈ s.params.sources.rows) (h : x.owner ≠ .external) :
    s.source x.owner = x :=
  s.params.sources.row_inj (s.source_mem h) hx
    (.inr (.inr ⟨s.source_owner h, fun e => h ((s.source_owner h).symm.trans e)⟩))

/-- Two rules have two bits. -/
theorem State.source_bit_ne (s : State) {o o' : Owner} (h : o ≠ .external) (h' : o' ≠ .external) (hne : o ≠ o') :
    (s.source o).bit ≠ (s.source o').bit := by
  intro e
  have := s.params.sources.row_inj (s.source_mem h) (s.source_mem h') (.inl e)
  exact hne ((s.source_owner h).symm.trans ((congrArg SourceRow.owner this).trans (s.source_owner h')))

theorem SourceRow.getLsbD_mask (x : SourceRow) (i : Nat) : x.mask.getLsbD i = decide (i = x.bit.val) := by
  have := x.bit.isLt
  simp only [SourceRow.mask, BitVec.getLsbD_shiftLeft]
  by_cases h : i = x.bit.val
  · subst h
    simp [this]
  · by_cases h1 : i < x.bit.val
    · simp [h, h1]
    · have : i - x.bit.val ≠ 0 := by omega
      simp [h, this]

theorem Sources.getLsbD_allMask (t : Sources) (i : Nat) :
    t.allMask.getLsbD i = true ↔ ∃ x ∈ t.rows, x.bit.val = i := by
  have key : ∀ (l : List SourceRow) (m : Word), (l.foldl (fun m x => m ||| x.mask) m).getLsbD i = true ↔
      m.getLsbD i = true ∨ ∃ x ∈ l, x.bit.val = i := by
    intro l
    induction l with
    | nil => simp
    | cons x l ih =>
      intro m
      rw [List.foldl_cons, ih, BitVec.getLsbD_or, SourceRow.getLsbD_mask]
      simp only [Bool.or_eq_true, decide_eq_true_eq, List.mem_cons, exists_eq_or_imp, or_assoc]
      rw [eq_comm (a := i)]
  rw [Sources.allMask, key]
  simp

/-! Interrupt delivery -/

theorem State.recomputeIsr_spec (s : State) :
    TouchesOnly [.isr] s s.recomputeIsr ∧ s.recomputeIsr.reg .isr = s.reg .ipr &&& ~~~s.reg .imr := by
  refine ⟨TouchesOnly.setReg s _ (by simp), ?_⟩
  rw [State.recomputeIsr, State.reg_setReg_same, RegMap.and_fullMask_word _ rfl]

/-- Everything `pllWakeIfOff` can do (R167). -/
theorem State.pllWakeIfOff_spec (s : State) :
    TouchesOnly [] s s.pllWakeIfOff ∧ s.pllWakeIfOff.rf = s.rf ∧
      s.pllWakeIfOff.wakeCountdown =
        if s.flag Field.displl ∧ s.wakeCountdown = -1 then wakeTicks (s.field Field.wksel) else s.wakeCountdown := by
  unfold State.pllWakeIfOff
  by_cases h : s.flag Field.displl = true ∧ s.wakeCountdown = -1
  · simp [h, TouchesOnly, SameBytesBut]
  · have : (s.flag Field.displl && s.wakeCountdown == -1) = false := by simpa using h
    simp [this, h, TouchesOnly, SameBytesBut]

/-- Everything `raiseSource` can do (R131). -/
theorem State.raiseSource_spec (s : State) (x : SourceRow) :
    TouchesOnly [.ipr, .isr] s (s.raiseSource x) ∧
      (s.raiseSource x).reg .ipr = s.reg .ipr ||| x.mask ∧
      (s.raiseSource x).reg .isr = (s.reg .ipr ||| x.mask) &&& ~~~s.reg .imr ∧
      (s.raiseSource x).rf = ((s.setReg .ipr (s.reg .ipr ||| x.mask)).recomputeIsr).rf ∧
      (s.raiseSource x).wakeCountdown =
        if s.wakeCapable x ∧ s.masked x = false ∧ s.flag Field.displl ∧ s.wakeCountdown = -1
        then wakeTicks (s.field Field.wksel) else s.wakeCountdown := by
  have hi : ∀ v : Word, v &&& s.params.regMap.fullMask .ipr = v := RegMap.and_fullMask_word _ rfl
  obtain ⟨u, hu⟩ : ∃ u, u = (s.setReg .ipr (s.reg .ipr ||| x.mask)).recomputeIsr := ⟨_, rfl⟩
  have h1 : TouchesOnly [.ipr, .isr] s u := by
    rw [hu]
    exact (TouchesOnly.setReg s _ (by simp)).trans ((State.recomputeIsr_spec _).1.mono (by simp))
  have hisr : u.reg .isr = (s.reg .ipr ||| x.mask) &&& ~~~s.reg .imr := by
    rw [hu, (State.recomputeIsr_spec _).2, State.reg_setReg_same, hi, State.reg_setReg_ne _ _ (by decide)]
  have hipr : u.reg .ipr = s.reg .ipr ||| x.mask := by
    rw [hu, (State.recomputeIsr_spec _).1.reg (by decide), State.reg_setReg_same, hi]
  have hw : u.wakeCountdown = s.wakeCountdown := by rw [hu]; simp
  have hc : u.wakeCapable x = s.wakeCapable x := by
    unfold State.wakeCapable
    simp only [h1.bit (q := .pdirqeg) (by decide)]
  have hm : u.masked x = s.masked x := h1.bit (by decide) _
  have hd : u.flag Field.displl = s.flag Field.displl := h1.flag (by decide)
  have hk : u.field Field.wksel = s.field Field.wksel := h1.field (by decide)
  have hr : s.raiseSource x = if u.wakeCapable x && !u.masked x then u.pllWakeIfOff else u := by rw [hu]; rfl
  obtain ⟨p1, p2, p3⟩ := State.pllWakeIfOff_spec u
  rw [hr, ← hu]
  by_cases h : u.wakeCapable x = true ∧ u.masked x = false
  · have e : (u.wakeCapable x && !u.masked x) = true := by simp [h]
    rw [if_pos e]
    refine ⟨h1.trans (p1.mono (by simp)), ?_, ?_, p2, ?_⟩
    · rw [p1.reg (by simp), hipr]
    · rw [p1.reg (by simp), hisr]
    · rw [p3, hd, hw, hk]
      have h' := h
      rw [hc, hm] at h'
      simp [h']
  · have e : ¬(u.wakeCapable x && !u.masked x) = true := by simpa using h
    rw [if_neg e]
    refine ⟨h1, hipr, hisr, rfl, ?_⟩
    rw [hw, if_neg]
    rw [hc, hm] at h
    exact fun hh => h ⟨hh.1, hh.2.1⟩

/-- Everything `clearSource` can do (R132): no wake test. -/
theorem State.clearSource_spec (s : State) (x : SourceRow) :
    TouchesOnly [.ipr, .isr] s (s.clearSource x) ∧
      (s.clearSource x).reg .ipr = s.reg .ipr &&& ~~~x.mask ∧
      (s.clearSource x).reg .isr = (s.reg .ipr &&& ~~~x.mask) &&& ~~~s.reg .imr ∧
      (s.clearSource x).wakeCountdown = s.wakeCountdown := by
  have hi : ∀ v : Word, v &&& s.params.regMap.fullMask .ipr = v := RegMap.and_fullMask_word _ rfl
  refine ⟨?_, ?_, ?_, ?_⟩
  · exact (TouchesOnly.setReg s _ (by simp)).trans ((State.recomputeIsr_spec _).1.mono (by simp))
  · rw [State.clearSource, (State.recomputeIsr_spec _).1.reg (by decide), State.reg_setReg_same, hi]
  · rw [State.clearSource, (State.recomputeIsr_spec _).2, State.reg_setReg_same, hi,
      State.reg_setReg_ne _ _ (by decide)]
  · simp [State.clearSource]

/-- Raising a source sets its pending bit and no other (R131). -/
theorem State.pending_raiseSource (s : State) (x y : SourceRow) :
    (s.raiseSource x).pending y = (decide (y.bit = x.bit) || s.pending y) := by
  simp only [State.pending, State.bit, (s.raiseSource_spec x).2.1, BitVec.getLsbD_or, SourceRow.getLsbD_mask, Fin.ext_iff]
  exact Bool.or_comm _ _

/-- Clearing a source clears its pending bit and no other (R132). -/
theorem State.pending_clearSource (s : State) (x y : SourceRow) :
    (s.clearSource x).pending y = (!decide (y.bit = x.bit) && s.pending y) := by
  simp only [State.pending, State.bit, (s.clearSource_spec x).2.1, BitVec.getLsbD_and, BitVec.getLsbD_not,
    SourceRow.getLsbD_mask, Fin.ext_iff, y.bit.isLt, decide_true, Bool.true_and]
  exact Bool.and_comm _ _

theorem Memory.wf_recomputeIsr {s : State} (h : s.rf.wf = true) : s.recomputeIsr.rf.wf = true :=
  Memory.wf_setReg _ _ _ h

theorem Memory.wf_raiseSource {s : State} (x : SourceRow) (h : s.rf.wf = true) : (s.raiseSource x).rf.wf = true := by
  rw [(s.raiseSource_spec x).2.2.2.1]
  exact Memory.wf_setReg _ _ _ (Memory.wf_setReg _ _ _ h)

theorem Memory.wf_clearSource {s : State} (x : SourceRow) (h : s.rf.wf = true) : (s.clearSource x).rf.wf = true :=
  Memory.wf_setReg _ _ _ (Memory.wf_setReg _ _ _ h)

end Sys2Proof.Machine
end

