-- ==== Sys2Proof/Laws/Delivery.lean ====
section
/-! SUPPORT. The level of the active sources (R134, R136) and the port-D evaluation (R306, R307), each said once. -/

namespace Sys2Proof.Machine

/-! Fields and flags -/

theorem State.field_lt (s : State) (f : Field) : s.field f < 2 ^ s.params.regMap.len f := getBits_lt _ _ _

theorem State.flag_eq_true (s : State) (f : Field) : s.flag f = true ↔ s.field f = 1 := by
  simp [State.flag, State.field, Memory.flag]

/-- A one-bit field is its bit of the register. -/
theorem State.field_one (s : State) (f : Field) (h : s.params.regMap.len f = 1) :
    s.field f = (s.bit f.reg (s.params.regMap.lo f)).toNat := by
  rw [State.field_eq, h, getBits_one]
  rfl

theorem State.flag_eq_false (s : State) (f : Field) (h : s.params.regMap.len f = 1) : s.flag f = false ↔ s.field f = 0 := by
  have := s.field_lt f
  rw [h] at this
  have h1 := s.flag_eq_true f
  cases hf : s.flag f <;> simp_all
  omega

/-! The level -/

theorem foldl_max_le {α : Type} (p : α → Bool) (g : α → Nat) (l : List α) (m b : Nat) :
    l.foldl (fun m x => if p x then max m (g x) else m) m ≤ b ↔ m ≤ b ∧ ∀ x ∈ l, p x = true → g x ≤ b := by
  induction l generalizing m with
  | nil => simp
  | cons y l ih =>
    rw [List.foldl_cons, ih]
    by_cases hp : p y = true
    · simp only [hp, if_true, List.mem_cons, forall_eq_or_imp, forall_const, Nat.max_le, and_assoc]
    · simp [hp]

theorem foldl_max_attained {α : Type} (p : α → Bool) (g : α → Nat) (l : List α) (m : Nat) :
    l.foldl (fun m x => if p x then max m (g x) else m) m = m ∨
      ∃ x ∈ l, p x = true ∧ l.foldl (fun m x => if p x then max m (g x) else m) m = g x := by
  induction l generalizing m with
  | nil => simp
  | cons y l ih =>
    rw [List.foldl_cons]
    by_cases hp : p y = true
    · simp only [hp, if_true]
      rcases ih (max m (g y)) with h | ⟨x, hx, hpx, h⟩
      · rw [h]
        rcases Nat.le_total m (g y) with h' | h'
        · exact .inr ⟨y, by simp, hp, Nat.max_eq_right h'⟩
        · exact .inl (Nat.max_eq_left h')
      · exact .inr ⟨x, by simp [hx], hpx, h⟩
    · simp only [hp]
      rcases ih m with h | ⟨x, hx, hpx, h⟩
      · exact .inl h
      · exact .inr ⟨x, by simp [hx], hpx, h⟩

theorem State.levelOf_lt (s : State) (x : SourceRow) : s.levelOf x < 8 := by
  unfold State.levelOf
  split
  · exact Fin.isLt _
  · rename_i i _
    exact Nat.lt_of_lt_of_le (s.field_lt _) (Nat.pow_le_pow_right (by decide) (s.params.regMap.len_lvl i))

/-- `level` is the greatest level of the active sources, or 0 (R134). -/
theorem State.level_spec (s : State) :
    (∀ x ∈ s.params.sources.rows, s.active x = true → s.levelOf x ≤ s.level) ∧
      (s.level = 0 ∨ ∃ x ∈ s.params.sources.rows, s.active x = true ∧ s.levelOf x = s.level) := by
  refine ⟨fun x hm hx => ?_, ?_⟩
  · exact ((foldl_max_le (fun x => s.active x) s.levelOf s.params.sources.rows 0 s.level).1 (Nat.le_refl _)).2 x hm hx
  · rcases foldl_max_attained (fun x => s.active x) s.levelOf s.params.sources.rows 0 with h | ⟨x, hm, hx, h⟩
    · exact .inl h
    · exact .inr ⟨x, hm, hx, h.symm⟩

theorem State.level_lt (s : State) : s.level < 8 := by
  rcases s.level_spec.2 with h | ⟨x, -, -, h⟩
  · omega
  · rw [← h]
    exact s.levelOf_lt x

theorem State.toNat_level (s : State) : (BitVec.ofNat 3 s.level).toNat = s.level := by
  have := s.level_lt
  simp only [BitVec.toNat_ofNat]
  omega

theorem State.levelOf_congr {s t : State} (hp : s.params = t.params) (h : s.reg .ilcr = t.reg .ilcr) (x : SourceRow) :
    s.levelOf x = t.levelOf x := by
  unfold State.levelOf
  split
  · rfl
  · exact State.field_congr hp h

/-- The level is a function of ISR and ILCR, under one parameter record. -/
theorem State.level_congr {s t : State} (hp : s.params = t.params) (h : s.reg .isr = t.reg .isr)
    (h' : s.reg .ilcr = t.reg .ilcr) : s.level = t.level := by
  have e : s.levelOf = t.levelOf := funext (State.levelOf_congr hp h')
  have a : s.active = t.active := funext fun x => by simp only [State.active, State.bit, h]
  rw [State.level, e, a, hp]
  rfl

/-- `checkInterrupts` changes the delivered level and adds one event, and nothing else (R134). -/
theorem State.checkInterrupts_eq (s : State) :
    s.checkInterrupts = { s with
      cpuIpl := BitVec.ofNat 3 s.level, events := s.events ++ [.setIpl (BitVec.ofNat 3 s.level)] } := rfl

theorem State.level_checkInterrupts (s : State) : s.checkInterrupts.level = s.level := rfl

/-! Port D -/

/-- The two states agree on the parameters and on every register but IPR and ISR. -/
structure SameButPending (s t : State) : Prop where
  params : t.params = s.params
  reg : ∀ q, q ≠ .ipr → q ≠ .isr → t.reg q = s.reg q

theorem SameButPending.bit {s t : State} (h : SameButPending s t) {q : Reg} (h1 : q ≠ .ipr) (h2 : q ≠ .isr) (n : Nat) :
    t.bit q n = s.bit q n := by rw [State.bit, h.reg q h1 h2, State.bit]

theorem SameButPending.field {s t : State} (h : SameButPending s t) {f : Field} (h1 : f.reg ≠ .ipr) (h2 : f.reg ≠ .isr) :
    t.field f = s.field f := State.field_congr h.params (h.reg _ h1 h2)

theorem SameButPending.flag {s t : State} (h : SameButPending s t) {f : Field} (h1 : f.reg ≠ .ipr) (h2 : f.reg ≠ .isr) :
    t.flag f = s.flag f := State.flag_congr (h.field h1 h2)

theorem SameButPending.source {s t : State} (h : SameButPending s t) (o : Owner) : t.source o = s.source o := by
  rw [State.source, h.params, State.source]

theorem SameButPending.pinSource {s t : State} (h : SameButPending s t) (i : Nat) : t.pinSource i = s.pinSource i :=
  h.source _

theorem Field.reg_pinPol (i : Nat) : (Field.pinPol i).reg = .icr := by
  unfold Field.pinPol
  split <;> rfl

theorem Field.reg_pinEt (i : Nat) : (Field.pinEt i).reg = .icr := by
  unfold Field.pinEt
  split <;> rfl

theorem SameButPending.pinPolarity {s t : State} (h : SameButPending s t) (i : Nat) :
    t.pinPolarity i = s.pinPolarity i := by
  unfold State.pinPolarity
  rw [h.bit (by decide) (by decide), h.flag (by rw [Field.reg_pinPol]; decide) (by rw [Field.reg_pinPol]; decide)]

theorem SameButPending.pinEdge {s t : State} (h : SameButPending s t) (i : Nat) : t.pinEdge i = s.pinEdge i := by
  unfold State.pinEdge
  rw [h.bit (by decide) (by decide), h.flag (by rw [Field.reg_pinEt]; decide) (by rw [Field.reg_pinEt]; decide)]

theorem SameButPending.pinActive {s t : State} (h : SameButPending s t) (hi : t.inputs = s.inputs) (i : Nat) :
    t.pinActive i = s.pinActive i := by
  simp only [State.pinActive, h.pinPolarity, hi, h.params, h.bit (q := .pdirqen) (by decide) (by decide),
    h.bit (q := .pddir) (by decide) (by decide)]

theorem SameButPending.edgeClearable {s t : State} (h : SameButPending s t) (x : SourceRow) :
    t.edgeClearable x = s.edgeClearable x := by
  unfold State.edgeClearable
  split
  · exact h.pinEdge _
  · rfl

theorem SameButPending.wakeCapable {s t : State} (h : SameButPending s t) (x : SourceRow) :
    t.wakeCapable x = s.wakeCapable x := by
  simp only [State.wakeCapable, h.bit (q := .pdirqeg) (by decide) (by decide)]

/-- `t` is `s` but for IPR, ISR, the wake countdown and the previous activity of the pins. -/
def PortTouches (s t : State) : Prop :=
  SameBytesBut s.params.regMap [.ipr, .isr] s.rf t.rf ∧
    t = { s with rf := t.rf, wakeCountdown := t.wakeCountdown, portDPrevActive := t.portDPrevActive }

theorem PortTouches.refl (s : State) : PortTouches s s := ⟨SameBytesBut.refl _ _ _, rfl⟩

theorem PortTouches.params {s t : State} (h : PortTouches s t) : t.params = s.params := by rw [h.2]

theorem PortTouches.trans {s t u : State} (h : PortTouches s t) (h' : PortTouches t u) : PortTouches s u := by
  have b := h'.1
  rw [h.params] at b
  refine ⟨h.1.trans b, ?_⟩
  have e := h'.2
  rw [h.2] at e
  exact e

theorem PortTouches.of_touchesOnly {s t : State} (h : TouchesOnly [.ipr, .isr] s t) : PortTouches s t :=
  ⟨h.1, by have e := h.2; rw [e]⟩

theorem PortTouches.same {s t : State} (h : PortTouches s t) : SameButPending s t where
  params := h.params
  reg q h1 h2 := by
    rw [State.reg, h.params]
    exact h.1.reg (by simp [h1, h2])

theorem PortTouches.reg {s t : State} (h : PortTouches s t) {q : Reg} (h1 : q ≠ .ipr) (h2 : q ≠ .isr) :
    t.reg q = s.reg q := h.same.reg q h1 h2

theorem PortTouches.field {s t : State} (h : PortTouches s t) {f : Field} (h1 : f.reg ≠ .ipr) (h2 : f.reg ≠ .isr) :
    t.field f = s.field f := h.same.field h1 h2

theorem PortTouches.flag {s t : State} (h : PortTouches s t) {f : Field} (h1 : f.reg ≠ .ipr) (h2 : f.reg ≠ .isr) :
    t.flag f = s.flag f := h.same.flag h1 h2

theorem PortTouches.inputs {s t : State} (h : PortTouches s t) : t.inputs = s.inputs := by rw [h.2]

/-- A raise of the source would arm the wake countdown if the PLL were off and no countdown armed (R131, R137). -/
def State.wakes (s : State) (x : SourceRow) : Bool := s.wakeCapable x && !s.masked x

theorem SameButPending.wakes {s t : State} (h : SameButPending s t) (x : SourceRow) : t.wakes x = s.wakes x := by
  simp only [State.wakes, h.wakeCapable, State.masked, h.bit (q := .imr) (by decide) (by decide)]

/-- The wake countdown of `s` once `armed` says that a wake was asked for (R167). -/
def State.armed (s : State) (armed : Bool) : Int :=
  if armed && s.flag Field.displl && s.wakeCountdown == -1 then wakeTicks (s.field Field.wksel) else s.wakeCountdown

theorem wakeTicks_ne (k : Nat) : wakeTicks k ≠ -1 := by
  unfold wakeTicks
  split <;> decide

theorem wakeTicks_bounds (k : Nat) : 32 ≤ wakeTicks k ∧ wakeTicks k ≤ 96 := by
  unfold wakeTicks
  split <;> decide

theorem State.armed_false (s : State) : s.armed false = s.wakeCountdown := by simp [State.armed]

/-- Arming twice is arming once: an armed countdown is not armed again (R171). -/
theorem State.armed_or {s t : State} (hd : t.flag Field.displl = s.flag Field.displl)
    (hk : t.field Field.wksel = s.field Field.wksel) {a b : Bool} (hw : t.wakeCountdown = s.armed a) :
    t.armed b = s.armed (a || b) := by
  have := wakeTicks_ne (s.field Field.wksel)
  unfold State.armed at *
  rw [hd, hk, hw]
  cases a <;> cases b <;> cases s.flag Field.displl <;> by_cases h : s.wakeCountdown = -1 <;> simp [h, this]

theorem State.wakeCountdown_raiseSource (s : State) (x : SourceRow) :
    (s.raiseSource x).wakeCountdown = s.armed (s.wakes x) := by
  rw [(s.raiseSource_spec x).2.2.2.2]
  simp [State.armed, State.wakes, and_assoc]

theorem State.bit_ipr_raiseSource (s : State) (x : SourceRow) (n : Nat) :
    (s.raiseSource x).bit .ipr n = (s.bit .ipr n || decide (n = x.bit.val)) := by
  simp [State.bit, (s.raiseSource_spec x).2.1, SourceRow.getLsbD_mask]

theorem State.bit_ge (s : State) (r : Reg) {n : Nat} (h : 32 ≤ n) : s.bit r n = false :=
  BitVec.getLsbD_of_ge _ _ h

theorem State.bit_ipr_clearSource (s : State) (x : SourceRow) (n : Nat) :
    (s.clearSource x).bit .ipr n = (s.bit .ipr n && !decide (n = x.bit.val)) := by
  by_cases hn : n < 32
  · simp only [State.bit, (s.clearSource_spec x).2.1, BitVec.getLsbD_and, BitVec.getLsbD_not, SourceRow.getLsbD_mask, hn,
      decide_true, Bool.true_and]
  · rw [State.bit_ge _ _ (by omega), State.bit_ge _ _ (by omega)]
    rfl

theorem State.isr_raiseSource (s : State) (x : SourceRow) :
    (s.raiseSource x).reg .isr = (s.raiseSource x).reg .ipr &&& ~~~(s.raiseSource x).reg .imr := by
  rw [(s.raiseSource_spec x).2.2.1, (s.raiseSource_spec x).2.1, (s.raiseSource_spec x).1.reg (by decide)]

theorem State.isr_clearSource (s : State) (x : SourceRow) :
    (s.clearSource x).reg .isr = (s.clearSource x).reg .ipr &&& ~~~(s.clearSource x).reg .imr := by
  rw [(s.clearSource_spec x).2.2.1, (s.clearSource_spec x).2.1, (s.clearSource_spec x).1.reg (by decide)]

/-- The evaluation raises the source of pin `i` (R306). -/
def State.pinRaises (s : State) (i : Nat) : Bool :=
  s.pinActive i && (!s.pinEdge i || !s.portDPrevActive.getLsbD i)

theorem getLsbD_bitIf (b : Bool) (n j : Nat) (hn : n < 8) : (bitIf b n).getLsbD j = (b && decide (j = n)) := by
  cases b
  · simp [bitIf]
  · simp only [bitIf, if_true, BitVec.getLsbD_shiftLeft, Bool.true_and]
    by_cases h : j = n
    · subst h
      simp [hn]
    · by_cases h1 : j < n
      · simp [h, h1]
      · have : j - n ≠ 0 := by omega
        simp [h, this]

theorem getLsbD_setPrevActive (s : State) (i j : Nat) (b : Bool) (hi : i < 8) :
    (s.setPrevActive i b).portDPrevActive.getLsbD j = if j = i then b else s.portDPrevActive.getLsbD j := by
  have e : ((1 : Byte) <<< i).getLsbD j = decide (j = i) := by
    have := getLsbD_bitIf true i j hi
    simpa [bitIf] using this
  simp only [State.setPrevActive, BitVec.getLsbD_or, BitVec.getLsbD_and, BitVec.getLsbD_not, e,
    getLsbD_bitIf b i j hi]
  by_cases h : j = i
  · simp [h]
  · by_cases h8 : j < 8
    · simp [h, h8]
    · simp [h, h8, BitVec.getLsbD_of_ge _ _ (Nat.le_of_not_lt h8)]

/-- Everything the evaluation of one pin can do (R306). -/
theorem State.evalPin_spec (s : State) (i : Nat) (hi : i < 8) :
    PortTouches s (s.evalPin i) ∧
      (∀ n, (s.evalPin i).bit .ipr n =
        if n = (s.pinSource i).bit.val then s.pinRaises i || (s.pinEdge i && s.bit .ipr n) else s.bit .ipr n) ∧
      (∀ j, (s.evalPin i).portDPrevActive.getLsbD j =
        if j = i then s.pinActive i else s.portDPrevActive.getLsbD j) ∧
      (s.evalPin i).wakeCountdown = s.armed (s.pinRaises i && s.wakes (s.pinSource i)) ∧
      (s.reg .isr = s.reg .ipr &&& ~~~s.reg .imr →
        (s.evalPin i).reg .isr = (s.evalPin i).reg .ipr &&& ~~~(s.evalPin i).reg .imr) := by
  obtain ⟨t, ht⟩ : ∃ t, t = (if s.pinEdge i then
      if s.pinActive i && !s.portDPrevActive.getLsbD i then s.raiseSource (s.pinSource i) else s
    else if s.pinActive i then s.raiseSource (s.pinSource i) else s.clearSource (s.pinSource i)) := ⟨_, rfl⟩
  have he : s.evalPin i = t.setPrevActive i (s.pinActive i) := by rw [ht]; rfl
  have hT : PortTouches s t := by
    rw [ht]
    split
    · split
      · exact .of_touchesOnly (s.raiseSource_spec _).1
      · exact .refl s
    · split
      · exact .of_touchesOnly (s.raiseSource_spec _).1
      · exact .of_touchesOnly (s.clearSource_spec _).1
  have hprev : t.portDPrevActive = s.portDPrevActive := by
    rw [ht]
    split
    · split
      · rw [(s.raiseSource_spec _).1.2]
      · rfl
    · split
      · rw [(s.raiseSource_spec _).1.2]
      · rw [(s.clearSource_spec _).1.2]
  have hn : ∀ n, t.bit .ipr n =
      if n = (s.pinSource i).bit.val then s.pinRaises i || (s.pinEdge i && s.bit .ipr n) else s.bit .ipr n := by
    intro n
    rw [ht]
    unfold State.pinRaises
    cases h1 : s.pinEdge i <;> cases h2 : s.pinActive i <;> cases h3 : s.portDPrevActive.getLsbD i <;>
      simp [State.bit_ipr_raiseSource, State.bit_ipr_clearSource] <;> by_cases h : n = (s.pinSource i).bit.val <;> simp [h]
  have hw : t.wakeCountdown = s.armed (s.pinRaises i && s.wakes (s.pinSource i)) := by
    rw [ht]
    unfold State.pinRaises
    cases h1 : s.pinEdge i <;> cases h2 : s.pinActive i <;> cases h3 : s.portDPrevActive.getLsbD i <;>
      simp [State.wakeCountdown_raiseSource, State.armed_false]
  have hisr : s.reg .isr = s.reg .ipr &&& ~~~s.reg .imr → t.reg .isr = t.reg .ipr &&& ~~~t.reg .imr := by
    intro h
    rw [ht]
    split
    · split
      · exact State.isr_raiseSource _ _
      · exact h
    · split
      · exact State.isr_raiseSource _ _
      · exact State.isr_clearSource _ _
  rw [he]
  refine ⟨⟨hT.1, ?_⟩, hn, fun j => ?_, hw, hisr⟩
  · have e := hT.2
    simp only [State.setPrevActive]
    rw [e]
  · rw [getLsbD_setPrevActive _ _ _ _ hi, hprev]

theorem Owner.ofPin_ne (i : Nat) : Owner.ofPin i ≠ .external := by simp [Owner.ofPin]

theorem State.pinSource_mem (s : State) (i : Nat) : s.pinSource i ∈ s.params.sources.rows :=
  s.source_mem (Owner.ofPin_ne i)

theorem State.owner_pinSource (s : State) {i : Nat} (hi : i < 8) : (s.pinSource i).owner = .pin ⟨i, hi⟩ := by
  rw [State.pinSource, s.source_owner (Owner.ofPin_ne i), Owner.ofPin]
  congr 1
  exact Fin.ext (Nat.mod_eq_of_lt hi)

theorem State.pinSource_bit_inj (s : State) {i j : Nat} (hi : i < 8) (hj : j < 8)
    (h : (s.pinSource i).bit.val = (s.pinSource j).bit.val) : i = j := by
  have e := s.params.sources.row_inj (s.pinSource_mem i) (s.pinSource_mem j) (.inl (Fin.ext h))
  have := (s.owner_pinSource hi).symm.trans ((congrArg SourceRow.owner e).trans (s.owner_pinSource hj))
  simpa using this

theorem State.pinSource_ne_keyboard (s : State) (i : Nat) :
    (s.pinSource i).bit.val ≠ (s.source .keyboard).bit.val := fun e =>
  s.source_bit_ne (Owner.ofPin_ne i) (by decide) (by simp [Owner.ofPin]) (Fin.ext e)

/-- Everything the evaluation of the first `k` pins can do. -/
theorem State.evalPins_spec (s : State) (k : Nat) (hk : k ≤ 8) :
    let t := (List.range k).foldl State.evalPin s
    PortTouches s t ∧
      (∀ i < k, t.bit .ipr (s.pinSource i).bit.val =
        (s.pinRaises i || (s.pinEdge i && s.bit .ipr (s.pinSource i).bit.val))) ∧
      (∀ n, (∀ i < k, n ≠ (s.pinSource i).bit.val) → t.bit .ipr n = s.bit .ipr n) ∧
      (∀ j, t.portDPrevActive.getLsbD j = if j < k then s.pinActive j else s.portDPrevActive.getLsbD j) ∧
      t.wakeCountdown = s.armed ((List.range k).any fun i => s.pinRaises i && s.wakes (s.pinSource i)) ∧
      (s.reg .isr = s.reg .ipr &&& ~~~s.reg .imr → t.reg .isr = t.reg .ipr &&& ~~~t.reg .imr) := by
  induction k with
  | zero =>
    refine ⟨.refl s, fun i h => absurd h (by omega), fun _ _ => rfl, fun j => by simp, ?_, id⟩
    simp [State.armed]
  | succ k ih =>
    obtain ⟨h1, h2, h3, h4, h5, h6⟩ := ih (by omega)
    obtain ⟨t, ht⟩ : ∃ t, t = (List.range k).foldl State.evalPin s := ⟨_, rfl⟩
    have hs : (List.range (k + 1)).foldl State.evalPin s = t.evalPin k := by
      rw [List.range_succ, List.foldl_append, ht]
      rfl
    rw [← ht] at h1 h2 h3 h4 h5 h6
    obtain ⟨g1, g2, g3, g4, g5⟩ := t.evalPin_spec k (by omega)
    rw [h1.same.pinSource] at g2 g4
    have ha : ∀ i, t.pinActive i = s.pinActive i := h1.same.pinActive h1.inputs
    have hedge : ∀ i, t.pinEdge i = s.pinEdge i := h1.same.pinEdge
    have hr : t.pinRaises k = s.pinRaises k := by
      simp only [State.pinRaises, ha, hedge, h4 k, if_neg (Nat.lt_irrefl k)]
    dsimp only
    rw [hs]
    refine ⟨h1.trans g1, ?_, ?_, ?_, ?_, fun h => g5 (h6 h)⟩
    · intro i hi
      rw [g2]
      by_cases hik : i = k
      · subst hik
        rw [if_pos rfl, hr, hedge, h3 _ fun j hj e => absurd (s.pinSource_bit_inj (by omega) (by omega) e) (by omega)]
      · rw [if_neg fun e => hik (s.pinSource_bit_inj (by omega) (by omega) e), h2 i (by omega)]
    · intro n hn
      rw [g2, if_neg (hn k (by omega)), h3 n fun i hi => hn i (by omega)]
    · intro j
      rw [g3, h4, ha]
      by_cases hj : j = k
      · simp [hj]
      · rw [if_neg hj]
        by_cases hjk : j < k
        · rw [if_pos hjk, if_pos (by omega)]
        · rw [if_neg hjk, if_neg (by omega)]
    · rw [g4, hr, h1.same.wakes,
        State.armed_or (h1.flag (by decide) (by decide)) (h1.field (by decide) (by decide)) h5]
      simp only [List.range_succ, List.any_append, List.any_cons, List.any_nil, Bool.or_false]

theorem SameButPending.keyboardLow {s t : State} (h : SameButPending s t) (hi : t.inputs = s.inputs) :
    t.keyboardLow = s.keyboardLow := by
  simp only [State.keyboardLow, State.pinD, State.reg8, hi, h.params, h.reg .pdkben (by decide) (by decide),
    h.reg .pddir (by decide) (by decide), h.reg .pdpol (by decide) (by decide)]

/-- Everything the port-D evaluation can do (R306, R307). -/
theorem State.evalPortD_spec (s : State) :
    let t := s.evalPortD
    PortTouches s t ∧
      (∀ i < 8, t.bit .ipr (s.pinSource i).bit.val =
        (s.pinRaises i || (s.pinEdge i && s.bit .ipr (s.pinSource i).bit.val))) ∧
      t.bit .ipr (s.source .keyboard).bit.val = s.keyboardLow ∧
      (∀ n, (∀ i < 8, n ≠ (s.pinSource i).bit.val) → n ≠ (s.source .keyboard).bit.val → t.bit .ipr n = s.bit .ipr n) ∧
      (∀ j < 8, t.portDPrevActive.getLsbD j = s.pinActive j) ∧
      t.wakeCountdown = s.armed (((List.range 8).any fun i => s.pinRaises i && s.wakes (s.pinSource i)) ||
        (s.keyboardLow && s.wakes (s.source .keyboard))) ∧
      t.reg .isr = t.reg .ipr &&& ~~~t.reg .imr := by
  obtain ⟨h1, h2, h3, h4, h5, -⟩ := s.evalPins_spec 8 (by omega)
  obtain ⟨t, ht⟩ : ∃ t, t = (List.range 8).foldl State.evalPin s := ⟨_, rfl⟩
  rw [← ht] at h1 h2 h3 h4 h5
  have hs : s.evalPortD = t.evalKeyboard := by rw [ht]; rfl
  have hk : t.keyboardLow = s.keyboardLow := h1.same.keyboardLow h1.inputs
  have e : t.evalKeyboard = if s.keyboardLow then t.raiseSource (s.source .keyboard) else t.clearSource (s.source .keyboard) := by
    rw [State.evalKeyboard, hk, h1.same.source]
  have hbit : ∀ n, t.evalKeyboard.bit .ipr n = if n = (s.source .keyboard).bit.val then s.keyboardLow else t.bit .ipr n := by
    intro n
    rw [e]
    by_cases hn : n = (s.source .keyboard).bit.val <;> cases hl : s.keyboardLow <;>
      simp [State.bit_ipr_raiseSource, State.bit_ipr_clearSource, hn]
  have hw : t.evalKeyboard.wakeCountdown = t.armed (s.keyboardLow && t.wakes (s.source .keyboard)) := by
    rw [e]
    cases hl : s.keyboardLow <;> simp [State.wakeCountdown_raiseSource, State.armed_false]
  have hT : PortTouches t t.evalKeyboard := by
    rw [e]
    split
    · exact .of_touchesOnly (t.raiseSource_spec _).1
    · exact .of_touchesOnly (t.clearSource_spec _).1
  have hp : t.evalKeyboard.portDPrevActive = t.portDPrevActive := by
    rw [e]
    split
    · rw [(t.raiseSource_spec _).1.2]
    · rw [(t.clearSource_spec _).1.2]
  dsimp only
  rw [hs]
  refine ⟨h1.trans hT, ?_, ?_, ?_, ?_, ?_, ?_⟩
  · intro i hi
    rw [hbit, if_neg (s.pinSource_ne_keyboard i), h2 i hi]
  · rw [hbit, if_pos rfl]
  · intro n hn hkb
    rw [hbit, if_neg hkb, h3 n hn]
  · intro j hj
    rw [hp, h4, if_pos hj]
  · rw [hw, State.armed_or (h1.flag (by decide) (by decide)) (h1.field (by decide) (by decide)) h5,
      h1.same.wakes]
  · rw [e]
    split
    · exact State.isr_raiseSource _ _
    · exact State.isr_clearSource _ _

theorem Memory.wf_evalPin {s : State} (i : Nat) (h : s.rf.wf = true) : (s.evalPin i).rf.wf = true := by
  unfold State.evalPin
  simp only [State.rf_setPrevActive]
  split
  · split
    · exact Memory.wf_raiseSource _ h
    · exact h
  · split
    · exact Memory.wf_raiseSource _ h
    · exact Memory.wf_clearSource _ h

theorem Memory.wf_evalPortD {s : State} (h : s.rf.wf = true) : s.evalPortD.rf.wf = true := by
  have hp : ∀ (l : List Nat) (u : State), u.rf.wf = true → (l.foldl State.evalPin u).rf.wf = true := by
    intro l
    induction l with
    | nil => exact fun u hu => hu
    | cons i l ih => exact fun u hu => ih _ (Memory.wf_evalPin i hu)
  unfold State.evalPortD State.evalKeyboard
  split
  · exact Memory.wf_raiseSource _ (hp _ _ h)
  · exact Memory.wf_clearSource _ (hp _ _ h)

end Sys2Proof.Machine
end

