-- ==== Sys2Proof/Laws/Handlers.lean ====
section
/-! SUPPORT. What each register write handler can do (R118), said once per handler, and the frame that they share. -/

namespace Sys2Proof.Machine

/-! The plain write -/

theorem State.maskedWrite_touchesOnly (s : State) (r : Reg) (mask v be : Word) :
    TouchesOnly [r] s (s.maskedWrite r mask v be) := TouchesOnly.setReg s _ (by simp)

theorem State.plainWrite_touchesOnly (s : State) (r : Reg) (v be : Word) : TouchesOnly [r] s (s.plainWrite r v be) :=
  TouchesOnly.setReg s _ (by simp)

/-- The plain write stores the bits that the mask and the byte enables allow (R119). -/
theorem State.reg_plainWrite (s : State) (r : Reg) (v be : Word) :
    (s.plainWrite r v be).reg r = mergeBits (s.reg r) v (s.params.regMap.wmask r) be :=
  s.reg_maskedWrite r v be (s.params.regMap.wmask_and_fullMask r)

/-! The frame of a handler -/

/-- What the write handler of register `r` may change of `s`. -/
structure HandlerFrame (r : Reg) (s t : State) : Prop where
  bytes : SameBytesBut s.params.regMap [r, .ipr, .isr] s.rf t.rf
  rest : t = { s with
    rf := t.rf, bootMode := t.bootMode, chips := t.chips, timerReadAck1 := t.timerReadAck1,
    timerReadAck2 := t.timerReadAck2, portDPrevActive := t.portDPrevActive, wakeCountdown := t.wakeCountdown,
    statusFlags := t.statusFlags, events := t.events }
  boot : r ≠ .csa → t.bootMode = s.bootMode
  chips : r ∉ Reg.chipSelectRegs → t.chips = s.chips
  ack1 : r ≠ .tstat1 → t.timerReadAck1 = s.timerReadAck1
  ack2 : r ≠ .tstat2 → t.timerReadAck2 = s.timerReadAck2
  port : triggersPortD r = false → r ≠ .icr →
    t.portDPrevActive = s.portDPrevActive ∧ t.wakeCountdown = s.wakeCountdown
  status : triggersStatusFlags r = false → t.statusFlags = s.statusFlags
  events : ∃ es, t.events = s.events ++ es ∧
    ∀ e ∈ es, (∃ n, e = .shortenBudget n) ∨ ∃ c, e = .mapChanged c

theorem HandlerFrame.params {r : Reg} {s t : State} (h : HandlerFrame r s t) : t.params = s.params := by rw [h.rest]

theorem HandlerFrame.of_touchesOnly {r : Reg} {s t : State} (h : TouchesOnly [r, .ipr, .isr] s t)
    (hw : t.wakeCountdown = s.wakeCountdown) : HandlerFrame r s t where
  bytes := h.1
  rest := by
    have e := h.2
    rw [e]
  boot _ := by rw [h.2]
  chips _ := by rw [h.2]
  ack1 _ := by rw [h.2]
  ack2 _ := by rw [h.2]
  port _ _ := ⟨by rw [h.2], hw⟩
  status _ := by rw [h.2]
  events := ⟨[], by rw [h.2]; simp, by simp⟩

/-! Each handler -/

theorem State.plainWrite_frame (s : State) (r : Reg) (v be : Word) : HandlerFrame r s (s.plainWrite r v be) :=
  .of_touchesOnly ((s.plainWrite_touchesOnly r v be).mono (by simp)) rfl

theorem State.writeScr_frame (s : State) (v be : Word) : HandlerFrame .scr s (s.writeScr v be) :=
  .of_touchesOnly (TouchesOnly.setReg s _ (by simp)) rfl

theorem HandlerFrame.reg {r : Reg} {s t : State} (h : HandlerFrame r s t) {q : Reg} (hq : q ∉ [r, .ipr, .isr]) :
    t.reg q = s.reg q := by
  rw [State.reg, h.params]
  exact h.bytes.reg hq

/-- SCR after a write (R336). -/
theorem State.reg_writeScr (s : State) (v be : Word) :
    (s.writeScr v be).reg .scr = s.params.regMap.scrAfterWrite (s.reg .scr) v be := by
  rw [State.writeScr, State.reg_setReg_same]
  have hp : s.params.regMap.scrPlain &&& s.params.regMap.fullMask .scr = s.params.regMap.scrPlain :=
    s.params.regMap.masks_and_fullMask (by decide)
  refine BitVec.eq_of_getLsbD_eq fun i hi => ?_
  have g1 := congrArg (fun w => w.getLsbD i) (s.and_fullMask .scr)
  have g2 := congrArg (fun w => w.getLsbD i) hp
  simp only [BitVec.getLsbD_and] at g1 g2
  simp only [BitVec.getLsbD_and, RegTable.scrAfterWrite, getLsbD_mergeBits, BitVec.getLsbD_not]
  cases h : (s.params.regMap.fullMask .scr).getLsbD i
  · simp [h] at g1 g2
    rw [g1, g2]
    simp
  · simp

/-- SCR after a write, bit by bit (R336). -/
theorem State.bit_writeScr (s : State) (v be : Word) (b : Nat) :
    (s.writeScr v be).bit .scr b =
      if be.getLsbD b then
        if s.params.regMap.faultFlags.getLsbD b then s.bit .scr b && !v.getLsbD b
        else if s.params.regMap.scrPlain.getLsbD b then v.getLsbD b
        else s.bit .scr b
      else s.bit .scr b := by
  have ha : s.params.regMap.faultFlags.getLsbD b = true → s.params.regMap.scrPlain.getLsbD b = false :=
    s.params.regMap.masks_apart (r := .scr) (by decide) (by decide) (by decide)
  rw [State.bit, s.reg_writeScr, RegTable.scrAfterWrite, getLsbD_mergeBits]
  by_cases hb : b < 32
  · simp only [BitVec.getLsbD_and, BitVec.getLsbD_not, hb, decide_true, Bool.true_and]
    cases hf : s.params.regMap.faultFlags.getLsbD b
    · cases s.params.regMap.scrPlain.getLsbD b <;> cases be.getLsbD b <;> simp [State.bit]
    · rw [ha hf]
      cases be.getLsbD b <;> simp [State.bit]
  · simp [State.bit, BitVec.getLsbD_of_ge _ _ (Nat.not_lt.mp hb)]

theorem State.writeImr_touchesOnly (s : State) (v be : Word) : TouchesOnly [.imr, .isr] s (s.writeImr v be) :=
  ((s.plainWrite_touchesOnly .imr v be).mono (by simp)).trans ((State.recomputeIsr_spec _).1.mono (by simp))

theorem State.writeImr_frame (s : State) (v be : Word) : HandlerFrame .imr s (s.writeImr v be) :=
  .of_touchesOnly ((s.writeImr_touchesOnly v be).mono (by simp)) rfl

/-- IMR is stored and ISR computed from it (R142). -/
theorem State.writeImr_spec (s : State) (v be : Word) :
    (s.writeImr v be).reg .imr = mergeBits (s.reg .imr) v (s.params.regMap.wmask .imr) be ∧
      (s.writeImr v be).reg .ipr = s.reg .ipr ∧
      (s.writeImr v be).reg .isr = (s.writeImr v be).reg .ipr &&& ~~~(s.writeImr v be).reg .imr := by
  obtain ⟨h1, h2⟩ := (s.plainWrite .imr v be).recomputeIsr_spec
  refine ⟨?_, ?_, ?_⟩
  · rw [State.writeImr, h1.reg (by decide), State.reg_plainWrite]
  · rw [State.writeImr, h1.reg (by decide), (s.plainWrite_touchesOnly .imr v be).reg (by decide)]
  · rw [State.writeImr, h2, h1.reg (by decide), h1.reg (by decide)]

/-- Everything the ISR write can do: it clears the edge-clearable sources written 1 (R143). -/
theorem State.writeIsr_spec (s : State) (v be : Word) :
    TouchesOnly [.ipr, .isr] s (s.writeIsr v be) ∧ (s.writeIsr v be).wakeCountdown = s.wakeCountdown ∧
      (∀ b, (s.writeIsr v be).bit .ipr b = true ↔ s.bit .ipr b = true ∧
        ¬∃ x ∈ s.params.sources.rows, x.bit.val = b ∧ s.edgeClearable x = true ∧ (v &&& be).getLsbD b = true) ∧
      (s.writeIsr v be = s ∨
        (s.writeIsr v be).reg .isr = (s.writeIsr v be).reg .ipr &&& ~~~(s.writeIsr v be).reg .imr) := by
  have key : ∀ (l : List SourceRow) (u : State), TouchesOnly [.ipr, .isr] s u → u.wakeCountdown = s.wakeCountdown →
      let t := l.foldl (fun s x => if s.edgeClearable x && (v &&& be).getLsbD x.bit.val then s.clearSource x else s) u
      TouchesOnly [.ipr, .isr] s t ∧ t.wakeCountdown = s.wakeCountdown ∧
        (∀ b, t.bit .ipr b = true ↔ u.bit .ipr b = true ∧
          ¬∃ x ∈ l, x.bit.val = b ∧ s.edgeClearable x = true ∧ (v &&& be).getLsbD b = true) ∧
        (t = u ∨ t.reg .isr = t.reg .ipr &&& ~~~t.reg .imr) := by
    intro l
    induction l with
    | nil => exact fun u hu hw => ⟨hu, hw, by simp, .inl rfl⟩
    | cons x l ih =>
      intro u hu hw
      have he : u.edgeClearable x = s.edgeClearable x := (PortTouches.of_touchesOnly hu).same.edgeClearable x
      dsimp only
      rw [List.foldl_cons, he]
      by_cases hc : (s.edgeClearable x && (v &&& be).getLsbD x.bit.val) = true
      · rw [if_pos hc]
        obtain ⟨h1, h2, h3, h4⟩ := ih (u.clearSource x) (hu.trans (u.clearSource_spec x).1)
          ((u.clearSource_spec x).2.2.2.trans hw)
        refine ⟨h1, h2, fun b => ?_, ?_⟩
        · rw [h3, State.bit_ipr_clearSource]
          simp only [Bool.and_eq_true] at hc
          by_cases hb : b = x.bit.val
          · subst hb
            simp only [decide_true, Bool.not_true, Bool.and_false, Bool.false_eq_true, false_and, false_iff]
            exact fun hh => hh.2 ⟨x, List.mem_cons_self, rfl, hc.1, hc.2⟩
          · have : ¬x.bit.val = b := fun e => hb e.symm
            simp [hb, this]
        · rcases h4 with h4 | h4
          · refine .inr ?_
            rw [h4]
            exact State.isr_clearSource u x
          · exact .inr h4
      · rw [if_neg hc]
        obtain ⟨h1, h2, h3, h4⟩ := ih u hu hw
        refine ⟨h1, h2, fun b => ?_, h4⟩
        rw [h3]
        refine and_congr_right fun _ => not_congr ?_
        simp only [List.mem_cons, exists_eq_or_imp]
        refine ⟨.inr, fun h => h.resolve_left ?_⟩
        rintro ⟨rfl, a, b⟩
        exact hc (by rw [a, b]; rfl)
  obtain ⟨h1, h2, h3, h4⟩ := key s.params.sources.rows s (.refl _ s) rfl
  exact ⟨h1, h2, h3, h4⟩

theorem State.writeIsr_frame (s : State) (v be : Word) : HandlerFrame .isr s (s.writeIsr v be) :=
  .of_touchesOnly ((s.writeIsr_spec v be).1.mono (by simp)) (s.writeIsr_spec v be).2.1

theorem State.evalPortD_frame {r : Reg} {s u : State} (h : HandlerFrame r s u)
    (hr : triggersPortD r = true ∨ r = .icr) : HandlerFrame r s u.evalPortD := by
  obtain ⟨⟨h1, h2⟩, -⟩ := u.evalPortD_spec
  rw [h.params] at h1
  refine ⟨h.bytes.trans (h1.mono (by simp)), ?_, ?_, ?_, ?_, ?_, ?_, ?_, ?_⟩
  · have e := h2
    generalize u.evalPortD = w at e ⊢
    rw [h.rest] at e
    rw [e]
  · intro hn
    rw [h2]
    exact h.boot hn
  · intro hn
    rw [h2]
    exact h.chips hn
  · intro hn
    rw [h2]
    exact h.ack1 hn
  · intro hn
    rw [h2]
    exact h.ack2 hn
  · intro ha hb
    rcases hr with hr | hr
    · rw [hr] at ha
      exact absurd ha (by decide)
    · exact absurd hr hb
  · intro hn
    rw [h2]
    exact h.status hn
  · rw [h2]
    exact h.events

theorem State.writeIcr_frame (s : State) (v be : Word) : HandlerFrame .icr s (s.writeIcr v be) :=
  State.evalPortD_frame (s.plainWrite_frame .icr v be) (.inr rfl)

theorem State.recomputeStatusFlags_frame {r : Reg} {s u : State} (h : HandlerFrame r s u)
    (hr : triggersStatusFlags r = true) : HandlerFrame r s u.recomputeStatusFlags where
  bytes := h.bytes
  rest := by
    have e := h.rest
    simp only [State.recomputeStatusFlags]
    rw [e]
  boot := h.boot
  chips := h.chips
  ack1 := h.ack1
  ack2 := h.ack2
  port := h.port
  status hn := by simp [hr] at hn
  events := h.events

theorem State.writePort_frame (s : State) (r : Reg) (v be : Word) : HandlerFrame r s (s.writePort r v be) := by
  have h1 := s.plainWrite_frame r v be
  have h2 : HandlerFrame r s
      (if triggersStatusFlags r then (s.plainWrite r v be).recomputeStatusFlags else s.plainWrite r v be) := by
    split
    · exact State.recomputeStatusFlags_frame h1 ‹_›
    · exact h1
  unfold State.writePort
  dsimp only
  split
  · exact State.evalPortD_frame h2 (.inl ‹_›)
  · exact h2

theorem State.writePllfsr_frame (s : State) (v be : Word) : HandlerFrame .pllfsr s (s.writePllfsr v be) := by
  unfold State.writePllfsr
  split
  · exact .of_touchesOnly (.refl _ s) rfl
  · exact s.plainWrite_frame .pllfsr v be

theorem State.writePllcr_frame (s : State) (v be : Word) : HandlerFrame .pllcr s (s.writePllcr v be) := by
  have h := s.plainWrite_frame .pllcr v be
  unfold State.writePllcr
  dsimp only
  split
  · refine ⟨h.bytes, rfl, h.boot, h.chips, h.ack1, h.ack2, h.port, h.status, ⟨[.shortenBudget 30], rfl, ?_⟩⟩
    intro e he
    simp only [List.mem_singleton] at he
    exact .inl ⟨30, he⟩
  · exact h

theorem State.writeChipSelect_frame (s : State) (r : Reg) (v be : Word) (hr : r ∈ Reg.chipSelectRegs) :
    HandlerFrame r s (s.writeChipSelect r v be) := by
  have h := s.plainWrite_frame r v be
  have hb : ∃ m, (s.plainWrite r v be).endBootMode r = { s.plainWrite r v be with bootMode := m } ∧
      (r ≠ .csa → m = s.bootMode) := by
    unfold State.endBootMode
    split
    · exact ⟨false, rfl, fun hn => absurd (by simp_all) hn⟩
    · exact ⟨s.bootMode, rfl, fun _ => rfl⟩
  obtain ⟨m, e, hm⟩ := hb
  unfold State.writeChipSelect
  rw [e]
  refine ⟨h.bytes, rfl, hm, fun hn => absurd hr hn, h.ack1, h.ack2, h.port, h.status, ⟨[.mapChanged _], rfl, ?_⟩⟩
  intro e he
  simp only [List.mem_singleton] at he
  exact .inr ⟨_, he⟩

/-- A TSTATn write before its pending flag is looked at: the exposed bits written 0 are cleared (R197). -/
def State.clearTstat (s : State) (n : TimerId) (v be : Word) : State :=
  (s.setReg (Reg.tstat n) (s.reg (Reg.tstat n) &&& ~~~s.params.regMap.tstatCleared n v be ((s.timerReadAck n).setWidth 32))).setTimerReadAck
    n (s.timerReadAck n &&& ~~~((s.params.regMap.tstatCleared n v be ((s.timerReadAck n).setWidth 32)).setWidth 16))

theorem State.writeTstat_eq (s : State) (n : TimerId) (v be : Word) :
    s.writeTstat n v be = if (s.clearTstat n v be).flag (Field.comp n) then s.clearTstat n v be
      else (s.clearTstat n v be).clearSource (s.source (.timer n)) := by
  cases n <;> rfl

theorem State.writeTstat_frame (s : State) (n : TimerId) (v be : Word) :
    HandlerFrame (Reg.tstat n) s (s.writeTstat n v be) := by
  have h : HandlerFrame (Reg.tstat n) s (s.clearTstat n v be) := by
    have hb : SameBytesBut s.params.regMap [Reg.tstat n, .ipr, .isr] s.rf (s.clearTstat n v be).rf := by
      have := SameBytesBut.setReg s.params.regMap (rs := [Reg.tstat n, .ipr, .isr]) s.rf
        (r := Reg.tstat n) (s.reg (Reg.tstat n) &&& ~~~s.params.regMap.tstatCleared n v be ((s.timerReadAck n).setWidth 32)) (by simp)
      cases n <;> exact this
    cases n
    · exact ⟨hb, rfl, fun _ => rfl, fun _ => rfl, fun hn => absurd rfl hn, fun _ => rfl, fun _ _ => ⟨rfl, rfl⟩,
        fun _ => rfl, ⟨[], (List.append_nil _).symm, by simp⟩⟩
    · exact ⟨hb, rfl, fun _ => rfl, fun _ => rfl, fun _ => rfl, fun hn => absurd rfl hn, fun _ _ => ⟨rfl, rfl⟩,
        fun _ => rfl, ⟨[], (List.append_nil _).symm, by simp⟩⟩
  rw [State.writeTstat_eq]
  split
  · exact h
  · obtain ⟨⟨g1, g2⟩, -, -, g3⟩ := (s.clearTstat n v be).clearSource_spec (s.source (.timer n))
    rw [h.params] at g1
    refine ⟨h.bytes.trans (g1.mono (by simp)), ?_, ?_, ?_, ?_, ?_, ?_, ?_, ?_⟩
    · have e := g2
      generalize (s.clearTstat n v be).clearSource (s.source (.timer n)) = w at e ⊢
      rw [h.rest] at e
      rw [e]
    · intro hn; rw [g2]; exact h.boot hn
    · intro hn; rw [g2]; exact h.chips hn
    · intro hn; rw [g2]; exact h.ack1 hn
    · intro hn; rw [g2]; exact h.ack2 hn
    · intro a b; rw [g3, g2]; exact h.port a b
    · intro hn; rw [g2]; exact h.status hn
    · rw [g2]; exact h.events

/-- Everything the RTCISR write can do (R230). -/
theorem State.writeRtcisr_spec (s : State) (v be : Word) :
    let t := s.writeRtcisr v be
    TouchesOnly [.rtcisr, .ipr, .isr] s t ∧ t.wakeCountdown = s.wakeCountdown ∧
      t.reg .rtcisr = s.reg .rtcisr &&& ~~~(v &&& be) ∧
      (∀ b, t.bit .ipr b = (s.bit .ipr b &&
        !(decide (b = (s.source .rtcSecond).bit.val) && decide (t.reg .rtcisr &&& s.params.regMap.rtcBits = 0)) &&
        !(decide (b = (s.source .ladder).bit.val) && decide (t.reg .rtcisr &&& s.params.regMap.ladderBits = 0)))) ∧
      ((t.reg .ipr = s.reg .ipr ∧ t.reg .imr = s.reg .imr ∧ t.reg .isr = s.reg .isr) ∨
        t.reg .isr = t.reg .ipr &&& ~~~t.reg .imr) := by
  obtain ⟨u, hu⟩ : ∃ u, u = s.setReg .rtcisr (s.reg .rtcisr &&& ~~~(v &&& be)) := ⟨_, rfl⟩
  obtain ⟨w, hw⟩ : ∃ w, w = if u.reg .rtcisr &&& s.params.regMap.rtcBits = 0 then u.clearSource (s.source .rtcSecond) else u := ⟨_, rfl⟩
  have ht : s.writeRtcisr v be = if w.reg .rtcisr &&& s.params.regMap.ladderBits = 0 then w.clearSource (s.source .ladder) else w := by
    rw [hw, hu]
    rfl
  have u1 : TouchesOnly [.rtcisr, .ipr, .isr] s u := hu ▸ TouchesOnly.setReg s _ (by simp)
  have w1 : TouchesOnly [.ipr, .isr] u w := by
    rw [hw]
    split
    · exact (u.clearSource_spec _).1
    · exact .refl _ _
  have t1 : TouchesOnly [.ipr, .isr] w (s.writeRtcisr v be) := by
    rw [ht]
    split
    · exact (w.clearSource_spec _).1
    · exact .refl _ _
  have ur : u.reg .rtcisr = s.reg .rtcisr &&& ~~~(v &&& be) := by
    rw [hu, State.reg_setReg_same]
    have h1 := s.and_fullMask .rtcisr
    calc s.reg .rtcisr &&& ~~~(v &&& be) &&& s.params.regMap.fullMask .rtcisr
        = (s.reg .rtcisr &&& s.params.regMap.fullMask .rtcisr) &&& ~~~(v &&& be) := by
          rw [BitVec.and_assoc, BitVec.and_comm (~~~(v &&& be)), ← BitVec.and_assoc]
      _ = s.reg .rtcisr &&& ~~~(v &&& be) := by rw [h1]
  have wr : w.reg .rtcisr = u.reg .rtcisr := w1.reg (by decide)
  have tr : (s.writeRtcisr v be).reg .rtcisr = u.reg .rtcisr := (t1.reg (by decide)).trans wr
  have wb : ∀ b, w.bit .ipr b = (u.bit .ipr b && !(decide (b = (s.source .rtcSecond).bit.val) &&
      decide (u.reg .rtcisr &&& s.params.regMap.rtcBits = 0))) := by
    intro b
    rw [hw]
    by_cases h : u.reg .rtcisr &&& s.params.regMap.rtcBits = 0
    · rw [if_pos h, State.bit_ipr_clearSource, decide_eq_true h, Bool.and_true]
    · rw [if_neg h, decide_eq_false h, Bool.and_false, Bool.not_false, Bool.and_true]
  have tb : ∀ b, (s.writeRtcisr v be).bit .ipr b = (w.bit .ipr b && !(decide (b = (s.source .ladder).bit.val) &&
      decide (u.reg .rtcisr &&& s.params.regMap.ladderBits = 0))) := by
    intro b
    rw [ht, wr]
    by_cases h : u.reg .rtcisr &&& s.params.regMap.ladderBits = 0
    · rw [if_pos h, State.bit_ipr_clearSource, decide_eq_true h, Bool.and_true]
    · rw [if_neg h, decide_eq_false h, Bool.and_false, Bool.not_false, Bool.and_true]
  have ub : ∀ b, u.bit .ipr b = s.bit .ipr b := by
    intro b
    rw [hu]
    simp only [State.bit, State.reg_setReg_ne _ _ (show Reg.ipr ≠ .rtcisr by decide)]
  have hcons : w = u ∧ s.writeRtcisr v be = w ∨
      (s.writeRtcisr v be).reg .isr = (s.writeRtcisr v be).reg .ipr &&& ~~~(s.writeRtcisr v be).reg .imr := by
    rw [ht]
    split
    · exact .inr (State.isr_clearSource _ _)
    · rw [hw]
      split
      · exact .inr (State.isr_clearSource _ _)
      · exact .inl ⟨rfl, rfl⟩
  have usame : ∀ q, q ≠ .rtcisr → u.reg q = s.reg q := fun q hq => by
    rw [hu]
    exact State.reg_setReg_ne _ _ hq
  refine ⟨u1.trans ((w1.trans t1).mono (by simp)), ?_, tr.trans ur, fun b => ?_, ?_⟩
  · rw [ht]
    split <;> rw [hw] <;> split <;> rw [hu] <;> rfl
  · rw [tb, wb, ub, tr, Bool.and_assoc]
  · rcases hcons with ⟨e1, e2⟩ | h
    · rw [e2, e1]
      exact .inl ⟨usame _ (by decide), usame _ (by decide), usame _ (by decide)⟩
    · exact .inr h

theorem State.writeRtcisr_frame (s : State) (v be : Word) : HandlerFrame .rtcisr s (s.writeRtcisr v be) :=
  .of_touchesOnly (s.writeRtcisr_spec v be).1 (s.writeRtcisr_spec v be).2.1

/-- A WATCHDOG write before INTF is looked at: EN and ISEL stored, the count restarted (R231). -/
def State.restartWatchdog (s : State) (v be : Word) : State :=
  (s.maskedWrite .watchdog s.params.regMap.watchdogPlain v be).setField Field.wdtCntr 0

theorem State.writeWatchdog_eq (s : State) (v be : Word) :
    s.writeWatchdog v be = if s.params.regMap.ofWord Field.wdtIntf (v &&& be) = 1 then
      ((s.restartWatchdog v be).setField Field.wdtIntf 0).clearSource (s.source .watchdog) else s.restartWatchdog v be := rfl

theorem State.restartWatchdog_touchesOnly (s : State) (v be : Word) :
    TouchesOnly [.watchdog] s (s.restartWatchdog v be) :=
  (s.maskedWrite_touchesOnly .watchdog _ v be).trans (TouchesOnly.setReg _ _ (by simp [Field.reg]))

theorem State.writeWatchdog_touchesOnly (s : State) (v be : Word) :
    TouchesOnly [.watchdog, .ipr, .isr] s (s.writeWatchdog v be) := by
  rw [State.writeWatchdog_eq]
  split
  · exact ((s.restartWatchdog_touchesOnly v be).mono (by simp)).trans
      ((TouchesOnly.setReg _ _ (by simp [Field.reg])).trans ((State.clearSource_spec _ _).1.mono (by simp)))
  · exact (s.restartWatchdog_touchesOnly v be).mono (by simp)

theorem State.writeWatchdog_frame (s : State) (v be : Word) : HandlerFrame .watchdog s (s.writeWatchdog v be) := by
  refine .of_touchesOnly (s.writeWatchdog_touchesOnly v be) ?_
  rw [State.writeWatchdog_eq]
  split <;> rfl

/-- The registers whose handler is a plain write alone (R118). -/
def Reg.plainRegs : List Reg :=
  [.ivr, .ilcr, .tctl1, .tctl2, .tprer1, .tprer2, .tcmp1, .tcmp2, .rtctime, .dayr, .rtcctl, .rtcienr]

/-- The dispatch of a register write, said once (R118). -/
theorem State.writeHandler_cases {Q : Reg → State → Prop} (s : State) (v be : Word)
    (same : ∀ r ∈ [Reg.ipr, .tcn1, .tcn2], Q r s)
    (plain : ∀ r ∈ Reg.plainRegs, Q r (s.plainWrite r v be))
    (port : ∀ r ∈ Reg.portRegs, Q r (s.writePort r v be))
    (chip : ∀ r ∈ Reg.chipSelectRegs, Q r (s.writeChipSelect r v be))
    (scr : Q .scr (s.writeScr v be)) (icr : Q .icr (s.writeIcr v be)) (imr : Q .imr (s.writeImr v be))
    (isr : Q .isr (s.writeIsr v be)) (pllcr : Q .pllcr (s.writePllcr v be)) (pllfsr : Q .pllfsr (s.writePllfsr v be))
    (tstat : ∀ n, Q (Reg.tstat n) (s.writeTstat n v be)) (rtcisr : Q .rtcisr (s.writeRtcisr v be))
    (watchdog : Q .watchdog (s.writeWatchdog v be)) (r : Reg) : Q r (s.writeHandler r v be) := by
  cases r
  case scr => exact scr
  case icr => exact icr
  case imr => exact imr
  case isr => exact isr
  case pllcr => exact pllcr
  case pllfsr => exact pllfsr
  case tstat1 => exact tstat .t1
  case tstat2 => exact tstat .t2
  case rtcisr => exact rtcisr
  case watchdog => exact watchdog
  case ipr | tcn1 | tcn2 => exact same _ (by decide)
  case csa | csb | csc | csd | csgba | csgbb | csgbc | csgbd | csugba | csctrl1 | csctrl2 => exact chip _ (by decide)
  case ivr | ilcr | tctl1 | tctl2 | tprer1 | tprer2 | tcmp1 | tcmp2 | rtctime | dayr | rtcctl | rtcienr =>
    exact plain _ (by decide)
  all_goals exact port _ (by decide)

/-- The frame of every write handler (R118). -/
theorem State.writeHandler_frame (s : State) (r : Reg) (v be : Word) : HandlerFrame r s (s.writeHandler r v be) :=
  State.writeHandler_cases (Q := fun r t => HandlerFrame r s t) s v be
    (fun _ _ => .of_touchesOnly (.refl _ s) rfl)
    (fun r _ => s.plainWrite_frame r v be)
    (fun r _ => s.writePort_frame r v be)
    (fun r hr => s.writeChipSelect_frame r v be hr)
    (s.writeScr_frame v be) (s.writeIcr_frame v be) (s.writeImr_frame v be) (s.writeIsr_frame v be)
    (s.writePllcr_frame v be) (s.writePllfsr_frame v be) (fun n => s.writeTstat_frame n v be)
    (s.writeRtcisr_frame v be) (s.writeWatchdog_frame v be) r

end Sys2Proof.Machine
end

