-- ==== Sys2Proof/Laws/Access.lean ====
section
/-! SUPPORT. How a write is split by register (R86, R114), what the handlers of a write can change together, and what a
read returns and notes (R110). -/

namespace Sys2Proof.Machine

/-! The split of a write -/

theorem spanOffset_eq {o i : Nat} (h : o + i < 4096) : spanOffset o i = o + i := Nat.mod_eq_of_lt h

theorem spanOffset_lt (o i : Nat) : spanOffset o i < Config.windowSize := Nat.mod_lt _ (by decide)

theorem spanOffset_inj {o i j : Nat} (hi : i < 4096) (hj : j < 4096) (h : spanOffset o i = spanOffset o j) : i = j := by
  simp only [spanOffset, Config.windowSize] at h
  omega

theorem offsetOf_lt (a : Word) : offsetOf a < 4096 := (a.extractLsb' 0 12).isLt

/-- The split after the first `k` bytes. -/
def splitUpTo (km : RegMap) (rf : Memory) (o n : Nat) (v : Word) (k : Nat) : WriteSplit :=
  (List.range k).foldl (fun w i => w.addByte km (spanOffset o i) (spanByte v n i)) ⟨rf, []⟩

theorem splitUpTo_succ (km : RegMap) (rf : Memory) (o n : Nat) (v : Word) (k : Nat) :
    splitUpTo km rf o n v (k + 1) = (splitUpTo km rf o n v k).addByte km (spanOffset o k) (spanByte v n k) := by
  simp [splitUpTo, List.range_succ, List.foldl_append]

theorem splitWrite_eq (km : RegMap) (rf : Memory) (o n : Nat) (v : Word) :
    splitWrite km rf o n v = splitUpTo km rf o n v n := rfl

theorem mem_addTouch {ts : List Touch} {r : Reg} {v be : Word} {t : Touch} (h : t ∈ addTouch ts r v be) :
    t.reg = r ∨ t ∈ ts := by
  induction ts with
  | nil => simp only [addTouch, List.mem_singleton] at h; simp [h]
  | cons u ts ih =>
    simp only [addTouch] at h
    split at h
    · rcases List.mem_cons.1 h with h | h
      · exact .inl (by rw [h])
      · exact .inr (List.mem_cons_of_mem _ h)
    · rcases List.mem_cons.1 h with h | h
      · exact .inr (by simp [h])
      · exact (ih h).imp id (List.mem_cons_of_mem _)

/-- Every touch is of a register that owns a byte of the span. -/
theorem mem_touches_splitUpTo {km : RegMap} {rf : Memory} {o n : Nat} {v : Word} {k : Nat} {t : Touch}
    (h : t ∈ (splitUpTo km rf o n v k).touches) : ∃ i < k, km.regAt (spanOffset o i) = some t.reg := by
  induction k with
  | zero => simp [splitUpTo] at h
  | succ k ih =>
    rw [splitUpTo_succ, WriteSplit.addByte] at h
    cases hr : km.regAt (spanOffset o k) with
    | none =>
      rw [hr] at h
      obtain ⟨i, hi, e⟩ := ih h
      exact ⟨i, by omega, e⟩
    | some r =>
      rw [hr] at h
      rcases mem_addTouch h with h | h
      · exact ⟨k, by omega, by rw [hr, h]⟩
      · obtain ⟨i, hi, e⟩ := ih h
        exact ⟨i, by omega, e⟩

/-- The bytes the split stores are those of the span that no register owns. -/
theorem splitUpTo_rf (km : RegMap) (rf : Memory) (o n : Nat) (v : Word) (k : Nat) (hk : k ≤ 4096) :
    (∀ j < k, km.regAt (spanOffset o j) = none →
      (splitUpTo km rf o n v k).rf.read (spanOffset o j) = spanByte v n j) ∧
    (∀ p, (km.regAt p = none → ∀ j < k, p ≠ spanOffset o j) → (splitUpTo km rf o n v k).rf.read p = rf.read p) ∧
    (∀ r, (splitUpTo km rf o n v k).rf.reg km r = rf.reg km r) ∧
    (rf.wf = true → (splitUpTo km rf o n v k).rf.wf = true) := by
  induction k with
  | zero => exact ⟨fun j hj => absurd hj (by omega), fun _ _ => rfl, fun _ => rfl, id⟩
  | succ k ih =>
    obtain ⟨h1, h2, h3, h4⟩ := ih (by omega)
    rw [splitUpTo_succ, WriteSplit.addByte]
    cases hr : km.regAt (spanOffset o k) with
    | some r =>
      refine ⟨fun j hj hn => ?_, fun p hp => h2 p fun hn j hj => hp hn j (by omega), h3, h4⟩
      by_cases hjk : j = k
      · subst hjk
        rw [hr] at hn
        exact absurd hn (by simp)
      · exact h1 j (by omega) hn
    | none =>
      refine ⟨fun j hj hn => ?_, fun p hp => ?_, fun r => ?_, fun hw => Memory.wf_write _ (spanOffset_lt o k) (h4 hw)⟩
      · dsimp only
        rw [Memory.read_write]
        by_cases hjk : j = k
        · subst hjk
          rw [if_pos rfl]
        · rw [if_neg fun e => hjk (spanOffset_inj (by omega) (by omega) e), h1 j (by omega) hn]
      · dsimp only
        rw [Memory.read_write, if_neg, h2 p fun hn j hj => hp hn j (by omega)]
        intro e
        exact hp (by rw [e, hr]) k (by omega) e
      · dsimp only
        rw [Memory.reg_write_unowned _ _ _ _ _ hr, h3]

/-! Writes inside one register -/

theorem getLsbD_spanByte (v : Word) (n i b : Nat) :
    (spanByte v n i).getLsbD b = (decide (b < 8) && v.getLsbD (8 * (n - 1 - i) + b)) := by
  simp [spanByte, BitVec.getLsbD_setWidth, BitVec.getLsbD_ushiftRight]

/-- `laneLo`, `be_R` and `v_R` of a write inside `r` (R86). -/
def RegTable.spanLo (km : RegTable) (r : Reg) (o n : Nat) : Nat := 8 * (km.offset r + km.bytes r - (o + n))

/-- The lanes that the first `k` bytes of a write inside `r` add up to. -/
theorem splitUpTo_inside {km : RegMap} {rf : Memory} {o n : Nat} {v : Word} {r : Reg} (h1 : km.offset r ≤ o)
    (h2 : o + n ≤ km.offset r + km.bytes r) (k : Nat) (hk : 1 ≤ k) (hkn : k ≤ n) :
    ∃ V B, splitUpTo km rf o n v k = ⟨rf, [⟨r, V, B⟩]⟩ ∧
      (∀ b, B.getLsbD b = decide (km.spanLo r o n + 8 * (n - k) ≤ b ∧ b < km.spanLo r o n + 8 * n)) ∧
      ∀ b, V.getLsbD b = (B.getLsbD b && v.getLsbD (b - km.spanLo r o n)) := by
  have hin := km.inside r
  have hb4 := km.bytes_le r
  have hwin : Config.windowSize = 4096 := rfl
  have lane : ∀ k < n, km.regAt (spanOffset o k) = some r ∧ km.laneShift r (spanOffset o k) = km.spanLo r o n + 8 * (n - 1 - k) := by
    intro k hk
    rw [spanOffset_eq (by omega)]
    refine ⟨km.regAt_eq_some.2 ⟨by omega, by omega⟩, ?_⟩
    simp only [RegTable.laneShift, RegTable.spanLo]
    omega
  have hff : ∀ b, (0xFF : Word).getLsbD b = decide (b < 8) := by
    intro b
    by_cases h : b < 32
    · revert h b
      decide
    · rw [BitVec.getLsbD_of_ge _ _ (by omega)]
      simp
      omega
  have laneB : ∀ k < n, ∀ b, ((0xFF : Word) <<< (km.spanLo r o n + 8 * (n - 1 - k))).getLsbD b =
      decide (km.spanLo r o n + 8 * (n - 1 - k) ≤ b ∧ b < km.spanLo r o n + 8 * (n - k)) := by
    intro k hk b
    have : km.spanLo r o n + 8 * n ≤ 32 := by simp only [RegTable.spanLo]; omega
    rw [BitVec.getLsbD_shiftLeft, hff, Bool.eq_iff_iff]
    simp only [Bool.and_eq_true, Bool.not_eq_true', decide_eq_true_eq, decide_eq_false_iff_not]
    constructor <;> intro <;> omega
  have laneV : ∀ k < n, ∀ b, ((spanByte v n k).setWidth 32 <<< (km.spanLo r o n + 8 * (n - 1 - k))).getLsbD b =
      (decide (km.spanLo r o n + 8 * (n - 1 - k) ≤ b ∧ b < km.spanLo r o n + 8 * (n - k)) &&
        v.getLsbD (b - km.spanLo r o n)) := by
    intro k hk b
    have : km.spanLo r o n + 8 * n ≤ 32 := by simp only [RegTable.spanLo]; omega
    rw [BitVec.getLsbD_shiftLeft, BitVec.getLsbD_setWidth, getLsbD_spanByte]
    by_cases hb2 : km.spanLo r o n + 8 * (n - 1 - k) ≤ b ∧ b < km.spanLo r o n + 8 * (n - k)
    · have e : 8 * (n - 1 - k) + (b - (km.spanLo r o n + 8 * (n - 1 - k))) = b - km.spanLo r o n := by omega
      have h3 : b < 32 := by omega
      have h4 : ¬b < km.spanLo r o n + 8 * (n - 1 - k) := by omega
      have h5 : b - (km.spanLo r o n + 8 * (n - 1 - k)) < 8 := by omega
      have h6 : b - (km.spanLo r o n + 8 * (n - 1 - k)) < 32 := by omega
      rw [e]
      simp [hb2, h3, h4, h5, h6]
    · rw [decide_eq_false hb2]
      by_cases h4 : b < km.spanLo r o n + 8 * (n - 1 - k)
      · simp [h4]
      · have h5 : ¬b - (km.spanLo r o n + 8 * (n - 1 - k)) < 8 := by omega
        simp [h5]
  induction k with
  | zero => omega
  | succ k ih =>
    obtain ⟨e1, e2⟩ := lane k (by omega)
    rw [splitUpTo_succ, WriteSplit.addByte, e1]
    dsimp only
    rw [e2]
    by_cases h0 : k = 0
    · subst h0
      refine ⟨_, _, rfl, fun b => ?_, fun b => ?_⟩
      · rw [laneB 0 (by omega)]
        congr 1
      · rw [laneB 0 (by omega), laneV 0 (by omega)]
    · obtain ⟨V, B, e, hB, hV⟩ := ih (by omega) (by omega)
      rw [e]
      refine ⟨V ||| (spanByte v n k).setWidth 32 <<< (km.spanLo r o n + 8 * (n - 1 - k)),
        B ||| (0xFF : Word) <<< (km.spanLo r o n + 8 * (n - 1 - k)), by simp only [addTouch, if_true],
        fun b => ?_, fun b => ?_⟩
      · rw [BitVec.getLsbD_or, hB, laneB k (by omega)]
        rw [Bool.eq_iff_iff]
        simp only [Bool.or_eq_true, decide_eq_true_eq]
        omega
      · rw [BitVec.getLsbD_or, BitVec.getLsbD_or, hV, hB, laneB k (by omega), laneV k (by omega)]
        rw [Bool.and_or_distrib_right]

/-- A write inside a register calls its handler once, with the value and the byte enables at the register's lanes
(R86, R115). -/
theorem State.memWrite_inside (s : State) {a : Word} {n : Nat} (v : Word) {r : Reg} (ha : s.reaches a = true)
    (h1 : s.params.regMap.offset r ≤ offsetOf a)
    (h2 : offsetOf a + n ≤ s.params.regMap.offset r + s.params.regMap.bytes r) (hn : 1 ≤ n) :
    s.memWrite a n v =
      (s.writeHandler r ((v <<< s.params.regMap.spanLo r (offsetOf a) n) &&& fieldMask (s.params.regMap.spanLo r (offsetOf a) n) (8 * n))
        (fieldMask (s.params.regMap.spanLo r (offsetOf a) n) (8 * n))).checkInterrupts := by
  obtain ⟨V, B, e, hB, hV⟩ := splitUpTo_inside (rf := s.rf) (v := v) h1 h2 n hn (Nat.le_refl n)
  have hb4 := s.params.regMap.bytes_le r
  have hle : s.params.regMap.spanLo r (offsetOf a) n + 8 * n ≤ 32 := by simp only [RegTable.spanLo]; omega
  have eB : B = fieldMask (s.params.regMap.spanLo r (offsetOf a) n) (8 * n) := by
    refine BitVec.eq_of_getLsbD_eq fun i hi => ?_
    rw [hB, getLsbD_fieldMask]
    simp only [Nat.sub_self, Nat.mul_zero, Nat.add_zero]
    rw [Bool.eq_iff_iff]
    simp
    omega
  have eV : V = (v <<< s.params.regMap.spanLo r (offsetOf a) n) &&& fieldMask (s.params.regMap.spanLo r (offsetOf a) n) (8 * n) := by
    refine BitVec.eq_of_getLsbD_eq fun i hi => ?_
    rw [hV, BitVec.getLsbD_and, ← eB, BitVec.getLsbD_shiftLeft]
    by_cases hb : B.getLsbD i = true
    · have := hB i
      rw [hb] at this
      have := of_decide_eq_true this.symm
      have h3 : ¬i < s.params.regMap.spanLo r (offsetOf a) n := by omega
      rw [hb, decide_eq_true hi, decide_eq_false h3, Bool.not_false, Bool.true_and, Bool.true_and, Bool.true_and,
        Bool.and_true]
    · rw [Bool.eq_false_iff.2 hb, Bool.false_and, Bool.and_false]
  rw [State.memWrite, if_pos ha, State.writeWindow, splitWrite_eq, e, eV, eB]
  rfl

/-! What the handlers of a write can change together -/

/-- What a write whose touched registers all satisfy `P` may change of `s`. -/
structure WindowFrame (P : Reg → Prop) (s t : State) : Prop where
  bytes : ∀ p, (∀ r : Reg, s.params.regMap.offset r ≤ p ∧ p < s.params.regMap.offset r + s.params.regMap.bytes r →
      ¬P r ∧ r ≠ .ipr ∧ r ≠ .isr) →
    t.rf.read p = s.rf.read p
  rest : t = { s with
    rf := t.rf, bootMode := t.bootMode, chips := t.chips, timerReadAck1 := t.timerReadAck1,
    timerReadAck2 := t.timerReadAck2, portDPrevActive := t.portDPrevActive, wakeCountdown := t.wakeCountdown,
    statusFlags := t.statusFlags, events := t.events }
  boot : ¬P .csa → t.bootMode = s.bootMode
  chips : (∀ r ∈ Reg.chipSelectRegs, ¬P r) → t.chips = s.chips
  ack1 : ¬P .tstat1 → t.timerReadAck1 = s.timerReadAck1
  ack2 : ¬P .tstat2 → t.timerReadAck2 = s.timerReadAck2
  port : (∀ r, triggersPortD r = true ∨ r = .icr → ¬P r) →
    t.portDPrevActive = s.portDPrevActive ∧ t.wakeCountdown = s.wakeCountdown
  status : (∀ r, triggersStatusFlags r = true → ¬P r) → t.statusFlags = s.statusFlags
  events : ∃ es, t.events = s.events ++ es ∧
    ∀ e ∈ es, (∃ n, e = .shortenBudget n) ∨ ∃ c, e = .mapChanged c

theorem WindowFrame.params {P : Reg → Prop} {s t : State} (h : WindowFrame P s t) : t.params = s.params := by
  rw [h.rest]

theorem WindowFrame.refl (P : Reg → Prop) (s : State) : WindowFrame P s s :=
  ⟨fun _ _ => rfl, rfl, fun _ => rfl, fun _ => rfl, fun _ => rfl, fun _ => rfl, fun _ => ⟨rfl, rfl⟩, fun _ => rfl,
    ⟨[], by simp, by simp⟩⟩

theorem WindowFrame.trans {P : Reg → Prop} {s t u : State} (h : WindowFrame P s t) (g : WindowFrame P t u) :
    WindowFrame P s u := by
  refine ⟨fun p hp => (g.bytes p (by rw [h.params]; exact hp)).trans (h.bytes p hp), ?_, fun a => (g.boot a).trans (h.boot a),
    fun a => (g.chips a).trans (h.chips a), fun a => (g.ack1 a).trans (h.ack1 a), fun a => (g.ack2 a).trans (h.ack2 a),
    fun a => ⟨(g.port a).1.trans (h.port a).1, (g.port a).2.trans (h.port a).2⟩,
    fun a => (g.status a).trans (h.status a), ?_⟩
  · have e := g.rest
    rw [h.rest] at e
    rw [e]
  · obtain ⟨es, e1, e2⟩ := h.events
    obtain ⟨fs, f1, f2⟩ := g.events
    refine ⟨es ++ fs, by rw [f1, e1, List.append_assoc], fun e he => ?_⟩
    rcases List.mem_append.1 he with he | he
    · exact e2 e he
    · exact f2 e he

theorem WindowFrame.of_handler {P : Reg → Prop} {r : Reg} {s t : State} (hP : P r) (h : HandlerFrame r s t) :
    WindowFrame P s t := by
  refine ⟨fun p hp => h.bytes p fun q hq => ?_, h.rest, fun a => h.boot ?_, fun a => h.chips ?_, fun a => h.ack1 ?_,
    fun a => h.ack2 ?_, fun a => ?_, fun a => h.status ?_, h.events⟩
  · by_contra hc
    have hc : s.params.regMap.offset q ≤ p ∧ p < s.params.regMap.offset q + s.params.regMap.bytes q := by omega
    have := hp q hc
    simp only [List.mem_cons, List.not_mem_nil, or_false] at hq
    rcases hq with rfl | rfl | rfl
    · exact this.1 hP
    · exact this.2.1 rfl
    · exact this.2.2 rfl
  · rintro rfl; exact a hP
  · intro hr; exact a r hr hP
  · rintro rfl; exact a hP
  · rintro rfl; exact a hP
  · have hr : ¬(triggersPortD r = true ∨ r = .icr) := fun hr => a r hr hP
    exact h.port (by simpa using fun e => hr (.inl e)) fun e => hr (.inr e)
  · have hr : ¬triggersStatusFlags r = true := fun hr => a r hr hP
    simpa using hr

theorem State.runHandlers_induct {Q : State → State → Prop} (hrefl : ∀ s, Q s s)
    (htrans : ∀ {s t u}, Q s t → Q t u → Q s u) {ts : List Touch}
    (h : ∀ s, ∀ t ∈ ts, Q s (s.writeHandler t.reg t.v t.be)) (s : State) : Q s (s.runHandlers ts) := by
  induction ts generalizing s with
  | nil => exact hrefl s
  | cons t ts ih =>
    exact htrans (h s t (by simp)) (ih (fun s u hu => h s u (by simp [hu])) _)

/-- The registers that the `n` bytes at offset `o` touch. -/
def SpanTouches (km : RegMap) (o n : Nat) (r : Reg) : Prop := ∃ i < n, km.regAt (spanOffset o i) = some r

/-- The handlers of a write change only what those of its touched registers may (R86, R114, R118). -/
theorem State.runHandlers_frame (s : State) (km : RegMap) (rf : Memory) (o n : Nat) (v : Word) :
    WindowFrame (SpanTouches km o n) s (s.runHandlers (splitWrite km rf o n v).touches) :=
  State.runHandlers_induct (WindowFrame.refl _) WindowFrame.trans (fun s t ht =>
    .of_handler (mem_touches_splitUpTo ht) (s.writeHandler_frame t.reg t.v t.be)) s

/-! What every handler keeps -/

theorem Memory.wf_writeHandler {s : State} (r : Reg) (v be : Word) (h : s.rf.wf = true) :
    (s.writeHandler r v be).rf.wf = true := by
  have hp : ∀ r, (s.plainWrite r v be).rf.wf = true := fun r => Memory.wf_setReg _ _ _ h
  refine State.writeHandler_cases (Q := fun _ t => t.rf.wf = true) s v be (fun _ _ => h) (fun r _ => hp r) ?_ ?_
    (Memory.wf_setReg _ _ _ h) (Memory.wf_evalPortD (hp _)) (Memory.wf_setReg _ _ _ (hp _)) ?_ ?_ ?_ ?_ ?_ ?_ r
  · intro r _
    unfold State.writePort
    dsimp only
    have : (if triggersStatusFlags r then (s.plainWrite r v be).recomputeStatusFlags
        else s.plainWrite r v be).rf.wf = true := by
      split <;> exact hp r
    split
    · exact Memory.wf_evalPortD this
    · exact this
  · intro r _
    unfold State.writeChipSelect State.endBootMode
    split <;> exact hp r
  · have key : ∀ (l : List SourceRow) (u : State), u.rf.wf = true →
        (l.foldl (fun s x => if s.edgeClearable x && (v &&& be).getLsbD x.bit.val then s.clearSource x else s) u).rf.wf
          = true := by
      intro l
      induction l with
      | nil => exact fun u hu => hu
      | cons x l ih =>
        intro u hu
        refine ih _ ?_
        dsimp only
        split
        · exact Memory.wf_clearSource x hu
        · exact hu
    exact key _ _ h
  · unfold State.writePllcr
    dsimp only
    split <;> exact hp _
  · unfold State.writePllfsr
    split
    · exact h
    · exact hp _
  · intro n
    rw [State.writeTstat_eq]
    have : (s.clearTstat n v be).rf.wf = true := by
      cases n <;> exact Memory.wf_setReg _ _ _ h
    split
    · exact this
    · exact Memory.wf_clearSource _ this
  · have h1 : (s.setReg .rtcisr (s.reg .rtcisr &&& ~~~(v &&& be))).rf.wf = true := Memory.wf_setReg _ _ _ h
    unfold State.writeRtcisr
    dsimp only
    generalize s.setReg .rtcisr (s.reg .rtcisr &&& ~~~(v &&& be)) = u at h1 ⊢
    have h2 : (if u.reg .rtcisr &&& s.params.regMap.rtcBits = 0 then u.clearSource (s.source .rtcSecond) else u).rf.wf = true := by
      split
      · exact Memory.wf_clearSource _ h1
      · exact h1
    generalize (if u.reg .rtcisr &&& s.params.regMap.rtcBits = 0 then u.clearSource (s.source .rtcSecond) else u) = w at h2 ⊢
    split
    · exact Memory.wf_clearSource _ h2
    · exact h2
  · rw [State.writeWatchdog_eq]
    have h1 : (s.restartWatchdog v be).rf.wf = true := Memory.wf_setReg _ _ _ (Memory.wf_setReg _ _ _ h)
    split
    · exact Memory.wf_clearSource _ (Memory.wf_setReg _ _ _ h1)
    · exact h1

/-- The write keeps the canonical form of the register file. -/
theorem Memory.wf_memWrite {s : State} (a : Word) (n : Nat) (v : Word) (hn : n ≤ 4096) (h : s.rf.wf = true) :
    (s.memWrite a n v).rf.wf = true := by
  unfold State.memWrite
  split
  · simp only [State.rf_checkInterrupts, State.writeWindow]
    have h0 := (splitUpTo_rf s.params.regMap s.rf (offsetOf a) n v n hn).2.2.2 h
    rw [← splitWrite_eq] at h0
    have := State.runHandlers_induct (Q := fun s t => s.rf.wf = true → t.rf.wf = true) (fun _ => id)
      (fun f g h => g (f h)) (ts := (splitWrite s.params.regMap s.rf (offsetOf a) n v).touches)
      (fun s t _ h => Memory.wf_writeHandler t.reg t.v t.be h)
    exact this _ h0
  · exact h

/-- IPR, IMR and ISR are as before, or ISR is what they give (R133). -/
def IsrKept (s t : State) : Prop :=
  (t.reg .ipr = s.reg .ipr ∧ t.reg .imr = s.reg .imr ∧ t.reg .isr = s.reg .isr) ∨
    t.reg .isr = t.reg .ipr &&& ~~~t.reg .imr

theorem IsrKept.refl (s : State) : IsrKept s s := .inl ⟨rfl, rfl, rfl⟩

theorem IsrKept.trans {s t u : State} (h : IsrKept s t) (g : IsrKept t u) : IsrKept s u := by
  rcases g with ⟨g1, g2, g3⟩ | g
  · rcases h with ⟨h1, h2, h3⟩ | h
    · exact .inl ⟨g1.trans h1, g2.trans h2, g3.trans h3⟩
    · exact .inr (by rw [g1, g2, g3, h])
  · exact .inr g

theorem IsrKept.consistent {s t : State} (h : IsrKept s t) (hs : s.reg .isr = s.reg .ipr &&& ~~~s.reg .imr) :
    t.reg .isr = t.reg .ipr &&& ~~~t.reg .imr := by
  rcases h with ⟨h1, h2, h3⟩ | h
  · rw [h1, h2, h3, hs]
  · exact h

theorem IsrKept.changed {s t : State} (h : IsrKept s t) (hs : t.reg .ipr ≠ s.reg .ipr ∨ t.reg .imr ≠ s.reg .imr) :
    t.reg .isr = t.reg .ipr &&& ~~~t.reg .imr := by
  rcases h with ⟨h1, h2, -⟩ | h
  · rcases hs with hs | hs
    · exact absurd h1 hs
    · exact absurd h2 hs
  · exact h

theorem IsrKept.of_same {s t : State} (h : t.rf = s.rf) (hp : t.params = s.params) : IsrKept s t := by
  simp [IsrKept, State.reg, h, hp]

theorem IsrKept.of_touchesOnly {rs : List Reg} {s t : State} (h : TouchesOnly rs s t) (h1 : .ipr ∉ rs) (h2 : .imr ∉ rs)
    (h3 : .isr ∉ rs) : IsrKept s t := .inl ⟨h.reg h1, h.reg h2, h.reg h3⟩

theorem State.plainWrite_isrKept (s : State) {r : Reg} (v be : Word) (h1 : r ≠ .ipr) (h2 : r ≠ .imr) (h3 : r ≠ .isr) :
    IsrKept s (s.plainWrite r v be) :=
  .of_touchesOnly (s.plainWrite_touchesOnly r v be) (by simp [h1.symm]) (by simp [h2.symm]) (by simp [h3.symm])

theorem State.evalPortD_isrKept (s u : State) : IsrKept s u.evalPortD := .inr u.evalPortD_spec.2.2.2.2.2.2

theorem State.writePort_isrKept (s : State) {r : Reg} (v be : Word) (h1 : r ≠ .ipr) (h2 : r ≠ .imr) (h3 : r ≠ .isr) :
    IsrKept s (s.writePort r v be) := by
  have h := s.plainWrite_isrKept v be h1 h2 h3
  unfold State.writePort
  dsimp only
  split
  · exact State.evalPortD_isrKept _ _
  · split
    · exact h.trans (.of_same rfl rfl)
    · exact h

/-- Every handler keeps ISR right (R30). -/
theorem State.writeHandler_isrKept (s : State) (r : Reg) (v be : Word) : IsrKept s (s.writeHandler r v be) := by
  refine State.writeHandler_cases (Q := fun _ t => IsrKept s t) s v be (fun _ _ => .refl s) ?_ ?_ ?_
    (.of_touchesOnly (TouchesOnly.setReg (rs := [.scr]) s _ (by simp)) (by decide) (by decide) (by decide))
    (State.evalPortD_isrKept _ _) (.inr (s.writeImr_spec v be).2.2) ?_ ?_ ?_ ?_ (s.writeRtcisr_spec v be).2.2.2.2 ?_ r
  · intro r hr
    exact s.plainWrite_isrKept v be (by rintro rfl; exact absurd hr (by decide))
      (by rintro rfl; exact absurd hr (by decide)) (by rintro rfl; exact absurd hr (by decide))
  · intro r hr
    exact s.writePort_isrKept v be (by rintro rfl; exact absurd hr (by decide))
      (by rintro rfl; exact absurd hr (by decide)) (by rintro rfl; exact absurd hr (by decide))
  · intro r hr
    have h : IsrKept s (s.plainWrite r v be) :=
      s.plainWrite_isrKept v be (by rintro rfl; exact absurd hr (by decide)) (by rintro rfl; exact absurd hr (by decide))
        (by rintro rfl; exact absurd hr (by decide))
    unfold State.writeChipSelect State.endBootMode
    split <;> exact h.trans (.of_same rfl rfl)
  · rcases (s.writeIsr_spec v be).2.2.2 with e | e
    · rw [e]
      exact .refl s
    · exact .inr e
  · have h : IsrKept s (s.plainWrite .pllcr v be) := s.plainWrite_isrKept v be (by decide) (by decide) (by decide)
    unfold State.writePllcr
    dsimp only
    split
    · exact h.trans (.of_same rfl rfl)
    · exact h
  · unfold State.writePllfsr
    split
    · exact .refl s
    · exact s.plainWrite_isrKept v be (by decide) (by decide) (by decide)
  · intro n
    rw [State.writeTstat_eq]
    split
    · refine IsrKept.trans (t := s.setReg (Reg.tstat n)
        (s.reg (Reg.tstat n) &&& ~~~s.params.regMap.tstatCleared n v be ((s.timerReadAck n).setWidth 32)))
        (.inl ⟨?_, ?_, ?_⟩) (.of_same (by cases n <;> rfl) (by cases n <;> rfl))
      all_goals exact State.reg_setReg_ne _ _ (by cases n <;> decide)
    · exact .inr (State.isr_clearSource _ _)
  · rw [State.writeWatchdog_eq]
    split
    · exact .inr (State.isr_clearSource _ _)
    · exact .of_touchesOnly (s.restartWatchdog_touchesOnly v be) (by decide) (by decide) (by decide)

end Sys2Proof.Machine
end

