-- ==== Sys2Proof/Laws/Derived.lean ====
section
/-! SUPPORT. What a handler does to the pending flags by owner (R130) and to the derived state (R270, R304), and what a read
returns and notes (R110). -/

namespace Sys2Proof.Machine

/-! Pending flags by owner -/

/-- The write handler of register `r` may change the pending flag of the owner's source (R28, R130). -/
def handlerOwns (r : Reg) : Owner → Bool
  | .external => false
  | .timer n => decide (r = Reg.tstat n)
  | .watchdog => decide (r = .watchdog)
  | .rtcSecond | .ladder => decide (r = .rtcisr)
  | .keyboard => triggersPortD r || decide (r = .icr)
  | .pin _ => triggersPortD r || decide (r = .icr) || decide (r = .isr)

/-- The parameters are kept, and every IPR bit that changes is that of the source of an owner satisfying `P`. -/
def PendingKept (P : Owner → Prop) (s t : State) : Prop :=
  t.params = s.params ∧
    ∀ b, t.bit .ipr b ≠ s.bit .ipr b → ∃ o, o ≠ .external ∧ (s.source o).bit.val = b ∧ P o

theorem PendingKept.refl (P : Owner → Prop) (s : State) : PendingKept P s s := ⟨rfl, fun _ h => absurd rfl h⟩

theorem PendingKept.trans {P : Owner → Prop} {s t u : State} (h : PendingKept P s t) (g : PendingKept P t u) :
    PendingKept P s u := by
  refine ⟨g.1.trans h.1, fun b hb => ?_⟩
  by_cases hc : t.bit .ipr b = s.bit .ipr b
  · obtain ⟨o, h1, h2, h3⟩ := g.2 b (by rw [hc]; exact hb)
    rw [State.source, h.1] at h2
    exact ⟨o, h1, h2, h3⟩
  · exact h.2 b hc

theorem PendingKept.mono {P P' : Owner → Prop} {s t : State} (h : PendingKept P s t) (hs : ∀ o, P o → P' o) :
    PendingKept P' s t := ⟨h.1, fun b hb => (h.2 b hb).imp fun o ho => ⟨ho.1, ho.2.1, hs o ho.2.2⟩⟩

theorem PendingKept.of_ipr {P : Owner → Prop} {s t : State} (hp : t.params = s.params) (h : t.reg .ipr = s.reg .ipr) :
    PendingKept P s t := ⟨hp, fun b hb => absurd (by simp only [State.bit, h]) hb⟩

theorem PendingKept.raise {P : Owner → Prop} (s : State) {o : Owner} (ho : o ≠ .external) (hx : P o) :
    PendingKept P s (s.raiseSource (s.source o)) := by
  refine ⟨(s.raiseSource_spec _).1.params, fun b hb => ?_⟩
  rw [State.bit_ipr_raiseSource] at hb
  by_cases h : b = (s.source o).bit.val
  · exact ⟨o, ho, h.symm, hx⟩
  · simp [h] at hb

theorem PendingKept.clear {P : Owner → Prop} (s : State) {o : Owner} (ho : o ≠ .external) (hx : P o) :
    PendingKept P s (s.clearSource (s.source o)) := by
  refine ⟨rfl, fun b hb => ?_⟩
  rw [State.bit_ipr_clearSource] at hb
  by_cases h : b = (s.source o).bit.val
  · exact ⟨o, ho, h.symm, hx⟩
  · simp [h] at hb

theorem State.evalPortD_pendingKept {P : Owner → Prop} (s : State) (h : ∀ i, P (.pin i)) (hk : P .keyboard) :
    PendingKept P s s.evalPortD := by
  obtain ⟨h0, -, -, h3, -⟩ := s.evalPortD_spec
  refine ⟨h0.params, fun b hb => ?_⟩
  by_cases h1 : ∀ i < 8, b ≠ (s.pinSource i).bit.val
  · by_cases h2 : b = (s.source .keyboard).bit.val
    · exact ⟨.keyboard, by decide, h2.symm, hk⟩
    · exact absurd (h3 b h1 h2) hb
  · simp only [not_forall, not_not] at h1
    obtain ⟨i, -, e⟩ := h1
    exact ⟨Owner.ofPin i, Owner.ofPin_ne i, e.symm, h _⟩

/-- A handler changes the pending flags of its own sources alone (R130). -/
theorem State.writeHandler_pendingKept (s : State) (r : Reg) (v be : Word) :
    PendingKept (fun o => handlerOwns r o = true) s (s.writeHandler r v be) := by
  have hpin : ∀ r i, triggersPortD r = true ∨ r = .icr → handlerOwns r (.pin i) = true := by
    intro r i hr
    simp only [handlerOwns]
    rcases hr with hr | hr <;> simp [hr]
  refine State.writeHandler_cases (Q := fun r t => PendingKept (fun o => handlerOwns r o = true) s t) s v be
    (fun _ _ => .refl _ s) ?_ ?_ ?_ (.of_ipr rfl (State.reg_setReg_ne _ _ (by decide))) ?_
    (.of_ipr rfl (s.writeImr_spec v be).2.1) ?_ ?_ ?_ ?_ ?_ ?_ r
  · intro r hr
    exact .of_ipr rfl (State.reg_setReg_ne _ _ (by rintro rfl; exact absurd hr (by decide)))
  · intro r hr
    have h1 : PendingKept (fun o => handlerOwns r o = true) s
        (if triggersStatusFlags r then (s.plainWrite r v be).recomputeStatusFlags else s.plainWrite r v be) := by
      have : (s.plainWrite r v be).reg .ipr = s.reg .ipr :=
        State.reg_setReg_ne _ _ (by rintro rfl; exact absurd hr (by decide))
      split <;> exact .of_ipr rfl this
    unfold State.writePort
    dsimp only
    split
    · rename_i ht
      exact h1.trans (State.evalPortD_pendingKept _ (fun i => hpin r i (.inl ht)) (by simp [handlerOwns, ht]))
    · exact h1
  · intro r hr
    have : (s.plainWrite r v be).reg .ipr = s.reg .ipr :=
      State.reg_setReg_ne _ _ (by rintro rfl; exact absurd hr (by decide))
    unfold State.writeChipSelect State.endBootMode
    split <;> exact .of_ipr rfl this
  · have e : PendingKept (fun o => handlerOwns .icr o = true) s (s.plainWrite .icr v be) :=
      .of_ipr rfl (State.reg_setReg_ne _ _ (by decide))
    exact e.trans (State.evalPortD_pendingKept _ (fun i => hpin _ i (.inr rfl)) (by decide))
  · refine ⟨(s.writeIsr_spec v be).1.params, fun b hb => ?_⟩
    have h := (s.writeIsr_spec v be).2.2.1 b
    by_cases hs : s.bit .ipr b = true
    · have : ¬(s.writeIsr v be).bit .ipr b = true := fun e => hb (by rw [e, hs])
      rw [h] at this
      simp only [hs, true_and, not_not] at this
      obtain ⟨x, hm, hx, he, -⟩ := this
      unfold State.edgeClearable at he
      split at he
      · rename_i i ho
        have hne : x.owner ≠ .external := by rw [ho]; simp
        exact ⟨x.owner, hne, by rw [s.source_eq hm hne]; exact hx, by rw [ho]; simp [handlerOwns]⟩
      · exact absurd he (by decide)
    · have : ¬(s.writeIsr v be).bit .ipr b = true := fun e => hs (h.1 e).1
      exact absurd (by rw [Bool.eq_false_iff.2 hs, Bool.eq_false_iff.2 this]) hb
  · have : (s.plainWrite .pllcr v be).reg .ipr = s.reg .ipr := State.reg_setReg_ne _ _ (by decide)
    unfold State.writePllcr
    dsimp only
    split <;> exact .of_ipr rfl this
  · unfold State.writePllfsr
    split
    · exact .refl _ s
    · exact .of_ipr rfl (State.reg_setReg_ne _ _ (by decide))
  · intro n
    have : (s.clearTstat n v be).reg .ipr = s.reg .ipr := by
      cases n <;> exact State.reg_setReg_ne _ _ (by decide)
    rw [State.writeTstat_eq]
    have hp : (s.clearTstat n v be).params = s.params := by cases n <;> rfl
    have hs : s.source (.timer n) = (s.clearTstat n v be).source (.timer n) := by cases n <;> rfl
    split
    · exact .of_ipr hp this
    · rw [hs]
      exact (PendingKept.of_ipr hp this).trans (.clear _ (by simp) (by simp [handlerOwns]))
  · refine ⟨(s.writeRtcisr_spec v be).1.params, fun b hb => ?_⟩
    rw [(s.writeRtcisr_spec v be).2.2.2.1 b] at hb
    by_cases h1 : b = (s.source .rtcSecond).bit.val
    · exact ⟨.rtcSecond, by decide, h1.symm, by decide⟩
    · by_cases h2 : b = (s.source .ladder).bit.val
      · exact ⟨.ladder, by decide, h2.symm, by decide⟩
      · simp [h1, h2] at hb
  · have h0 : (s.restartWatchdog v be).reg .ipr = s.reg .ipr :=
      (s.restartWatchdog_touchesOnly v be).reg (by decide)
    rw [State.writeWatchdog_eq]
    split
    · obtain ⟨u, hu⟩ : ∃ u, u = (s.restartWatchdog v be).setField Field.wdtIntf 0 := ⟨_, rfl⟩
      have hr : u.reg .ipr = s.reg .ipr := by
        rw [hu]
        exact (State.reg_setReg_ne _ _ (by decide)).trans h0
      have hp : u.params = s.params := by rw [hu]; rfl
      have hs : s.source .watchdog = u.source .watchdog := by rw [State.source, ← hp, State.source]
      rw [← hu, hs]
      exact (PendingKept.of_ipr hp hr).trans (.clear u (by decide) rfl)
    · exact .of_ipr rfl h0

/-! Derived state -/

theorem Memory.field_congr {k : RegMap} {m m' : Memory} {f : Field} (h : m'.reg k f.reg = m.reg k f.reg) :
    m'.field k f = m.field k f := by rw [Memory.field, h, Memory.field]

theorem Memory.flag_congr {k : RegMap} {m m' : Memory} {f : Field} (h : m'.reg k f.reg = m.reg k f.reg) :
    m'.flag k f = m.flag k f := by rw [Memory.flag, Memory.field_congr h, Memory.flag]

/-- The bank descriptors depend on the chip-select registers and boot mode alone, under fixed parameters (R270). -/
theorem describeChips_congr {p : Params} {m m' : Memory}
    (h : ∀ r ∈ Reg.chipSelectRegs, m'.reg p.regMap r = m.reg p.regMap r) (b : Bool) :
    describeChips p m' b = describeChips p m b := by
  have hcs : ∀ b, m'.reg p.regMap (Reg.cs b) = m.reg p.regMap (Reg.cs b) := fun b => h _ (by cases b <;> decide)
  have hgb : ∀ b, m'.reg p.regMap (Reg.csgb b) = m.reg p.regMap (Reg.csgb b) := fun b => h _ (by cases b <;> decide)
  have h2 := h .csctrl2 (by decide)
  have hfield : ∀ f : Field, f.reg ∈ Reg.chipSelectRegs → m'.field p.regMap f = m.field p.regMap f :=
    fun f hf => Memory.field_congr (h _ hf)
  have hflag : ∀ f : Field, f.reg ∈ Reg.chipSelectRegs → m'.flag p.regMap f = m.flag p.regMap f :=
    fun f hf => Memory.flag_congr (h _ hf)
  have hbankReg : ∀ b, Reg.cs b ∈ Reg.chipSelectRegs := fun b => by cases b <;> decide
  have hunit : ∀ b, csUnit p.regMap m' b = csUnit p.regMap m b := by
    intro b
    unfold csUnit ramAlternate
    rw [hflag .ram8m (by decide), hflag .ramAlt (by decide)]
  have hbase : ∀ b, csBase p m' b = csBase p m b := by
    intro b
    unfold csBase
    rw [hgb, hfield (.ugba b) (by simp [Field.reg, Reg.chipSelectRegs]), hflag .ugen (by decide), h .csugba (by decide)]
  have hsize : ∀ b, csSize p.regMap m' b = csSize p.regMap m b := by
    intro b
    simp only [csSize, hunit, hfield (.csSiz b) (hbankReg b)]
  have hunp : ∀ b, csUnprotected p.regMap m' b = csUnprotected p.regMap m b := by
    intro b
    unfold csUnprotected
    rw [hcs, h2, hsize]
  have hbank : ∀ b, describeBank p m' b = describeBank p m b := by
    intro b
    unfold describeBank
    rw [hflag (.csEn b) (hbankReg b), hflag (.csRo b) (hbankReg b), hbase, hsize, hunp, hflag (.csSop b) (hbankReg b),
      hflag (.csRdop b) (hbankReg b), hflag .pgate (by decide)]
  simp only [describeChips, hbank]

theorem describeStatus_congr {k : RegMap} {m m' : Memory}
    (h : ∀ r, triggersStatusFlags r = true → m'.reg k r = m.reg k r) : describeStatus k m' = describeStatus k m := by
  simp only [describeStatus, portLatches, h .pbdir rfl, h .pbsel rfl, h .pbdata rfl, h .pgdir rfl, h .pgsel rfl,
    h .pgdata rfl, h .pkdir rfl, h .pksel rfl, h .pkdata rfl]

theorem State.writeHandler_chipsCurrent (s : State) (r : Reg) (v be : Word)
    (h : s.chips = describeChips s.params s.rf s.bootMode) :
    (s.writeHandler r v be).chips =
      describeChips (s.writeHandler r v be).params (s.writeHandler r v be).rf (s.writeHandler r v be).bootMode := by
  by_cases hr : r ∈ Reg.chipSelectRegs
  · have e : s.writeHandler r v be = s.writeChipSelect r v be := by
      simp only [Reg.chipSelectRegs, List.mem_cons, List.not_mem_nil, or_false] at hr
      rcases hr with rfl | rfl | rfl | rfl | rfl | rfl | rfl | rfl | rfl | rfl | rfl <;> rfl
    rw [e]
    rfl
  · have f := s.writeHandler_frame r v be
    rw [f.chips hr, f.boot (by rintro rfl; exact hr (by decide)), f.params, h]
    refine (describeChips_congr (fun q hq => f.bytes.reg ?_) _).symm
    simp only [List.mem_cons, List.not_mem_nil, or_false, not_or]
    exact ⟨by rintro rfl; exact hr hq, by rintro rfl; exact absurd hq (by decide), by rintro rfl; exact absurd hq (by decide)⟩

theorem State.writeHandler_statusCurrent (s : State) (r : Reg) (v be : Word) 
    (h : s.statusFlags = describeStatus s.params.regMap s.rf) :
    (s.writeHandler r v be).statusFlags =
      describeStatus (s.writeHandler r v be).params.regMap (s.writeHandler r v be).rf := by
  by_cases hr : triggersStatusFlags r = true
  · have e : s.writeHandler r v be = s.writePort r v be := by cases r <;> first | rfl | exact absurd hr (by decide)
    have hc : ∀ u : State, describeStatus u.evalPortD.params.regMap u.evalPortD.rf = describeStatus u.params.regMap u.rf := by
      intro u
      rw [u.evalPortD_spec.1.params]
      refine describeStatus_congr fun q hq => u.evalPortD_spec.1.1.reg ?_
      simp only [List.mem_cons, List.not_mem_nil, or_false, not_or]
      exact ⟨by rintro rfl; exact absurd hq (by decide), by rintro rfl; exact absurd hq (by decide)⟩
    have hs : ∀ u : State, u.evalPortD.statusFlags = u.statusFlags := fun u => by rw [u.evalPortD_spec.1.2]
    have e2 : s.writePort r v be = if triggersPortD r then (s.plainWrite r v be).recomputeStatusFlags.evalPortD
        else (s.plainWrite r v be).recomputeStatusFlags := by
      simp only [State.writePort, hr, if_true]
    rw [e, e2]
    split
    · rw [hs, hc]
      rfl
    · rfl
  · have f := s.writeHandler_frame r v be
    rw [f.status (by simpa using hr), f.params, h]
    refine (describeStatus_congr fun q hq => f.bytes.reg ?_).symm
    simp only [List.mem_cons, List.not_mem_nil, or_false, not_or]
    exact ⟨by rintro rfl; exact hr hq, by rintro rfl; exact absurd hq (by decide), by rintro rfl; exact absurd hq (by decide)⟩

/-! Reads -/

/-- Byte `p` of a register that is read without synthesis is the stored byte (R23, R110). -/
theorem State.readByteAt_stored (s : State) {p : Nat} (h1 : s.params.regMap.regAt p ≠ some .pddata)
    (h2 : s.params.regMap.regAt p ≠ some .pkdata) : s.readByteAt p = s.rf.read p := by
  unfold State.readByteAt
  split
  · rfl
  · rename_i r hr
    obtain ⟨g1, g2⟩ := (RegMap.regAt_eq_some _).1 hr
    have hv : s.readValue r = s.reg r := by
      cases r <;> first
        | rfl
        | exact absurd hr h1
        | exact absurd hr h2
    have := Memory.readSpan_byte s.rf (s.params.regMap.offset r) (s.params.regMap.bytes r)
      (p - s.params.regMap.offset r) (by omega) (s.params.regMap.bytes_le r)
    have hp : s.params.regMap.offset r + (p - s.params.regMap.offset r) = p := by omega
    rw [hp] at this
    rw [hv, ← this]
    rfl

/-- A register of one byte in its class has one byte. -/
theorem RegMap.bytes_one (k : RegMap) {r : Reg} (h : r.classBytes = 1) : k.bytes r = 1 := by
  have h1 := k.size_spec r
  rw [h] at h1
  omega

/-- The byte of a one-byte register that is read (R110, R302, R303). -/
theorem State.readByteAt_one (s : State) {r : Reg} (h : r.classBytes = 1) :
    s.readByteAt (s.params.regMap.offset r) = (s.readValue r).setWidth 8 := by
  have hb := s.params.regMap.bytes_one h
  have hr : s.params.regMap.regAt (s.params.regMap.offset r) = some r :=
    (RegMap.regAt_eq_some _).2 ⟨Nat.le_refl _, by omega⟩
  simp only [State.readByteAt, hr, RegTable.laneShift, hb]
  simp

theorem State.readByteAt_pddata (s : State) : s.readByteAt (s.params.regMap.offset .pddata) = s.readPddata := by
  rw [s.readByteAt_one rfl]
  simp [State.readValue]

theorem State.readByteAt_pkdata (s : State) : s.readByteAt (s.params.regMap.offset .pkdata) = s.readPkdata := by
  rw [s.readByteAt_one rfl]
  simp [State.readValue]

/-- Bit by bit, the value of a read of `n` bytes: bit `k` is bit `k mod 8` of byte `n - 1 - k / 8` (R72, R110). -/
theorem State.getLsbD_readWindow (s : State) (o n k : Nat) (hn : n ≤ 4) (hk : k < 8 * n) :
    (s.readWindow o n).getLsbD k = (s.readByteAt (spanOffset o (n - 1 - k / 8))).getLsbD (k % 8) := by
  have key : ∀ m, m ≤ 4 → ∀ k < 8 * m,
      (s.readWindow o m).getLsbD k = (s.readByteAt (spanOffset o (m - 1 - k / 8))).getLsbD (k % 8) := by
    intro m
    induction m with
    | zero => intro _ k hk; omega
    | succ m ih =>
      intro hm k hk
      have e : s.readWindow o (m + 1) =
          (s.readWindow o m <<< 8) ||| (s.readByteAt (spanOffset o m)).setWidth 32 := by
        simp [State.readWindow, List.range_succ, List.foldl_append]
      rw [e, BitVec.getLsbD_or, BitVec.getLsbD_shiftLeft, BitVec.getLsbD_setWidth]
      have hk32 : k < 32 := by omega
      by_cases h8 : k < 8
      · have h1 : m + 1 - 1 - k / 8 = m := by omega
        have h2 : k % 8 = k := by omega
        rw [h1, h2, decide_eq_true hk32, decide_eq_true h8]
        simp
      · have h1 : (s.readByteAt (spanOffset o m)).getLsbD k = false := BitVec.getLsbD_of_ge _ _ (by omega)
        have h2 : m + 1 - 1 - k / 8 = m - 1 - (k - 8) / 8 := by omega
        have h3 : (k - 8) % 8 = k % 8 := by omega
        rw [h1, ih (by omega) (k - 8) (by omega), h2, h3]
        simp [h8, hk32]
  exact key n hn k hk

/-- A read notes the status bits of each TSTATn it touches, and changes nothing else (R80, R110, R196). -/
theorem State.noteWindow_spec (s : State) (o n : Nat) :
    (SpanTouches s.params.regMap o n .tstat1 → (s.noteWindow o n).timerReadAck1 = (s.reg .tstat1).setWidth 16) ∧
    (¬SpanTouches s.params.regMap o n .tstat1 → (s.noteWindow o n).timerReadAck1 = s.timerReadAck1) ∧
    (SpanTouches s.params.regMap o n .tstat2 → (s.noteWindow o n).timerReadAck2 = (s.reg .tstat2).setWidth 16) ∧
    (¬SpanTouches s.params.regMap o n .tstat2 → (s.noteWindow o n).timerReadAck2 = s.timerReadAck2) ∧
    s.noteWindow o n = { s with
      timerReadAck1 := (s.noteWindow o n).timerReadAck1, timerReadAck2 := (s.noteWindow o n).timerReadAck2 } := by
  induction n with
  | zero =>
    have h : ∀ r, ¬SpanTouches s.params.regMap o 0 r := fun r ⟨i, hi, _⟩ => absurd hi (by omega)
    exact ⟨fun g => absurd g (h _), fun _ => rfl, fun g => absurd g (h _), fun _ => rfl, rfl⟩
  | succ n ih =>
    obtain ⟨h1, h2, h3, h4, h5⟩ := ih
    have e : s.noteWindow o (n + 1) = (s.noteWindow o n).noteReadAt (spanOffset o n) := by
      simp [State.noteWindow, List.range_succ, List.foldl_append]
    have hst : ∀ r, SpanTouches s.params.regMap o (n + 1) r ↔ SpanTouches s.params.regMap o n r ∨ s.params.regMap.regAt (spanOffset o n) = some r := by
      intro r
      constructor
      · rintro ⟨i, hi, g⟩
        by_cases hin : i = n
        · exact .inr (hin ▸ g)
        · exact .inl ⟨i, by omega, g⟩
      · rintro (⟨i, hi, g⟩ | g)
        · exact ⟨i, by omega, g⟩
        · exact ⟨n, by omega, g⟩
    generalize s.noteWindow o n = t at *
    have hr : ∀ q, t.reg q = s.reg q := fun q => by rw [h5]; rfl
    have hp : t.params = s.params := by rw [h5]
    rw [e]
    simp only [hst]
    unfold State.noteReadAt
    rw [hp]
    cases hc : s.params.regMap.regAt (spanOffset o n) with
    | none => simpa using ⟨h1, h2, h3, h4, h5⟩
    | some r =>
      simp only [Option.some.injEq]
      by_cases r1 : r = .tstat1
      · subst r1
        have hne : Reg.tstat1 ≠ .tstat2 := by decide
        refine ⟨fun _ => ?_, fun g => absurd (.inr rfl) g, ?_, ?_, ?_⟩
        · simp only [State.noteRead, hr]
        · simp only [hne, or_false]
          exact h3
        · simp only [hne, or_false]
          exact h4
        · rw [h5]
          rfl
      · by_cases r2 : r = .tstat2
        · subst r2
          have hne : Reg.tstat2 ≠ .tstat1 := by decide
          refine ⟨?_, ?_, fun _ => ?_, fun g => absurd (.inr rfl) g, ?_⟩
          · simp only [hne, or_false]
            exact h1
          · simp only [hne, or_false]
            exact h2
          · simp only [State.noteRead, hr]
          · rw [h5]
            rfl
        · have en : t.noteRead r = t := by
            cases r <;> first | rfl | exact absurd rfl r1 | exact absurd rfl r2
          rw [en]
          simpa [r1, r2] using ⟨h1, h2, h3, h4, h5⟩

end Sys2Proof.Machine
end

