-- ==== Sys2Proof/Laws/Alike.lean ====
section
/-! SUPPORT. The write handlers read registers and the internal state, and nothing else: on states that differ only in bytes
of no register, in `cpuIpl` and in the events so far, they do the same and emit the same. -/

namespace Sys2Proof.Machine

/-- The state without what no write handler reads. -/
def State.core (s : State) : State := { s with rf := [], cpuIpl := 0, events := [] }

/-- Alike to every write handler; `es` and `et` are the events before the handlers began. -/
structure Alike (es et : List Event) (s t : State) : Prop where
  reg : ∀ r, s.reg r = t.reg r
  core : s.core = t.core
  events : ∃ e, s.events = es ++ e ∧ t.events = et ++ e

variable {es et : List Event} {s t : State}

theorem Alike.bit (h : Alike es et s t) (r : Reg) (n : Nat) : s.bit r n = t.bit r n :=
  congrArg (fun w : Word => w.getLsbD n) (h.reg r)

theorem Alike.params (h : Alike es et s t) : s.params = t.params := by
  have e := congrArg State.params h.core
  exact e

theorem Alike.source (h : Alike es et s t) (o : Owner) : s.source o = t.source o := by
  rw [State.source, h.params, State.source]

theorem Alike.field (h : Alike es et s t) (f : Field) : s.field f = t.field f := State.field_congr h.params (h.reg f.reg)

theorem Alike.flag (h : Alike es et s t) (f : Field) : s.flag f = t.flag f := State.flag_congr (h.field f)

theorem Alike.wakeCountdown (h : Alike es et s t) : s.wakeCountdown = t.wakeCountdown := by
  have e := congrArg State.wakeCountdown h.core
  exact e

theorem Alike.bootMode (h : Alike es et s t) : s.bootMode = t.bootMode := by
  have e := congrArg State.bootMode h.core
  exact e

theorem Alike.inputs (h : Alike es et s t) : s.inputs = t.inputs := by
  have e := congrArg State.inputs h.core
  exact e

theorem Alike.portDPrevActive (h : Alike es et s t) : s.portDPrevActive = t.portDPrevActive := by
  have e := congrArg State.portDPrevActive h.core
  exact e

theorem Alike.timerReadAck (h : Alike es et s t) (n : TimerId) : s.timerReadAck n = t.timerReadAck n := by
  have e1 := congrArg State.timerReadAck1 h.core
  have e2 := congrArg State.timerReadAck2 h.core
  cases n
  · exact e1
  · exact e2

/-! The shared operations -/

theorem Alike.setReg (h : Alike es et s t) (r : Reg) (v : Word) : Alike es et (s.setReg r v) (t.setReg r v) :=
  ⟨fun q => by
    rw [State.reg_setReg, State.reg_setReg, h.params, h.reg], by
    have e := h.core
    exact e, h.events⟩

/-- An update that neither the register file nor the events see. -/
theorem Alike.update (h : Alike es et s t) (f : State → State) (hf : ∀ u, (f u).rf = u.rf)
    (hp : ∀ u, (f u).params = u.params) (he : ∀ u, (f u).events = u.events) (hc : ∀ u, (f u).core = f u.core) : Alike es et (f s) (f t) :=
  ⟨fun r => by
    rw [State.reg, State.reg, hf, hf, hp, hp]
    exact h.reg r,
  by rw [hc, hc, h.core], by rw [he, he]; exact h.events⟩

theorem Alike.ite {s' t' : State} {c : Prop} [Decidable c] (h : Alike es et s t) (h' : Alike es et s' t') :
    Alike es et (if c then s else s') (if c then t else t') := by
  split
  · exact h
  · exact h'

theorem Alike.emit (h : Alike es et s t) (e : Event) : Alike es et (s.emit e) (t.emit e) :=
  ⟨h.reg, h.core, by
    obtain ⟨l, h1, h2⟩ := h.events
    exact ⟨l ++ [e], by simp [State.emit, h1], by simp [State.emit, h2]⟩⟩

theorem Alike.recomputeIsr (h : Alike es et s t) : Alike es et s.recomputeIsr t.recomputeIsr := by
  unfold State.recomputeIsr
  rw [h.reg, h.reg]
  exact h.setReg _ _

theorem Alike.pllWakeIfOff (h : Alike es et s t) : Alike es et s.pllWakeIfOff t.pllWakeIfOff := by
  unfold State.pllWakeIfOff
  rw [h.flag, h.wakeCountdown, h.field]
  split
  · exact h.update (fun u => { u with wakeCountdown := wakeTicks (t.field Field.wksel) }) (fun _ => rfl) (fun _ => rfl) (fun _ => rfl)
      (fun _ => rfl)
  · exact h

theorem Alike.clearSource (h : Alike es et s t) (x : SourceRow) : Alike es et (s.clearSource x) (t.clearSource x) := by
  unfold State.clearSource
  rw [h.reg]
  exact (h.setReg _ _).recomputeIsr

theorem Alike.wakeCapable (h : Alike es et s t) (x : SourceRow) : s.wakeCapable x = t.wakeCapable x := by
  unfold State.wakeCapable
  split <;> first | rfl | exact h.bit _ _

theorem Alike.raiseSource (h : Alike es et s t) (x : SourceRow) : Alike es et (s.raiseSource x) (t.raiseSource x) := by
  unfold State.raiseSource
  rw [h.reg]
  have g := (h.setReg .ipr (t.reg .ipr ||| x.mask)).recomputeIsr
  dsimp only
  rw [g.wakeCapable, State.masked, State.masked, g.bit]
  split
  · exact g.pllWakeIfOff
  · exact g

theorem Alike.maskedWrite (h : Alike es et s t) (r : Reg) (mask v be : Word) :
    Alike es et (s.maskedWrite r mask v be) (t.maskedWrite r mask v be) := by
  unfold State.maskedWrite
  rw [h.reg]
  exact h.setReg _ _

theorem Alike.plainWrite (h : Alike es et s t) (r : Reg) (v be : Word) :
    Alike es et (s.plainWrite r v be) (t.plainWrite r v be) := by
  unfold State.plainWrite
  rw [h.params]
  exact h.maskedWrite _ _ _ _

theorem Alike.setField (h : Alike es et s t) (f : Field) (x : Nat) : Alike es et (s.setField f x) (t.setField f x) := by
  unfold State.setField
  rw [h.reg, h.params]
  exact h.setReg _ _

theorem Alike.recomputeChips (h : Alike es et s t) : Alike es et s.recomputeChips t.recomputeChips := by
  have e : describeChips s.params s.rf s.bootMode = describeChips t.params t.rf t.bootMode := by
    have hr : ∀ r, s.rf.reg t.params.regMap r = t.rf.reg t.params.regMap r := fun r => by
      have e := h.reg r
      rw [State.reg, h.params] at e
      exact e
    rw [h.params, describeChips_congr (fun r _ => hr r), h.bootMode]
  unfold State.recomputeChips
  rw [e]
  exact (h.update (fun u => { u with chips := describeChips t.params t.rf t.bootMode }) (fun _ => rfl) (fun _ => rfl) (fun _ => rfl)
    (fun _ => rfl)).emit _

theorem Alike.recomputeStatusFlags (h : Alike es et s t) :
    Alike es et s.recomputeStatusFlags t.recomputeStatusFlags := by
  have hr : ∀ r, s.rf.reg t.params.regMap r = t.rf.reg t.params.regMap r := fun r => by
    have e := h.reg r
    rw [State.reg, h.params] at e
    exact e
  have e : describeStatus s.params.regMap s.rf = describeStatus t.params.regMap t.rf := by
    rw [h.params, describeStatus_congr (fun r _ => hr r)]
  unfold State.recomputeStatusFlags
  rw [e]
  exact h.update (fun u => { u with statusFlags := describeStatus t.params.regMap t.rf }) (fun _ => rfl) (fun _ => rfl) (fun _ => rfl) (fun _ => rfl)

theorem Alike.setTimerReadAck (h : Alike es et s t) (n : TimerId) (x : Half) :
    Alike es et (s.setTimerReadAck n x) (t.setTimerReadAck n x) :=
  h.update (fun u => u.setTimerReadAck n x) (by simp) (by simp) (by simp) (fun _ => by cases n <;> rfl)

/-! Port D -/

theorem Alike.evalPin (h : Alike es et s t) (i : Nat) : Alike es et (s.evalPin i) (t.evalPin i) := by
  have ha : s.pinActive i = t.pinActive i := by
    simp only [State.pinActive, State.pinPolarity, h.bit, h.flag, h.inputs, h.params]
  have he : s.pinEdge i = t.pinEdge i := by simp only [State.pinEdge, h.bit, h.flag]
  unfold State.evalPin
  dsimp only
  rw [ha, he, h.portDPrevActive, State.pinSource, State.pinSource, h.source]
  refine Alike.update ?_ (fun u => u.setPrevActive i (t.pinActive i)) (fun _ => rfl) (fun _ => rfl) (fun _ => rfl) (fun _ => rfl)
  split
  · split
    · exact h.raiseSource _
    · exact h
  · split
    · exact h.raiseSource _
    · exact h.clearSource _

theorem Alike.evalPortD (h : Alike es et s t) : Alike es et s.evalPortD t.evalPortD := by
  have key : ∀ (l : List Nat) {s t : State}, Alike es et s t →
      Alike es et (l.foldl State.evalPin s) (l.foldl State.evalPin t) := by
    intro l
    induction l with
    | nil => exact fun h => h
    | cons i l ih => exact fun h => ih (h.evalPin i)
  have g := key (List.range 8) h
  have hk : ((List.range 8).foldl State.evalPin s).keyboardLow = ((List.range 8).foldl State.evalPin t).keyboardLow := by
    simp only [State.keyboardLow, State.pinD, State.reg8, g.reg, g.inputs, g.params]
  unfold State.evalPortD State.evalKeyboard
  rw [hk, g.source]
  split
  · exact g.raiseSource _
  · exact g.clearSource _

/-! The handlers -/

theorem Alike.writePort (h : Alike es et s t) (r : Reg) (v be : Word) :
    Alike es et (s.writePort r v be) (t.writePort r v be) := by
  unfold State.writePort
  dsimp only
  have g := h.plainWrite r v be
  have g' : Alike es et (if triggersStatusFlags r then (s.plainWrite r v be).recomputeStatusFlags else s.plainWrite r v be)
      (if triggersStatusFlags r then (t.plainWrite r v be).recomputeStatusFlags else t.plainWrite r v be) := by
    split
    · exact g.recomputeStatusFlags
    · exact g
  split
  · exact g'.evalPortD
  · exact g'

theorem Alike.writeIsr (h : Alike es et s t) (v be : Word) : Alike es et (s.writeIsr v be) (t.writeIsr v be) := by
  have key : ∀ (l : List SourceRow) {s t : State}, Alike es et s t →
      Alike es et
        (l.foldl (fun s x => if s.edgeClearable x && (v &&& be).getLsbD x.bit.val then s.clearSource x else s) s)
        (l.foldl (fun s x => if s.edgeClearable x && (v &&& be).getLsbD x.bit.val then s.clearSource x else s) t) := by
    intro l
    induction l with
    | nil => exact fun h => h
    | cons x l ih =>
      intro s t h
      have he : s.edgeClearable x = t.edgeClearable x := by
        unfold State.edgeClearable
        split
        · simp only [State.pinEdge, h.bit, h.flag]
        · rfl
      rw [List.foldl_cons, List.foldl_cons, he]
      refine ih ?_
      split
      · exact h.clearSource x
      · exact h
  unfold State.writeIsr
  rw [h.params]
  exact key _ h

theorem Alike.writeTstat (h : Alike es et s t) (n : TimerId) (v be : Word) :
    Alike es et (s.writeTstat n v be) (t.writeTstat n v be) := by
  unfold State.writeTstat
  dsimp only
  rw [h.timerReadAck, h.reg, h.params]
  generalize t.params.regMap.tstatCleared n v be _ = clr
  have g := h.setReg (Reg.tstat n) (t.reg (Reg.tstat n) &&& ~~~clr)
  rw [g.timerReadAck]
  have g := g.setTimerReadAck n
    ((t.setReg (Reg.tstat n) (t.reg (Reg.tstat n) &&& ~~~clr)).timerReadAck n &&& ~~~(clr.setWidth 16))
  rw [g.flag, g.source]
  split
  · exact g
  · exact g.clearSource _

theorem Alike.writeRtcisr (h : Alike es et s t) (v be : Word) :
    Alike es et (s.writeRtcisr v be) (t.writeRtcisr v be) := by
  unfold State.writeRtcisr
  dsimp only
  rw [h.reg, h.params, h.source, h.source]
  have g := h.setReg .rtcisr (t.reg .rtcisr &&& ~~~(v &&& be))
  generalize s.setReg .rtcisr (t.reg .rtcisr &&& ~~~(v &&& be)) = s' at g ⊢
  generalize t.setReg .rtcisr (t.reg .rtcisr &&& ~~~(v &&& be)) = t' at g ⊢
  have g' : Alike es et
      (if s'.reg .rtcisr &&& t.params.regMap.rtcBits = 0 then s'.clearSource (t.source .rtcSecond) else s')
      (if t'.reg .rtcisr &&& t.params.regMap.rtcBits = 0 then t'.clearSource (t.source .rtcSecond) else t') := by
    rw [g.reg]
    exact .ite (g.clearSource _) g
  rw [g'.reg]
  exact .ite (g'.clearSource _) g'

theorem Alike.writeWatchdog (h : Alike es et s t) (v be : Word) :
    Alike es et (s.writeWatchdog v be) (t.writeWatchdog v be) := by
  rw [State.writeWatchdog_eq, State.writeWatchdog_eq, h.params, h.source]
  have g : Alike es et (s.restartWatchdog v be) (t.restartWatchdog v be) := by
    unfold State.restartWatchdog
    rw [h.params]
    exact (h.maskedWrite _ _ _ _).setField _ 0
  exact .ite ((g.setField _ _).clearSource _) g

theorem Alike.writeChipSelect (h : Alike es et s t) (r : Reg) (v be : Word) :
    Alike es et (s.writeChipSelect r v be) (t.writeChipSelect r v be) := by
  have g := h.plainWrite r v be
  refine Alike.recomputeChips ?_
  unfold State.endBootMode
  rw [g.flag]
  split
  · exact g.update (fun u => { u with bootMode := false }) (fun _ => rfl) (fun _ => rfl) (fun _ => rfl) (fun _ => rfl)
  · exact g

theorem Alike.writePllcr (h : Alike es et s t) (v be : Word) :
    Alike es et (s.writePllcr v be) (t.writePllcr v be) := by
  have g := h.plainWrite .pllcr v be
  unfold State.writePllcr
  dsimp only
  rw [g.params]
  split
  · exact g.emit _
  · exact g

/-- Every handler does the same on states that are alike to it, and emits the same (R118). -/
theorem Alike.writeHandler (h : Alike es et s t) (r : Reg) (v be : Word) :
    Alike es et (s.writeHandler r v be) (t.writeHandler r v be) := by
  have hscr : Alike es et (s.writeScr v be) (t.writeScr v be) := by
    unfold State.writeScr
    rw [h.reg, h.params]
    exact h.setReg _ _
  have hfsr : Alike es et (s.writePllfsr v be) (t.writePllfsr v be) := by
    unfold State.writePllfsr
    rw [h.flag]
    split
    · exact h
    · exact h.plainWrite _ _ _
  cases r <;> unfold State.writeHandler <;>
    first
    | exact h
    | exact hscr
    | exact hfsr
    | exact h.plainWrite _ _ _
    | exact h.writePort _ _ _
    | exact h.writeChipSelect _ _ _
    | exact h.writeTstat _ _ _
    | exact h.writeIsr _ _
    | exact h.writeRtcisr _ _
    | exact h.writeWatchdog _ _
    | exact h.writePllcr _ _
    | exact (h.plainWrite _ _ _).recomputeIsr
    | exact (h.plainWrite _ _ _).evalPortD

theorem Alike.runHandlers (h : Alike es et s t) (ts : List Touch) :
    Alike es et (s.runHandlers ts) (t.runHandlers ts) := by
  induction ts generalizing s t with
  | nil => exact h
  | cons u ts ih => exact ih (h.writeHandler _ _ _)

end Sys2Proof.Machine
end

