-- ==== Sys2Proof/Laws/Decode.lean ====
section
/-! SUPPORT. The value operand of a WRITE: what the decoder makes of it (R92). -/

namespace Sys2Proof

/-- A value of `n` bits is the operand of a WRITE of `n` bits. -/
theorem Operand.valueOf?_eq_some {op : Operand} {n : Nat} (hn : n ≤ 32) {v : BitVec n} (h : op.value = v.setWidth 32) :
    op.valueOf? n = some v := by
  have e : op.value.toNat = v.toNat := by
    rw [h, BitVec.toNat_setWidth, Nat.mod_eq_of_lt (Nat.lt_of_lt_of_le v.isLt (Nat.pow_le_pow_right (by omega) hn))]
  rw [Operand.valueOf?, if_pos (by rw [e]; exact v.isLt), Option.some_inj]
  apply BitVec.eq_of_toNat_eq
  rw [BitVec.toNat_setWidth, e, Nat.mod_eq_of_lt v.isLt]

/-- A value of more bits is none (log 15). -/
theorem Operand.valueOf?_eq_none (op : Operand) (n : Nat) : op.valueOf? n = none ↔ ¬op.value.toNat < 2 ^ n := by
  unfold Operand.valueOf?
  split <;> simp_all

theorem decode_write8 {op : Operand} {v : Byte} (h : op.value = v.setWidth 32) :
    decode ⟨0x10, op⟩ = .ok (.write8 op.addr v) := by
  have e : decodeShape ⟨0x10, op⟩ =
      match op.valueOf? 8 with
      | some v => .ok (.write8 op.addr v)
      | none => .error .valueTooWide := by
    simp [decodeShape, opcOf, subOf] <;> rfl
  rw [decode, e, Operand.valueOf?_eq_some (by omega) h]
  rfl

theorem decode_write16 {op : Operand} {v : Half} (h : op.value = v.setWidth 32) :
    decode ⟨0x11, op⟩ = .ok (.write16 op.addr v) := by
  have e : decodeShape ⟨0x11, op⟩ =
      match op.valueOf? 16 with
      | some v => .ok (.write16 op.addr v)
      | none => .error .valueTooWide := by
    simp [decodeShape, opcOf, subOf] <;> rfl
  rw [decode, e, Operand.valueOf?_eq_some (by omega) h]
  rfl

end Sys2Proof
end

