-- ==== Sys2Proof/Laws/Float64.lean ====
section
/-! SUPPORT. The rounding of Machine/Float64.lean (R11): what it gives, what it leaves, and the exact cases that the rates and
the accumulators meet. -/

namespace Sys2Proof

/-- The count has at most 53 significant bits. -/
def F64.Fits (m : Nat) : Prop := ∃ sig e, sig < 2 ^ 53 ∧ m = sig * 2 ^ e

/-- How many low bits of the quotient are dropped. -/
def F64.drop (num den : Nat) : Nat := (num / den).log2 - 52

/-- The rounding, said once: the significand is the quotient in units of `2 ^ drop`, or the next one, by the remainder. -/
theorem F64.roundQuot_spec (num den : Nat) (hd : 0 < den) :
    ∃ sig rest r, num = sig * (den * 2 ^ F64.drop num den) + rest ∧ rest < den * 2 ^ F64.drop num den ∧
      sig < 2 ^ 53 ∧ (0 < F64.drop num den → 2 ^ 52 ≤ sig) ∧
      F64.roundQuot num den = r * 2 ^ F64.drop num den ∧
      ((r = sig ∧ (2 * rest < den * 2 ^ F64.drop num den ∨ (2 * rest = den * 2 ^ F64.drop num den ∧ sig % 2 = 0))) ∨
       (r = sig + 1 ∧ (den * 2 ^ F64.drop num den < 2 * rest ∨
        (2 * rest = den * 2 ^ F64.drop num den ∧ sig % 2 = 1)))) := by
  have hstep : 0 < den * 2 ^ F64.drop num den := Nat.mul_pos hd (Nat.two_pow_pos _)
  have hq : num / (den * 2 ^ F64.drop num den) = (num / den) / 2 ^ F64.drop num den := by
    rw [Nat.div_div_eq_div_mul]
  refine ⟨num / (den * 2 ^ F64.drop num den), num % (den * 2 ^ F64.drop num den),
    if den * 2 ^ F64.drop num den < 2 * (num % (den * 2 ^ F64.drop num den)) ∨
      (2 * (num % (den * 2 ^ F64.drop num den)) = den * 2 ^ F64.drop num den ∧
        num / (den * 2 ^ F64.drop num den) % 2 = 1)
    then num / (den * 2 ^ F64.drop num den) + 1 else num / (den * 2 ^ F64.drop num den),
    (Nat.div_add_mod' num _).symm, Nat.mod_lt _ hstep, ?_, ?_, rfl, ?_⟩
  · rw [hq, Nat.div_lt_iff_lt_mul (Nat.two_pow_pos _), ← Nat.pow_add]
    refine Nat.lt_of_lt_of_le Nat.lt_log2_self (Nat.pow_le_pow_right (by decide) ?_)
    unfold F64.drop
    omega
  · intro h
    rw [hq, Nat.le_div_iff_mul_le (Nat.two_pow_pos _), ← Nat.pow_add]
    have hne : num / den ≠ 0 := by
      intro e
      unfold F64.drop at h
      rw [e] at h
      exact absurd h (by decide)
    have : 52 + F64.drop num den = (num / den).log2 := by
      unfold F64.drop at h ⊢
      omega
    rw [this]
    exact Nat.log2_self_le hne
  · split
    · rename_i h
      exact .inr ⟨rfl, h⟩
    · rename_i h
      refine .inl ⟨rfl, ?_⟩
      omega

/-- Rounding gives at most 53 significant bits. -/
theorem F64.fits_roundQuot (num den : Nat) (hd : 0 < den) : F64.Fits (F64.roundQuot num den) := by
  obtain ⟨sig, rest, r, -, -, h3, -, h5, h6⟩ := F64.roundQuot_spec num den hd
  by_cases hr : r = 2 ^ 53
  · refine ⟨2 ^ 52, F64.drop num den + 1, by decide, ?_⟩
    rw [h5, hr, Nat.pow_succ 2 (F64.drop num den)]
    omega
  · exact ⟨r, F64.drop num den, by omega, h5⟩

/-- A multiple of `2 ^ e` whose quotient fits, fits. -/
theorem F64.fits_of_dvd {m e : Nat} (h : 2 ^ e ∣ m) (hm : m < 2 ^ (53 + e)) : F64.Fits m := by
  obtain ⟨c, rfl⟩ := h
  refine ⟨c, e, ?_, Nat.mul_comm _ _⟩
  rw [Nat.add_comm, Nat.pow_add] at hm
  exact Nat.lt_of_mul_lt_mul_left hm

/-- A number that fits is a multiple of the unit of its own size. -/
theorem F64.dvd_of_fits {m : Nat} (h : F64.Fits m) : 2 ^ (m.log2 - 52) ∣ m := by
  obtain ⟨sig, e, hs, rfl⟩ := h
  by_cases h0 : sig = 0
  · simp [h0]
  · refine Nat.dvd_trans (Nat.pow_dvd_pow 2 ?_) (Nat.dvd_mul_left _ _)
    have hl : (sig * 2 ^ e).log2 < 53 + e := by
      rw [Nat.log2_lt (Nat.mul_ne_zero h0 (Nat.two_pow_pos e).ne'), Nat.pow_add]
      exact (Nat.mul_lt_mul_right (Nat.two_pow_pos e)).2 hs
    omega

/-- An exact quotient that fits is not changed by the rounding. -/
theorem F64.roundQuot_exact {m den : Nat} (h : F64.Fits m) (hd : 0 < den) : F64.roundQuot (m * den) den = m := by
  obtain ⟨sig, rest, r, h1, h2, -, -, h5, h6⟩ := F64.roundQuot_spec (m * den) den hd
  have hdrop : F64.drop (m * den) den = m.log2 - 52 := by
    unfold F64.drop
    rw [Nat.mul_div_cancel _ hd]
  rw [hdrop] at h1 h2 h5 h6
  obtain ⟨c, hc⟩ := F64.dvd_of_fits h
  have hpos : 0 < den * 2 ^ (m.log2 - 52) := Nat.mul_pos hd (Nat.two_pow_pos _)
  have e : m * den = c * (den * 2 ^ (m.log2 - 52)) := by
    conv_lhs => rw [hc]
    ring
  rw [e] at h1
  have hrest : rest = 0 := by
    have := congrArg (fun x => x % (den * 2 ^ (m.log2 - 52))) h1
    simp only [Nat.mul_mod_left, Nat.mul_add_mod_self_right, Nat.mod_eq_of_lt h2] at this
    exact this.symm
  subst hrest
  rw [Nat.add_zero] at h1
  have hsig : c = sig := Nat.eq_of_mul_eq_mul_right hpos h1
  rcases h6 with ⟨rfl, -⟩ | ⟨-, h6⟩
  · rw [h5, ← hsig, Nat.mul_comm]
    exact hc.symm
  · omega

theorem F64.roundQuot_one_exact {m : Nat} (h : F64.Fits m) : F64.roundQuot m 1 = m := by
  have := F64.roundQuot_exact h (den := 1) (by decide)
  rwa [Nat.mul_one] at this

theorem F64.isBinary64_iff (a : F64) : a.isBinary64 = true ↔ F64.Fits a.units := by
  unfold F64.isBinary64
  rw [beq_iff_eq]
  exact ⟨fun h => h ▸ F64.fits_roundQuot _ _ (by decide), F64.roundQuot_one_exact⟩

/-- A common factor of the two does not change the rounded quotient. -/
theorem F64.roundQuot_mul_left (k num den : Nat) (hk : 0 < k) :
    F64.roundQuot (k * num) (k * den) = F64.roundQuot num den := by
  unfold F64.roundQuot
  have h1 : k * num / (k * den) = num / den := Nat.mul_div_mul_left _ _ hk
  dsimp only
  rw [h1, Nat.mul_assoc, Nat.mul_div_mul_left _ _ hk, Nat.mul_mod_mul_left]
  have h2 : ∀ a b : Nat, k * a < 2 * (k * b) ↔ a < 2 * b := fun a b => by
    rw [Nat.mul_left_comm]
    exact Nat.mul_lt_mul_left hk
  have h3 : ∀ a b : Nat, 2 * (k * b) = k * a ↔ 2 * b = a := fun a b => by
    rw [Nat.mul_left_comm]
    exact Nat.mul_right_inj hk.ne'
  simp only [h2, h3]

theorem F64.one_pos : 0 < F64.one := Nat.two_pow_pos _

/-- Small integers are exact (R11). -/
theorem F64.ofNat_exact {n : Nat} (h : n < 2 ^ 53) : (F64.ofNat n).units = n * F64.one :=
  F64.roundQuot_one_exact ⟨n, 1074, h, by simp only [F64.one]⟩

/-- Every number the arithmetic gives has at most 53 significant bits. -/
theorem F64.fits_add (a b : F64) : F64.Fits (F64.add a b).units := F64.fits_roundQuot _ _ (by decide)

/-- The integer part of a number that fits is exact as a number, and so is its fraction (R199). -/
theorem F64.fits_floor_fract {m : Nat} (h : F64.Fits m) :
    F64.Fits (m / F64.one * F64.one) ∧ F64.Fits (m % F64.one) := by
  obtain ⟨sig, e, hs, rfl⟩ := h
  by_cases he : 1074 ≤ e
  · have hd : F64.one ∣ sig * 2 ^ e := Nat.dvd_trans (Nat.pow_dvd_pow 2 he) (Nat.dvd_mul_left _ _)
    rw [Nat.div_mul_cancel hd, Nat.mod_eq_zero_of_dvd hd]
    exact ⟨⟨sig, e, hs, rfl⟩, ⟨0, 0, by decide, rfl⟩⟩
  · have hone : F64.one = 2 ^ (1074 - e) * 2 ^ e := by
      rw [← Nat.pow_add, F64.one]
      congr 1
      omega
    rw [hone, Nat.mul_div_mul_right _ _ (Nat.two_pow_pos e), Nat.mul_mod_mul_right]
    refine ⟨⟨sig / 2 ^ (1074 - e) * 2 ^ (1074 - e), e, ?_, by rw [Nat.mul_assoc]⟩, ⟨sig % 2 ^ (1074 - e), e, ?_, rfl⟩⟩
    · exact Nat.lt_of_le_of_lt (Nat.div_mul_le_self _ _) hs
    · exact Nat.lt_of_le_of_lt (Nat.mod_le _ _) hs

/-- Taking the integer part off an accumulator leaves its fraction exactly (R199). -/
theorem F64.sub_floor (a : F64) (h : F64.Fits a.units) :
    (F64.sub a (F64.ofNat a.floor)).units = a.units % F64.one := by
  have h1 : (F64.ofNat a.floor).units = a.units / F64.one * F64.one :=
    F64.roundQuot_one_exact (F64.fits_floor_fract h).1
  have h2 : a.units - a.units / F64.one * F64.one = a.units % F64.one := by
    have := Nat.div_add_mod' a.units F64.one
    omega
  unfold F64.sub
  dsimp only
  rw [h1, h2]
  exact F64.roundQuot_one_exact (F64.fits_floor_fract h).2

end Sys2Proof
end

