-- ==== Sys2Proof/Laws/PerInstr.lean ====
section
/-! SUPPORT. The statements made of every operation, one lemma per constructor of `Instr`. -/

namespace Sys2Proof.Laws.RowOf

open Sys2Proof

/-- The operation's descriptor matches one row of spec/opcode_table.json, and that row's mnemonic is the operation's
(R90, R93). -/
def Statement (i : Instr) : Prop := ∃ r, matchingRows (descriptorOf i) = [r] ∧ r.mnemonic = mnemonicOf i

theorem read8 (a : Word) : Statement (.read8 a) := ⟨⟨"READ8", 0x00, 0xFF⟩, by change matchingRows 0x00 = _; decide, rfl⟩
theorem read16 (a : Word) : Statement (.read16 a) := ⟨⟨"READ16", 0x01, 0xFF⟩, by change matchingRows 0x01 = _; decide, rfl⟩
theorem read32 (a : Word) : Statement (.read32 a) := ⟨⟨"READ32", 0x02, 0xFF⟩, by change matchingRows 0x02 = _; decide, rfl⟩
theorem write8 (a : Word) (v : Byte) : Statement (.write8 a v) := ⟨⟨"WRITE8", 0x10, 0xFF⟩, by change matchingRows 0x10 = _; decide, rfl⟩
theorem write16 (a : Word) (v : Half) : Statement (.write16 a v) := ⟨⟨"WRITE16", 0x11, 0xFF⟩, by change matchingRows 0x11 = _; decide, rfl⟩
theorem write32 (a : Word) (v : Word) : Statement (.write32 a v) := ⟨⟨"WRITE32", 0x12, 0xFF⟩, by change matchingRows 0x12 = _; decide, rfl⟩
theorem tick : Statement .tick := ⟨⟨"TICK", 0x20, 0xFF⟩, by change matchingRows 0x20 = _; decide, rfl⟩
theorem resetAll : Statement .resetAll := ⟨⟨"RESET_ALL", 0x30, 0xFF⟩, by change matchingRows 0x30 = _; decide, rfl⟩
theorem iack (l : BitVec 3) : Statement (.iack l) := ⟨⟨"IACK", 0x40, 0xF8⟩, by revert l; decide, rfl⟩
theorem isSysclkRunning : Statement .isSysclkRunning := ⟨⟨"IS_SYSCLK_RUNNING", 0x50, 0xFF⟩, by change matchingRows 0x50 = _; decide, rfl⟩
theorem isRegWindowRelocated : Statement .isRegWindowRelocated :=
  ⟨⟨"IS_REG_WINDOW_RELOCATED", 0x51, 0xFF⟩, by change matchingRows 0x51 = _; decide, rfl⟩
theorem setRtc (d h m s : Nat) : Statement (.setRtc d h m s) := ⟨⟨"SET_RTC", 0x60, 0xFF⟩, by change matchingRows 0x60 = _; decide, rfl⟩
theorem inputChange (x : Inputs) : Statement (.inputChange x) := ⟨⟨"INPUT_CHANGE", 0x70, 0xFF⟩, by change matchingRows 0x70 = _; decide, rfl⟩
theorem setLowPowerStop : Statement .setLowPowerStop := ⟨⟨"SET_LOW_POWER_STOP", 0x80, 0xFF⟩, by change matchingRows 0x80 = _; decide, rfl⟩
theorem busFaultWpv : Statement .busFaultWpv := ⟨⟨"BUS_FAULT.WPV", 0x90, 0xFF⟩, by change matchingRows 0x90 = _; decide, rfl⟩
theorem busFaultBeto : Statement .busFaultBeto := ⟨⟨"BUS_FAULT.BETO", 0x91, 0xFF⟩, by change matchingRows 0x91 = _; decide, rfl⟩
theorem busFaultPrv : Statement .busFaultPrv := ⟨⟨"BUS_FAULT.PRV", 0x92, 0xFF⟩, by change matchingRows 0x92 = _; decide, rfl⟩
theorem extIrq (x : Source) (line : Bool) : Statement (.extIrq x line) :=
  ⟨⟨"EXT_IRQ", 0xA0, 0xFE⟩, by
    cases line
    · change matchingRows 0xA0 = _; decide
    · change matchingRows 0xA1 = _; decide, rfl⟩

end Sys2Proof.Laws.RowOf
end

