-- ==== Sys2Proof/Laws/Time.lean ====
section
/-! SUPPORT. What each part of a TICK can do (R168, R198 to R201, R223, R224, R226, R233), said once per part. -/

namespace Sys2Proof.Machine

/-- A part of a TICK that may raise one source: it touches the listed registers, IPR and ISR, and `raised` says whether
the source was raised. -/
structure TickPart (rs : List Reg) (x : SourceRow) (raised : Bool) (s t : State) : Prop where
  params : t.params = s.params
  bytes : SameBytesBut s.params.regMap (.ipr :: .isr :: rs) s.rf t.rf
  pending : ∀ b, t.bit .ipr b = (s.bit .ipr b || (raised && decide (b = x.bit.val)))
  wake : t.wakeCountdown = s.armed (raised && s.wakes x)
  isr : (raised = false → t.reg .isr = s.reg .isr) ∧
    (raised = true → t.reg .isr = t.reg .ipr &&& ~~~t.reg .imr)

theorem TickPart.reg {rs : List Reg} {x : SourceRow} {b : Bool} {s t : State} (h : TickPart rs x b s t) {q : Reg}
    (hq : q ∉ Reg.ipr :: .isr :: rs) : t.reg q = s.reg q := by
  rw [State.reg, h.params]
  exact h.bytes.reg hq

theorem TickPart.of_touchesOnly {rs : List Reg} (x : SourceRow) {s t : State} (h : TouchesOnly rs s t)
    (hw : t.wakeCountdown = s.wakeCountdown) (h1 : .ipr ∉ rs) (h2 : .isr ∉ rs) : TickPart rs x false s t where
  params := h.params
  bytes := h.1.mono (by simp +contextual)
  pending b := by simp only [State.bit, h.reg h1, Bool.false_and, Bool.or_false]
  wake := by rw [hw, Bool.false_and, State.armed_false]
  isr := ⟨fun _ => h.reg h2, fun e => absurd e (by decide)⟩

/-- A part that stores into registers other than IPR, ISR, IMR, PLLCR and PDIRQEG and then raises its source. -/
theorem TickPart.raise {rs : List Reg} (x : SourceRow) {s t : State} (h : TouchesOnly rs s t)
    (hw : t.wakeCountdown = s.wakeCountdown) (h1 : .ipr ∉ rs) (h3 : .imr ∉ rs) (h4 : .pllcr ∉ rs)
    (h5 : .pdirqeg ∉ rs) : TickPart rs x true s (t.raiseSource x) where
  params := (t.raiseSource_spec x).1.params.trans h.params
  bytes := by
    have b := (t.raiseSource_spec x).1.1
    rw [h.params] at b
    exact (h.1.mono (by simp +contextual)).trans (b.mono (by simp +contextual))
  pending b := by rw [State.bit_ipr_raiseSource, h.bit h1, Bool.true_and]
  wake := by
    have e1 : t.wakes x = s.wakes x := by
      simp only [State.wakes, State.wakeCapable, State.masked, h.bit h3, h.bit h5]
    have e2 : t.flag Field.displl = s.flag Field.displl := h.flag h4
    have e3 : t.field Field.wksel = s.field Field.wksel := h.field h4
    rw [State.wakeCountdown_raiseSource, Bool.true_and, e1]
    simp only [State.armed, e2, e3, hw]
  isr := ⟨fun e => absurd e (by decide), fun _ => State.isr_raiseSource _ _⟩

/-! The RTC and the ladder -/

theorem RegTable.or_fullMask {k : RegTable} {r : Reg} {a b : Word} (ha : a &&& k.fullMask r = a)
    (hb : b &&& k.fullMask r = b) : (a ||| b) &&& k.fullMask r = a ||| b := by
  refine BitVec.eq_of_getLsbD_eq fun i _ => ?_
  have g1 := congrArg (fun w => w.getLsbD i) ha
  have g2 := congrArg (fun w => w.getLsbD i) hb
  simp only [BitVec.getLsbD_and, BitVec.getLsbD_or] at *
  cases h : (k.fullMask r).getLsbD i
  · rw [h, Bool.and_false] at g1 g2
    rw [← g1, ← g2]
    rfl
  · rw [Bool.and_true]

/-- RTCIENR is as wide as RTCISR, whose layout it has (R27). -/
theorem RegMap.fullMask_rtcienr (k : RegMap) : k.fullMask .rtcienr = k.fullMask .rtcisr := by
  rw [RegTable.fullMask, (k.size_spec .rtcisr).2.2.2.2, RegTable.fullMask]

/-- The state with the enabled events latched, before the source is raised (R224, R226). -/
def State.latched (s : State) (bits : Word) : State :=
  s.setReg .rtcisr (s.reg .rtcisr ||| (bits &&& s.reg .rtcienr))

theorem State.latchRtc_eq (s : State) (bits : Word) (o : Owner) :
    s.latchRtc bits o =
      if bits &&& s.reg .rtcienr = 0 then s.latched bits else (s.latched bits).raiseSource (s.source o) := rfl

/-- The enabled events are latched and the source raised if there is one (R224, R226). -/
theorem State.latchRtc_spec (s : State) (bits : Word) (o : Owner) :
    TouchesOnly [.rtcisr, .ipr, .isr] s (s.latchRtc bits o) ∧
      TickPart [.rtcisr] (s.source o) (decide (bits &&& s.reg .rtcienr ≠ 0)) s (s.latchRtc bits o) ∧
      (s.latchRtc bits o).reg .rtcisr = s.reg .rtcisr ||| (bits &&& s.reg .rtcienr) := by
  have h : TouchesOnly [.rtcisr] s (s.latched bits) := TouchesOnly.setReg s _ (by simp)
  have hb : (bits &&& s.reg .rtcienr) &&& s.params.regMap.fullMask .rtcisr = bits &&& s.reg .rtcienr := by
    rw [BitVec.and_assoc, ← RegMap.fullMask_rtcienr, s.and_fullMask]
  have hr : (s.latched bits).reg .rtcisr = s.reg .rtcisr ||| (bits &&& s.reg .rtcienr) := by
    rw [State.latched, State.reg_setReg_same, RegTable.or_fullMask (s.and_fullMask _) hb]
  rw [State.latchRtc_eq]
  split
  · rename_i h0
    rw [decide_eq_false (by simpa using h0)]
    exact ⟨h.mono (by simp), .of_touchesOnly _ h rfl (by decide) (by decide), hr⟩
  · rename_i h0
    rw [decide_eq_true (by simpa using h0)]
    exact ⟨(h.mono (by simp)).trans (((s.latched bits).raiseSource_spec _).1.mono (by simp)),
      .raise _ h rfl (by decide) (by decide) (by decide) (by decide),
      (((s.latched bits).raiseSource_spec _).1.reg (by decide)).trans hr⟩

/-- A field store keeps the bits outside any mask that covers the field. -/
theorem State.reg_setField_and_not (s : State) (f : Field) (x : Nat) (M : Word)
    (h : ∀ i, (s.params.regMap.mask f).getLsbD i = true → M.getLsbD i = true) :
    (s.setField f x).reg f.reg &&& ~~~M = s.reg f.reg &&& ~~~M := by
  refine BitVec.eq_of_getLsbD_eq fun i hi => ?_
  rw [BitVec.getLsbD_and, BitVec.getLsbD_and, State.getLsbD_reg_setField, BitVec.getLsbD_not]
  split
  · rename_i hc
    have hm : (s.params.regMap.mask f).getLsbD i = true := by
      rw [RegTable.getLsbD_mask]
      simp only [Bool.and_eq_true, decide_eq_true_eq]
      omega
    rw [h i hm]
    simp
  · rfl

theorem State.setField_touchesOnly (s : State) (f : Field) (x : Nat) : TouchesOnly [f.reg] s (s.setField f x) :=
  TouchesOnly.setReg s _ (by simp)

/-- When a field rolls over: at a carry that takes it to its limit (R223), or at or above its limit (R225). -/
theorem fieldRolls_iff (limit value : Nat) (c : Bool) :
    fieldRolls limit value c = true ↔
      (c = true ∧ limit ≤ value + 1) ∨ limit ≤ value := by
  unfold fieldRolls
  cases c <;> simp
  omega

/-- What a field holds after the second. -/
theorem fieldNext_spec (limit value : Nat) (c : Bool) :
    (fieldRolls limit value c = true → fieldNext limit value c = 0) ∧
      (fieldRolls limit value c = false → fieldNext limit value c = value + c.toNat) := by
  unfold fieldNext
  exact ⟨fun h => if_pos h, fun h => if_neg (by simp [h])⟩

/-- A field below its limit rolls over only at a carry: R223's pseudocode, word for word. -/
theorem fieldRolls_of_lt {limit value : Nat} (h : value < limit) (c : Bool) :
    fieldRolls limit value c = (c && decide (limit ≤ value + 1)) := by
  rw [Bool.eq_iff_iff, fieldRolls_iff]
  simp
  omega

/-- The bits of RTCTIME that hold the time of day (R220). -/
def timeFields : List Field := [.hours, .minutes, .seconds]

/-- The four time fields are stored, each cut to its width, and no other bit (R96, R236). -/
theorem State.setTimeOfDay_spec (s : State) (t : TimeOfDay) :
    TouchesOnly [.rtctime, .dayr] s (s.setTimeOfDay t) ∧
      (s.setTimeOfDay t).wakeCountdown = s.wakeCountdown ∧
      (s.setTimeOfDay t).field .days = t.days % 2 ^ s.params.dayBits ∧
      (s.setTimeOfDay t).field .hours = t.hours % 2 ^ s.params.regMap.len .hours ∧
      (s.setTimeOfDay t).field .minutes = t.minutes % 2 ^ s.params.regMap.len .minutes ∧
      (s.setTimeOfDay t).field .seconds = t.seconds % 2 ^ s.params.regMap.len .seconds ∧
      (s.setTimeOfDay t).reg .rtctime &&& ~~~s.params.regMap.masks timeFields =
        s.reg .rtctime &&& ~~~s.params.regMap.masks timeFields ∧
      (s.setTimeOfDay t).reg .dayr &&& ~~~s.params.regMap.mask .days =
        s.reg .dayr &&& ~~~s.params.regMap.mask .days := by
  obtain ⟨a, ha⟩ : ∃ a, a = s.setField .seconds t.seconds := ⟨_, rfl⟩
  obtain ⟨b, hb⟩ : ∃ b, b = a.setField .minutes t.minutes := ⟨_, rfl⟩
  obtain ⟨c, hc⟩ : ∃ c, c = b.setField .hours t.hours := ⟨_, rfl⟩
  have hd : s.setTimeOfDay t = c.setField .days t.days := by rw [hc, hb, ha]; rfl
  have pa : a.params = s.params := by rw [ha]; rfl
  have pb : b.params = s.params := by rw [hb]; exact pa
  have pc : c.params = s.params := by rw [hc]; exact pb
  have m1 : ∀ f ∈ timeFields, ∀ i, (s.params.regMap.mask f).getLsbD i = true →
      (s.params.regMap.masks timeFields).getLsbD i = true :=
    fun f hf i h => (RegTable.getLsbD_masks _ _ _).2 ⟨f, hf, h⟩
  have ta : TouchesOnly [.rtctime] s a := ha ▸ s.setField_touchesOnly .seconds _
  have tb : TouchesOnly [.rtctime] a b := hb ▸ a.setField_touchesOnly .minutes _
  have tc : TouchesOnly [.rtctime] b c := hc ▸ b.setField_touchesOnly .hours _
  have td : TouchesOnly [.dayr] c (s.setTimeOfDay t) := hd ▸ c.setField_touchesOnly .days _
  have fd : ∀ f : Field, f.reg = .rtctime → (s.setTimeOfDay t).field f = c.field f :=
    fun f hf => td.field (by rw [hf]; decide)
  refine ⟨((ta.trans tb).trans tc |>.mono (by simp)).trans (td.mono (by simp)), rfl, ?_, ?_, ?_, ?_, ?_, ?_⟩
  · rw [hd, State.field_setField_same _ _ _ rfl, pc]
    rfl
  · rw [fd _ rfl, hc, State.field_setField_same _ _ _ rfl, pb]
  · rw [fd _ rfl, hc, State.field_setField_ne _ _ rfl rfl (by decide), hb, State.field_setField_same _ _ _ rfl, pa]
  · rw [fd _ rfl, hc, State.field_setField_ne _ _ rfl rfl (by decide), hb,
      State.field_setField_ne _ _ rfl rfl (by decide), ha, State.field_setField_same _ _ _ rfl]
  · rw [td.reg (by decide), hc]
    have e1 := b.reg_setField_and_not .hours t.hours (s.params.regMap.masks timeFields)
      (by rw [pb]; exact m1 _ (by simp [timeFields]))
    have e2 := a.reg_setField_and_not .minutes t.minutes (s.params.regMap.masks timeFields)
      (by rw [pa]; exact m1 _ (by simp [timeFields]))
    have e3 := s.reg_setField_and_not .seconds t.seconds (s.params.regMap.masks timeFields)
      (m1 _ (by simp [timeFields]))
    rw [← hb] at e2
    rw [← ha] at e3
    exact e1.trans (e2.trans e3)
  · have e := c.reg_setField_and_not .days t.days (s.params.regMap.mask .days) (by rw [pc]; exact fun _ h => h)
    rw [hd]
    refine e.trans ?_
    have : c.reg .dayr = s.reg .dayr := ((ta.trans tb).trans tc).reg (by decide)
    rw [Field.reg, this]

/-! The watchdog -/

/-- WATCHDOG after an enabled second, bit by bit, before INTF is set, with the default constants (R233). -/
theorem State.getLsbD_watchdogValue (s : State) (hp : s.params.wdt = Params.default.wdt) (b : Nat) :
    s.watchdogValue.getLsbD b =
      if b = 8 then !s.bit .watchdog 8
      else if b = 9 then s.bit .watchdog 9 != s.bit .watchdog 8
      else decide (b = 0 ∨ b = 1 ∨ b = 7) && s.bit .watchdog b := by
  have key : ∀ w : Half, ∀ b < 16, (watchdogNext Params.default.wdt w).getLsbD b =
      if b = 8 then !w.getLsbD 8
      else if b = 9 then w.getLsbD 9 != w.getLsbD 8
      else decide (b = 0 ∨ b = 1 ∨ b = 7) && w.getLsbD b := by
    intro w
    have hw : ∃ hi lo : Byte, w = hi.setWidth 16 <<< 8 ||| lo.setWidth 16 := by
      refine ⟨w.extractLsb' 8 8, w.extractLsb' 0 8, ?_⟩
      ext i hi
      simp
      grind
    obtain ⟨hi, lo, rfl⟩ := hw
    have hsum : (hi.setWidth 16 <<< 8 ||| lo.setWidth 16) + Params.default.wdt.step =
        (hi + 1).setWidth 16 <<< 8 ||| lo.setWidth 16 := by
      apply BitVec.eq_of_toNat_eq
      have e : ∀ h l : Byte, (h.setWidth 16 <<< 8 ||| l.setWidth 16).toNat = h.toNat * 256 + l.toNat := by
        intro h l
        have h1 := h.isLt
        have h2 := l.isLt
        simp only [BitVec.toNat_or, BitVec.toNat_shiftLeft, BitVec.toNat_setWidth]
        rw [Nat.mod_eq_of_lt (by omega : h.toNat < 2 ^ 16), Nat.mod_eq_of_lt (by omega : l.toNat < 2 ^ 16),
          Nat.shiftLeft_eq, Nat.mod_eq_of_lt (by omega), Nat.mul_comm, Nat.two_pow_add_eq_or_of_lt h2]
      rw [BitVec.toNat_add, e, e, BitVec.toNat_add]
      have h1 := hi.isLt
      have h2 := lo.isLt
      simp [Params.default]
      omega
    intro b hb
    have hl : ∀ (h l : Byte) (b : Nat), b < 16 → (h.setWidth 16 <<< 8 ||| l.setWidth 16).getLsbD b =
        if b < 8 then l.getLsbD b else h.getLsbD (b - 8) := by
      intro h l b hb
      rw [BitVec.getLsbD_or, BitVec.getLsbD_shiftLeft, BitVec.getLsbD_setWidth, BitVec.getLsbD_setWidth]
      by_cases h8 : b < 8
      · simp [h8, hb]
      · have : l.getLsbD b = false := BitVec.getLsbD_of_ge _ _ (by omega)
        simp [h8, this, hb]
        omega
    have inc : ∀ h : Byte, (h + 1).getLsbD 0 = !h.getLsbD 0 ∧ (h + 1).getLsbD 1 = (h.getLsbD 1 != h.getLsbD 0) := by
      decide
    have mask : ∀ b < 16, Params.default.wdt.mask.getLsbD b = decide (b = 0 ∨ b = 1 ∨ b = 7 ∨ b = 8 ∨ b = 9) := by decide
    rw [watchdogNext, BitVec.getLsbD_and, hsum, hl _ _ _ hb, hl _ _ 8 (by omega), hl _ _ 9 (by omega), hl _ _ b hb,
      mask b hb]
    obtain ⟨i1, i2⟩ := inc hi
    by_cases h8 : b = 8
    · subst h8
      simpa using i1
    · by_cases h9 : b = 9
      · subst h9
        simpa using i2
      · by_cases hb8 : b < 8
        · simp [h8, h9, hb8, Bool.and_comm]
        · have : ¬(b = 0 ∨ b = 1 ∨ b = 7) := by omega
          have : ¬(b = 0 ∨ b = 1 ∨ b = 7 ∨ b = 8 ∨ b = 9) := by omega
          simp [*]
  by_cases hb : b < 16
  · rw [State.watchdogValue, hp, key _ b hb]
    simp [State.bit, hb]
  · have : ¬(b = 0 ∨ b = 1 ∨ b = 7) := by omega
    rw [BitVec.getLsbD_of_ge _ _ (by omega), if_neg (by omega), if_neg (by omega), decide_eq_false this, Bool.false_and]

/-- The default expiry bit is bit 9 (R233). -/
theorem State.watchdogExpires_eq (s : State) (hp : s.params.wdt = Params.default.wdt) :
    s.watchdogExpires = (s.bit .watchdog 9 != s.bit .watchdog 8) := by
  have h : s.watchdogExpires = s.watchdogValue.getLsbD 9 := by
    rw [State.watchdogExpires, hp]
    generalize s.watchdogValue = w
    rw [Bool.eq_iff_iff]
    simp only [watchdogExpired, bne_iff_ne, ne_eq]
    constructor
    · intro h
      by_contra hc
      refine h (BitVec.eq_of_getLsbD_eq fun i hi => ?_)
      have : ∀ i < 16, Params.default.wdt.expiry.getLsbD i = decide (i = 9) := by decide
      rw [BitVec.getLsbD_and, this i hi]
      by_cases h9 : i = 9
      · subst h9
        rw [Bool.eq_false_iff.2 hc, Bool.false_and]
        rfl
      · simp [h9]
    · intro h e
      have := congrArg (fun v => v.getLsbD 9) e
      simp only [BitVec.getLsbD_and, h] at this
      exact absurd this (by decide)
  rw [h, State.getLsbD_watchdogValue s hp]
  simp

/-- The state with the stepped watchdog stored, before its expiry is acted on. -/
def State.steppedWatchdog (s : State) : State := s.setReg .watchdog (s.watchdogValue.setWidth 32)

theorem State.watchdogSecond_eq (s : State) :
    s.watchdogSecond = if s.flag Field.wdtEn then
      if s.watchdogExpires then (s.steppedWatchdog.setField Field.wdtIntf 1).raiseSource (s.source .watchdog)
      else s.steppedWatchdog else s := rfl

/-- Everything the watchdog's second can do where it does not abort (R233, R234). -/
theorem State.watchdogSecond_spec (s : State) :
    TouchesOnly [.watchdog, .ipr, .isr] s s.watchdogSecond ∧
      TickPart [.watchdog] (s.source .watchdog) (s.flag Field.wdtEn && s.watchdogExpires) s s.watchdogSecond ∧
      ∀ b, s.watchdogSecond.bit .watchdog b =
        if s.flag Field.wdtEn then
          decide (b < 8 * s.params.regMap.bytes .watchdog) &&
            (s.watchdogValue.getLsbD b || (decide (b = s.params.regMap.lo .wdtIntf) && s.watchdogExpires))
        else s.bit .watchdog b := by
  have hst : TouchesOnly [.watchdog] s s.steppedWatchdog := TouchesOnly.setReg s _ (by simp)
  have hb4 := s.params.regMap.bytes_le .watchdog
  have hb : ∀ b, s.steppedWatchdog.bit .watchdog b =
      (decide (b < 8 * s.params.regMap.bytes .watchdog) && s.watchdogValue.getLsbD b) := by
    intro b
    rw [State.bit, State.steppedWatchdog, State.reg_setReg_same, BitVec.getLsbD_and, BitVec.getLsbD_setWidth,
      RegTable.fullMask, getLsbD_fieldMask]
    by_cases h : b < 8 * s.params.regMap.bytes .watchdog
    · have : b < 32 := by omega
      simp [h, this]
    · simp [h]
  rw [State.watchdogSecond_eq]
  cases h1 : s.flag Field.wdtEn
  · simp only [Bool.false_and]
    exact ⟨.refl _ s, .of_touchesOnly _ (.refl _ s) rfl (by decide) (by decide), fun b => by simp⟩
  · simp only [if_true, Bool.true_and]
    cases h2 : s.watchdogExpires
    · exact ⟨hst.mono (by simp), .of_touchesOnly _ hst rfl (by decide) (by decide), fun b => by simp [hb]⟩
    · have hi : TouchesOnly [.watchdog] s (s.steppedWatchdog.setField Field.wdtIntf 1) :=
        hst.trans (State.setField_touchesOnly _ Field.wdtIntf 1)
      refine ⟨(hi.mono (by simp)).trans ((State.raiseSource_spec _ _).1.mono (by simp)),
        .raise _ hi rfl (by decide) (by decide) (by decide) (by decide), fun b => ?_⟩
      simp only [if_true]
      rw [(State.raiseSource_spec _ _).1.bit (by decide)]
      have e := s.steppedWatchdog.getLsbD_setField_flag (f := .wdtIntf) rfl (fun _ => rfl) 1 b
      refine e.trans ?_
      have hp : s.steppedWatchdog.params = s.params := rfl
      have hl := s.params.regMap.lo_flag (f := .wdtIntf) rfl (fun _ => rfl)
      rw [hp]
      by_cases h7 : b = s.params.regMap.lo .wdtIntf
      · rw [if_pos h7, h7]
        simp only [Field.reg] at hl
        simp [hl]
      · rw [if_neg h7]
        refine (hb b).trans ?_
        simp [h7]

/-! The PLL's wake step -/

/-- Everything the wake step can do (R168). -/
theorem State.pllWakeStep_spec (s : State) :
    TouchesOnly [.pllcr] s s.pllWakeStep ∧
      (s.wakeCountdown = -1 → s.pllWakeStep = s) ∧
      (s.wakeCountdown = 1 → s.pllWakeStep.wakeCountdown = -1 ∧ s.pllWakeStep.reg .pllcr = s.reg .pllcr &&& ~~~s.params.regMap.mask .displl) ∧
      (s.wakeCountdown ≠ -1 → s.wakeCountdown ≠ 1 →
        s.pllWakeStep.wakeCountdown = s.wakeCountdown - 1 ∧ s.pllWakeStep.rf = s.rf) := by
  have hclear : ∀ u : State, u.rf = s.rf → u.params = s.params →
      (u.setField .displl 0).reg .pllcr = s.reg .pllcr &&& ~~~s.params.regMap.mask .displl := by
    intro u hu hp
    have hr : u.reg .pllcr = s.reg .pllcr := by rw [State.reg, hu, hp, State.reg]
    refine BitVec.eq_of_getLsbD_eq fun i hi => ?_
    have e := u.getLsbD_setField_flag (f := .displl) rfl (fun _ => rfl) 0 i
    rw [hp] at e
    refine e.trans ?_
    rw [BitVec.getLsbD_and, BitVec.getLsbD_not, RegMap.getLsbD_mask_flag _ rfl (fun _ => rfl)]
    by_cases h3 : i = s.params.regMap.lo .displl
    · rw [if_pos h3, Nat.zero_testBit, decide_eq_true h3]
      simp
    · rw [if_neg h3, decide_eq_false h3]
      have : (u.reg (Field.reg .displl)).getLsbD i = (s.reg .pllcr).getLsbD i := congrArg (fun w : Word => w.getLsbD i) hr
      rw [this]
      simp [hi]
  unfold State.pllWakeStep
  by_cases h1 : s.wakeCountdown = -1
  · rw [if_pos h1]
    exact ⟨.refl _ s, fun _ => rfl, fun h => absurd (h1.symm.trans h) (by decide), fun h => absurd h1 h⟩
  · rw [if_neg h1]
    by_cases h2 : s.wakeCountdown = 1
    · have e : s.wakeCountdown - 1 = 0 := by omega
      simp only [e, if_true]
      refine ⟨?_, fun h => absurd h h1, fun _ => ⟨rfl, ?_⟩, fun _ h => absurd h2 h⟩
      · exact ⟨SameBytesBut.setReg _ s.rf _ (by simp [Field.reg]), rfl⟩
      · exact hclear _ rfl rfl
    · have e : ¬s.wakeCountdown - 1 = 0 := by omega
      simp only [e, if_false]
      exact ⟨⟨.refl _ _ _, rfl⟩, fun h => absurd h h1, fun h => absurd h h2, fun _ _ => ⟨trivial, trivial⟩⟩

/-! The timers -/

/-- `timerAcc` after the increment (R198). -/
def State.timerSum (s : State) (n : TimerId) : F64 := F64.add (s.timerAcc n) (s.timerDelta n)

/-- The counter before write-back: `new` of R199. -/
def State.timerNew (s : State) (n : TimerId) : Nat := (s.field (Field.count n) + (s.timerSum n).floor) % 65536

/-- The timer is enabled and crosses its compare value (R200). -/
def State.timerCrosses (s : State) (n : TimerId) : Bool :=
  s.flag (Field.ten n) && crossed (s.field (Field.count n)) (s.timerNew n) (s.field (Field.compare n))

/-- The registers a timer tick may write. -/
def timerRegs (n : TimerId) : List Reg := [Reg.tstat n, Reg.tcn n]

theorem State.timerTick_eq (s : State) (n : TimerId) :
    s.timerTick n = if s.flag (Field.ten n) then
      let t := s.setTimerAcc n (F64.sub (s.timerSum n) (F64.ofNat (s.timerSum n).floor))
      if s.timerCrosses n then
        (t.timerMatch n).setField (Field.count n)
          (if s.flag (Field.frr n) then s.timerNew n
           else (s.timerNew n + 65536 - s.field (Field.compare n)) % 65536)
      else t.setField (Field.count n) (s.timerNew n)
    else s := by
  unfold State.timerTick State.timerCrosses
  cases h : s.flag (Field.ten n)
  · rfl
  · simp only [Bool.true_and]
    rfl

/-- Every code of PRESC1 has a divisor, and the rate is computed with it (R162). -/
theorem State.presc1_spec (s : State) : ∃ d : PNat, s.params.presc1Div.divisors[s.field .presc1]? = some d ∧
    s.params.presc1Div.ofField (s.field .presc1) = d.val := by
  have h := Nat.lt_of_lt_of_le (s.field_lt .presc1) s.params.presc1Covered
  exact ⟨_, List.getElem?_eq_getElem h, by rw [Presc1Divisors.ofField, List.getD_eq_getElem _ _ h]⟩

/-- Every code of CLKSOURCE has a source kind, and the increment is computed by it (R192). -/
theorem State.timerSrc_spec (s : State) (n : TimerId) :
    s.params.timerSrc.kinds[s.field (.clksource n)]? = some (s.params.timerSrc.ofCode (s.field (.clksource n))) := by
  have h := Nat.lt_of_lt_of_le (s.field_lt (.clksource n))
    (s.params.timerSrcCovered n (by cases n <;> simp [TimerId.all]))
  rw [TimerSources.ofCode, List.getD_eq_getElem _ _ h, List.getElem?_eq_getElem h]

/-- A 16-bit field, in every map (R96). -/
theorem RegMap.len_half (k : RegMap) {f : Field} (h : f.mayLack = false) (h1 : ∀ n, f.widthOk n = (n == 16)) :
    k.len f = 16 := by
  have w := (k.field_spec h).2.2
  rw [h1] at w
  simpa using w

theorem State.field_half_lt (s : State) {f : Field} (h : f.mayLack = false) (h1 : ∀ n, f.widthOk n = (n == 16)) :
    s.field f < 65536 := by
  have := s.field_lt f
  rw [RegMap.len_half _ h h1] at this
  exact this

theorem State.field_count_lt (s : State) (n : TimerId) : s.field (Field.count n) < 65536 :=
  s.field_half_lt rfl fun _ => rfl
theorem State.field_compare_lt (s : State) (n : TimerId) : s.field (Field.compare n) < 65536 :=
  s.field_half_lt rfl fun _ => rfl

theorem State.timerAcc_setTimerAcc_ne (s : State) {n m : TimerId} (x : F64) (h : m ≠ n) :
    (s.setTimerAcc n x).timerAcc m = s.timerAcc m := by
  cases n <;> cases m <;> first | rfl | exact absurd rfl h

/-- Everything a timer's tick can do (R198 to R201). -/
theorem State.timerTick_spec (s : State) (n : TimerId) :
    (∃ u, TouchesOnly (.ipr :: .isr :: timerRegs n) s u ∧
      s.timerTick n = u.setTimerAcc n ((s.timerTick n).timerAcc n)) ∧
    TickPart (timerRegs n) (s.source (.timer n)) (s.timerCrosses n && s.flag (Field.irqen n)) s (s.timerTick n) ∧
    (s.flag (Field.ten n) = false → s.timerTick n = s) ∧
    (s.flag (Field.ten n) = true →
      (s.timerTick n).timerAcc n = ⟨(s.timerSum n).units % F64.one⟩ ∧
      (s.timerTick n).field (Field.count n) =
        (if s.timerCrosses n && !s.flag (Field.frr n) then s.timerNew n - s.field (Field.compare n)
         else s.timerNew n) ∧
      ∀ b, (s.timerTick n).bit (Reg.tstat n) b =
        (s.bit (Reg.tstat n) b || (decide (b = s.params.regMap.lo (.comp n)) && s.timerCrosses n))) := by
  have hcount : ∀ (t : State) x, x < 65536 → (t.setField (Field.count n) x).field (Field.count n) = x := by
    intro t x hx
    rw [State.field_setField_same _ _ _ rfl, RegMap.len_half _ rfl fun _ => rfl]
    exact Nat.mod_eq_of_lt hx
  have hcomp : ∀ (t : State) b, (t.setField (Field.comp n) 1).bit (Reg.tstat n) b =
      (t.bit (Reg.tstat n) b || decide (b = t.params.regMap.lo (.comp n))) := by
    intro t b
    refine (t.getLsbD_setField_flag (f := .comp n) rfl (fun _ => rfl) 1 b).trans ?_
    by_cases hb : b = t.params.regMap.lo (.comp n)
    · rw [if_pos hb, hb]
      simp
    · rw [if_neg hb]
      simp only [hb, decide_false, Bool.or_false]
      rfl
  have tne : Reg.tcn n ≠ Reg.tstat n := by cases n <;> decide
  have tc : ∀ (t : State) x, TouchesOnly [Reg.tcn n] t (t.setField (Field.count n) x) := fun t x =>
    t.setField_touchesOnly (Field.count n) x
  have ts : ∀ (t : State), TouchesOnly [Reg.tstat n] t (t.setField (Field.comp n) 1) := fun t =>
    t.setField_touchesOnly (Field.comp n) 1
  have r1 : Reg.ipr ∉ timerRegs n := by cases n <;> decide
  have r2 : Reg.isr ∉ timerRegs n := by cases n <;> decide
  have r3 : Reg.imr ∉ timerRegs n := by cases n <;> decide
  have r4 : Reg.pllcr ∉ timerRegs n := by cases n <;> decide
  have r5 : Reg.pdirqeg ∉ timerRegs n := by cases n <;> decide
  have m1 : ∀ r ∈ [Reg.tcn n], r ∈ timerRegs n := by simp [timerRegs]
  have m2 : ∀ r ∈ [Reg.tstat n], r ∈ timerRegs n := by simp [timerRegs]
  have q1 : Reg.tstat n ∉ [Reg.ipr, .isr] := by cases n <;> decide
  have q2 : Reg.tctl n ∉ timerRegs n := by cases n <;> decide
  obtain ⟨d, hd⟩ : ∃ d, d = F64.sub (s.timerSum n) (F64.ofNat (s.timerSum n).floor) := ⟨_, rfl⟩
  obtain ⟨t, ht⟩ : ∃ t, t = s.setTimerAcc n d := ⟨_, rfl⟩
  have hrf : t.rf = s.rf := by rw [ht]; cases n <;> rfl
  have hpar : t.params = s.params := by rw [ht]; cases n <;> rfl
  have hreg : ∀ q, t.reg q = s.reg q := fun q => by simp only [State.reg, hrf, hpar]
  have hfld : ∀ f, t.field f = s.field f := fun f => State.field_congr hpar (hreg _)
  have hflg : ∀ f, t.flag f = s.flag f := fun f => State.flag_congr (hfld f)
  have hsame : SameButPending s t := ⟨hpar, fun q _ _ => hreg q⟩
  have hwk : t.wakeCountdown = s.wakeCountdown := by rw [ht]; cases n <;> rfl
  have hunits : d = ⟨(s.timerSum n).units % F64.one⟩ := by
    have := F64.sub_floor (s.timerSum n) (F64.fits_add _ _)
    rw [← hd] at this
    cases d
    exact congrArg F64.mk this
  have e := s.timerTick_eq n
  rw [← hd] at e
  simp only [← ht] at e
  -- the state as the tick leaves it, with the accumulator of `s`
  have back : ∀ w : State, (∃ rs, TouchesOnly rs t w) → w = ({ w with timerAcc1 := s.timerAcc1, timerAcc2 := s.timerAcc2 } : State).setTimerAcc n (w.timerAcc n) := by
    rintro w ⟨rs, -, hw⟩
    rw [hw, ht]
    cases n <;> rfl
  have back2 : ∀ (rs : List Reg) (w : State), TouchesOnly rs t w →
      TouchesOnly rs s { w with timerAcc1 := s.timerAcc1, timerAcc2 := s.timerAcc2 } := by
    rintro rs w ⟨h1, h2⟩
    rw [hpar] at h1
    refine ⟨by rw [← hrf]; exact h1, ?_⟩
    rw [h2, ht]
    cases n <;> rfl
  have acc : ∀ (rs : List Reg) (w : State), TouchesOnly rs t w → w.timerAcc n = d := by
    rintro rs w ⟨-, h2⟩
    rw [h2, ht]
    cases n <;> rfl
  have part : ∀ (b : Bool) (w : State), TickPart (timerRegs n) (s.source (.timer n)) b t w →
      TickPart (timerRegs n) (s.source (.timer n)) b s w := by
    intro b w h
    have hb := h.bytes
    rw [hpar] at hb
    refine ⟨h.params.trans hpar, by rw [← hrf]; exact hb, fun b => ?_, ?_, ?_⟩
    · rw [h.pending]
      simp only [State.bit, hreg]
    · have e1 : t.wakes (s.source (.timer n)) = s.wakes (s.source (.timer n)) := hsame.wakes _
      have e2 : ∀ c, t.armed c = s.armed c := fun c => by
        unfold State.armed
        rw [hflg, hfld, hwk]
      rw [h.wake, e1, e2]
    · rw [← hreg .isr]
      exact h.isr
  cases hten : s.flag (Field.ten n)
  · have hs : s.timerTick n = s := by rw [e, hten]; rfl
    have hc : s.timerCrosses n = false := by simp [State.timerCrosses, hten]
    refine ⟨⟨s, .refl _ s, ?_⟩, ?_, fun _ => hs, fun h => absurd h (by decide)⟩
    · rw [hs]
      cases n <;> rfl
    · rw [hs, hc]
      exact .of_touchesOnly _ (.refl _ s) rfl r1 r2
  · rw [hten, if_pos rfl] at e
    cases hc : s.timerCrosses n
    · rw [hc] at e
      simp only [Bool.false_eq_true, if_false] at e
      have hT := tc t (s.timerNew n)
      rw [← e] at hT
      refine ⟨⟨_, (back2 _ _ hT).mono (by simp [timerRegs]), back _ ⟨_, hT⟩⟩, ?_, fun h => absurd h (by decide),
        fun _ => ⟨?_, ?_, fun b => ?_⟩⟩
      · refine part _ _ ?_
        rw [Bool.false_and]
        exact .of_touchesOnly _ (hT.mono m1) (by rw [e]; rfl) r1 r2
      · rw [acc _ _ hT, hunits]
      · have hnew : s.timerNew n < 65536 := Nat.mod_lt _ (by decide)
        rw [e, hcount _ _ hnew]
        simp
      · rw [hT.bit (by simp [tne.symm]), State.bit, hreg]
        simp [State.bit]
    · rw [hc, if_pos rfl] at e
      have hx : s.timerCrosses n = true := hc
      simp only [State.timerCrosses, hten, Bool.true_and, crossed, Bool.and_eq_true, decide_eq_true_eq] at hx
      have hnew : s.timerNew n < 65536 := Nat.mod_lt _ (by decide)
      have hval : (if s.flag (Field.frr n) then s.timerNew n
          else (s.timerNew n + 65536 - s.field (Field.compare n)) % 65536) =
          if (true && !s.flag (Field.frr n)) = true then s.timerNew n - s.field (Field.compare n)
          else s.timerNew n := by
        cases s.flag (Field.frr n) <;> simp
        omega
      rw [hval] at e
      obtain ⟨x, hxv⟩ : ∃ x, x = if (true && !s.flag (Field.frr n)) = true then
        s.timerNew n - s.field (Field.compare n) else s.timerNew n := ⟨_, rfl⟩
      have hxlt : x < 65536 := by
        rw [hxv]
        split <;> omega
      rw [← hxv] at e
      obtain ⟨c, hcdef⟩ : ∃ c, c = t.setField (Field.comp n) 1 := ⟨_, rfl⟩
      have hcT : TouchesOnly [Reg.tstat n] t c := hcdef ▸ ts t
      have hirq : c.flag (Field.irqen n) = s.flag (Field.irqen n) := by
        rw [hcT.flag (by cases n <;> decide), hflg]
      obtain ⟨g, hg⟩ : ∃ g, g = t.timerMatch n := ⟨_, rfl⟩
      have hge : g = if s.flag (Field.irqen n) then c.raiseSource (s.source (.timer n)) else c := by
        have hsrc : s.source (.timer n) = c.source (.timer n) := by rw [hcT.source, hsame.source]
        rw [hg, ← hirq, hsrc, hcdef]
        rfl
      rw [← hg] at e
      have hgT : TouchesOnly (.ipr :: .isr :: timerRegs n) t g := by
        rw [hge]
        split
        · exact (hcT.mono (by simp [timerRegs])).trans ((c.raiseSource_spec _).1.mono (by simp))
        · exact hcT.mono (by simp [timerRegs])
      have hgP : TickPart (timerRegs n) (s.source (.timer n)) (s.flag (Field.irqen n)) t g := by
        rw [hge]
        cases s.flag (Field.irqen n)
        · exact .of_touchesOnly _ (hcT.mono m2) (by rw [hcdef]; rfl) r1 r2
        · exact .raise _ (hcT.mono m2) (by rw [hcdef]; rfl) r1 r3 r4 r5
      have hlast := tc g x
      rw [← e] at hlast
      have hT : TouchesOnly (.ipr :: .isr :: timerRegs n) t (s.timerTick n) := hgT.trans (hlast.mono (by simp [timerRegs]))
      have hwk2 : (s.timerTick n).wakeCountdown = g.wakeCountdown := by rw [e]; rfl
      refine ⟨⟨_, back2 _ _ hT, back _ ⟨_, hT⟩⟩, ?_, fun h => absurd h (by decide), fun _ => ⟨?_, ?_, fun b => ?_⟩⟩
      · refine part _ _ ?_
        rw [Bool.true_and]
        have rt1 : Reg.ipr ∉ [Reg.tcn n] := by cases n <;> decide
        have rt2 : Reg.isr ∉ [Reg.tcn n] := by cases n <;> decide
        have rt3 : Reg.imr ∉ [Reg.tcn n] := by cases n <;> decide
        refine ⟨hT.params, hT.1, fun b => ?_, ?_, fun h => ?_, fun h => ?_⟩
        · rw [hlast.bit rt1, hgP.pending]
        · rw [hwk2, hgP.wake]
        · rw [hlast.reg rt2, hgP.isr.1 h]
        · rw [hlast.reg rt2, hlast.reg rt1, hlast.reg rt3, hgP.isr.2 h]
      · rw [acc _ _ hT, hunits]
      · rw [e, hcount _ _ hxlt, hxv]
      · have hgb : g.bit (Reg.tstat n) b = c.bit (Reg.tstat n) b := by
          rw [hge]
          split
          · exact (c.raiseSource_spec _).1.bit q1 b
          · rfl
        rw [hlast.bit (by simp [tne.symm]), hgb, hcdef, hcomp, hpar]
        simp only [State.bit, hreg, Bool.and_true]

end Sys2Proof.Machine
end

