-- ==== Sys2Proof/Tests/Slice0.lean ====
section
/-! SUPPORT. Tests on fixed values: the refusals of WellFormed, one written-out descriptor for every operation, one or two
small steps for every operation (the numbers come from spec/95_test_vectors.md or from the rule named), and for every
obligation with hypotheses a state and operands that meet them. -/

namespace Sys2Proof.Tests

-- One theorem at a time: each kernel evaluation would otherwise wait in a thread of its own, with its own stack.
set_option Elab.async false

open Sys2Proof Sys2Proof.Machine Sys2Proof.Claims

/-! Helpers -/

/-- The reset state with some registers set. -/
def withRegs (l : List (Reg × Word)) : State := l.foldl (fun s p => s.setReg p.1 p.2) State.reset

/-- The state after an operation; the same state where it is refused. -/
def after (i : Instr) (s : State) : State :=
  match exec i s with
  | .next t => t
  | _ => s

/-- The state after `n` TICKs from `s`. -/
def ticksFrom (s : State) : Nat → State
  | 0 => s
  | n + 1 => after .tick (ticksFrom s n)

/-- A row of another `REGMAP`: TCMP1 moves to 0x700 and its top nibble is not writable, DAYR counts 7 bits from bit 2 on,
DMAP and SO change places in SCR, PRESC1 and PRESC2 have 2 and 3 bits, and CLKSOURCE of timer 2 has 4; every other row as in
R27. -/
def otherRow (e : RegRow) : RegRow :=
  match e.reg with
  | .tcmp1 => { e with offset := 0x700, wmask := 0x0FFF }
  | .pllcr => { e with
      fields := [⟨.sysclksel, 8, 3⟩, ⟨.presc1, 6, 2⟩, ⟨.presc2, 12, 3⟩, ⟨.clken, 4, 1⟩, ⟨.displl, 3, 1⟩, ⟨.wksel, 0, 2⟩] }
  | .tctl2 => { e with
      fields := [⟨.ten .t2, 0, 1⟩, ⟨.clksource .t2, 9, 4⟩, ⟨.irqen .t2, 4, 1⟩, ⟨.om .t2, 5, 1⟩, ⟨.cap .t2, 6, 2⟩,
        ⟨.frr .t2, 8, 1⟩] }
  | .dayr => { e with wmask := 0x01FC, fields := [⟨.days, 2, 7⟩] }
  | .scr => { e with fields := [⟨.beto, 7, 1⟩, ⟨.wpv, 6, 1⟩, ⟨.prv, 5, 1⟩, ⟨.beten, 4, 1⟩, ⟨.dmap, 3, 1⟩, ⟨.so, 2, 1⟩, ⟨.wdth8, 0, 1⟩] }
  | _ => e

/-- Another `REGMAP`. -/
def otherMap : RegMap := ⟨⟨defaultRegTable.rows.map otherRow⟩, by decide +kernel⟩

/-- A row of another `SOURCES`: TMR1 at bit 31 with level 3; every other row as in R28. -/
def otherSource (x : SourceRow) : SourceRow :=
  match x.name with
  | .tmr1 => { x with bit := 31, level := .fixed 3 }
  | _ => x

/-- Another `SOURCES`, with all 27 names: five external sources at bits that R28 leaves free. -/
def otherSources : Sources :=
  ⟨defaultSourceRows.map otherSource ++
    [⟨.unnamed1, 14, .fixed 7, .always, .external⟩, ⟨.unnamed2, 15, .fixed 5, .never, .external⟩,
     ⟨.unnamed3, 24, .prog 1, .always, .external⟩, ⟨.unnamed4, 25, .fixed 2, .always, .external⟩,
     ⟨.unnamed5, 26, .fixed 1, .always, .external⟩], by decide +kernel⟩

/-- Parameters other than the default ones: another map and source table, the top nibble 3, an address block, a base of its
own, and a reset image with CSA.EN and a fault flag set. -/
def otherParams : Params :=
  { Params.default with
    regMap := otherMap, sources := otherSources, levelsListed := by decide +kernel
    periphNibble := 3, pseudoBlock := [⟨0xFF000000, 0x35000000⟩], csBase := .other 4
    presc1Div := ⟨[3, 5, 2, 6]⟩, presc1Covered := by decide +kernel
    timerSrc := ⟨Params.default.timerSrc.kinds ++ List.replicate 8 .sysclk⟩, timerSrcCovered := by decide +kernel
    resetImage := [(0x111, 1), (0x000, 0x40)], imageOwned := by decide +kernel }

/-- The reset state under the other parameters. -/
def otherState : State := { State.reset with params := otherParams }

/-- The row of a name in a source table. -/
def rowOf (t : Sources) (x : Source) : SourceRow := (t.named? x).getD ⟨.spi2, 0, .fixed 0, .never, .external⟩

/-- The operand record with every input present, and the numbers of the tests. -/
def someOperand : Operand :=
  { addr := 0xFFFFF604, value := 0xEF, days := 511, hours := 23, minutes := 59, seconds := 58
    inputs := ⟨some true, some false, some true, some false, some true⟩, source := .uart2 }

/-- The reset state with one request waiting. -/
def waiting (q : Request) : State := { State.reset with requests := [q] }

theorem tick_runs (s : State) : exec .tick s = .next (after .tick s) := rfl

theorem ticks_ticksFrom (s : State) : Ticks (ticksFrom s) := fun _ => rfl

/-! WellFormed: its check refuses a term of its own for each limit (R94, R236; V44.13). A day count that is too great and a
name that is no external source are refused by the operations themselves (`test_setRtc_days`, `test_extIrq_refused`). -/

theorem test_wf_hours : (Instr.setRtc 0 24 0 0).illFormed = some .rtcOutOfRange := by decide
theorem test_wf_minutes : (Instr.setRtc 0 0 60 0).illFormed = some .rtcOutOfRange := by decide
theorem test_wf_seconds : (Instr.setRtc 0 0 0 60).illFormed = some .rtcOutOfRange := by decide
theorem test_wf_rtc_limits : (Instr.setRtc 511 23 59 59).wf = true := by decide
/-! Decode: descriptors written out from the table of spec/30_encoding.md -/

theorem test_decode_read8 : decode ⟨0b00000000, someOperand⟩ = .ok (.read8 0xFFFFF604) := by decide
theorem test_decode_read16 : decode ⟨0b00000001, someOperand⟩ = .ok (.read16 0xFFFFF604) := by decide
theorem test_decode_read32 : decode ⟨0b00000010, someOperand⟩ = .ok (.read32 0xFFFFF604) := by decide
theorem test_decode_write8 : decode ⟨0b00010000, someOperand⟩ = .ok (.write8 0xFFFFF604 0xEF) := by decide
theorem test_decode_write16 :
    decode ⟨0b00010001, { someOperand with value := 0xCDEF }⟩ = .ok (.write16 0xFFFFF604 0xCDEF) := by decide
theorem test_decode_write32 :
    decode ⟨0b00010010, { someOperand with value := 0x89ABCDEF }⟩ = .ok (.write32 0xFFFFF604 0x89ABCDEF) := by decide

/-- R92: a value of more than 8n bits is no operand of a WRITE. -/
theorem test_decode_wide :
    decode ⟨0x10, { someOperand with value := 0x100 }⟩ = .error .valueTooWide ∧
      decode ⟨0x11, { someOperand with value := 0x10000 }⟩ = .error .valueTooWide := by decide
theorem test_decode_tick : decode ⟨0b00100000, someOperand⟩ = .ok .tick := by decide
theorem test_decode_resetAll : decode ⟨0b00110000, someOperand⟩ = .ok .resetAll := by decide
theorem test_decode_iack : decode ⟨0b01000111, someOperand⟩ = .ok (.iack 7) := by decide
theorem test_decode_isSysclkRunning : decode ⟨0b01010000, someOperand⟩ = .ok .isSysclkRunning := by decide
theorem test_decode_isRegWindowRelocated : decode ⟨0b01010001, someOperand⟩ = .ok .isRegWindowRelocated := by decide
theorem test_decode_setRtc : decode ⟨0b01100000, someOperand⟩ = .ok (.setRtc 511 23 59 58) := by decide
theorem test_decode_inputChange :
    decode ⟨0b01110000, someOperand⟩ = .ok (.inputChange ⟨true, false, true, false, true⟩) := by decide
theorem test_decode_setLowPowerStop : decode ⟨0b10000000, someOperand⟩ = .ok .setLowPowerStop := by decide
theorem test_decode_busFaultWpv : decode ⟨0b10010000, someOperand⟩ = .ok .busFaultWpv := by decide
theorem test_decode_busFaultBeto : decode ⟨0b10010001, someOperand⟩ = .ok .busFaultBeto := by decide
theorem test_decode_busFaultPrv : decode ⟨0b10010010, someOperand⟩ = .ok .busFaultPrv := by decide
theorem test_decode_extIrq : decode ⟨0b10100001, someOperand⟩ = .ok (.extIrq .uart2 true) := by decide

/-- V30.3. -/
theorem test_decode_reserved :
    [0x03, 0x13, 0x21, 0x48, 0x52, 0x93, 0xA2, 0xB0, 0xFF].all
      (fun d => decide (decode ⟨d, someOperand⟩ = .error (.reservedDescriptor d))) = true := by decide

/-- A missing field of the `inputs` record (R308). -/
theorem test_decode_incomplete :
    decode ⟨0x70, { someOperand with inputs := ⟨some true, some true, none, some true, some true⟩ }⟩ =
      .error .incompleteInputs := by decide

theorem test_table_word : decodeTableWord 8 0x46 = some (.iack 6) ∧ decodeTableWord 8 0x48 = none := by decide

theorem test_fetch_word : step (State.reset.withFetchWord 8 0x46) = exec (.iack 6) State.reset := rfl

/-! One or two small steps for every operation -/

/-- V40.5's read: IVR holds 0xF8. -/
theorem test_read8 : (after (.read8 0xFFFFF300) (withRegs [(.ivr, 0xF8)])).returned = .byte 0xF8 := by decide +kernel

/-- V47.3: outputs read their latch, inputs their pins. -/
theorem test_read8_pddata :
    (after (.read8 0xFFFFF419) (withRegs [(.pddir, 0x0F), (.pddata, 0x05)])).returned = .byte 0x85 := by
  decide +kernel

/-- V40.6: the byte after IVR is storage. -/
theorem test_read16 : (after (.read16 0xFFFFF300) (withRegs [(.ivr, 0x40)])).returned = .half 0x4000 := by
  decide +kernel

/-- V43.10: the read exposes the status. -/
theorem test_read16_tstat : (after (.read16 0xFFFFF60A) (withRegs [(.tstat1, 1)])).timerReadAck1 = 1 := by
  decide +kernel

/-- V40.10: two registers in one span. -/
theorem test_read32 : (after (.read32 0xFFFFF602) (withRegs [(.tcmp1, 0x1234)])).returned = .word 0x00001234 := by
  decide +kernel

/-- V40.7: one byte lane of IMR. -/
theorem test_write8_lane :
    (after (.write8 0xFFFFF307 0xFD) (withRegs [(.imr, 0x00FFFFFF)])).reg .imr = 0x00FFFFFD := by decide +kernel

/-- V48.3: a written 1 clears WPV. -/
theorem test_write8_scr : (after (.write8 0xFFFFF000 0x50) (withRegs [(.scr, 0x50)])).reg .scr = 0x10 := by
  decide +kernel

/-- V40.9: the span wraps from the last byte to SCR. -/
theorem test_write16_wraps :
    let t := after (.write16 0xFFFFFFFF 0x1234) State.reset
    t.rf.read 0xFFF = 0x12 ∧ t.reg .scr = 0x14 := by decide +kernel

/-- V42.5. -/
theorem test_write16_pllcr :
    (after (.write16 0xFFFFF200 0x0008) State.reset).events = [.shortenBudget 30, .setIpl 0] := by decide +kernel

/-- V40.8: a register and two bytes of storage. -/
theorem test_write32 :
    let t := after (.write32 0xFFFFF604 0x00051234) State.reset
    t.reg .tcmp1 = 5 ∧ t.rf.read 0x606 = 0x12 ∧ t.rf.read 0x607 = 0x34 := by decide +kernel

/-- V47.7, step 3: INT0 is edge-sensitive and pending; the written 1 clears it. -/
theorem test_write32_isr :
    (after (.write32 0xFFFFF30C 0x100) (withRegs [(.pdirqeg, 1), (.ipr, 0x100), (.isr, 0x100)])).reg .ipr = 0 := by
  decide +kernel

/-- V43.1. -/
theorem test_tick_timer :
    let t := after .tick (withRegs [(.tcn1, 30), (.tcmp1, 40), (.tctl1, 0x13)])
    t.reg .tcn1 = 5 ∧ t.reg .tstat1 = 1 ∧ t.events = [.setIpl 6] := by decide +kernel

/-- V44.1: the day rolls over. -/
theorem test_tick_day :
    let s := { withRegs [(.rtcctl, 0x80), (.rtcienr, 0x3A), (.rtctime, 0x173B003B), (.dayr, 5)] with tickCounter := 32767 }
    let t := after .tick s
    t.reg .dayr = 6 ∧ t.reg .rtctime = 0 ∧ t.reg .rtcisr = 0x3A ∧ t.events = [.setIpl 4] := by decide +kernel

/-- V70.1. -/
theorem test_resetAll :
    let t := after .resetAll (withRegs [(.pllfsr, 0x4010), (.ivr, 0x40)])
    t.reg .pllfsr = 0 ∧ t.bootMode = true ∧ t.wakeCountdown = -1 ∧ t.cpuIpl = 0 := by decide +kernel

/-- V41.1. -/
theorem test_iack : (after (.iack 6) (withRegs [(.ivr, 0x40)])).returned = .byte 0x46 := by decide +kernel
theorem test_iack_uninitialized : (after (.iack 7) State.reset).returned = .byte 15 := by decide +kernel

/-- V42.1, V42.5. -/
theorem test_isSysclkRunning :
    (after .isSysclkRunning State.reset).returned = .bool true ∧
      (after .isSysclkRunning (withRegs [(.pllcr, 8)])).returned = .bool false := by decide +kernel

/-- V48.4. -/
theorem test_isRegWindowRelocated :
    (after .isRegWindowRelocated (withRegs [(.scr, 4)])).returned = .bool true := by decide +kernel

/-- P2, step 4. -/
theorem test_setRtc :
    let t := after (.setRtc 0 0 10 59) State.reset
    t.reg .rtctime = 0x000A003B ∧ t.events = [] := by decide +kernel

/-- V47.6: a pressed row of an enabled column raises KB, and its release clears it. -/
theorem test_inputChange :
    let t := after (.inputChange ⟨false, true, false, false, false⟩) (withRegs [(.pdkben, 1)])
    t.pending (t.source .keyboard) = true ∧ (after (.inputChange noInputs) t).events = [.setIpl 0] := by decide +kernel

/-- V48.5. -/
theorem test_setLowPowerStop :
    (after .setLowPowerStop State.reset).lowPowerStop = true ∧
      (after (.iack 4) (after .setLowPowerStop State.reset)).lowPowerStop = false := by decide +kernel

/-- V48.1. -/
theorem test_busFaultWpv :
    let t := after .busFaultWpv (withRegs [(.scr, 0x10)])
    t.reg .scr = 0x50 ∧ t.events = [.busError .wpv] := by decide +kernel

/-- R332, with BETEN set. -/
theorem test_busFaultBeto :
    let t := after .busFaultBeto (withRegs [(.scr, 0x10)])
    t.reg .scr = 0x90 ∧ t.events = [.busError .beto] := by decide +kernel

/-- V48.2. -/
theorem test_busFaultPrv :
    let t := after .busFaultPrv State.reset
    t.reg .scr = 0x20 ∧ t.events = [] := by decide +kernel

/-- V41.2, step 2. -/
theorem test_extIrq :
    let t := after (.extIrq .pwm1 true) (after (.extIrq .spi2 true) State.reset)
    t.reg .ipr = 0x81 ∧ t.events = [.setIpl 6] := by decide +kernel

/-- R7: the operations read the state's parameters, not the defaults. -/
theorem test_params :
    otherState.reaches 0x3000F000 = true ∧ otherState.reaches 0xFFFFF000 = false ∧ otherState.reaches 0x35000000 = false ∧
      otherState.dmaclkPerTick.bits = 0x4024000000000000 ∧ (after .resetAll otherState).reg .csa = 1 ∧
      (after .resetAll otherState).bootMode = true ∧ (after .resetAll otherState).params = otherParams := by decide +kernel

/-- R95: the default table is a map, and so is every map's table. -/
theorem test_ofTable_accepts (k : RegMap) : RegMap.ofTable? k.toRegTable = some k := dif_pos k.wf

/-- R95: a table with two registers on one byte, one with a register that ends outside the window, and one without a
register are refused. -/
theorem test_ofTable_refuses :
    RegMap.ofTable? ⟨⟨.ivr, 0, 1, 0xF8, [⟨.vector, 3, 5⟩]⟩ :: defaultRegTable.rows⟩ = none ∧
      RegMap.ofTable? ⟨⟨.scr, 4096, 1, 0, []⟩ :: defaultRegTable.rows⟩ = none ∧
      RegMap.ofTable? ⟨defaultRegTable.rows.tail⟩ = none := by decide +kernel

/-- R7, R79, R96: another offset, another write mask and other fields. TCMP1 is stored at 0x700 under its mask, its old
place is plain storage, and a 1 written to SCR's bit 3 is DMAP. -/
theorem test_map :
    (after (.write16 0x3000F700 0xABCD) otherState).reg .tcmp1 = 0x0BCD ∧
      (after (.write16 0x3000F604 0xABCD) otherState).reg .tcmp1 = 0 ∧
      (after (.write16 0x3000F604 0xABCD) otherState).rf.read 0x604 = 0xAB ∧
      (after .isRegWindowRelocated (after (.write8 0x3000F000 0x08) otherState)).returned = .bool true ∧
      (after (.setRtc 100 0 0 0) otherState).reg .dayr = 400 := by decide +kernel

/-- R7, R96: fields wider than the default ones. Code 3 of a 2-bit PRESC1 divides by 6, and code 9 of a 4-bit CLKSOURCE is the
system clock, 5 cycles a tick with PRESC1 code 0. -/
theorem test_widths :
    (otherState.setReg .pllcr 0x00C0).dmaclkPerTick.bits = 0x4014000000000000 ∧
      (after .tick (otherState.setReg .tctl2 0x1201)).reg .tcn2 = 5 := by decide +kernel

/-- R7, R28: another source table. A name that the default table does not have is an external source, at its own bit and
level, which its wake kind keeps from waking; and TMR1 is raised at another bit with another level. -/
theorem test_sources :
    let t := after (.extIrq .unnamed2 true) (otherState.setReg .pllcr 0x8)
    let u := after .tick (((otherState.setReg .tctl1 0x13).setReg .tcn1 38).setReg .tcmp1 40)
    t.reg .ipr = 0x8000 ∧ t.events = [.setIpl 5] ∧ t.wakeCountdown = -1 ∧
      u.reg .ipr = 0x80000000 ∧ u.events = [.setIpl 3] := by decide +kernel

/-- R236: the width of the day counter. -/
theorem test_setRtc_days :
    exec (.setRtc 512 0 0 0) State.reset = .refused .rtcOutOfRange ∧
      exec (.setRtc 128 0 0 0) otherState = .refused .rtcOutOfRange := ⟨rfl, rfl⟩

/-- V41.8; and a name without a row. -/
theorem test_extIrq_refused :
    exec (.extIrq .tmr1 true) State.reset = .refused (.notExternalRequest .tmr1) ∧
      exec (.extIrq .unnamed2 true) State.reset = .refused (.notExternalRequest .unnamed2) := ⟨rfl, rfl⟩

/-! The rates and the bank formulas -/

/-- V42.2, V42.3: the bit patterns of 1012.0 and 63.25. -/
theorem test_rates :
    (withRegs [(.pllfsr, 0x0123)]).dmaclkPerTick.bits = 0x408FA00000000000 ∧
      (withRegs [(.pllfsr, 0x0123), (.pllcr, 0x0300)]).sysclkPerTick.bits = 0x404FA00000000000 := by decide +kernel

/-- S2, V46.1. -/
theorem test_bank :
    let c := describeChips Params.default (withRegs [(.csugba, 0x8100), (.csgbb, 0x2000), (.csb, 0x0005)]).rf false
    c.sed.enabled = true ∧ c.sed.base = 0x24000000 ∧ c.sed.size = 0x80000 := by decide +kernel

/-! Witnesses: for every obligation with hypotheses, a state and operands that meet them, clause by clause. The second
equations are `exec`'s own answers, so that no witness is of an operation that is refused. -/

/-- The state after a step; the same state where it is refused. -/
def stepped (s : State) : State :=
  match step s with
  | .next t => t
  | _ => s

/-- A watchdog in reset mode one second before its expiry, at a second boundary. -/
def aborting : State := { withRegs [(.watchdog, 0x0101)] with tickCounter := 32767 }

/-- An enabled RTC with its events enabled, at a second boundary. -/
def secondAt (time day : Word) : State :=
  { withRegs [(.rtcctl, 0x80), (.rtcienr, 0xFF3F), (.rtctime, time), (.dayr, day)] with tickCounter := 32767 }

/-- An enabled watchdog in interrupt mode that has counted `n` seconds, at a second boundary. -/
def watching (n : Word) : State := { withRegs [(.watchdog, 0x0003 ||| n <<< 8)] with tickCounter := 32767 }

/-- An edge-sensitive INT0 that is pending and active. -/
def edgePending : State := withRegs [(.pdirqeg, 1), (.ipr, 0x100), (.isr, 0x100)]

theorem aborting_aborts : Aborts aborting := by
  unfold Aborts WatchdogExpires Boundary; decide +kernel

theorem reset_runs_through : ¬Aborts State.reset := by
  unfold Aborts WatchdogExpires Boundary; decide +kernel

theorem witness_DecodeEncode :
    (Instr.setRtc 511 23 59 59).wf = true ∧ (Instr.extIrq .emiq true).wf = true ∧
      decode ⟨0x60, someOperand⟩ = .ok (.setRtc 511 23 59 58) := by decide

theorem witness_RefusedRequests_reserved :
    Reserved 0x03 ∧ Reserved 0x13 ∧ Reserved 0x21 ∧ Reserved 0x48 ∧ Reserved 0x52 ∧ Reserved 0x93 ∧ Reserved 0xA2 ∧
      Reserved 0xB0 ∧ Reserved 0xFF := by
  refine ⟨?_, ?_, ?_, ?_, ?_, ?_, ?_, ?_, ?_⟩ <;> simp [Reserved]

theorem witness_RefusedRequests_reserved_step :
    step (waiting ⟨0x48, someOperand⟩) = .refused (.reservedDescriptor 0x48) := by rfl

/-- An hour too many; a missing input; a timer's source; values too wide; a day too many. -/
theorem witness_RefusedRequests_operands :
    step (waiting ⟨0x60, { someOperand with hours := 24 }⟩) = .refused .rtcOutOfRange ∧
      step (waiting ⟨0x70, { someOperand with inputs := ⟨none, some true, some true, some true, some true⟩ }⟩) =
        .refused .incompleteInputs ∧
      step (waiting ⟨0xA1, { someOperand with source := .tmr1 }⟩) = .refused (.notExternalRequest .tmr1) ∧
      step (waiting ⟨0x10, { someOperand with value := 0x100 }⟩) = .refused .valueTooWide ∧
      step (waiting ⟨0x11, { someOperand with value := 0x10000 }⟩) = .refused .valueTooWide ∧
      step (waiting ⟨0x60, { someOperand with days := 512 }⟩) = .refused .rtcOutOfRange ∧
      (waiting ⟨0x60, someOperand⟩).params.sources = .default :=
  ⟨rfl, rfl, rfl, rfl, rfl, rfl, rfl⟩

theorem witness_RefusedRequests_performed :
    ¬Reserved 0x47 ∧ step (waiting ⟨0x47, someOperand⟩) = exec (.iack 7) State.reset ∧
      step (waiting ⟨0x60, { someOperand with seconds := 59 }⟩) = exec (.setRtc 511 23 59 59) State.reset :=
  ⟨by simp [Reserved], rfl, rfl⟩

theorem witness_StepPerformsRequest :
    State.reset.requests = [] ∧ (waiting (encode .tick)).requests = [encode .tick] ∧
      decode (encode .tick) = .ok .tick := by decide

/-- For the invariants kept by every step: a legal state in which a step is taken. -/
theorem witness_step :
    (waiting (encode (.write8 0xFFFFF607 1))).Legal ∧ (waiting (encode (.write8 0xFFFFF607 1))).iplCurrent ∧
      step (waiting (encode (.write8 0xFFFFF607 1))) = .next (stepped (waiting (encode (.write8 0xFFFFF607 1)))) :=
  ⟨⟨by decide +kernel, by decide +kernel, by decide +kernel, by decide +kernel, rfl, rfl⟩,
    by decide +kernel, rfl⟩

/-- The step of `witness_step` stores its byte. -/
theorem witness_step_stores : (stepped (waiting (encode (.write8 0xFFFFF607 1)))).rf.read 0x607 = 1 := by decide +kernel

theorem witness_StepKeepsIsr_changed :
    (after (.extIrq .spi2 true) State.reset).reg .ipr ≠ State.reset.reg .ipr ∧
      (after (.write32 0xFFFFF304 0xFF) State.reset).reg .imr ≠ State.reset.reg .imr := by decide +kernel

theorem witness_StepKeepsUnownedBitsClear :
    (∀ x ∈ Params.default.sources.rows, x.bit.val ≠ 31) ∧ (∃ x ∈ otherParams.sources.rows, x.bit.val = 31) :=
  ⟨by decide, by decide⟩

theorem witness_LevelStaysCurrent :
    State.reset.iplCurrent ∧ Event.systemReset ∉ (after (.extIrq .emiq true) State.reset).events := by decide +kernel

theorem witness_LevelIsTheMaximum_delivers :
    Delivers (.write32 0xFFFFFFFF 0) State.reset ∧ Delivers .tick State.reset ∧ Delivers .resetAll State.reset ∧
      Delivers (.inputChange noInputs) State.reset ∧ Delivers (.extIrq .emiq true) State.reset :=
  ⟨.inl ⟨_, _, _, rfl, by decide⟩, .inr (.inl ⟨rfl, reset_runs_through⟩), .inr (.inr (.inl rfl)),
    .inr (.inr (.inr (.inl ⟨_, rfl⟩))), .inr (.inr (.inr (.inr ⟨_, _, rfl⟩)))⟩

theorem witness_LevelIsTheMaximum_active :
    (after (.extIrq .emiq true) State.reset).active (rowOf .default .emiq) = true ∧
      (after (.extIrq .emiq true) State.reset).cpuIpl = 7 ∧
      State.reset.params.regMap = .default ∧ State.reset.params.sources = .default := by decide +kernel

theorem witness_LevelIsTheMaximum_other :
    ¬Delivers (.read8 0xFFFFF300) State.reset ∧ ¬Delivers .tick aborting ∧ ¬Delivers (.write8 0xEFFFF000 0) State.reset := by
  refine ⟨?_, ?_, ?_⟩
  · rintro (⟨_, _, _, h, -⟩ | ⟨h, -⟩ | h | ⟨_, h⟩ | ⟨_, _, h⟩) <;> cases h
  · rintro (⟨_, _, _, h, -⟩ | ⟨-, h⟩ | h | ⟨_, h⟩ | ⟨_, _, h⟩) <;> first | cases h | exact h aborting_aborts
  · rintro (⟨_, _, _, h, g⟩ | ⟨h, -⟩ | h | ⟨_, h⟩ | ⟨_, _, h⟩) <;> cases h
    exact absurd g (by decide)

theorem witness_ErrorEvents :
    Event.busError .wpv ∈ (after .busFaultWpv (withRegs [(.scr, 0x10)])).events ∧
      Event.systemReset ∈ (after .tick aborting).events := by decide +kernel

/-- A pending flag changes, owner by owner. -/
theorem witness_PendingChangesByOwner :
    (after (.extIrq .spi2 true) State.reset).pending (rowOf .default .spi2) ≠
          State.reset.pending (rowOf .default .spi2) ∧
      (after (.write16 0xFFFFF60A 0) { withRegs [(.tstat1, 1), (.ipr, 2)] with timerReadAck1 := 1 }).pending
          (State.reset.source (.timer .t1)) = false ∧
      (after .tick (watching 1)).pending (State.reset.source .watchdog) = true ∧
      (after .tick (secondAt 0 0)).pending (State.reset.source .rtcSecond) = true ∧
      (after .tick (secondAt 0 0)).pending (State.reset.source .ladder) = true ∧
      (after (.inputChange ⟨false, true, false, false, false⟩) (withRegs [(.pdkben, 1)])).pending
          (State.reset.source .keyboard) = true ∧
      (after (.write32 0xFFFFF30C 0x100) edgePending).pending (State.reset.pinSource 0) = false := by decide +kernel

theorem witness_FaultFlagsSticky :
    exec (.write8 0xFFFFF000 0x40) (withRegs [(.scr, 0x40)]) = .next (after (.write8 0xFFFFF000 0x40) (withRegs [(.scr, 0x40)])) ∧
      (withRegs [(.scr, 0x40)]).bit .scr (faultBit State.reset .wpv) = true := ⟨rfl, by decide +kernel⟩

theorem witness_BootModeOneWay :
    WritesTo State.reset (.write16 0xFFFFF110 1) .csa ∧ (after (.write16 0xFFFFF110 1) State.reset).field (Field.csEn .rom) = 1 ∧
      (after (.write16 0xFFFFF110 1) State.reset).bootMode = false :=
  ⟨⟨_, _, _, rfl, by decide, 0, by decide, by unfold Owns; decide⟩, by decide +kernel, by decide +kernel⟩

theorem witness_LowPowerStopFlag :
    exec .tick { State.reset with lowPowerStop := true } = .next (after .tick { State.reset with lowPowerStop := true }) :=
  rfl

theorem witness_ProtectedFrequencyStays :
    Instr.write16 0xFFFFF202 0 ≠ .resetAll ∧ (withRegs [(.pllfsr, 0x4010)]).field Field.prot = 1 ∧
      exec (.write16 0xFFFFF202 0) (withRegs [(.pllfsr, 0x4010)]) =
        .next (after (.write16 0xFFFFF202 0) (withRegs [(.pllfsr, 0x4010)])) :=
  ⟨by decide, by decide +kernel, rfl⟩

theorem witness_ReadOnlyRegisters :
    Inside State.reset .ipr 0xFFFFF310 4 ∧ Inside State.reset .ipr 0xFFFFF313 1 ∧ Inside State.reset .tcn1 0xFFFFF608 2 ∧ Inside State.reset .tcn2 0xFFFFF619 1 ∧
      exec (.write16 0xFFFFF608 7) State.reset = .next (after (.write16 0xFFFFF608 7) State.reset) := by
  refine ⟨?_, ?_, ?_, ?_, rfl⟩ <;> unfold Inside <;> decide

theorem witness_TickIgnoresInputs : exec .tick State.reset = .next (after .tick State.reset) := rfl

/-- The default image; the default parameters; another image. -/
theorem witness_ResetAll :
    aborting.params.resetImage = [] ∧ aborting.params = Params.default ∧
      (after .resetAll otherState).reg .scr = 0x40 := by decide +kernel

theorem witness_ResetRates : aborting.params = Params.default ∧ exec .resetAll aborting = .next (after .resetAll aborting) := ⟨rfl, rfl⟩

theorem witness_ExtIrq :
    (rowOf .default .tmr1).owner ≠ .external ∧ (rowOf .default .irq6).owner ≠ .external ∧
      (∀ y ∈ Sources.default.rows, y.name ≠ .unnamed1) ∧
      (∃ y ∈ Sources.default.rows, y.name = .spi2 ∧ y.owner = .external) ∧
      ∃ y ∈ otherSources.rows, y.name = .unnamed1 ∧ y.owner = .external := by decide

/-- The wake of R131 in EXT_IRQ: an unmasked raise arms the idle countdown of a PLL that is off, a masked one does not. -/
theorem witness_ExtIrq_wake :
    (after (.extIrq .spi2 true) (withRegs [(.pllcr, 0x8)])).wakeCountdown = 32 ∧
      (after (.extIrq .spi2 true) (withRegs [(.pllcr, 0x8), (.imr, 1)])).wakeCountdown = -1 := by decide +kernel

theorem witness_SetRtc :
    exec (.setRtc 512 0 0 0) State.reset = .refused .rtcOutOfRange ∧ exec (.setRtc 0 24 0 0) State.reset = .refused .rtcOutOfRange ∧
      exec (.setRtc 0 0 60 0) State.reset = .refused .rtcOutOfRange ∧
      exec (.setRtc 0 0 0 60) State.reset = .refused .rtcOutOfRange ∧
      (after (.setRtc 511 23 59 59) State.reset).reg .rtctime = 0x173B003B ∧
      (after (.setRtc 511 23 59 59) State.reset).reg .dayr = 511 :=
  ⟨rfl, rfl, rfl, rfl, by decide +kernel, by decide +kernel⟩

theorem witness_ReadValue :
    State.reset.reaches 0xFFFFF419 = true ∧ State.reset.reaches 0xF0000000 = true ∧ State.reset.reaches 0xFFFFFFFF = true := by decide

theorem witness_InvalidAccess :
    State.reset.params = Params.default ∧
      (0x00000300 : Word).extractLsb' 28 4 ≠ Params.default.periphNibble ∧
      (0xEFFFFFFF : Word).extractLsb' 28 4 ≠ Params.default.periphNibble ∧
      Params.default.inPseudoBlock 0xFFFFE300 = true ∧ Params.default.inPseudoBlock 0xF000EFFF = true ∧
      otherParams.inPseudoBlock 0x35ABCDEF = true := by decide

theorem witness_WriteFrame :
    writeParts (.write16 0xFFFFFFFF 0x1234) = some (0xFFFFFFFF, 2, 0x1234) ∧ State.reset.reaches 0xFFFFFFFF = true ∧
      State.reset.params.regMap.regAt ((offsetOf 0xFFFFFFFF + 0) % 4096) = none ∧ State.reset.params.regMap.regAt ((offsetOf 0xFFFFFFFF + 1) % 4096) = some .scr := by decide

theorem witness_PlainStorage :
    State.reset.reaches 0xFFFFF800 = true ∧ State.reset.params.regMap.regAt (offsetOf 0xFFFFFFFF) = none ∧
      (∀ j < 2, State.reset.params.regMap.regAt ((offsetOf 0xFFFFFFFE + j) % 4096) = none) ∧
      ∀ j < 4, State.reset.params.regMap.regAt ((offsetOf 0xFFFFFFFC + j) % 4096) = none := by decide

theorem witness_PlainWrite :
    (∀ r ∈ plainRegs, Inside State.reset r (BitVec.ofNat 32 (0xFFFFF000 + RegMap.default.offset r))
        (RegMap.default.bytes r)) ∧ Inside State.reset .tcmp1 0xFFFFF605 1 ∧
      writeParts (.write8 0xFFFFF605 9) = some (0xFFFFF605, 1, 9) := by
  refine ⟨?_, ?_, rfl⟩ <;> unfold Inside <;> decide

theorem witness_ImrWrite : Inside State.reset .imr 0xFFFFF304 4 ∧ Inside State.reset .imr 0xFFFFF306 2 ∧ Inside State.reset .imr 0xFFFFF307 1 := by
  unfold Inside; decide

theorem witness_IsrWrite :
    edgePending.isrConsistent ∧ Inside State.reset .isr 0xFFFFF30C 4 ∧ Inside State.reset .isr 0xFFFFF30E 1 ∧
      writeParts (.write8 0xFFFFF30E 1) = some (0xFFFFF30E, 1, 1) := by
  refine ⟨by decide +kernel, ?_, ?_, rfl⟩ <;> unfold Inside <;> decide

theorem witness_PortWrite :
    (∀ r ∈ Reg.icr :: Reg.portRegs, Inside State.reset r (BitVec.ofNat 32 (0xFFFFF000 + RegMap.default.offset r))
        (RegMap.default.bytes r)) ∧
      Inside State.reset .icr 0xFFFFF303 1 := by
  unfold Inside; decide +kernel

theorem witness_PllfsrWrite :
    Inside State.reset .pllfsr 0xFFFFF202 2 ∧ Inside State.reset .pllfsr 0xFFFFF203 1 ∧ State.reset.field Field.prot = 0 ∧
      (withRegs [(.pllfsr, 0x4010)]).field Field.prot = 1 := by
  refine ⟨?_, ?_, by decide +kernel, by decide +kernel⟩ <;> unfold Inside <;> decide

theorem witness_PllcrWrite : Inside State.reset .pllcr 0xFFFFF200 2 ∧ Inside State.reset .pllcr 0xFFFFF201 1 := by unfold Inside; decide

theorem witness_TstatWrite :
    (withRegs [(.tstat1, 1), (.ipr, 2), (.isr, 2)]).isrConsistent ∧ Inside State.reset (Reg.tstat .t1) 0xFFFFF60A 2 ∧
      Inside State.reset (Reg.tstat .t2) 0xFFFFF61B 1 := by
  refine ⟨by decide +kernel, ?_, ?_⟩ <;> unfold Inside <;> decide

theorem witness_RtcisrWrite :
    (withRegs [(.rtcisr, 0x0100), (.ipr, 0x400000), (.isr, 0x400000)]).isrConsistent ∧ Inside State.reset .rtcisr 0xFFFFFB0E 2 ∧
      Inside State.reset .rtcisr 0xFFFFFB0F 1 := by
  refine ⟨by decide +kernel, ?_, ?_⟩ <;> unfold Inside <;> decide

theorem witness_WatchdogWrite :
    (withRegs [(.watchdog, 0x0281), (.ipr, 8), (.isr, 8)]).isrConsistent ∧ Inside State.reset .watchdog 0xFFFFFB0A 2 ∧
      Inside State.reset .watchdog 0xFFFFFB0B 1 := by
  refine ⟨by decide +kernel, ?_, ?_⟩ <;> unfold Inside <;> decide

theorem witness_ScrWrite : State.reset.reaches 0xFFFFF000 = true ∧ offsetOf 0xFFFFF000 = 0 ∧ State.reset.reaches 0xF0000000 = true := by
  decide

theorem witness_ChipSelectWrite :
    (∀ r ∈ Reg.chipSelectRegs, Inside State.reset r (BitVec.ofNat 32 (0xFFFFF000 + RegMap.default.offset r))
        (RegMap.default.bytes r)) ∧ Inside State.reset .csa 0xFFFFF111 1 := by
  unfold Inside; decide

theorem witness_BankFormulas :
    State.reset.chipsCurrent ∧ (after (.write16 0xFFFFF110 1) State.reset).chipsCurrent ∧
      State.reset.params.csBase = .default ∧ otherParams.csBase = .other 4 ∧
      State.chipsCurrent { otherState with chips := describeChips otherParams [] true } :=
  ⟨rfl, rfl, rfl, rfl, rfl⟩

/-- Boot mode; out of it, one address in the range of SED and one in no range. -/
theorem witness_BankDecodeOrder :
    let c := describeChips Params.default (withRegs [(.csugba, 0x8100), (.csgbb, 0x2000), (.csb, 0x0005)]).rf false
    State.reset.chips.romBootMode = true ∧ c.romBootMode = false ∧ c.decodeAddr 0x24000000 = some .sed ∧
      c.decodeAddr 0x2407FFFF = some .sed ∧ c.decodeAddr 0x24080000 = none := by decide +kernel

/-- A WRITE16 over PBDIR and PBDATA; one that wraps onto SCR; WRITE32s over two registers and over one 32-bit register,
and one with a 16-bit register in its middle. -/
theorem witness_WriteInParts :
    State.reset.rf.wf = true ∧ State.reset.reaches 0xFFFFF408 = true ∧
      (Cuts State.reset 0xFFFFF408 2 1 ∧ ByteOf State.reset 0xFFFFF408 1 0xFFFFF409) ∧
      (Cuts State.reset 0xFFFFFFFF 2 1 ∧ ByteOf State.reset 0xFFFFFFFF 1 0xFFFFF000) ∧
      (Cuts State.reset 0xFFFFF600 4 2 ∧ ByteOf State.reset 0xFFFFF600 2 0xFFFFF602) ∧
      (Cuts State.reset 0xFFFFF303 4 2 ∧ ByteOf State.reset 0xFFFFF303 2 0xFFFFF305) ∧
      Cuts State.reset 0xFFFFF601 4 1 ∧ Cuts State.reset 0xFFFFF601 4 3 ∧ ByteOf State.reset 0xFFFFF601 1 0xFFFFF602 ∧
      ByteOf State.reset 0xFFFFF601 3 0xFFFFF604 := by
  refine ⟨rfl, by decide, ⟨?_, by unfold ByteOf; decide⟩, ⟨?_, by unfold ByteOf; decide⟩,
    ⟨?_, by unfold ByteOf; decide⟩, ⟨?_, by unfold ByteOf; decide⟩, ?_, ?_, by unfold ByteOf; decide,
    by unfold ByteOf; decide⟩ <;> intro r <;> unfold Owns <;> cases r <;> decide

theorem witness_TickAborted : Aborts aborting ∧ RtcRuns { aborting with rf := aborting.rf.setReg .default .rtcctl 0x80 } :=
  ⟨aborting_aborts, by unfold RtcRuns Boundary; decide +kernel⟩

/-- No count; a count without a roll; the rolls of the seconds, the minutes, the hours and the days. -/
theorem witness_TickTimeOfDay :
    ¬RtcRuns State.reset ∧ (RtcRuns (secondAt 0x173B003A 511) ∧ ¬SecondsRoll (secondAt 0x173B003A 511)) ∧
      (SecondsRoll (secondAt 0x173A003B 511) ∧ ¬MinutesRoll (secondAt 0x173A003B 511)) ∧
      (MinutesRoll (secondAt 0x163B003B 511) ∧ ¬HoursRoll (secondAt 0x163B003B 511)) ∧
      HoursRoll (secondAt 0x173B003B 511) ∧ (after .tick (secondAt 0x173B003B 511)).reg .dayr = 0 := by
  unfold RtcRuns HoursRoll MinutesRoll SecondsRoll Boundary; decide +kernel

/-- R225: minutes of 60 and hours of 24 are reset with a carry at the next second, with no carry into them and with one. -/
theorem test_overLimit :
    TimeOfDay.next 9 ⟨7, 5, 60, 0⟩ = ⟨7, 6, 0, 1⟩ ∧ RegMap.default.timeEvents ⟨7, 5, 60, 0⟩ = 0x30 ∧
      TimeOfDay.next 9 ⟨7, 5, 60, 59⟩ = ⟨7, 6, 0, 0⟩ ∧
      TimeOfDay.next 9 ⟨7, 24, 5, 0⟩ = ⟨8, 0, 5, 1⟩ ∧ RegMap.default.timeEvents ⟨7, 24, 5, 0⟩ = 0x18 := by decide

/-- A wiring with two inputs on one bit is no parameter (R301). -/
theorem test_pinsDistinct (p : InputPins) : p.bat ≠ p.sd := by
  have h := p.distinct
  simp at h
  exact h.1.1

theorem witness_TickRtcEvents :
    ¬Aborts (secondAt 0 0) ∧ (after .tick (secondAt 0 0)).reg .rtcisr = 0xFF10 := by
  unfold Aborts WatchdogExpires Boundary; decide +kernel

theorem witness_TickWatchdog :
    (¬Aborts (watching 1) ∧ Boundary (watching 1) ∧ WatchdogExpires (watching 1)) ∧
      (¬Aborts (watching 0) ∧ ¬WatchdogExpires (watching 0)) ∧ ¬WatchdogExpires (watching 3) ∧ ¬Boundary State.reset ∧
      (watching 1).params = Params.default := by
  unfold Aborts WatchdogExpires Boundary; decide +kernel

/-- Timer 1 stopped; crossing its compare value, which it subtracts or not; and running below it. -/
theorem witness_TickTimer :
    State.reset.field (Field.ten .t1) = 0 ∧
      (after .tick (withRegs [(.tcn1, 30), (.tcmp1, 40), (.tctl1, 0x113)])).reg .tcn1 = 45 ∧
      (Matches (withRegs [(.tcn1, 30), (.tcmp1, 40), (.tctl1, 0x13)]) .t1 ∧
        (withRegs [(.tcn1, 30), (.tcmp1, 40), (.tctl1, 0x13)]).field (Field.frr .t1) = 0) ∧
      (Matches (withRegs [(.tcn1, 30), (.tcmp1, 40), (.tctl1, 0x113)]) .t1 ∧
        (withRegs [(.tcn1, 30), (.tcmp1, 40), (.tctl1, 0x113)]).field (Field.frr .t1) = 1) ∧
      ¬Matches (withRegs [(.tcn1, 30), (.tcmp1, 46), (.tctl1, 0x13)]) .t1 ∧
      ¬Aborts (withRegs [(.tcn1, 30), (.tcmp1, 40), (.tctl1, 0x13)]) := by
  unfold Matches Aborts WatchdogExpires Boundary; decide +kernel

theorem witness_TickPending :
    ¬Aborts (withRegs [(.tcn1, 30), (.tcmp1, 40), (.tctl1, 0x13)]) ∧
      TickRaises (withRegs [(.tcn1, 30), (.tcmp1, 40), (.tctl1, 0x13)]) (State.reset.source (.timer .t1)) ∧
      TickRaises (watching 1) (State.reset.source .watchdog) ∧
      ¬TickRaises State.reset (State.reset.source .watchdog) := by
  refine ⟨?_, ?_, ?_, ?_⟩
  · unfold Aborts WatchdogExpires Boundary; decide +kernel
  · show Matches _ .t1 ∧ _ = 1; unfold Matches; decide +kernel
  · show WatchdogExpires _ ∧ _ = 1; unfold WatchdogExpires Boundary; decide +kernel
  · show ¬(WatchdogExpires _ ∧ _ = 1); unfold WatchdogExpires Boundary; decide +kernel

/-- The wake countdown idle, at its last step, before it, and armed by a timer with WKSEL 3. -/
theorem witness_TickWake :
    (after .tick State.reset).wakeCountdown = -1 ∧
      (after .tick { withRegs [(.pllcr, 8)] with wakeCountdown := 1 }).reg .pllcr = 0 ∧
      (after .tick { withRegs [(.pllcr, 8)] with wakeCountdown := 2 }).wakeCountdown = 1 ∧
      ((after .tick { withRegs [(.pllcr, 0xB), (.tcn1, 30), (.tcmp1, 31), (.tctl1, 0x19)] with timerAcc1 := ⟨0⟩ }).wakeCountdown
        = 95) ∧
      ¬Aborts { withRegs [(.pllcr, 8)] with wakeCountdown := 1 } := by
  unfold Aborts WatchdogExpires Boundary; decide +kernel

theorem witness_WakeCountdownRun :
    let s : State := { withRegs [(.pllcr, 8)] with wakeCountdown := 96 }
    Ticks (ticksFrom s) ∧ (ticksFrom s 0).wakeCountdown = (96 : Nat) ∧ (ticksFrom s 0).field Field.displl = 1 ∧
      (ticksFrom s 0).field Field.wdtEn = 0 :=
  ⟨ticks_ticksFrom _, rfl, by decide +kernel, by decide +kernel⟩

theorem witness_WatchdogRun :
    let s := withRegs [(.watchdog, 1)]
    Ticks (ticksFrom s) ∧ (ticksFrom s 0).params.wdt = Params.default.wdt ∧ (ticksFrom s 0).params.regMap = .default ∧
      (ticksFrom s 0).tickCounter = 0 ∧
      (ticksFrom s 0).field Field.wdtEn = 1 ∧
      (ticksFrom s 0).field Field.wdtIsel = 0 ∧ (ticksFrom s 0).field Field.wdtCntr = 0 :=
  ⟨ticks_ticksFrom _, rfl, rfl, rfl, by decide +kernel, by decide +kernel, by decide +kernel⟩

theorem witness_PllRates :
    State.reset.params.presc1Div = Params.default.presc1Div ∧ State.reset.params.sysclkDiv = Params.default.sysclkDiv ∧
      otherParams.presc1Div.divisors[3]? = some 6 ∧ otherState.field .presc1 = 0 := by decide +kernel

theorem witness_RoundsToNearest : F64.one ≤ (F64.ofNat 3).units ∧ 0 < (F64.ofNat 3).units := by decide +kernel

/-- Every clock source of a timer, and both settings of the PLL. -/
theorem witness_TimerIncrement :
    (∀ c < 8, (withRegs [(.tctl1, BitVec.ofNat 32 (2 * c))]).field (Field.clksource .t1) = c) ∧
      State.reset.field Field.displl = 0 ∧ (withRegs [(.tctl1, 2), (.pllcr, 8)]).field Field.displl = 1 := by
  decide +kernel

end Sys2Proof.Tests
end

section
/-! PROOFS. The statements of 00_scope: a step performs the oldest waiting request (O5), and the float operations round to
nearest, ties to even (O58). -/

namespace Sys2Proof.Machine

/-! One step -/

theorem State.fetch_of_nil {s : State} (h : s.requests = []) : s.fetch = none := by
  rw [State.fetch, h]

theorem State.fetch_of_cons {s : State} {q : Request} {rest : List Request} (h : s.requests = q :: rest) :
    s.fetch = some (q, { s with requests := rest }) := by
  rw [State.fetch, h]

theorem step_of_nil {s : State} (h : s.requests = []) : step s = .next s := by
  rw [step, State.fetch_of_nil h]

theorem step_of_decode {s : State} {q : Request} {rest : List Request} {i : Instr} (h : s.requests = q :: rest)
    (hi : decode q = .ok i) : step s = exec i { s with requests := rest } := by
  simp only [step, State.fetch_of_cons h, hi]

end Sys2Proof.Machine

namespace Sys2Proof

open Sys2Proof.Machine Sys2Proof.Claims

/-- Settles O5: the oldest request is fetched off the queue and decoded. -/
theorem stepPerformsRequest : Obligations.StepPerformsRequest :=
  ⟨fun _ => step_of_nil, fun _ _ _ _ => step_of_decode⟩

/-! Rounding -/

/-- The distance from the count `m` to `num / den`, times `den`. -/
def F64.error (num den m : Nat) : Nat := ((m : Int) * den - num).natAbs

theorem F64.error_of_le {num den m : Nat} (h : m * den ≤ num) : F64.error num den m = num - m * den := by
  rw [F64.error, ← Nat.cast_mul]
  omega

theorem F64.error_of_ge {num den m : Nat} (h : num ≤ m * den) : F64.error num den m = m * den - num := by
  rw [F64.error, ← Nat.cast_mul]
  omega

/-- The triangle inequality: two counts are no further apart than their distances to `num / den` together. -/
theorem F64.dist_mul_le_error_add (num den m r : Nat) :
    ((m : Int) - r).natAbs * den ≤ F64.error num den m + F64.error num den r := by
  have h : ((m : Int) - r).natAbs * den = ((m : Int) * den - r * den).natAbs := by
    rw [← Int.sub_mul, Int.natAbs_mul, Int.natAbs_natCast]
  rw [h]
  unfold F64.error
  omega

/-- How far the rounding goes: no further than the remainder it drops and at most half a unit of the last place kept,
and just half only to an even significand. -/
theorem F64.error_roundQuot (num den : Nat) (hd : 0 < den) :
    ∃ sig rest r, num = sig * (den * 2 ^ F64.drop num den) + rest ∧ (0 < F64.drop num den → 2 ^ 52 ≤ sig) ∧
      F64.roundQuot num den = r * 2 ^ F64.drop num den ∧
      F64.error num den (F64.roundQuot num den) ≤ rest ∧
      2 * F64.error num den (F64.roundQuot num den) ≤ den * 2 ^ F64.drop num den ∧
      (2 * F64.error num den (F64.roundQuot num den) = den * 2 ^ F64.drop num den → 2 ∣ r) := by
  obtain ⟨sig, rest, r, hnum, hrest, -, hsig, hround, hr⟩ := F64.roundQuot_spec num den hd
  refine ⟨sig, rest, r, hnum, hsig, hround, ?_⟩
  have hval : F64.roundQuot num den * den = r * (den * 2 ^ F64.drop num den) := by
    rw [hround, Nat.mul_assoc, Nat.mul_comm den]
  rcases hr with ⟨rfl, hhalf⟩ | ⟨rfl, hhalf⟩
  · have herr : F64.error num den (F64.roundQuot num den) = rest := by
      rw [F64.error_of_le] <;> omega
    rw [herr]
    omega
  · rw [Nat.succ_mul] at hval
    have herr : F64.error num den (F64.roundQuot num den) = den * 2 ^ F64.drop num den - rest := by
      rw [F64.error_of_ge] <;> omega
    rw [herr]
    omega

/-- A number of at most 53 significant bits lies on the grid of gap `2 ^ d`, or below the numbers whose gap it is. -/
theorem F64.dvd_or_lt_of_representable {m : Nat} (h : Representable m) (d : Nat) :
    2 ^ d ∣ m ∨ (0 < d ∧ m < 2 ^ 52 * 2 ^ d) := by
  obtain ⟨sig, e, hsig, rfl⟩ := h
  by_cases he : d ≤ e
  · exact .inl (Nat.dvd_trans (Nat.pow_dvd_pow 2 he) (Nat.dvd_mul_left _ _))
  · refine .inr ⟨by omega, ?_⟩
    calc sig * 2 ^ e < 2 ^ 53 * 2 ^ e := (Nat.mul_lt_mul_right (Nat.two_pow_pos e)).2 hsig
      _ = 2 ^ 52 * 2 ^ (e + 1) := by ring
      _ ≤ 2 ^ 52 * 2 ^ d := Nat.mul_le_mul_left _ (Nat.pow_le_pow_right (by decide) (by omega))

/-- Two different points of a grid are at least its gap apart. -/
theorem F64.le_dist_of_dvd {g m r : Nat} (hm : g ∣ m) (hr : g ∣ r) (hne : m ≠ r) : g ≤ ((m : Int) - r).natAbs :=
  Nat.le_of_dvd (by omega) (Int.natCast_dvd.1 (Int.dvd_sub (Int.natCast_dvd_natCast.2 hm) (Int.natCast_dvd_natCast.2 hr)))

/-- The rounding gives the nearest binary64 number, ties to even (R11). Against a number on the same grid the error of at
most half a gap decides; a number off the grid lies below the truncated quotient, hence further off than the remainder. -/
theorem F64.nearest_roundQuot (num den : Nat) (hd : 0 < den) : Nearest (F64.roundQuot num den) num den := by
  refine ⟨F64.fits_roundQuot num den hd, fun m hm hne => ?_⟩
  change F64.error num den (F64.roundQuot num den) ≤ F64.error num den m ∧
    (F64.error num den (F64.roundQuot num den) = F64.error num den m →
      2 * ((m : Int) - F64.roundQuot num den).natAbs ∣ F64.roundQuot num den)
  obtain ⟨sig, rest, r, hnum, hsig, hround, hrest, hhalf, htie⟩ := F64.error_roundQuot num den hd
  rcases F64.dvd_or_lt_of_representable hm (F64.drop num den) with hgrid | ⟨hdrop, hlow⟩
  · have hgap := F64.le_dist_of_dvd hgrid ⟨r, by rw [hround, Nat.mul_comm]⟩ hne
    have htri := F64.dist_mul_le_error_add num den m (F64.roundQuot num den)
    have hstep := Nat.mul_le_mul_left den hgap
    rw [Nat.mul_comm _ den] at htri
    refine ⟨by omega, fun heq => ?_⟩
    have hdist : ((m : Int) - F64.roundQuot num den).natAbs = 2 ^ F64.drop num den :=
      Nat.eq_of_mul_eq_mul_left hd (by omega)
    rw [hdist, hround]
    exact Nat.mul_dvd_mul_right (htie (by omega)) _
  · have hbelow : m * den < sig * (den * 2 ^ F64.drop num den) :=
      calc m * den < 2 ^ 52 * 2 ^ F64.drop num den * den := (Nat.mul_lt_mul_right hd).2 hlow
        _ = 2 ^ 52 * (den * 2 ^ F64.drop num den) := by ring
        _ ≤ sig * (den * 2 ^ F64.drop num den) := Nat.mul_le_mul_right _ (hsig hdrop)
    have herr := F64.error_of_le (num := num) (den := den) (m := m) (by omega)
    omega

theorem F64.floor_spec (a : F64) : a.floor * F64.one ≤ a.units ∧ a.units < (a.floor + 1) * F64.one :=
  ⟨Nat.div_mul_le_self _ _, Nat.lt_mul_of_div_lt (Nat.lt_succ_self _) F64.one_pos⟩

/-- Settles O58: every operation is one rounding of its exact result, by `F64.nearest_roundQuot`. -/
theorem roundsToNearest : Obligations.RoundsToNearest :=
  ⟨fun _ => F64.nearest_roundQuot _ 1 Nat.one_pos, fun a _ =>
    ⟨F64.nearest_roundQuot _ 1 Nat.one_pos, fun _ => F64.nearest_roundQuot _ 1 Nat.one_pos,
      fun hb => F64.nearest_roundQuot _ _ hb, F64.floor_spec a⟩⟩

end Sys2Proof
end

section
/-! PROOFS. The statements of 10_state about one step: what an operation can do, said once as `Performed`, and from it that a
step keeps the register file's form (O7), ISR (O8) and the counters' ranges (O10), and an operation the level (O12); and that
the reset state is legal (O6). -/

namespace Sys2Proof.Machine

open Sys2Proof.Claims

/-! What an operation can do -/

/-- The address and size in bytes of a read operation (R92, R97). -/
def readParts : Instr → Option (Word × Nat)
  | .read8 a => some (a, 1)
  | .read16 a => some (a, 2)
  | .read32 a => some (a, 4)
  | _ => none

/-- `Performed s i t`: `t` is what the rule of the operation `i` makes of `s`, whatever value a read or a query returns. One
constructor per kind of operation (R90). -/
inductive Performed (s : State) : Instr → State → Prop where
  | read {i : Instr} {a : Word} {n : Nat} (v : Returned) (hi : readParts i = some (a, n)) :
      Performed s i ((s.startOp.memReadState a n).give v)
  | write {i : Instr} {a : Word} {n : Nat} {v : Word} (hi : writeParts i = some (a, n, v)) :
      Performed s i (s.startOp.memWrite a n v)
  | tick : Performed s .tick s.startOp.tick
  | resetAll : Performed s .resetAll s.startOp.resetAll
  | iack (l : BitVec 3) :
      Performed s (.iack l) ({ s.startOp with lowPowerStop := false }.give (.byte (s.ackVector l)))
  | query {i : Instr} (b : Bool) (hi : i = .isSysclkRunning ∨ i = .isRegWindowRelocated) :
      Performed s i (s.startOp.give (.bool b))
  | setRtc {d h m sec : Nat} : Performed s (.setRtc d h m sec) (s.startOp.setTimeOfDay ⟨d, h, m, sec⟩)
  | inputChange (x : Inputs) :
      Performed s (.inputChange x) ({ s.startOp with inputs := x }.evalPortD.checkInterrupts)
  | lowPowerStop : Performed s .setLowPowerStop { s.startOp with lowPowerStop := true }
  | busFault (k : FaultKind) : Performed s (faultOp k) (s.startOp.busFault k)
  | extIrq {name : Source} {line : Bool} (x : SourceRow) (hx : s.params.sources.external? name = some x) :
      Performed s (.extIrq name line)
        (if line then s.startOp.raiseSource x else s.startOp.clearSource x).checkInterrupts

/-- An operation that answers a next state performed its rule. -/
theorem performed_of_exec {i : Instr} {s t : State} (h : exec i s = .next t) : Performed s i t := by
  cases i with
  | read8 a => cases h; exact .read _ rfl
  | read16 a => cases h; exact .read _ rfl
  | read32 a => cases h; exact .read _ rfl
  | write8 a v => cases h; exact .write rfl
  | write16 a v => cases h; exact .write rfl
  | write32 a v => cases h; exact .write rfl
  | tick => cases h; exact .tick
  | resetAll => cases h; exact .resetAll
  | iack l => cases h; exact .iack l
  | isSysclkRunning => cases h; exact .query _ (.inl rfl)
  | isRegWindowRelocated => cases h; exact .query _ (.inr rfl)
  | setRtc d hr m sec =>
    change execSetRtc d hr m sec s = .next t at h
    unfold execSetRtc at h
    split at h
    · cases h; exact .setRtc
    · cases h
  | inputChange x => cases h; exact .inputChange x
  | setLowPowerStop => cases h; exact .lowPowerStop
  | busFaultWpv => cases h; exact .busFault .wpv
  | busFaultBeto => cases h; exact .busFault .beto
  | busFaultPrv => cases h; exact .busFault .prv
  | extIrq name line =>
    change execExtIrq name line s = .next t at h
    unfold execExtIrq at h
    split at h
    · next x hx => cases h; exact .extIrq x hx
    · cases h

/-- A write is of at most four bytes (R92). -/
theorem writeParts_le {i : Instr} {a : Word} {n : Nat} {v : Word} (h : writeParts i = some (a, n, v)) : n ≤ 4 := by
  cases i <;> cases h <;> decide

/-- A step that answers a next state changes nothing, or performs the oldest request (R82). -/
theorem step_cases {s t : State} (h : step s = .next t) :
    t = s ∨ ∃ q rest i, s.requests = q :: rest ∧ decode q = .ok i ∧ exec i { s with requests := rest } = .next t := by
  cases hr : s.requests with
  | nil =>
    rw [step_of_nil hr] at h
    cases h
    exact .inl rfl
  | cons q rest =>
    cases hd : decode q with
    | ok i => exact .inr ⟨q, rest, i, rfl, hd, (step_of_decode hr hd).symm.trans h⟩
    | error e =>
      simp only [step, State.fetch_of_cons hr, hd] at h
      cases h

/-- What every operation keeps, every step keeps, if it does not speak of the waiting requests. -/
theorem step_keeps {P : State → Prop} (hreq : ∀ s rest, P s → P { s with requests := rest })
    (hop : ∀ i s t, P s → exec i s = .next t → P t) {s t : State} (hs : P s) (h : step s = .next t) : P t := by
  rcases step_cases h with rfl | ⟨q, rest, i, -, -, hi⟩
  · exact hs
  · exact hop i _ t (hreq s rest hs) hi

/-! What the parts of an operation can do -/

/-- A read changes the two `timerReadAck` and nothing else (R80, R110). -/
theorem State.memReadState_eq (s : State) (a : Word) (n : Nat) :
    ∃ x y, s.memReadState a n = { s with timerReadAck1 := x, timerReadAck2 := y } := by
  unfold State.memReadState
  split
  · exact ⟨_, _, (s.noteWindow_spec (offsetOf a) n).2.2.2.2⟩
  · exact ⟨s.timerReadAck1, s.timerReadAck2, rfl⟩

/-- A reported bus fault sets its flag of SCR and may emit an event (R332). -/
theorem State.busFault_eq (s : State) (k : FaultKind) :
    s.busFault k = s.setField (Field.ofFault k) 1 ∨
      s.busFault k = (s.setField (Field.ofFault k) 1).emit (.busError k) := by
  unfold State.busFault
  dsimp only
  split
  · exact .inr rfl
  · exact .inl rfl

/-- The three fault flags are flags of SCR (R333). -/
theorem State.setFault_touchesOnly (s : State) (k : FaultKind) :
    TouchesOnly [.scr] s (s.setField (Field.ofFault k) 1) := by
  cases k with
  | wpv => exact s.setField_touchesOnly .wpv 1
  | beto => exact s.setField_touchesOnly .beto 1
  | prv => exact s.setField_touchesOnly .prv 1

theorem State.timerMatch_eq (s : State) (n : TimerId) :
    s.timerMatch n = s.setField (Field.comp n) 1 ∨
      ∃ x, s.timerMatch n = (s.setField (Field.comp n) 1).raiseSource x := by
  unfold State.timerMatch
  dsimp only
  split
  · exact .inr ⟨_, rfl⟩
  · exact .inl rfl

/-- What each part of a TICK keeps, the TICK keeps (R261, R262). -/
theorem State.tick_keeps {P : State → Prop} (count : ∀ s, P s → P s.countTick)
    (time : ∀ s d, P s → P (s.setTimeOfDay d)) (latch : ∀ s bits o, P s → P (s.latchRtc bits o))
    (watchdog : ∀ s, P s → P s.watchdogSecond) (timer : ∀ s n, P s → P (s.timerTick n))
    (pll : ∀ s, P s → P s.pllWakeStep) (check : ∀ s, P s → P s.checkInterrupts)
    (abort : ∀ s, P s → P (s.emit .systemReset)) {s : State} (h : P s) : P s.tick := by
  have rtc : ∀ s, P s → P s.rtcSecond := fun s h => by
    unfold State.rtcSecond
    split
    · exact latch _ _ _ (time _ _ h)
    · exact h
  have tail : ∀ s, P s → P s.tickTail := fun s h => check _ (pll _ (timer _ _ (timer _ _ (latch _ _ _ h))))
  unfold State.tick
  split
  · dsimp only
    split
    · exact abort _ (rtc _ (count _ h))
    · exact tail _ (watchdog _ (rtc _ (count _ h)))
  · exact tail _ (count _ h)

/-- A TICK ends with the delivery of the level, or it is aborted (R262). -/
theorem State.tick_ends (s : State) :
    (∃ u : State, s.tick = u.checkInterrupts) ∨ ∃ u : State, s.tick = u.emit .systemReset := by
  unfold State.tick
  split
  · dsimp only
    split
    · exact .inr ⟨_, rfl⟩
    · exact .inl ⟨_, rfl⟩
  · exact .inl ⟨_, rfl⟩

/-! The canonical form -/

theorem Memory.wf_setField {s : State} (f : Field) (x : Nat) (h : s.rf.wf = true) : (s.setField f x).rf.wf = true :=
  Memory.wf_setReg _ _ _ h

theorem Memory.wf_setTimeOfDay {s : State} (d : TimeOfDay) (h : s.rf.wf = true) : (s.setTimeOfDay d).rf.wf = true :=
  wf_setField _ _ (wf_setField _ _ (wf_setField _ _ (wf_setField _ _ h)))

theorem Memory.wf_latchRtc {s : State} (bits : Word) (o : Owner) (h : s.rf.wf = true) :
    (s.latchRtc bits o).rf.wf = true := by
  have hl : (s.latched bits).rf.wf = true := Memory.wf_setReg _ _ _ h
  rw [State.latchRtc_eq]
  split
  · exact hl
  · exact Memory.wf_raiseSource _ hl

theorem Memory.wf_watchdogSecond {s : State} (h : s.rf.wf = true) : s.watchdogSecond.rf.wf = true := by
  have hw : s.steppedWatchdog.rf.wf = true := Memory.wf_setReg _ _ _ h
  rw [State.watchdogSecond_eq]
  split
  · split
    · exact Memory.wf_raiseSource _ (wf_setField _ _ hw)
    · exact hw
  · exact h

theorem Memory.wf_timerMatch {s : State} (n : TimerId) (h : s.rf.wf = true) : (s.timerMatch n).rf.wf = true := by
  have hc := wf_setField (Field.comp n) 1 h
  rcases s.timerMatch_eq n with e | ⟨x, e⟩ <;> rw [e]
  · exact hc
  · exact Memory.wf_raiseSource x hc

theorem Memory.wf_timerTick {s : State} (n : TimerId) (h : s.rf.wf = true) : (s.timerTick n).rf.wf = true := by
  have ha : ∀ x, (s.setTimerAcc n x).rf.wf = true := fun x => by cases n <;> exact h
  rw [State.timerTick_eq]
  split
  · dsimp only
    split
    · exact wf_setField _ _ (wf_timerMatch n (ha _))
    · exact wf_setField _ _ (ha _)
  · exact h

theorem Memory.wf_pllWakeStep {s : State} (h : s.rf.wf = true) : s.pllWakeStep.rf.wf = true := by
  unfold State.pllWakeStep
  split
  · exact h
  · dsimp only
    split
    · exact wf_setField _ _ h
    · exact h

theorem Memory.wf_tick {s : State} (h : s.rf.wf = true) : s.tick.rf.wf = true :=
  State.tick_keeps (P := fun s => s.rf.wf = true)
    (count := fun _ => id)
    (time := fun _ d => wf_setTimeOfDay d)
    (latch := fun _ bits o => wf_latchRtc bits o)
    (watchdog := fun _ => wf_watchdogSecond)
    (timer := fun _ n => wf_timerTick n)
    (pll := fun _ => wf_pllWakeStep)
    (check := fun _ => id)
    (abort := fun _ => id) h

/-- Every operation keeps the canonical form of the register file. -/
theorem Performed.wf_rf {i : Instr} {s t : State} (h : Performed s i t) (hs : s.rf.wf = true) : t.rf.wf = true := by
  cases h with
  | read v hi =>
    obtain ⟨x, y, e⟩ := s.startOp.memReadState_eq _ _
    rw [e]
    exact hs
  | write hi => exact Memory.wf_memWrite _ _ _ (Nat.le_trans (writeParts_le hi) (by decide)) hs
  | tick => exact Memory.wf_tick (s := s.startOp) hs
  | resetAll => exact Memory.wf_evalPortD (Memory.wf_recomputeIsr s.params.wf_resetMemory)
  | iack l => exact hs
  | query b hi => exact hs
  | setRtc => exact Memory.wf_setTimeOfDay (s := s.startOp) _ hs
  | inputChange x => exact Memory.wf_evalPortD hs
  | lowPowerStop => exact hs
  | busFault k =>
    have hf := Memory.wf_setField (s := s.startOp) (Field.ofFault k) 1 hs
    rcases s.startOp.busFault_eq k with e | e <;> rw [e] <;> exact hf
  | extIrq x hx =>
    rw [State.rf_checkInterrupts]
    split
    · exact Memory.wf_raiseSource x hs
    · exact Memory.wf_clearSource x hs

/-! ISR -/

/-- A part of a TICK keeps ISR right: without a raise the three registers stay, with one ISR is recomputed. -/
theorem TickPart.isrKept {rs : List Reg} {x : SourceRow} {raised : Bool} {s t : State} (h : TickPart rs x raised s t)
    (hm : .imr ∉ rs) : IsrKept s t := by
  cases raised with
  | false =>
    refine .inl ⟨BitVec.eq_of_getLsbD_eq fun b _ => ?_, h.reg (by simpa using hm), h.isr.1 rfl⟩
    have hb := h.pending b
    simpa only [State.bit, Bool.false_and, Bool.or_false] using hb
  | true => exact .inr (h.isr.2 rfl)

theorem State.tick_isrKept (s : State) : IsrKept s s.tick :=
  State.tick_keeps (P := IsrKept s)
    (count := fun _ h => h.trans (.of_same rfl rfl))
    (time := fun u d h => h.trans (.of_touchesOnly (u.setTimeOfDay_spec d).1 (by decide) (by decide) (by decide)))
    (latch := fun u bits o h => h.trans ((u.latchRtc_spec bits o).2.1.isrKept (by decide)))
    (watchdog := fun u h => h.trans (u.watchdogSecond_spec.2.1.isrKept (by decide)))
    (timer := fun u n h => h.trans ((u.timerTick_spec n).2.1.isrKept (by cases n <;> decide)))
    (pll := fun u h => h.trans (.of_touchesOnly u.pllWakeStep_spec.1 (by decide) (by decide) (by decide)))
    (check := fun _ h => h.trans (.of_same rfl rfl))
    (abort := fun _ h => h.trans (.of_same rfl rfl)) (.refl s)

/-- A write keeps ISR right: the unowned bytes are in none of the three registers, and every handler keeps it. -/
theorem State.memWrite_isrKept (s : State) (a : Word) {n : Nat} (v : Word) (hn : n ≤ 4) :
    IsrKept s (s.memWrite a n v) := by
  unfold State.memWrite
  split
  · have hreg := (splitUpTo_rf s.params.regMap s.rf (offsetOf a) n v n (by omega)).2.2.1
    have hsplit : IsrKept s { s with rf := (splitWrite s.params.regMap s.rf (offsetOf a) n v).rf } :=
      .inl ⟨hreg .ipr, hreg .imr, hreg .isr⟩
    have hrun := State.runHandlers_induct IsrKept.refl IsrKept.trans
      (ts := (splitWrite s.params.regMap s.rf (offsetOf a) n v).touches)
      (fun u t _ => u.writeHandler_isrKept t.reg t.v t.be)
    exact (hsplit.trans (hrun _)).trans (.of_same rfl rfl)
  · exact .refl s

/-- Every operation keeps ISR right, and makes it right where it changes IPR or IMR (R30). -/
theorem Performed.isrKept {i : Instr} {s t : State} (h : Performed s i t) : IsrKept s t := by
  have start : IsrKept s s.startOp := .of_same rfl rfl
  cases h with
  | read v hi =>
    obtain ⟨x, y, e⟩ := s.startOp.memReadState_eq _ _
    rw [e]
    exact .of_same rfl rfl
  | write hi => exact start.trans (s.startOp.memWrite_isrKept _ _ (writeParts_le hi))
  | tick => exact start.trans s.startOp.tick_isrKept
  | resetAll => exact (State.evalPortD_isrKept s _).trans (.of_same rfl rfl)
  | iack l => exact .of_same rfl rfl
  | query b hi => exact .of_same rfl rfl
  | setRtc =>
    exact start.trans (.of_touchesOnly (s.startOp.setTimeOfDay_spec _).1 (by decide) (by decide) (by decide))
  | inputChange x => exact (State.evalPortD_isrKept s _).trans (.of_same rfl rfl)
  | lowPowerStop => exact .of_same rfl rfl
  | busFault k =>
    have hf := start.trans (.of_touchesOnly (s.startOp.setFault_touchesOnly k) (by decide) (by decide) (by decide))
    rcases s.startOp.busFault_eq k with e | e <;> rw [e]
    · exact hf
    · exact hf.trans (.of_same rfl rfl)
  | extIrq x hx =>
    refine IsrKept.trans (.inr ?_) (.of_same rfl rfl)
    split
    · exact State.isr_raiseSource _ _
    · exact State.isr_clearSource _ _

/-! The counters -/

theorem accLegal_zero : accLegal F64.zero := ⟨F64.one_pos, (F64.isBinary64_iff _).2 ⟨0, 0, by decide, rfl⟩⟩

/-- The fraction of a binary64 number is a legal accumulator (R199). -/
theorem accLegal_fract {m : Nat} (h : F64.Fits m) : accLegal ⟨m % F64.one⟩ :=
  ⟨Nat.mod_lt _ F64.one_pos, (F64.isBinary64_iff _).2 (F64.fits_floor_fract h).2⟩

/-- The range of `wakeCountdown` (R32). -/
def State.wakeLegal (s : State) : Prop := -1 ≤ s.wakeCountdown ∧ s.wakeCountdown ≤ 96

theorem State.countersLegal_iff (s : State) :
    s.countersLegal ↔ accLegal s.timerAcc1 ∧ accLegal s.timerAcc2 ∧ s.tickCounter < Config.crystalHz ∧ s.wakeLegal :=
  Iff.rfl

/-- The reset values of the counters are in their ranges (R33). -/
theorem State.countersLegal_of_zero {s : State} (h1 : s.timerAcc1 = F64.zero) (h2 : s.timerAcc2 = F64.zero)
    (h3 : s.tickCounter = 0) (h4 : s.wakeCountdown = -1) : s.countersLegal := by
  rw [State.countersLegal, h1, h2, h3, h4]
  exact ⟨accLegal_zero, accLegal_zero, by decide⟩

/-- An armed countdown is in its range (R167). -/
theorem State.wakeLegal_of_armed {s t : State} {b : Bool} (h : t.wakeCountdown = s.armed b) (hs : s.wakeLegal) :
    t.wakeLegal := by
  unfold State.wakeLegal
  rw [h]
  unfold State.armed
  split
  · have := wakeTicks_bounds (s.field Field.wksel)
    omega
  · exact hs

theorem State.countersLegal_checkInterrupts {s : State} (hs : s.countersLegal) : s.checkInterrupts.countersLegal := hs

theorem TouchesOnly.countersLegal {rs : List Reg} {s t : State} (h : TouchesOnly rs s t) (hs : s.countersLegal)
    (hw : t.wakeLegal) : t.countersLegal := by
  obtain ⟨h1, h2, h3, -⟩ := hs
  rw [h.2]
  exact ⟨h1, h2, h3, hw⟩

/-- The parts of a TICK but the counter's step and the timers touch registers and the countdown only. -/
theorem TickPart.countersLegal {rs rs' : List Reg} {x : SourceRow} {raised : Bool} {s t : State}
    (h : TickPart rs x raised s t) (ht : TouchesOnly rs' s t) (hs : s.countersLegal) : t.countersLegal :=
  ht.countersLegal hs (State.wakeLegal_of_armed h.wake hs.2.2.2)

theorem State.countersLegal_evalPortD {s : State} (hs : s.countersLegal) : s.evalPortD.countersLegal := by
  obtain ⟨hport, -, -, -, -, hwake, -⟩ := s.evalPortD_spec
  obtain ⟨h1, h2, h3, hw⟩ := s.countersLegal_iff.1 hs
  have := State.wakeLegal_of_armed hwake hw
  rw [hport.2]
  exact ⟨h1, h2, h3, this⟩

/-- A handler that runs the port-D evaluation changes the counters as the evaluation does. -/
theorem State.countersLegal_writePort {s : State} (r : Reg) (v be : Word) (hs : s.countersLegal) :
    (s.writePort r v be).countersLegal := by
  have hp : (if triggersStatusFlags r then (s.plainWrite r v be).recomputeStatusFlags
      else s.plainWrite r v be).countersLegal := by
    split <;> exact hs
  unfold State.writePort
  dsimp only
  split
  · exact State.countersLegal_evalPortD hp
  · exact hp

/-- Outside the port-D triggers a handler leaves the counters (R167, R309). -/
theorem HandlerFrame.countersLegal {r : Reg} {s t : State} (f : HandlerFrame r s t) (hp : triggersPortD r = false)
    (hi : r ≠ .icr) (hs : s.countersLegal) : t.countersLegal := by
  obtain ⟨h1, h2, h3, hw⟩ := hs
  rw [← (f.port hp hi).2] at hw
  rw [f.rest]
  exact ⟨h1, h2, h3, hw⟩

theorem State.countersLegal_writeHandler {s : State} (r : Reg) (v be : Word) (hs : s.countersLegal) :
    (s.writeHandler r v be).countersLegal := by
  have chip : ∀ r ∈ Reg.chipSelectRegs, triggersPortD r = false ∧ r ≠ .icr := by decide
  exact State.writeHandler_cases (Q := fun r t => HandlerFrame r s t → t.countersLegal) s v be
    (same := fun _ _ _ => hs)
    (plain := fun _ _ _ => hs)
    (port := fun r _ _ => countersLegal_writePort r v be hs)
    (chip := fun r hr f => f.countersLegal (chip r hr).1 (chip r hr).2 hs)
    (scr := fun f => f.countersLegal rfl (by decide) hs)
    (icr := fun _ => countersLegal_evalPortD (s := s.plainWrite .icr v be) hs)
    (imr := fun f => f.countersLegal rfl (by decide) hs)
    (isr := fun f => f.countersLegal rfl (by decide) hs)
    (pllcr := fun f => f.countersLegal rfl (by decide) hs)
    (pllfsr := fun f => f.countersLegal rfl (by decide) hs)
    (tstat := fun n f => f.countersLegal (by cases n <;> rfl) (by cases n <;> decide) hs)
    (rtcisr := fun f => f.countersLegal rfl (by decide) hs)
    (watchdog := fun f => f.countersLegal rfl (by decide) hs) r (s.writeHandler_frame r v be)

theorem State.countersLegal_memWrite {s : State} (a : Word) (n : Nat) (v : Word) (hs : s.countersLegal) :
    (s.memWrite a n v).countersLegal := by
  unfold State.memWrite
  split
  · exact State.runHandlers_induct (Q := fun s t => s.countersLegal → t.countersLegal) (fun _ => id)
      (fun f g h => g (f h)) (ts := (splitWrite s.params.regMap s.rf (offsetOf a) n v).touches)
      (fun u t _ => State.countersLegal_writeHandler t.reg t.v t.be) _ hs
  · exact hs

theorem State.countersLegal_countTick {s : State} (hs : s.countersLegal) : s.countTick.countersLegal := by
  obtain ⟨h1, h2, h3, hw⟩ := hs
  refine ⟨h1, h2, ?_, hw⟩
  rw [State.tickCounter_countTick]
  split
  · decide
  · next hb =>
    simp only [State.secondBoundary, beq_iff_eq] at hb
    omega

/-- The accumulator of the ticked timer becomes a fraction, and the other one stays (R199). -/
theorem State.countersLegal_timerTick {s : State} (n : TimerId) (hs : s.countersLegal) :
    (s.timerTick n).countersLegal := by
  obtain ⟨⟨u, hu, e⟩, hpart, hoff, hon⟩ := s.timerTick_spec n
  cases hten : s.flag (Field.ten n) with
  | false =>
    rw [hoff hten]
    exact hs
  | true =>
    have hacc : accLegal ((s.timerTick n).timerAcc n) := by
      rw [(hon hten).1]
      exact accLegal_fract (F64.fits_add _ _)
    have hwake : (s.timerTick n).wakeLegal := State.wakeLegal_of_armed hpart.wake hs.2.2.2
    have huw : u.wakeCountdown = (s.timerTick n).wakeCountdown := by rw [e]; cases n <;> rfl
    obtain ⟨h1, h2, h3, hw⟩ := hu.countersLegal hs (by unfold State.wakeLegal; rw [huw]; exact hwake)
    rw [e]
    cases n with
    | t1 => exact ⟨hacc, h2, h3, hw⟩
    | t2 => exact ⟨h1, hacc, h3, hw⟩

theorem State.countersLegal_pllWakeStep {s : State} (hs : s.countersLegal) : s.pllWakeStep.countersLegal := by
  obtain ⟨ht, hidle, hend, hcount⟩ := s.pllWakeStep_spec
  refine ht.countersLegal hs ?_
  obtain ⟨-, -, -, h1, h2⟩ := hs
  unfold State.wakeLegal
  by_cases hi : s.wakeCountdown = -1
  · rw [hidle hi]
    omega
  · by_cases he : s.wakeCountdown = 1
    · rw [(hend he).1]
      decide
    · rw [(hcount hi he).1]
      omega

theorem State.countersLegal_tick {s : State} (hs : s.countersLegal) : s.tick.countersLegal :=
  State.tick_keeps (P := State.countersLegal)
    (count := fun _ => countersLegal_countTick)
    (time := fun u d hu => (u.setTimeOfDay_spec d).1.countersLegal hu hu.2.2.2)
    (latch := fun u bits o => (u.latchRtc_spec bits o).2.1.countersLegal (u.latchRtc_spec bits o).1)
    (watchdog := fun u => u.watchdogSecond_spec.2.1.countersLegal u.watchdogSecond_spec.1)
    (timer := fun _ n => countersLegal_timerTick n)
    (pll := fun _ => countersLegal_pllWakeStep)
    (check := fun _ => countersLegal_checkInterrupts)
    (abort := fun _ => id) hs

/-- Every operation keeps the counters in their ranges (R32). -/
theorem Performed.countersLegal {i : Instr} {s t : State} (h : Performed s i t) (hs : s.countersLegal) :
    t.countersLegal := by
  cases h with
  | read v hi =>
    obtain ⟨x, y, e⟩ := s.startOp.memReadState_eq _ _
    rw [e]
    exact hs
  | write hi => exact State.countersLegal_memWrite (s := s.startOp) _ _ _ hs
  | tick => exact State.countersLegal_tick (s := s.startOp) hs
  | resetAll =>
    exact State.countersLegal_checkInterrupts
      (State.countersLegal_evalPortD (State.countersLegal_of_zero rfl rfl rfl rfl))
  | iack l => exact hs
  | query b hi => exact hs
  | setRtc => exact hs
  | inputChange x =>
    exact State.countersLegal_checkInterrupts (State.countersLegal_evalPortD (s := { s.startOp with inputs := x }) hs)
  | lowPowerStop => exact hs
  | busFault k => rcases s.startOp.busFault_eq k with e | e <;> rw [e] <;> exact hs
  | extIrq x hx =>
    refine State.countersLegal_checkInterrupts ?_
    split
    · exact (s.startOp.raiseSource_spec x).1.countersLegal hs
        (State.wakeLegal_of_armed (s.startOp.wakeCountdown_raiseSource x) hs.2.2.2)
    · exact hs

/-! The delivered level -/

theorem State.iplCurrent_checkInterrupts (s : State) : s.checkInterrupts.iplCurrent := rfl

/-- What stores into neither ISR nor ILCR leaves the level current. -/
theorem TouchesOnly.iplCurrent {rs : List Reg} {s t : State} (h : TouchesOnly rs s t) (h1 : .isr ∉ rs) (h2 : .ilcr ∉ rs)
    (hs : s.iplCurrent) : t.iplCurrent := by
  have hl : t.level = s.level := State.level_congr h.params (h.reg h1) (h.reg h2)
  have hc : t.cpuIpl = s.cpuIpl := by rw [h.2]
  rw [State.iplCurrent, hl, hc]
  exact hs

/-- Every operation but an aborted TICK leaves the level current (R31, R134). -/
theorem Performed.iplCurrent {i : Instr} {s t : State} (h : Performed s i t) (hs : s.iplCurrent)
    (hev : Event.systemReset ∉ t.events) : t.iplCurrent := by
  cases h with
  | read v hi =>
    obtain ⟨x, y, e⟩ := s.startOp.memReadState_eq _ _
    rw [e]
    exact hs
  | write hi =>
    unfold State.memWrite
    split
    · exact State.iplCurrent_checkInterrupts _
    · exact hs
  | tick =>
    rcases s.startOp.tick_ends with ⟨u, e⟩ | ⟨u, e⟩
    · rw [e]
      exact State.iplCurrent_checkInterrupts u
    · rw [e] at hev
      simp at hev
  | resetAll => exact State.iplCurrent_checkInterrupts _
  | iack l => exact hs
  | query b hi => exact hs
  | setRtc => exact (s.startOp.setTimeOfDay_spec _).1.iplCurrent (by decide) (by decide) hs
  | inputChange x => exact State.iplCurrent_checkInterrupts _
  | lowPowerStop => exact hs
  | busFault k =>
    have hf := (s.startOp.setFault_touchesOnly k).iplCurrent (by decide) (by decide) hs
    rcases s.startOp.busFault_eq k with e | e <;> rw [e] <;> exact hf
  | extIrq x hx => exact State.iplCurrent_checkInterrupts _

/-! The reset state -/

/-- Every register of the reset state holds 0, since no byte is listed (R33). -/
theorem State.reg_reset (r : Reg) : State.reset.reg r = 0 := by
  have h : ∀ o n, Memory.readSpan [] o n = 0 := by
    intro o n
    induction n with
    | zero => rfl
    | succ n ih =>
      simp [Memory.readSpan, ih, Memory.read, unlistedByte]
  exact h _ _

/-- With ISR 0 no source is active, so the level is 0 (R134). -/
theorem State.level_of_isr_zero {s : State} (h : s.reg .isr = 0) : s.level = 0 := by
  rcases s.level_spec.2 with h0 | ⟨x, -, hx, -⟩
  · exact h0
  · simp [State.active, State.bit, h] at hx

theorem State.reset_isrConsistent : State.reset.isrConsistent := by
  simp [State.isrConsistent, State.reg_reset]

theorem State.reset_legal : State.reset.Legal where
  memory := rfl
  isr := State.reset_isrConsistent
  owned := by simp [State.pendingBitsOwned, State.reg_reset]
  counters := State.countersLegal_of_zero rfl rfl rfl rfl
  chips := rfl
  status := rfl

theorem State.reset_iplCurrent : State.reset.iplCurrent := by
  rw [State.iplCurrent, State.level_of_isr_zero (State.reg_reset .isr)]
  rfl

end Sys2Proof.Machine

namespace Sys2Proof

open Sys2Proof.Machine

/-- Settles O7: every operation keeps the form, by `Performed.wf_rf`. -/
theorem stepKeepsMemoryForm : Obligations.StepKeepsMemoryForm := fun _ _ =>
  step_keeps (P := fun s => s.rf.wf = true) (fun _ _ => id) fun _ _ _ hs h => (performed_of_exec h).wf_rf hs

/-- Settles O8: every operation leaves IPR, IMR and ISR as they were or recomputes ISR, by `Performed.isrKept`. -/
theorem stepKeepsIsr : Obligations.StepKeepsIsr :=
  ⟨State.reset_isrConsistent,
    fun _ _ => step_keeps (P := State.isrConsistent) (fun _ _ => id) fun _ _ _ hs h =>
      (performed_of_exec h).isrKept.consistent hs,
    fun _ _ _ h => (performed_of_exec h).isrKept.changed⟩

/-- Settles O10: every operation keeps the ranges, by `Performed.countersLegal`. -/
theorem stepKeepsCounterRanges : Obligations.StepKeepsCounterRanges := fun _ _ =>
  step_keeps (P := State.countersLegal) (fun _ _ => id) fun _ _ _ hs h => (performed_of_exec h).countersLegal hs

/-- Settles O12: an operation delivers the level or leaves ISR and ILCR, by `Performed.iplCurrent`. -/
theorem levelStaysCurrent : Obligations.LevelStaysCurrent := fun _ _ _ hs h => (performed_of_exec h).iplCurrent hs

/-- Settles O6: the reset register file lists no byte, and the rest of the state is written out. -/
theorem resetIsLegal : Obligations.ResetIsLegal := ⟨State.reset_legal, State.reset_iplCurrent⟩

end Sys2Proof
end

section
/-! PROOFS. The statements of 20_memory: accesses outside the register file (O31), what a write stores and what it can change
(O32), plain storage (O33), and a write as the writes of its parts (O47). -/

namespace Sys2Proof.Machine

open Sys2Proof.Claims

/-! Accesses that do not reach the register file -/

/-- A field of a word in place: the word cut to the field's mask is the field's value at its place. -/
theorem and_fieldMask_eq_iff (a : Word) (lo len : Nat) (x : BitVec len) (h : lo + len ≤ 32) :
    a &&& fieldMask lo len = x.setWidth 32 <<< lo ↔ a.extractLsb' lo len = x := by
  have hbit : ∀ i < len, (a &&& fieldMask lo len).getLsbD (lo + i) = a.getLsbD (lo + i) := fun i hi => by
    simp [getLsbD_fieldMask, hi]
    omega
  constructor
  · intro e
    refine BitVec.eq_of_getLsbD_eq fun i hi => ?_
    have ei := hbit i hi
    rw [e] at ei
    rw [BitVec.getLsbD_extractLsb', decide_eq_true hi, Bool.true_and, ← ei]
    simp [show lo + i < 32 by omega]
  · rintro rfl
    refine BitVec.eq_of_getLsbD_eq fun i hi => ?_
    rw [BitVec.getLsbD_and, getLsbD_fieldMask]
    by_cases hlo : lo ≤ i
    · by_cases hhi : i < lo + len
      · have hlen : i - lo < len := by omega
        have hadd : lo + (i - lo) = i := by omega
        simp [hi, hlo, hhi, hlen, hadd, show ¬i < lo by omega]
      · simp [hi, hlo, hhi, show ¬i - lo < len by omega]
    · simp [hi, hlo, show i < lo by omega]

/-- The default pseudo-register block is the addresses with 0xE in bits 15 to 12 (R75; log 4). -/
theorem Params.inPseudoBlock_default (a : Word) :
    Params.default.inPseudoBlock a = true ↔ a.extractLsb' 12 4 = 0xE := by
  rw [← and_fieldMask_eq_iff a 12 4 0xE (by decide)]
  have hmask : fieldMask 12 4 = 0xF000 := by decide
  simp [Params.inPseudoBlock, Params.default, AddressBlock.holds, hmask]

/-- The addresses that reach the register file under the default parameters (R70, R75; log 4). -/
theorem State.reaches_default {s : State} (h : s.params = Params.default) (a : Word) :
    s.reaches a = true ↔ a.extractLsb' 28 4 = 0xF ∧ a.extractLsb' 12 4 ≠ 0xE := by
  rw [State.reaches, h, Bool.and_eq_true, Bool.not_eq_true', beq_iff_eq, Ne, ← Params.inPseudoBlock_default,
    Bool.not_eq_true]
  rfl

/-- An address outside the valid ones, or in the pseudo-register block, does not reach the register file. -/
theorem State.reaches_eq_false {s : State} {a : Word}
    (h : a.extractLsb' 28 4 ≠ s.params.periphNibble ∨ s.params.inPseudoBlock a = true) : s.reaches a = false := by
  rcases h with h | h <;> simp [State.reaches, h]

section Unreached

variable {s : State} {a : Word} (h : s.reaches a = false)
include h

theorem State.memReadValue_unreached (n : Nat) : s.memReadValue a n = 0 := by simp [State.memReadValue, h]

theorem State.memReadState_unreached (n : Nat) : s.memReadState a n = s := by simp [State.memReadState, h]

theorem State.memWrite_unreached (n : Nat) (v : Word) : s.memWrite a n v = s := by simp [State.memWrite, h]

end Unreached

/-! A write that reaches the register file -/

/-- A write operation is a `MemWrite` on the state as the operation starts (R115, R116, R117). -/
theorem exec_of_writeParts {i : Instr} {a : Word} {n : Nat} {v : Word} (h : writeParts i = some (a, n, v)) (s : State) :
    exec i s = .next (s.startOp.memWrite a n v) := by
  cases i <;> cases h <;> rfl

/-- The state with the bytes of a write that no register owns stored (R76, R114). -/
def State.storeUnowned (s : State) (o n : Nat) (v : Word) : State :=
  { s with rf := (splitWrite s.params.regMap s.rf o n v).rf }

/-- The touches of a write: what it passes to the handlers, in their order (R86, R114). -/
def State.touchesOf (s : State) (o n : Nat) (v : Word) : List Touch := (splitWrite s.params.regMap s.rf o n v).touches

/-- A write that reaches the register file stores the unowned bytes, runs the handlers and delivers the level (R114). -/
theorem State.memWrite_of_reaches {s : State} {a : Word} (h : s.reaches a = true) (n : Nat) (v : Word) :
    s.memWrite a n v =
      ((s.storeUnowned (offsetOf a) n v).runHandlers (s.touchesOf (offsetOf a) n v)).checkInterrupts := by
  rw [State.memWrite, if_pos h]
  rfl

/-- A register owns a byte of the register file, in the words of the statements (R95). -/
theorem owns_iff {s : State} {r : Reg} {p : Nat} : Owns s r p ↔ s.params.regMap.regAt p = some r :=
  (RegMap.regAt_eq_some _).symm

theorem touches_iff {s : State} {r : Reg} {a : Word} {n : Nat} :
    Touches s r a n ↔ SpanTouches s.params.regMap (offsetOf a) n r :=
  exists_congr fun _ => and_congr_right fun _ => owns_iff

/-- The registers that run the port-D evaluation when written (R146, R309). -/
theorem mem_portDTriggers {r : Reg} (h : triggersPortD r = true ∨ r = .icr) : r ∈ portDTriggers := by
  revert h
  cases r <;> decide

/-- The registers that recompute the status flags when written (R309). -/
theorem mem_statusTriggers {r : Reg} (h : triggersStatusFlags r = true) : r ∈ statusTriggers := by
  revert h
  cases r <;> decide

section Reached

variable {s : State} {a : Word} (h : s.reaches a = true) {n : Nat} (hn : n ≤ 4) (v : Word)

/-- The handlers of a write change only what those of its touched registers may. -/
theorem State.memWrite_window :
    WindowFrame (SpanTouches s.params.regMap (offsetOf a) n) (s.storeUnowned (offsetOf a) n v)
      ((s.storeUnowned (offsetOf a) n v).runHandlers (s.touchesOf (offsetOf a) n v)) :=
  State.runHandlers_frame _ _ _ _ _ _

include h

/-- A byte that is of no touched register, IPR or ISR is, after a write, what the split stored there. -/
theorem State.read_memWrite {p : Nat}
    (hp : ∀ r, s.params.regMap.regAt p = some r →
      ¬SpanTouches s.params.regMap (offsetOf a) n r ∧ r ≠ .ipr ∧ r ≠ .isr) :
    (s.memWrite a n v).rf.read p = (s.storeUnowned (offsetOf a) n v).rf.read p := by
  rw [State.memWrite_of_reaches h]
  exact (s.memWrite_window v).bytes p fun r hr => hp r ((RegMap.regAt_eq_some _).2 hr)

include hn

/-- A write stores the bytes of its span that no register owns (R76). -/
theorem State.read_memWrite_unowned {j : Nat} (hj : j < n)
    (hu : s.params.regMap.regAt (spanOffset (offsetOf a) j) = none) :
    (s.memWrite a n v).rf.read (spanOffset (offsetOf a) j) = spanByte v n j := by
  rw [State.read_memWrite h v (by simp [hu])]
  exact (splitUpTo_rf s.params.regMap s.rf (offsetOf a) n v n (by omega)).1 j hj hu

/-- A write leaves the bytes outside its span that are of no touched register, IPR or ISR. -/
theorem State.read_memWrite_outside {p : Nat} (hout : ∀ j < n, p ≠ spanOffset (offsetOf a) j)
    (hp : ∀ r, s.params.regMap.regAt p = some r →
      ¬SpanTouches s.params.regMap (offsetOf a) n r ∧ r ≠ .ipr ∧ r ≠ .isr) :
    (s.memWrite a n v).rf.read p = s.rf.read p := by
  rw [State.read_memWrite h v hp]
  exact (splitUpTo_rf s.params.regMap s.rf (offsetOf a) n v n (by omega)).2.1 p fun _ => hout

end Reached

/-! Plain storage -/

/-- A write whose span no register owns touches none. -/
theorem State.touchesOf_unowned {s : State} {o n : Nat} (hu : ∀ j < n, s.params.regMap.regAt (spanOffset o j) = none)
    (v : Word) : s.touchesOf o n v = [] := by
  refine List.eq_nil_iff_forall_not_mem.2 fun t ht => ?_
  obtain ⟨i, hi, e⟩ := mem_touches_splitUpTo ht
  rw [hu i hi] at e
  cases e

/-- What a write to plain storage leaves: the delivered level, and the bytes outside the span (R76). -/
structure PlainStored (s t : State) (o n : Nat) : Prop where
  outside : ∀ p, (∀ j < n, p ≠ spanOffset o j) → t.rf.read p = s.rf.read p
  delivered : Delivered t
  frame : t = { s with rf := t.rf, cpuIpl := t.cpuIpl, returned := .nothing, events := t.events }

section PlainStorage

variable {s : State} {a : Word} (h : s.reaches a = true) {n : Nat} (hn : n ≤ 4)
  (hu : ∀ j < n, s.params.regMap.regAt (spanOffset (offsetOf a) j) = none) (v : Word)
include h hu

/-- With no register touched, a write is the store and the delivery of the level. -/
theorem State.memWrite_plain :
    s.memWrite a n v = (s.storeUnowned (offsetOf a) n v).checkInterrupts := by
  rw [State.memWrite_of_reaches h, State.touchesOf_unowned hu]
  rfl

include hn

theorem State.plainStored_memWrite : PlainStored s (s.startOp.memWrite a n v) (offsetOf a) n := by
  have e := State.memWrite_plain (s := s.startOp) h hu v
  refine ⟨fun p hp => ?_, ?_, ?_⟩
  · rw [e]
    exact (splitUpTo_rf s.params.regMap s.rf (offsetOf a) n v n (by omega)).2.1 p fun _ => hp
  · rw [e]
    exact ⟨rfl, rfl⟩
  · rw [e]
    rfl

/-- A read of the span returns the written value, bit by bit (R76, R110). -/
theorem State.getLsbD_memReadValue_memWrite {k : Nat} (hk : k < 8 * n) :
    ((s.startOp.memWrite a n v).memReadValue a n).getLsbD k = v.getLsbD k := by
  obtain ⟨t, ht⟩ : ∃ t, t = s.startOp.memWrite a n v := ⟨_, rfl⟩
  have hp : t.params = s.params := by rw [ht, State.memWrite_plain (s := s.startOp) h hu]; rfl
  have hr : t.reaches a = true := by
    rw [State.reaches, hp]
    exact h
  have hj : n - 1 - k / 8 < n := by omega
  have hbit : 8 * (n - 1 - (n - 1 - k / 8)) + k % 8 = k := by omega
  have hread : t.readByteAt (spanOffset (offsetOf a) (n - 1 - k / 8)) = spanByte v n (n - 1 - k / 8) := by
    rw [State.readByteAt, hp, hu _ hj, ht]
    exact State.read_memWrite_unowned (s := s.startOp) h hn v hj (hu _ hj)
  rw [← ht, State.memReadValue, if_pos hr, State.getLsbD_readWindow _ _ _ _ hn hk, hread, getLsbD_spanByte, hbit,
    decide_eq_true (Nat.mod_lt _ (by decide)), Bool.true_and]

/-- A read of the span returns the written value: of `8 * n` bits, where the write has that many (R76). -/
theorem State.memReadValue_memWrite {x : BitVec (8 * n)} (hv : v = x.setWidth 32) :
    ((s.startOp.memWrite a n v).memReadValue a n).setWidth (8 * n) = x := by
  refine BitVec.eq_of_getLsbD_eq fun k hk => ?_
  rw [BitVec.getLsbD_setWidth, State.getLsbD_memReadValue_memWrite h hn hu v hk, hv, BitVec.getLsbD_setWidth]
  simp [hk, show k < 32 by omega]

end PlainStorage

/-! States that are alike to the handlers -/

theorem Alike.refl (s : State) : Alike s.events s.events s s := ⟨fun _ => rfl, rfl, [], by simp⟩

theorem Alike.symm {es et : List Event} {s t : State} (h : Alike es et s t) : Alike et es t s := by
  obtain ⟨e, h1, h2⟩ := h.events
  exact ⟨fun r => (h.reg r).symm, h.core.symm, e, h2, h1⟩

theorem Alike.trans {es et eu : List Event} {s t u : State} (h : Alike es et s t) (g : Alike et eu t u) :
    Alike es eu s u := by
  obtain ⟨e, h1, h2⟩ := h.events
  obtain ⟨e', g1, g2⟩ := g.events
  have he : e = e' := List.append_cancel_left (h2.symm.trans g1)
  exact ⟨fun r => (h.reg r).trans (g.reg r), h.core.trans g.core, e, h1, he ▸ g2⟩

/-- Alike states that emitted the same: what comes after is compared from here on. -/
theorem Alike.fromHere {es : List Event} {s t : State} (h : Alike es es s t) : Alike t.events t.events s t := by
  obtain ⟨e, h1, h2⟩ := h.events
  exact ⟨h.reg, h.core, [], by simp [h1, h2], by simp⟩

/-- What touches registers only, and not the wake countdown, keeps the rest of what a handler reads. -/
theorem TouchesOnly.core {rs : List Reg} {s t : State} (h : TouchesOnly rs s t) (hw : t.wakeCountdown = s.wakeCountdown) :
    t.core = s.core := by
  rw [h.2, hw]
  rfl

/-- States that hold the same in their registers, in their unowned bytes and elsewhere, are the same but for the events. -/
theorem State.eq_of_core {s t : State} (hc : s.core = t.core) (hrf : s.rf = t.rf) (hi : s.cpuIpl = t.cpuIpl) :
    s = { t with events := s.events } := by
  cases s
  cases t
  simp only [State.core, State.mk.injEq] at hc hrf hi ⊢
  tauto

theorem State.runHandlers_append (s : State) (A B : List Touch) :
    s.runHandlers (A ++ B) = (s.runHandlers A).runHandlers B := List.foldl_append

/-! The write rules that do in two parts what they do in one -/

/-- The 32-bit registers, whose bytes a write may cut (R119, R142, R143, R144). -/
def Reg.twoPartRegs : List Reg := [.imr, .isr, .ipr, .rtctime]

/-- Two parts of a write to one register: values inside their byte enables, which share no bit (R86). -/
structure Parts (v1 e1 v2 e2 : Word) : Prop where
  first : ∀ b, v1.getLsbD b = true → e1.getLsbD b = true
  second : ∀ b, v2.getLsbD b = true → e2.getLsbD b = true
  apart : ∀ b, e1.getLsbD b = true → e2.getLsbD b = false

/-- The enabled written bits of two parts are those of the one and those of the other. -/
theorem Parts.getLsbD_and {v1 e1 v2 e2 : Word} (h : Parts v1 e1 v2 e2) (b : Nat) :
    ((v1 ||| v2) &&& (e1 ||| e2)).getLsbD b = ((v1 &&& e1).getLsbD b || (v2 &&& e2).getLsbD b) := by
  have h1 := h.first b
  have h2 := h.second b
  simp only [BitVec.getLsbD_and, BitVec.getLsbD_or]
  cases hv1 : v1.getLsbD b <;> cases hv2 : v2.getLsbD b <;> simp_all

/-- A masked store in two parts is the store of both. -/
theorem Parts.mergeBits {v1 e1 v2 e2 : Word} (h : Parts v1 e1 v2 e2) (old mask : Word) :
    mergeBits (mergeBits old v1 mask e1) v2 mask e2 = mergeBits old (v1 ||| v2) mask (e1 ||| e2) := by
  refine BitVec.eq_of_getLsbD_eq fun b _ => ?_
  have h1 := h.first b
  have h2 := h.second b
  have h3 := h.apart b
  simp only [getLsbD_mergeBits, BitVec.getLsbD_or]
  cases mask.getLsbD b <;> cases he1 : e1.getLsbD b <;> cases he2 : e2.getLsbD b <;> simp_all

section Parts

variable {v1 e1 v2 e2 : Word} (h : Parts v1 e1 v2 e2) (s : State)
include h

theorem Parts.plainWrite (r : Reg) :
    Alike s.events s.events (s.plainWrite r (v1 ||| v2) (e1 ||| e2)) ((s.plainWrite r v1 e1).plainWrite r v2 e2) := by
  refine ⟨fun q => ?_, rfl, [], (List.append_nil _).symm, (List.append_nil _).symm⟩
  by_cases hq : q = r
  · subst hq
    rw [State.reg_plainWrite, State.reg_plainWrite, State.reg_plainWrite, State.params_plainWrite, h.mergeBits]
  · have hn : q ∉ [r] := by simpa using hq
    rw [(s.plainWrite_touchesOnly r _ _).reg hn, ((s.plainWrite r v1 e1).plainWrite_touchesOnly r _ _).reg hn,
      (s.plainWrite_touchesOnly r _ _).reg hn]

theorem Parts.writeImr :
    Alike s.events s.events (s.writeImr (v1 ||| v2) (e1 ||| e2)) ((s.writeImr v1 e1).writeImr v2 e2) := by
  obtain ⟨imr, ipr, isr⟩ := s.writeImr_spec (v1 ||| v2) (e1 ||| e2)
  obtain ⟨imr1, ipr1, -⟩ := s.writeImr_spec v1 e1
  obtain ⟨imr2, ipr2, isr2⟩ := (s.writeImr v1 e1).writeImr_spec v2 e2
  have himr : (s.writeImr (v1 ||| v2) (e1 ||| e2)).reg .imr = ((s.writeImr v1 e1).writeImr v2 e2).reg .imr := by
    rw [imr, imr2, imr1, (s.writeImr_touchesOnly v1 e1).params, h.mergeBits]
  refine ⟨fun q => ?_, rfl, [], (List.append_nil _).symm, (List.append_nil _).symm⟩
  by_cases hq : q ∈ [Reg.imr, .isr]
  · simp only [List.mem_cons, List.not_mem_nil, or_false] at hq
    rcases hq with rfl | rfl
    · exact himr
    · rw [isr, isr2, himr, ipr, ipr2, ipr1]
  · rw [(s.writeImr_touchesOnly _ _).reg hq, ((s.writeImr v1 e1).writeImr_touchesOnly _ _).reg hq,
      (s.writeImr_touchesOnly _ _).reg hq]

end Parts

/-- What an ISR write with the written bits `w` does for one source (R143). -/
def State.clearWritten (w : Word) (s : State) (x : SourceRow) : State :=
  if s.edgeClearable x && w.getLsbD x.bit then s.clearSource x else s

theorem State.writeIsr_eq (s : State) (v be : Word) :
    s.writeIsr v be = s.params.sources.rows.foldl (State.clearWritten (v &&& be)) s := rfl

/-- An ISR write with the written bits `w` clears some source of `l` (R143). -/
def State.clearsSome (s : State) (w : Word) (l : List SourceRow) : Prop :=
  ∃ x ∈ l, s.edgeClearable x = true ∧ w.getLsbD x.bit.val = true

/-- The sources of `l` one by one: none is cleared and nothing happens, or one is and ISR is recomputed. -/
theorem State.foldl_clearWritten (s : State) (w : Word) (l : List SourceRow) (u : State)
    (hu : ∀ x, u.edgeClearable x = s.edgeClearable x) :
    (¬s.clearsSome w l ∧ l.foldl (State.clearWritten w) u = u) ∨
      (s.clearsSome w l ∧ (l.foldl (State.clearWritten w) u).isrConsistent) := by
  induction l generalizing u with
  | nil => exact .inl ⟨by simp [State.clearsSome], rfl⟩
  | cons x l ih =>
    have hsome : s.clearsSome w (x :: l) ↔
        (s.edgeClearable x && w.getLsbD x.bit.val) = true ∨ s.clearsSome w l := by
      simp only [State.clearsSome, List.mem_cons, exists_eq_or_imp, Bool.and_eq_true]
    rw [List.foldl_cons, State.clearWritten, hu]
    by_cases hx : (s.edgeClearable x && w.getLsbD x.bit.val) = true
    · rw [if_pos hx]
      have hkeep : ∀ y, (u.clearSource x).edgeClearable y = s.edgeClearable y := fun y =>
        ((PortTouches.of_touchesOnly (u.clearSource_spec x).1).same.edgeClearable y).trans (hu y)
      refine .inr ⟨hsome.2 (.inl hx), ?_⟩
      rcases ih (u.clearSource x) hkeep with ⟨-, e⟩ | ⟨-, e⟩
      · rw [e]
        exact State.isr_clearSource u x
      · exact e
    · rw [if_neg hx]
      rcases ih u hu with ⟨hno, e⟩ | ⟨hyes, e⟩
      · exact .inl ⟨fun h => (hsome.1 h).elim hx hno, e⟩
      · exact .inr ⟨hsome.2 (.inr hyes), e⟩

/-- An ISR write that clears no source does nothing; one that clears some recomputes ISR (R143). -/
theorem State.writeIsr_cases (s : State) (v be : Word) :
    (¬s.clearsSome (v &&& be) s.params.sources.rows ∧ s.writeIsr v be = s) ∨
      (s.clearsSome (v &&& be) s.params.sources.rows ∧ (s.writeIsr v be).isrConsistent) := by
  rw [State.writeIsr_eq]
  exact s.foldl_clearWritten (v &&& be) s.params.sources.rows s fun _ => rfl

theorem Parts.writeIsr {v1 e1 v2 e2 : Word} (h : Parts v1 e1 v2 e2) (s : State) :
    Alike s.events s.events (s.writeIsr (v1 ||| v2) (e1 ||| e2)) ((s.writeIsr v1 e1).writeIsr v2 e2) := by
  obtain ⟨touch, wake, pend, -⟩ := s.writeIsr_spec (v1 ||| v2) (e1 ||| e2)
  obtain ⟨touch1, wake1, pend1, -⟩ := s.writeIsr_spec v1 e1
  obtain ⟨touch2, wake2, pend2, -⟩ := (s.writeIsr v1 e1).writeIsr_spec v2 e2
  have hedge : ∀ x, (s.writeIsr v1 e1).edgeClearable x = s.edgeClearable x :=
    (PortTouches.of_touchesOnly touch1).same.edgeClearable
  have hclears : s.clearsSome ((v1 ||| v2) &&& (e1 ||| e2)) s.params.sources.rows ↔
      s.clearsSome (v1 &&& e1) s.params.sources.rows ∨
        (s.writeIsr v1 e1).clearsSome (v2 &&& e2) (s.writeIsr v1 e1).params.sources.rows := by
    simp only [State.clearsSome, touch1.params, hedge, h.getLsbD_and, Bool.or_eq_true, and_or_left, exists_or]
  have hipr : (s.writeIsr (v1 ||| v2) (e1 ||| e2)).reg .ipr = ((s.writeIsr v1 e1).writeIsr v2 e2).reg .ipr := by
    refine BitVec.eq_of_getLsbD_eq fun b _ => ?_
    change State.bit _ .ipr b = State.bit _ .ipr b
    rw [Bool.eq_iff_iff, pend, pend2, pend1]
    simp only [touch1.params, hedge, h.getLsbD_and, Bool.or_eq_true, and_or_left, exists_or, not_or, and_assoc]
  have himr : (s.writeIsr (v1 ||| v2) (e1 ||| e2)).reg .imr = ((s.writeIsr v1 e1).writeIsr v2 e2).reg .imr := by
    rw [touch.reg (by decide), touch2.reg (by decide), touch1.reg (by decide)]
  refine ⟨fun q => ?_, ?_, [], ?_, ?_⟩
  · by_cases hq : q ∈ [Reg.ipr, .isr]
    · simp only [List.mem_cons, List.not_mem_nil, or_false] at hq
      rcases hq with rfl | rfl
      · exact hipr
      · rcases s.writeIsr_cases (v1 ||| v2) (e1 ||| e2) with ⟨hno, e⟩ | ⟨hyes, e⟩
        · rw [hclears, not_or] at hno
          rcases s.writeIsr_cases v1 e1 with ⟨-, g1⟩ | ⟨g1, -⟩
          · rcases (s.writeIsr v1 e1).writeIsr_cases v2 e2 with ⟨-, g2⟩ | ⟨g2, -⟩
            · rw [e, g2, g1]
            · exact absurd g2 hno.2
          · exact absurd g1 hno.1
        · rw [e, hipr, himr]
          rcases (s.writeIsr v1 e1).writeIsr_cases v2 e2 with ⟨hno2, g2⟩ | ⟨-, g2⟩
          · rcases s.writeIsr_cases v1 e1 with ⟨hno1, -⟩ | ⟨-, g1⟩
            · exact absurd (hclears.1 hyes) (not_or.2 ⟨hno1, hno2⟩)
            · rw [g2, g1]
          · exact g2.symm
    · rw [touch.reg hq, touch2.reg hq, touch1.reg hq]
  · rw [touch.core wake, touch2.core wake2, touch1.core wake1]
  · rw [touch.2, List.append_nil]
  · rw [touch2.2, touch1.2, List.append_nil]

/-- The handlers of the 32-bit registers do in two parts what they do in one, and emit nothing. -/
theorem Parts.writeHandler {v1 e1 v2 e2 : Word} (h : Parts v1 e1 v2 e2) (s : State) {r : Reg} (hr : r ∈ Reg.twoPartRegs) :
    Alike s.events s.events (s.writeHandler r (v1 ||| v2) (e1 ||| e2))
        ((s.writeHandler r v1 e1).writeHandler r v2 e2) ∧
      (s.writeHandler r v1 e1).events = s.events := by
  simp only [Reg.twoPartRegs, List.mem_cons, List.not_mem_nil, or_false] at hr
  rcases hr with rfl | rfl | rfl | rfl
  · exact ⟨h.writeImr s, rfl⟩
  · have touch := (s.writeIsr_spec v1 e1).1
    exact ⟨h.writeIsr s, by
      change (s.writeIsr v1 e1).events = s.events
      rw [touch.2]⟩
  · exact ⟨.refl s, rfl⟩
  · exact ⟨h.plainWrite s .rtctime, rfl⟩

/-! The touches of a write in parts -/

/-- `Joined A B X`: the touches `X` of a write are those of its first part and then those of its second, but for a 32-bit
register that is touched last by the one and first by the other, whose two touches are one in `X` (R86). -/
inductive Joined : List Touch → List Touch → List Touch → Prop where
  | apart (A B : List Touch) : Joined A B (A ++ B)
  | shared (A B : List Touch) {r : Reg} {v1 e1 v2 e2 : Word} (hr : r ∈ Reg.twoPartRegs) (h : Parts v1 e1 v2 e2) :
    Joined (A ++ [⟨r, v1, e1⟩]) (⟨r, v2, e2⟩ :: B) (A ++ ⟨r, v1 ||| v2, e1 ||| e2⟩ :: B)

/-- The handlers of the whole do what those of the parts do, the second part from a state alike to the one after the first. -/
theorem Joined.runHandlers {A B X : List Touch} (hj : Joined A B X) {es et : List Event} {s t u : State}
    (h : Alike es es s t) (hu : Alike (t.runHandlers A).events et (t.runHandlers A) u) :
    Alike (t.runHandlers A).events et (s.runHandlers X) (u.runHandlers B) := by
  cases hj with
  | apart =>
    rw [State.runHandlers_append]
    exact ((h.runHandlers A).fromHere.trans hu).runHandlers B
  | shared A B hr hp =>
    rw [State.runHandlers_append] at hu ⊢
    rw [State.runHandlers_append]
    have hA := (h.runHandlers A).fromHere
    generalize s.runHandlers A = s' at hA ⊢
    generalize t.runHandlers A = t' at hA hu ⊢
    obtain ⟨hparts, hev⟩ := hp.writeHandler t' hr
    simp only [State.runHandlers, List.foldl_cons, List.foldl_nil] at hu ⊢
    have hone := (hA.writeHandler _ _ _).trans hparts
    rw [← hev] at hone
    exact (hone.trans (hu.writeHandler _ _ _)).runHandlers B

theorem addTouch_append {A : List Touch} {r : Reg} (h : ∀ t ∈ A, t.reg ≠ r) (B : List Touch) (v be : Word) :
    addTouch (A ++ B) r v be = A ++ addTouch B r v be := by
  induction A with
  | nil => rfl
  | cons t A ih =>
    have ht : t.reg ≠ r := h t List.mem_cons_self
    simp only [List.cons_append, addTouch, if_neg ht]
    rw [ih fun u hu => h u (List.mem_cons_of_mem _ hu)]

/-- A register that is not touched yet goes last. -/
theorem addTouch_new {A : List Touch} {r : Reg} (h : ∀ t ∈ A, t.reg ≠ r) (v be : Word) :
    addTouch A r v be = A ++ [⟨r, v, be⟩] := by
  have e := addTouch_append h [] v be
  rwa [List.append_nil] at e

/-- A lane of a register that is touched is added to its touch. -/
theorem addTouch_append_same {A : List Touch} {r : Reg} (h : ∀ t ∈ A, t.reg ≠ r) (B : List Touch) (v1 e1 v be : Word) :
    addTouch (A ++ ⟨r, v1, e1⟩ :: B) r v be = A ++ ⟨r, v1 ||| v, e1 ||| be⟩ :: B := by
  rw [addTouch_append h, addTouch, if_pos rfl]

/-- A touch after a lane was added: an old one, or the register's, which has the lane besides what it had. -/
theorem mem_addTouch_cases {ts : List Touch} {r : Reg} {v be : Word} {t : Touch} (h : t ∈ addTouch ts r v be) :
    t ∈ ts ∨ t = ⟨r, v, be⟩ ∨ ∃ u ∈ ts, u.reg = r ∧ t = ⟨r, u.v ||| v, u.be ||| be⟩ := by
  induction ts with
  | nil => exact .inr (.inl (List.mem_singleton.1 h))
  | cons u ts ih =>
    simp only [addTouch] at h
    split at h
    · next hu =>
      rcases List.mem_cons.1 h with rfl | h
      · exact .inr (.inr ⟨u, List.mem_cons_self, hu, rfl⟩)
      · exact .inl (List.mem_cons_of_mem _ h)
    · rcases List.mem_cons.1 h with rfl | h
      · exact .inl List.mem_cons_self
      · rcases ih h with h | h | ⟨w, hw, hr, e⟩
        · exact .inl (List.mem_cons_of_mem _ h)
        · exact .inr (.inl h)
        · exact .inr (.inr ⟨w, List.mem_cons_of_mem _ hw, hr, e⟩)

theorem spanOffset_spanOffset (o k i : Nat) : spanOffset (spanOffset o k) i = spanOffset o (k + i) := by
  simp only [spanOffset, Config.windowSize]
  omega

/-- A register's bytes in a span lie together: it does not wrap (R22, R73, R95). -/
theorem RegMap.regAt_between {km : RegMap} {o i l j : Nat} {r : Reg} (hi : km.regAt (spanOffset o i) = some r)
    (hj : km.regAt (spanOffset o j) = some r) (hil : i ≤ l) (hlj : l ≤ j) (hn : j ≤ i + 4) :
    km.regAt (spanOffset o l) = some r := by
  have hb := km.bytes_le r
  have hw := km.inside r
  rw [RegMap.regAt_eq_some] at hi hj ⊢
  simp only [spanOffset, Config.windowSize] at hi hj hw ⊢
  omega

section Split

variable {km : RegMap} {rf rf' : Memory} {o n k : Nat} {v : Word} {r : Reg}

theorem touches_splitUpTo_none (h : km.regAt (spanOffset o k) = none) :
    (splitUpTo km rf o n v (k + 1)).touches = (splitUpTo km rf o n v k).touches := by
  rw [splitUpTo_succ, WriteSplit.addByte, h]

theorem touches_splitUpTo_some (h : km.regAt (spanOffset o k) = some r) :
    (splitUpTo km rf o n v (k + 1)).touches = addTouch (splitUpTo km rf o n v k).touches r
      ((spanByte v n k).setWidth 32 <<< km.laneShift r (spanOffset o k))
      ((0xFF : Word) <<< km.laneShift r (spanOffset o k)) := by
  rw [splitUpTo_succ, WriteSplit.addByte, h]

/-- The split depends on the bytes that are written alone. -/
theorem splitUpTo_congr {n' : Nat} {v' : Word} (h : ∀ i < k, spanByte v n i = spanByte v' n' i) :
    splitUpTo km rf o n v k = splitUpTo km rf o n' v' k := by
  induction k with
  | zero => rfl
  | succ k ih => rw [splitUpTo_succ, splitUpTo_succ, ih fun i hi => h i (by omega), h k (by omega)]

/-- What the split stores at an offset, it stores whatever the other bytes are. -/
theorem read_splitUpTo_congr {p : Nat} (h : rf.read p = rf'.read p) :
    (splitUpTo km rf o n v k).rf.read p = (splitUpTo km rf' o n v k).rf.read p := by
  induction k with
  | zero => exact h
  | succ k ih =>
    rw [splitUpTo_succ, splitUpTo_succ, WriteSplit.addByte, WriteSplit.addByte]
    split
    · simp only [Memory.read_write, ih]
    · exact ih

theorem getLsbD_byteMask (b : Nat) : (0xFF : Word).getLsbD b = decide (b < 8) := by
  have h : (0xFF : Word) = fieldMask 0 8 := by decide
  rw [h, getLsbD_fieldMask]
  simp
  omega

/-- A touch's value lies inside its byte enables, and these are lanes of bytes of the span that its register owns. -/
theorem lanes_of_mem_touches {t : Touch} (h : t ∈ (splitUpTo km rf o n v k).touches) :
    (∀ b, t.v.getLsbD b = true → t.be.getLsbD b = true) ∧
      ∀ b, t.be.getLsbD b = true → ∃ i < k, km.regAt (spanOffset o i) = some t.reg ∧
        km.laneShift t.reg (spanOffset o i) ≤ b ∧ b < km.laneShift t.reg (spanOffset o i) + 8 := by
  induction k generalizing t with
  | zero => simp [splitUpTo] at h
  | succ k ih =>
    have old : ∀ u ∈ (splitUpTo km rf o n v k).touches, ∀ b, u.be.getLsbD b = true →
        ∃ i < k + 1, km.regAt (spanOffset o i) = some u.reg ∧
          km.laneShift u.reg (spanOffset o i) ≤ b ∧ b < km.laneShift u.reg (spanOffset o i) + 8 := fun u hu b hb => by
      obtain ⟨i, hi, e⟩ := (ih hu).2 b hb
      exact ⟨i, by omega, e⟩
    cases hr : km.regAt (spanOffset o k) with
    | none =>
      rw [touches_splitUpTo_none hr] at h
      exact ⟨(ih h).1, old t h⟩
    | some r =>
      rw [touches_splitUpTo_some hr] at h
      have hv : ∀ b, ((spanByte v n k).setWidth 32 <<< km.laneShift r (spanOffset o k)).getLsbD b = true →
          ((0xFF : Word) <<< km.laneShift r (spanOffset o k)).getLsbD b = true := by
        intro b
        simp only [BitVec.getLsbD_shiftLeft, BitVec.getLsbD_setWidth, getLsbD_spanByte, getLsbD_byteMask,
          Bool.and_eq_true]
        tauto
      have hbe : ∀ b, ((0xFF : Word) <<< km.laneShift r (spanOffset o k)).getLsbD b = true →
          ∃ i < k + 1, km.regAt (spanOffset o i) = some r ∧
            km.laneShift r (spanOffset o i) ≤ b ∧ b < km.laneShift r (spanOffset o i) + 8 := by
        intro b hb
        simp only [BitVec.getLsbD_shiftLeft, getLsbD_byteMask, Bool.and_eq_true, Bool.not_eq_true', decide_eq_true_eq,
          decide_eq_false_iff_not] at hb
        exact ⟨k, by omega, hr, by omega, by omega⟩
      rcases mem_addTouch_cases h with h | rfl | ⟨u, hu, rfl, rfl⟩
      · exact ⟨(ih h).1, old t h⟩
      · exact ⟨hv, hbe⟩
      · simp only [BitVec.getLsbD_or, Bool.or_eq_true]
        exact ⟨fun b => Or.imp ((ih hu).1 b) (hv b), fun b hb => hb.elim (old u hu b) (hbe b)⟩

/-- The register of the last byte split off is touched last, and once. -/
theorem touches_splitUpTo_last (h : km.regAt (spanOffset o k) = some r) (hk : k ≤ 4) :
    ∃ A v1 e1, (splitUpTo km rf o n v (k + 1)).touches = A ++ [⟨r, v1, e1⟩] ∧ ∀ t ∈ A, t.reg ≠ r := by
  induction k with
  | zero => exact ⟨[], _, _, touches_splitUpTo_some h, by simp⟩
  | succ k ih =>
    rw [touches_splitUpTo_some h]
    by_cases hk1 : km.regAt (spanOffset o k) = some r
    · obtain ⟨A, v1, e1, e, hA⟩ := ih hk1 (by omega)
      rw [e]
      exact ⟨A, _, _, addTouch_append_same hA [] _ _ _ _, hA⟩
    · have hnew : ∀ t ∈ (splitUpTo km rf o n v (k + 1)).touches, t.reg ≠ r := by
        rintro t ht rfl
        obtain ⟨i, hi, e⟩ := mem_touches_splitUpTo ht
        exact hk1 (RegMap.regAt_between e h (by omega) (by omega) (by omega))
      exact ⟨_, _, _, addTouch_new hnew _ _, hnew⟩

/-! The second part of a write: the `m` bytes from byte `k` of the span -/

variable {m j : Nat} {v2 : Word} (hbytes : ∀ i < m, spanByte v n (k + i) = spanByte v2 m i)
include hbytes

/-- The second part's split goes on where the first part's ended. -/
theorem rf_splitUpTo_add (hj : j ≤ m) :
    (splitUpTo km rf o n v (k + j)).rf =
      (splitUpTo km (splitUpTo km rf o n v k).rf (spanOffset o k) m v2 j).rf := by
  induction j with
  | zero => rfl
  | succ j ih =>
    rw [← Nat.add_assoc, splitUpTo_succ, splitUpTo_succ, WriteSplit.addByte, WriteSplit.addByte, ih (by omega),
      spanOffset_spanOffset, hbytes j (by omega)]
    split <;> rfl

/-- Without a register on both sides of the cut, the touches of the parts are the touches of the whole. -/
theorem touches_splitUpTo_add
    (hcut : ∀ i < k, ∀ l < m, ∀ r, km.regAt (spanOffset o i) = some r → km.regAt (spanOffset o (k + l)) ≠ some r)
    (hj : j ≤ m) :
    (splitUpTo km rf o n v (k + j)).touches =
      (splitUpTo km rf o n v k).touches ++ (splitUpTo km rf' (spanOffset o k) m v2 j).touches := by
  induction j with
  | zero => exact (List.append_nil _).symm
  | succ j ih =>
    rw [← Nat.add_assoc]
    have ih := ih (by omega)
    cases hr : km.regAt (spanOffset o (k + j)) with
    | none => rw [touches_splitUpTo_none hr, touches_splitUpTo_none (by rw [spanOffset_spanOffset, hr]), ih]
    | some r =>
      have hnew : ∀ t ∈ (splitUpTo km rf o n v k).touches, t.reg ≠ r := by
        rintro t ht rfl
        obtain ⟨i, hi, e⟩ := mem_touches_splitUpTo ht
        exact hcut i hi j (by omega) _ e hr
      rw [touches_splitUpTo_some hr, touches_splitUpTo_some (by rw [spanOffset_spanOffset, hr]), ih,
        addTouch_append hnew, spanOffset_spanOffset, hbytes j (by omega)]

/-- With a register on both sides of the cut, its two touches are one in the touches of the whole. -/
theorem touches_splitUpTo_add_shared {A : List Touch} {v1 e1 : Word} (hm : k + m ≤ 4)
    (hfirst : (splitUpTo km rf o n v k).touches = A ++ [⟨r, v1, e1⟩]) (hA : ∀ t ∈ A, t.reg ≠ r)
    (hk : km.regAt (spanOffset o k) = some r) (hj : j + 1 ≤ m) :
    ∃ B w e, (splitUpTo km rf' (spanOffset o k) m v2 (j + 1)).touches = ⟨r, w, e⟩ :: B ∧
      (splitUpTo km rf o n v (k + (j + 1))).touches = A ++ ⟨r, v1 ||| w, e1 ||| e⟩ :: B := by
  induction j with
  | zero =>
    refine ⟨[], _, _, touches_splitUpTo_some (by rw [spanOffset_spanOffset]; exact hk), ?_⟩
    rw [Nat.zero_add, touches_splitUpTo_some hk, hfirst, addTouch_append_same hA, ← hbytes 0 (by omega),
      spanOffset_spanOffset]
    rfl
  | succ j ih =>
    obtain ⟨B, w, e, hB, hX⟩ := ih (by omega)
    rw [← Nat.add_assoc k]
    cases hq : km.regAt (spanOffset o (k + (j + 1))) with
    | none =>
      exact ⟨B, w, e, by rw [touches_splitUpTo_none (by rw [spanOffset_spanOffset, hq]), hB],
        by rw [touches_splitUpTo_none hq, hX]⟩
    | some q =>
      have hnew : ∀ t ∈ A, t.reg ≠ q := by
        rintro t ht rfl
        obtain ⟨i, hi, ei⟩ := mem_touches_splitUpTo (hfirst ▸ List.mem_append_left _ ht)
        have := RegMap.regAt_between ei hq (l := k) (by omega) (by omega) (by omega)
        rw [hk] at this
        exact hA t ht (Option.some.inj this).symm
      rw [touches_splitUpTo_some hq, touches_splitUpTo_some (by rw [spanOffset_spanOffset, hq]), hB, hX,
        addTouch_append hnew, spanOffset_spanOffset, hbytes (j + 1) (by omega)]
      by_cases hrq : r = q
      · subst hrq
        simp only [addTouch, if_true]
        exact ⟨B, _, _, rfl, by rw [BitVec.or_assoc, BitVec.or_assoc]⟩
      · simp only [addTouch, if_neg hrq]
        exact ⟨_, w, e, rfl, rfl⟩

/-- The touches of a write are those of its parts, joined: the cut goes through no register but a 32-bit one. -/
theorem joined_splitUpTo (hk : 0 < k) (hm : k + m ≤ 4)
    (hcut : ∀ i < k, ∀ l < m, ∀ r, km.regAt (spanOffset o i) = some r → km.regAt (spanOffset o (k + l)) = some r →
      r ∈ Reg.twoPartRegs) :
    Joined (splitUpTo km rf o n v k).touches (splitUpTo km rf' (spanOffset o k) m v2 m).touches
      (splitUpTo km rf o n v (k + m)).touches := by
  by_cases hr : ∃ i < k, ∃ l < m, ∃ r, km.regAt (spanOffset o i) = some r ∧ km.regAt (spanOffset o (k + l)) = some r
  · obtain ⟨i, hi, l, hl, r, hir, hlr⟩ := hr
    have hbefore : km.regAt (spanOffset o (k - 1)) = some r :=
      RegMap.regAt_between hir hlr (by omega) (by omega) (by omega)
    have hafter : km.regAt (spanOffset o k) = some r := RegMap.regAt_between hir hlr (by omega) (by omega) (by omega)
    obtain ⟨A, v1, e1, hfirst, hA⟩ := touches_splitUpTo_last (rf := rf) (n := n) (v := v) hbefore (by omega)
    rw [Nat.sub_add_cancel hk] at hfirst
    obtain ⟨B, w, e, hsecond, hall⟩ :=
      touches_splitUpTo_add_shared (rf' := rf') (j := m - 1) hbytes hm hfirst hA hafter (by omega)
    rw [Nat.sub_add_cancel (by omega)] at hsecond hall
    have lanes1 := lanes_of_mem_touches (t := ⟨r, v1, e1⟩) (by rw [hfirst]; simp)
    have lanes2 := lanes_of_mem_touches (t := ⟨r, w, e⟩) (by rw [hsecond]; simp)
    rw [hfirst, hsecond, hall]
    refine .shared A B (hcut i hi l hl r hir hlr) ⟨lanes1.1, lanes2.1, fun b hb => ?_⟩
    rw [Bool.eq_false_iff]
    intro hb2
    obtain ⟨i1, hi1, reg1, lo1, hi1b⟩ := lanes1.2 b hb
    obtain ⟨i2, hi2, reg2, lo2, hi2b⟩ := lanes2.2 b hb2
    rw [spanOffset_spanOffset] at reg2 lo2 hi2b
    rw [RegMap.regAt_eq_some] at reg1 reg2
    simp only [RegTable.laneShift] at reg1 reg2 lo1 hi1b lo2 hi2b
    have := spanOffset_inj (o := o) (i := i1) (j := k + i2) (by omega) (by omega) (by omega)
    omega
  · rw [touches_splitUpTo_add (rf' := rf') hbytes (fun i hi l hl r h1 h2 => hr ⟨i, hi, l, hl, r, h1, h2⟩) (Nat.le_refl m)]
    exact .apart _ _

end Split

/-! A write in parts -/

/-- `t` is `w` but for its events: those of `u` without the delivered level that ends them, and those of `w`. -/
def InParts (t u w : State) : Prop := t = { w with events := t.events } ∧ t.events = u.events.dropLast ++ w.events

theorem State.alike_storeUnowned (s : State) (o : Nat) {n : Nat} (hn : n ≤ 4) (v : Word) :
    Alike s.events s.events s (s.storeUnowned o n v) :=
  ⟨fun r => ((splitUpTo_rf s.params.regMap s.rf o n v n (by omega)).2.2.1 r).symm, rfl, [], by simp,
    (List.append_nil _).symm⟩

/-- The delivery of the level and the start of another operation change nothing that a handler reads. -/
theorem State.alike_startOp_checkInterrupts {s : State} (h : s.returned = .nothing) :
    Alike s.events [] s s.checkInterrupts.startOp :=
  ⟨fun _ => rfl, by
    cases s
    cases h
    rfl, [], by simp, rfl⟩

/-- Register files in canonical form that agree on the registers and on the unowned bytes are equal. -/
theorem Memory.eq_of_reg_eq {km : RegMap} {x y : Memory} (hx : x.wf = true) (hy : y.wf = true)
    (hreg : ∀ r, x.reg km r = y.reg km r) (hun : ∀ p, km.regAt p = none → x.read p = y.read p) : x = y := by
  refine Memory.eq_of_read_eq hx hy fun p => ?_
  cases hp : km.regAt p with
  | none => exact hun p hp
  | some r =>
    obtain ⟨h1, h2⟩ := (RegMap.regAt_eq_some _).1 hp
    exact Memory.read_of_reg_eq km (hreg r) h1 h2

/-- The level delivered after a write is that of its handlers' result. -/
theorem Alike.level {es et : List Event} {s t : State} (h : Alike es et s t) : s.level = t.level :=
  State.level_congr h.params (h.reg .isr) (h.reg .ilcr)

/-- Alike states deliver the same level, and what they deliver is alike but for the events. -/
theorem InParts.of_alike {s t u : State} (h : Alike u.events [] s t) (hrf : s.rf = t.rf) :
    InParts s.checkInterrupts u.checkInterrupts t.checkInterrupts := by
  have hlevel := h.level
  obtain ⟨e, hs, ht⟩ := h.events
  rw [List.nil_append] at ht
  refine ⟨State.eq_of_core ?_ hrf ?_, ?_⟩
  · exact h.core
  · rw [State.cpuIpl_checkInterrupts, State.cpuIpl_checkInterrupts, hlevel]
  · rw [State.events_checkInterrupts, State.events_checkInterrupts, State.events_checkInterrupts,
      List.dropLast_concat, hs, ht, hlevel, List.append_assoc]

/-- No operation writes the parameters (log 4); here a write that reaches the register file. -/
theorem State.params_memWrite {s : State} {a : Word} (ha : s.reaches a = true) (n : Nat) (v : Word) :
    (s.memWrite a n v).params = s.params := by
  rw [State.memWrite_of_reaches ha]
  exact (s.memWrite_window v).params

section InParts

variable {s : State} {a b : Word} {k m : Nat} {v v1 v2 : Word} (ha : s.reaches a = true) (hb : s.reaches b = true)
  (hoff : offsetOf b = spanOffset (offsetOf a) k)
  (hbytes1 : ∀ i < k, spanByte v (k + m) i = spanByte v1 k i)
  (hbytes2 : ∀ i < m, spanByte v (k + m) (k + i) = spanByte v2 m i)

include ha hb hoff hbytes1 hbytes2 in
/-- A byte that no register owns is after the whole what it is after the parts. -/
theorem State.read_inParts {p : Nat} (hp : s.params.regMap.regAt p = none) :
    (s.startOp.memWrite a (k + m) v).rf.read p =
      ((s.startOp.memWrite a k v1).startOp.memWrite b m v2).rf.read p := by
  obtain ⟨u, hu⟩ : ∃ u, u = (s.startOp.memWrite a k v1).startOp := ⟨_, rfl⟩
  have hpar : u.params = s.params := hu ▸ State.params_memWrite (s := s.startOp) ha k v1
  have hub : u.reaches b = true := by
    rw [State.reaches, hpar]
    exact hb
  have hread : u.rf.read p = (splitUpTo s.params.regMap s.rf (offsetOf a) (k + m) v k).rf.read p := by
    rw [hu, splitUpTo_congr hbytes1]
    exact State.read_memWrite (s := s.startOp) ha v1 (by simp [hp])
  rw [← hu, State.read_memWrite hub v2 (by simp [hpar, hp]),
    State.read_memWrite (s := s.startOp) ha v (by simp [hp])]
  change (splitUpTo s.params.regMap s.rf (offsetOf a) (k + m) v (k + m)).rf.read p =
    (splitUpTo u.params.regMap u.rf (offsetOf b) m v2 m).rf.read p
  rw [rf_splitUpTo_add hbytes2 (Nat.le_refl m), hpar, hoff]
  exact (read_splitUpTo_congr hread).symm

variable (hm : k + m ≤ 4) (hk : 0 < k)
  (hcut : ∀ i < k, ∀ l < m, ∀ r, s.params.regMap.regAt (spanOffset (offsetOf a) i) = some r →
    s.params.regMap.regAt (spanOffset (offsetOf a) (k + l)) = some r → r ∈ Reg.twoPartRegs)

include hoff hbytes1 hbytes2 hm hk hcut in
theorem State.joined_touchesOf {u : State} (hpar : u.params = s.params) :
    Joined (s.touchesOf (offsetOf a) k v1) (u.touchesOf (offsetOf b) m v2) (s.touchesOf (offsetOf a) (k + m) v) := by
  simp only [State.touchesOf, hpar, hoff, splitWrite_eq]
  rw [← splitUpTo_congr hbytes1]
  exact joined_splitUpTo hbytes2 hk hm hcut

include ha hb hoff hbytes1 hbytes2 hm hk hcut in
/-- A write that may be cut leaves what its two parts leave: the unowned bytes are stored, and the handlers run, part by
part, and the level that the first part delivers is read by no handler (R86, R114). -/
theorem State.memWrite_inParts (hwf : s.rf.wf = true) :
    InParts (s.startOp.memWrite a (k + m) v) (s.startOp.memWrite a k v1)
      ((s.startOp.memWrite a k v1).startOp.memWrite b m v2) := by
  have hun := fun p => State.read_inParts ha hb hoff hbytes1 hbytes2 (p := p)
  have hwf1 : (s.startOp.memWrite a k v1).rf.wf = true := Memory.wf_memWrite a k v1 (by omega) hwf
  have hwft : (s.startOp.memWrite a (k + m) v).rf.wf = true := Memory.wf_memWrite a (k + m) v (by omega) hwf
  have hwfw : ((s.startOp.memWrite a k v1).startOp.memWrite b m v2).rf.wf = true :=
    Memory.wf_memWrite b m v2 (by omega) hwf1
  have whole := State.memWrite_of_reaches (s := s.startOp) ha (k + m) v
  have frame := s.startOp.memWrite_window (a := a) (n := k + m) v
  have first := State.memWrite_of_reaches (s := s.startOp) ha k v1
  have frame1 := s.startOp.memWrite_window (a := a) (n := k) v1
  obtain ⟨u, hu⟩ : ∃ u, u = (s.startOp.storeUnowned (offsetOf a) k v1).runHandlers
    (s.startOp.touchesOf (offsetOf a) k v1) := ⟨_, rfl⟩
  rw [← hu] at first frame1
  have hpar : u.params = s.params := frame1.params
  have hret : u.returned = .nothing := by
    rw [frame1.rest]
    rfl
  have hub : u.checkInterrupts.startOp.reaches b = true := by
    change u.reaches b = true
    rw [State.reaches, hpar]
    exact hb
  have second := State.memWrite_of_reaches hub m v2
  have hstart : Alike [] [] (s.startOp.storeUnowned (offsetOf a) (k + m) v) (s.startOp.storeUnowned (offsetOf a) k v1) :=
    (s.startOp.alike_storeUnowned _ hm v).symm.trans (s.startOp.alike_storeUnowned _ (by omega) v1)
  have hnext : Alike u.events [] u (u.checkInterrupts.startOp.storeUnowned (offsetOf b) m v2) :=
    (State.alike_startOp_checkInterrupts hret).trans (u.checkInterrupts.startOp.alike_storeUnowned _ (by omega) v2)
  have hjoin := State.joined_touchesOf (s := s.startOp) hoff hbytes1 hbytes2 hm hk hcut
    (u := u.checkInterrupts.startOp) hpar
  have halike := hjoin.runHandlers hstart (hu ▸ hnext)
  rw [← hu] at halike
  rw [first, second] at hun hwfw ⊢
  rw [whole] at hun hwft ⊢
  refine InParts.of_alike halike (Memory.eq_of_reg_eq hwft hwfw (fun r => ?_) hun)
  have hreg := halike.reg r
  rw [State.reg, State.reg, ← halike.params, frame.params] at hreg
  exact hreg

end InParts

/-- A byte of a part of a value is that byte of the value. -/
theorem spanByte_extract {w : Nat} (v : BitVec w) {n k m lo len : Nat} (hw : w = 8 * n) (hn : n ≤ 4)
    (hlen : len = 8 * m) (hlo : lo + 8 * (k + m) = w) : ∀ i < m,
    spanByte (v.setWidth 32) n (k + i) = spanByte ((v.extractLsb' lo len).setWidth 32) m i := by
  intro i hi
  refine BitVec.eq_of_getLsbD_eq fun b hb => ?_
  have h1 : 8 * (n - 1 - (k + i)) + b < 32 := by omega
  have h2 : 8 * (m - 1 - i) + b < 32 := by omega
  have h3 : 8 * (m - 1 - i) + b < len := by omega
  have h4 : lo + (8 * (m - 1 - i) + b) = 8 * (n - 1 - (k + i)) + b := by omega
  simp only [getLsbD_spanByte, BitVec.getLsbD_setWidth, BitVec.getLsbD_extractLsb', h1, h2, h3, h4, decide_true,
    Bool.true_and]

/-- The first part of a value has the value's first bytes. -/
theorem spanByte_extract_first {w : Nat} (v : BitVec w) {n m lo len : Nat} (hw : w = 8 * n) (hn : n ≤ 4)
    (hlen : len = 8 * m) (hlo : lo + 8 * m = w) : ∀ i < m,
    spanByte (v.setWidth 32) n i = spanByte ((v.extractLsb' lo len).setWidth 32) m i := fun i hi => by
  have e := spanByte_extract v (k := 0) (lo := lo) hw hn hlen (by rw [Nat.zero_add]; exact hlo) i hi
  rwa [Nat.zero_add] at e

/-- Without its first `k` bytes, a value has the same bytes after these. -/
theorem spanByte_rest (v : Word) (k m i : Nat) : spanByte v (k + m) (k + i) = spanByte v m i := by
  rw [spanByte, spanByte, show k + m - 1 - (k + i) = m - 1 - i by omega]

/-! Where a span may be cut -/

/-- A cut goes through no register but a 32-bit one, byte by byte. -/
theorem mem_twoPartRegs_of_cuts {s : State} {a : Word} {n k : Nat} (h : Cuts s a n k) {i l : Nat} (hi : i < k) (hl : k + l < n)
    {r : Reg} (h1 : s.params.regMap.regAt (spanOffset (offsetOf a) i) = some r)
    (h2 : s.params.regMap.regAt (spanOffset (offsetOf a) (k + l)) = some r) : r ∈ Reg.twoPartRegs :=
  h r ⟨i, hi, owns_iff.2 h1⟩ ⟨k + l, hl, Nat.le_add_right k l, owns_iff.2 h2⟩

/-- Where a span may not be cut, a register of at most two bytes owns the bytes on both sides of the cut. -/
theorem regAt_of_not_cuts {s : State} {a : Word} {n k : Nat} (hk : 0 < k) (hn : n ≤ 4) (h : ¬Cuts s a n k) :
    ∃ r, s.params.regMap.bytes r ≤ 2 ∧ s.params.regMap.regAt (spanOffset (offsetOf a) (k - 1)) = some r ∧
      s.params.regMap.regAt (spanOffset (offsetOf a) k) = some r := by
  unfold Cuts at h
  push Not at h
  obtain ⟨r, ⟨i, hi, h1⟩, ⟨l, hl, hkl, h2⟩, hr⟩ := h
  have h1 := owns_iff.1 h1
  have h2 := owns_iff.1 h2
  have hclass : r.classBytes ≤ 2 := by
    revert hr
    cases r <;> decide
  exact ⟨r, Nat.le_trans (s.params.regMap.size_spec r).2.1 hclass,
    RegMap.regAt_between h1 h2 (by omega) (by omega) (by omega),
    RegMap.regAt_between h1 h2 (by omega) (by omega) (by omega)⟩

/-- A register with two neighbouring bytes of a span holds an access to these: no register wraps. -/
theorem inside_of_regAt {s : State} {a : Word} {r : Reg} (ha : s.reaches a = true)
    (h0 : s.params.regMap.regAt (spanOffset (offsetOf a) 0) = some r)
    (h1 : s.params.regMap.regAt (spanOffset (offsetOf a) 1) = some r) : Inside s r a 2 := by
  have hlt := offsetOf_lt a
  have hin := s.params.regMap.inside r
  have hb := s.params.regMap.bytes_le r
  rw [RegMap.regAt_eq_some] at h0 h1
  simp only [spanOffset, Config.windowSize] at h0 h1 hin
  exact ⟨ha, by omega, by omega⟩

/-- A register with the bytes `i` and `i + 2` of a span has more than two. -/
theorem RegMap.two_lt_bytes {km : RegMap} {o i : Nat} {r : Reg} (h0 : km.regAt (spanOffset o i) = some r)
    (h2 : km.regAt (spanOffset o (i + 2)) = some r) : 2 < km.bytes r := by
  have hin := km.inside r
  have hb := km.bytes_le r
  rw [RegMap.regAt_eq_some] at h0 h2
  simp only [spanOffset, Config.windowSize] at h0 h2 hin
  omega

/-- A span of two bytes may be cut, or lies inside one register. -/
theorem cuts_or_inside {s : State} {a : Word} (ha : s.reaches a = true) : Cuts s a 2 1 ∨ ∃ r, Inside s r a 2 := by
  by_cases h : Cuts s a 2 1
  · exact .inl h
  · obtain ⟨r, -, h0, h1⟩ := regAt_of_not_cuts (by decide) (by decide) h
    exact .inr ⟨r, inside_of_regAt ha h0 h1⟩

/-- A span of four bytes may be cut in its middle, or else on both sides of the register there. -/
theorem cuts_middle_or_sides (s : State) (a : Word) : Cuts s a 4 2 ∨ Cuts s a 4 1 ∧ Cuts s a 4 3 := by
  by_cases h : Cuts s a 4 2
  · exact .inl h
  · obtain ⟨r, hr, h1, h2⟩ := regAt_of_not_cuts (by decide) (by decide) h
    refine .inr ⟨by_contra fun hno => ?_, by_contra fun hno => ?_⟩
    · obtain ⟨q, hq, g0, g1⟩ := regAt_of_not_cuts (by decide) (by decide) hno
      obtain rfl : r = q := Option.some.inj (h1.symm.trans g1)
      exact absurd (RegMap.two_lt_bytes g0 h2) (Nat.not_lt.2 hr)
    · obtain ⟨q, hq, g2, g3⟩ := regAt_of_not_cuts (by decide) (by decide) hno
      obtain rfl : r = q := Option.some.inj (h2.symm.trans g2)
      exact absurd (RegMap.two_lt_bytes h1 g3) (Nat.not_lt.2 hr)

/-- A write in parts of which the second is itself in parts is a write in three parts. -/
theorem InParts.trans {t u x w y : State} (h : InParts t u y) (g : InParts y x w) :
    t = { w with events := t.events } ∧ t.events = u.events.dropLast ++ x.events.dropLast ++ w.events := by
  obtain ⟨ht, het⟩ := h
  obtain ⟨hy, hey⟩ := g
  refine ⟨?_, by rw [het, hey, List.append_assoc]⟩
  generalize t.events = es at ht ⊢
  rw [ht, hy]

/-- A WRITE32 that may be cut before its second and before its fourth byte: the part after the first byte is itself cut. -/
theorem State.memWrite_inThreeParts {s : State} {a b c : Word} {v v1 v2 v3 : Word} (hwf : s.rf.wf = true)
    (ha : s.reaches a = true) (hcut1 : Cuts s a 4 1) (hcut3 : Cuts s a 4 3) (hb : ByteOf s a 1 b) (hc : ByteOf s a 3 c)
    (hbytes1 : ∀ i < 1, spanByte v 4 i = spanByte v1 1 i) (hbytes2 : ∀ i < 2, spanByte v 4 (1 + i) = spanByte v2 2 i)
    (hbytes3 : ∀ i < 1, spanByte v 4 (3 + i) = spanByte v3 1 i) :
    ∃ y, InParts (s.startOp.memWrite a 4 v) (s.startOp.memWrite a 1 v1) y ∧
      InParts y ((s.startOp.memWrite a 1 v1).startOp.memWrite b 2 v2)
        (((s.startOp.memWrite a 1 v1).startOp.memWrite b 2 v2).startOp.memWrite c 1 v3) := by
  have hcut1 := fun i (hi : i < 1) l (hl : l < 3) r => mem_twoPartRegs_of_cuts hcut1 (r := r) hi (show 1 + l < 4 by omega)
  have whole := State.memWrite_inParts (k := 1) (m := 3) ha hb.1 hb.2 hbytes1 (fun i _ => spanByte_rest v 1 3 i)
    (by decide) (by decide) hcut1 hwf
  have hwf1 : (s.startOp.memWrite a 1 v1).rf.wf = true := Memory.wf_memWrite a 1 v1 (by decide) hwf
  have hpar : (s.startOp.memWrite a 1 v1).params = s.params := State.params_memWrite (s := s.startOp) ha 1 v1
  have hreach : ∀ x, (s.startOp.memWrite a 1 v1).reaches x = s.reaches x := fun x => by
    rw [State.reaches, hpar, State.reaches]
  generalize s.startOp.memWrite a 1 v1 = u at whole hwf1 hpar hreach ⊢
  have hob : offsetOf b = spanOffset (offsetOf a) 1 := hb.2
  have hoc : offsetOf c = spanOffset (offsetOf b) 2 := by
    rw [hob, spanOffset_spanOffset]
    exact hc.2
  refine ⟨_, whole, State.memWrite_inParts (k := 2) (m := 1) (hreach b ▸ hb.1) (hreach c ▸ hc.1) hoc
    (fun i hi => ?_) (fun i hi => ?_) (by decide) (by decide) (fun i hi l hl r => ?_) hwf1⟩
  · rw [← hbytes2 i hi]
    exact (spanByte_rest v 1 3 i).symm
  · rw [← hbytes3 i hi, ← spanByte_rest v 1 3, ← Nat.add_assoc]
  · rw [hpar, hob, spanOffset_spanOffset, spanOffset_spanOffset, ← Nat.add_assoc]
    exact mem_twoPartRegs_of_cuts hcut3 (by omega) (by omega)

end Sys2Proof.Machine

namespace Sys2Proof

open Sys2Proof.Machine Sys2Proof.Claims

/-- Settles O31: nothing is read or written where the address does not reach the register file. -/
theorem invalidAccess : Obligations.InvalidAccess := by
  refine ⟨fun a s hp => State.reaches_default hp a, fun a s ha => ?_⟩
  have h : s.startOp.reaches a = false := State.reaches_eq_false ha
  have hread : ∀ n v, (s.startOp.memReadState a n).give v = { s with returned := v, events := [] } := fun n v => by
    rw [State.memReadState_unreached h]
    rfl
  have hvalue : ∀ n, s.memReadValue a n = 0 := State.memReadValue_unreached (s := s) h
  have hwrite : ∀ i n v, writeParts i = some (a, n, v) →
      exec i s = .next { s with returned := .nothing, events := [] } := fun i n v hi => by
    rw [exec_of_writeParts hi, State.memWrite_unreached h]
    rfl
  refine ⟨?_, ?_, ?_, fun v => hwrite _ _ _ rfl, fun v => hwrite _ _ _ rfl, fun v => hwrite _ _ _ rfl⟩
  · rw [exec, execRead8, hread, hvalue]
    rfl
  · rw [exec, execRead16, hread, hvalue]
    rfl
  · rw [exec, execRead32, hread, hvalue]

/-- Settles O32: the split stores the unowned bytes (`splitUpTo_rf`), the handlers keep their frames
(`State.runHandlers_frame`). -/
theorem writeFrame : Obligations.WriteFrame := by
  intro i s a n v hi ha
  have hn := writeParts_le hi
  obtain ⟨u, hu⟩ : ∃ u, u = (s.startOp.storeUnowned (offsetOf a) n v).runHandlers
    (s.startOp.touchesOf (offsetOf a) n v) := ⟨_, rfl⟩
  have frame := s.startOp.memWrite_window (a := a) (n := n) v
  have ht := State.memWrite_of_reaches (s := s.startOp) ha n v
  rw [← hu] at ht frame
  refine ⟨s.startOp.memWrite a n v, exec_of_writeParts hi s,
    fun j hj hu => State.read_memWrite_unowned (s := s.startOp) ha hn v hj hu,
    fun p hp hr => State.read_memWrite_outside (s := s.startOp) ha hn v hp fun r e => ?_, ?_⟩
  · obtain ⟨ht, hne⟩ := hr r (owns_iff.2 e)
    exact ⟨fun g => ht (touches_iff.2 g), hne⟩
  simp only [touches_iff, ht]
  refine ⟨frame.boot, frame.chips, frame.ack1, frame.ack2,
    fun hp => frame.port fun r hr => hp r (mem_portDTriggers hr),
    fun hp => frame.status fun r hr => hp r (mem_statusTriggers hr), ?_⟩
  have rest := frame.rest
  generalize u = t at rest ⊢
  rw [rest]
  rfl

/-- Settles O33: nothing is touched, so the bytes are stored and read back. -/
theorem plainStorage : Obligations.PlainStorage := by
  intro a s ha
  have hwin : spanOffset (offsetOf a) 0 = offsetOf a := Nat.mod_eq_of_lt (offsetOf_lt a)
  refine ⟨fun v hv => ?_, fun v hv => ?_, fun v hv => ?_⟩
  · have hu : ∀ j < 1, s.params.regMap.regAt (spanOffset (offsetOf a) j) = none := fun j hj => by
      rw [Nat.lt_one_iff.1 hj, hwin]
      exact hv
    obtain ⟨outside, delivered, frame⟩ := State.plainStored_memWrite ha (by decide) hu (v.setWidth 32)
    refine ⟨_, _, rfl, rfl, congrArg Returned.byte ?_, fun p hp => outside p fun j hj => ?_, delivered, frame⟩
    · exact State.memReadValue_memWrite ha (by decide) hu _ rfl
    · rw [Nat.lt_one_iff.1 hj, hwin]
      exact hp
  · obtain ⟨outside, delivered, frame⟩ := State.plainStored_memWrite ha (by decide) hv (v.setWidth 32)
    refine ⟨_, _, rfl, rfl, congrArg Returned.half ?_, outside, delivered, frame⟩
    exact State.memReadValue_memWrite ha (by decide) hv _ rfl
  · obtain ⟨outside, delivered, frame⟩ := State.plainStored_memWrite ha (by decide) hv v
    refine ⟨_, _, rfl, rfl, congrArg Returned.word ?_, outside, delivered, frame⟩
    have hword := State.memReadValue_memWrite ha (n := 4) (by decide) hv v (x := v) (BitVec.setWidth_eq v).symm
    exact (BitVec.setWidth_eq _).symm.trans hword

/-- Settles O47: a cut between two registers leaves the same handlers in the same order, and a cut through a 32-bit register
does in two handlers what the whole does in one (`State.memWrite_inParts`). -/
theorem writeInParts : Obligations.WriteInParts := by
  intro a s hwf ha
  refine ⟨cuts_or_inside ha, cuts_middle_or_sides s a, fun v b t u w hcut hb ht hu hw => ?_,
    fun v b t u w hcut hb ht hu hw => ?_, fun v b c t u x w hcut1 hcut3 hb hc ht hu hx hw => ?_⟩
  · cases ht
    cases hu
    cases hw
    exact State.memWrite_inParts (k := 1) (m := 1) ha hb.1 hb.2
      (spanByte_extract_first v rfl (by decide) rfl rfl)
      (spanByte_extract v rfl (by decide) rfl rfl)
      (by decide) (by decide) (fun _ hi _ hl _ => mem_twoPartRegs_of_cuts hcut hi (by omega)) hwf
  · cases ht
    cases hu
    cases hw
    rw [← BitVec.setWidth_eq v]
    exact State.memWrite_inParts (k := 2) (m := 2) ha hb.1 hb.2
      (spanByte_extract_first v rfl (by decide) rfl rfl)
      (spanByte_extract v rfl (by decide) rfl rfl)
      (by decide) (by decide) (fun _ hi _ hl _ => mem_twoPartRegs_of_cuts hcut hi (by omega)) hwf
  · cases ht
    cases hu
    cases hx
    cases hw
    rw [← BitVec.setWidth_eq v]
    obtain ⟨y, whole, rest⟩ := State.memWrite_inThreeParts (v := v.setWidth 32) hwf ha hcut1 hcut3 hb hc
      (spanByte_extract_first v rfl (by decide) rfl rfl)
      (spanByte_extract v rfl (by decide) rfl rfl) (spanByte_extract v rfl (by decide) rfl rfl)
    exact whole.trans rest

end Sys2Proof
end

section
/-! PROOFS. The statements of 30_encoding: decode and encode agree (O1), a descriptor selects at most one row of the table
(O2), what a step refuses (O3), and nine written-out descriptors (O4). The decoder is said once: `decode_descriptorOf` for the
descriptor of an operation, `decode_of_reserved` for every other one. -/

namespace Sys2Proof

open Sys2Proof.Claims

/-! What the decoder answers -/

/-- What the decoder makes of the descriptor of `i` and the operand record `op`: the operation of `i`'s row, unless a WRITE's
value, the time of day or the inputs are refused (R92, R94). -/
def Instr.decodeAs (op : Operand) : Instr → Except DecodeError Instr
  | .read8 _ => .ok (.read8 op.addr)
  | .read16 _ => .ok (.read16 op.addr)
  | .read32 _ => .ok (.read32 op.addr)
  | .write8 _ _ => (op.valueOf? 8).elim (.error .valueTooWide) fun v => .ok (.write8 op.addr v)
  | .write16 _ _ => (op.valueOf? 16).elim (.error .valueTooWide) fun v => .ok (.write16 op.addr v)
  | .write32 _ _ => .ok (.write32 op.addr op.value)
  | .setRtc _ _ _ _ =>
    if timeInRange op.hours op.minutes op.seconds then .ok (.setRtc op.days op.hours op.minutes op.seconds)
    else .error (.illFormed .rtcOutOfRange)
  | .inputChange _ => op.inputs.full?.elim (.error .incompleteInputs) fun x => .ok (.inputChange x)
  | .extIrq _ line => .ok (.extIrq op.source line)
  | i => .ok i

/-- The decoder accepts what the descriptor selects, if its operands are in range (R94). -/
theorem decode_eq_ok_iff {q : Request} {i : Instr} :
    decode q = .ok i ↔ decodeShape q = .ok i ∧ i.illFormed = none := by
  unfold decode
  constructor
  · intro h
    split at h
    · cases h
    · next hq =>
      split at h
      · next hwf =>
        cases h
        exact ⟨hq, hwf⟩
      · cases h
  · rintro ⟨hq, hwf⟩
    simp only [hq, hwf]

theorem toNat_descriptorOf_iack (l : BitVec 3) : (descriptorOf (.iack l)).toNat = 64 + l.toNat := by
  revert l
  decide

theorem descriptorOf_extIrq_iff (d : Byte) (x : Source) :
    (∃ line, d = descriptorOf (.extIrq x line)) ↔ d = 0xA0 ∨ d = 0xA1 :=
  Bool.exists_bool

/-- The level of an IACK is read back from its descriptor (R91). -/
theorem decodeShape_iack (l : BitVec 3) (op : Operand) :
    decodeShape ⟨descriptorOf (.iack l), op⟩ = .ok (.iack l) := by
  have hopc : ∀ l, opcOf (descriptorOf (.iack l)) = 4 := by decide
  have hsub : ∀ l, subOf (descriptorOf (.iack l)) < 8 := by decide
  have hlevel : ∀ l, (descriptorOf (.iack l)).setWidth 3 = l := by decide
  simp only [decodeShape, hopc, hsub, hlevel, if_true]

/-- The decoder on the descriptor of an operation, whatever the operand record. -/
theorem decode_descriptorOf (i : Instr) (op : Operand) : decode ⟨descriptorOf i, op⟩ = i.decodeAs op := by
  cases i with
  | write8 a v =>
    simp only [decode, decodeShape, descriptorOf, show opcOf 0x10 = 1 from rfl, show subOf 0x10 = 0 from rfl,
      Instr.decodeAs]
    cases op.valueOf? 8 <;> rfl
  | write16 a v =>
    simp only [decode, decodeShape, descriptorOf, show opcOf 0x11 = 1 from rfl, show subOf 0x11 = 1 from rfl,
      Instr.decodeAs]
    cases op.valueOf? 16 <;> rfl
  | setRtc d h m s =>
    simp only [decode, decodeShape, descriptorOf, show opcOf 0x60 = 6 from rfl, show subOf 0x60 = 0 from rfl,
      Instr.decodeAs, Instr.illFormed]
    cases timeInRange op.hours op.minutes op.seconds <;> rfl
  | inputChange x =>
    simp only [decode, decodeShape, descriptorOf, show opcOf 0x70 = 7 from rfl, show subOf 0x70 = 0 from rfl,
      Instr.decodeAs]
    cases op.inputs.full? <;> rfl
  | iack l => exact decode_eq_ok_iff.2 ⟨decodeShape_iack l op, rfl⟩
  | extIrq x line =>
    cases line <;> simp [decode, decodeShape, opcOf, subOf, descriptorOf, Instr.illFormed, Instr.decodeAs]
  | _ => simp [decode, decodeShape, opcOf, subOf, descriptorOf, Instr.illFormed, Instr.decodeAs]

/-- Encoding what was decoded gives the descriptor back: in every branch of the decoder, `OPC` and `SUB` are those of the
operation answered (R91). -/
theorem descriptorOf_of_decodeShape {q : Request} {i : Instr} (h : decodeShape q = .ok i) :
    descriptorOf i = q.descriptor := by
  have hd : q.descriptor.toNat = 16 * opcOf q.descriptor + subOf q.descriptor := (Nat.div_add_mod _ 16).symm
  apply BitVec.eq_of_toNat_eq
  rw [hd]
  dsimp only [decodeShape] at h
  split at h
  case h_4 | h_5 | h_13 => -- WRITE8, WRITE16, INPUT_CHANGE
    split at h
    · cases h
      simp only [*]
      rfl
    · cases h
  case h_9 hopc => -- IACK
    split at h
    · cases h
      rw [toNat_descriptorOf_iack, BitVec.toNat_setWidth]
      omega
    · cases h
  case h_20 => cases h -- reserved
  all_goals
    cases h
    simp only [*]
    rfl

/-- No branch but the last one, or IACK's with `SUB[3]` set, takes a reserved descriptor (R94). -/
theorem decodeShape_of_reserved {q : Request} (h : Reserved q.descriptor) :
    decodeShape q = .error (.reservedDescriptor q.descriptor) := by
  simp only [Reserved] at h
  dsimp only [decodeShape, opcOf, subOf]
  split
  case h_9 => exact if_neg (by omega) -- IACK
  case h_20 => rfl -- reserved
  all_goals omega

/-- With the record of zeros, which every operation accepts, only a reserved descriptor is refused. -/
theorem reserved_of_decodeShape_zero {d : Byte} {e : DecodeError} (h : decodeShape ⟨d, Operand.zero⟩ = .error e) :
    Reserved d := by
  simp only [Reserved]
  dsimp only [decodeShape, opcOf, subOf] at h
  split at h
  case h_9 => -- IACK
    split at h
    · cases h
    · omega
  case h_20 => -- reserved
    clear h
    grind
  all_goals cases h

/-- A reserved descriptor is refused under its name, whatever the operand record (R94). -/
theorem decode_of_reserved {q : Request} (h : Reserved q.descriptor) :
    decode q = .error (.reservedDescriptor q.descriptor) := by
  simp only [decode, decodeShape_of_reserved h]

/-- A descriptor that is not reserved is that of an operation (R91, R94). -/
theorem exists_descriptorOf {d : Byte} (h : ¬Reserved d) : ∃ i, descriptorOf i = d := by
  cases hz : decodeShape ⟨d, Operand.zero⟩ with
  | ok i => exact ⟨i, descriptorOf_of_decodeShape hz⟩
  | error e => exact absurd (reserved_of_decodeShape_zero hz) h

/-! Decode and encode -/

/-- The record that the encoder builds holds the operation's own operands (R92). -/
theorem Instr.decodeAs_operandOf {i : Instr} (h : i.wf = true) : i.decodeAs (operandOf i) = .ok i := by
  cases i with
  | write8 a v => rw [Instr.decodeAs, Operand.valueOf?_eq_some (v := v) (by decide) rfl]; rfl
  | write16 a v => rw [Instr.decodeAs, Operand.valueOf?_eq_some (v := v) (by decide) rfl]; rfl
  | setRtc d hr m s =>
    have ht : timeInRange hr m s = true := by simpa [Instr.wf, Instr.illFormed] using h
    exact if_pos ht
  | _ => rfl

theorem wf_of_decode {q : Request} {i : Instr} (h : decode q = .ok i) : i.wf = true := by
  rw [Instr.wf, (decode_eq_ok_iff.1 h).2]
  rfl

/-- Settles O1: `encode` pairs an operation's descriptor with its operands, and `decode_descriptorOf` reads both back. -/
theorem decodeEncode : Obligations.DecodeEncode :=
  ⟨fun i h => (decode_descriptorOf i (operandOf i)).trans (Instr.decodeAs_operandOf h), fun _ _ => wf_of_decode⟩

/-! The rows of the table -/

/-- The descriptor of every operation matches one row, that of its mnemonic (R93). -/
theorem row_descriptorOf (i : Instr) : Laws.RowOf.Statement i := by
  cases i with
  | read8 a => exact Laws.RowOf.read8 a
  | read16 a => exact Laws.RowOf.read16 a
  | read32 a => exact Laws.RowOf.read32 a
  | write8 a v => exact Laws.RowOf.write8 a v
  | write16 a v => exact Laws.RowOf.write16 a v
  | write32 a v => exact Laws.RowOf.write32 a v
  | tick => exact Laws.RowOf.tick
  | resetAll => exact Laws.RowOf.resetAll
  | iack l => exact Laws.RowOf.iack l
  | isSysclkRunning => exact Laws.RowOf.isSysclkRunning
  | isRegWindowRelocated => exact Laws.RowOf.isRegWindowRelocated
  | setRtc d h m s => exact Laws.RowOf.setRtc d h m s
  | inputChange x => exact Laws.RowOf.inputChange x
  | setLowPowerStop => exact Laws.RowOf.setLowPowerStop
  | busFaultWpv => exact Laws.RowOf.busFaultWpv
  | busFaultBeto => exact Laws.RowOf.busFaultBeto
  | busFaultPrv => exact Laws.RowOf.busFaultPrv
  | extIrq x line => exact Laws.RowOf.extIrq x line

/-- A row matches its own pattern, IACK's with any level and EXT_IRQ's with either line value: none is reserved (R91, R94). -/
theorem not_reserved_of_match {d : Byte} {r : OpcodeRow} (hr : r ∈ opcodeTable) (h : d &&& r.mask = r.pattern) :
    ¬Reserved d := by
  have hmask : ∀ r ∈ opcodeTable,
      r.mask = 0xFF ∨ r.mask = 0xF8 ∧ r.pattern = 0x40 ∨ r.mask = 0xFE ∧ r.pattern = 0xA0 := by decide
  have hlevels : ∀ d : Byte, d &&& 0xF8 = 0x40 → d.toNat / 16 = 4 ∧ d.toNat % 16 < 8 := by decide
  have hlines : ∀ d : Byte, d &&& 0xFE = 0xA0 → d.toNat / 16 = 10 ∧ d.toNat % 16 < 2 := by decide
  rcases hmask r hr with hm | ⟨hm, hp⟩ | ⟨hm, hp⟩
  · have hpattern : ∀ r ∈ opcodeTable, ¬Reserved r.pattern := by simp [opcodeTable, Reserved]
    have hd : d = r.pattern := by
      rw [← h, hm]
      exact BitVec.and_allOnes.symm
    rw [hd]
    exact hpattern r hr
  · obtain ⟨hopc, hsub⟩ := hlevels d (by rw [← hm, h, hp])
    simp only [Reserved]
    omega
  · obtain ⟨hopc, hsub⟩ := hlines d (by rw [← hm, h, hp])
    simp only [Reserved]
    omega

theorem matchingRows_of_reserved {d : Byte} (h : Reserved d) : matchingRows d = [] :=
  List.filter_eq_nil_iff.2 fun _ hr hm => not_reserved_of_match hr (of_decide_eq_true hm) h

/-- Two operations of one descriptor are of one row. -/
theorem mnemonicOf_eq_of_descriptorOf_eq {i j : Instr} (h : descriptorOf i = descriptorOf j) :
    mnemonicOf i = mnemonicOf j := by
  obtain ⟨r, hrow, hr⟩ := row_descriptorOf i
  obtain ⟨r', hrow', hr'⟩ := row_descriptorOf j
  rw [h, hrow', List.singleton_inj] at hrow
  rw [← hr, ← hr', hrow]

theorem Instr.decodeAs_ne_reserved (i : Instr) (op : Operand) (d : Byte) :
    i.decodeAs op ≠ .error (.reservedDescriptor d) := by
  cases i with
  | write8 a v => rw [Instr.decodeAs]; cases op.valueOf? 8 <;> simp
  | write16 a v => rw [Instr.decodeAs]; cases op.valueOf? 16 <;> simp
  | setRtc d h m s => rw [Instr.decodeAs]; split <;> simp
  | inputChange x => rw [Instr.decodeAs]; cases op.inputs.full? <;> simp
  | _ => simp [Instr.decodeAs]

/-- Settles O2: a reserved descriptor matches no row; any other one is that of an operation, and what it decodes to has the
same descriptor. -/
theorem descriptorSelectsOneRow : Obligations.DescriptorSelectsOneRow := by
  rintro ⟨d, op⟩
  by_cases h : Reserved d
  · exact .inl ⟨matchingRows_of_reserved h, decode_of_reserved h⟩
  · obtain ⟨i, rfl⟩ := exists_descriptorOf h
    obtain ⟨r, hrow, hr⟩ := row_descriptorOf i
    refine .inr ⟨r, hrow, fun j hj => ?_, fun d => ?_⟩
    · have hdesc := descriptorOf_of_decodeShape (decode_eq_ok_iff.1 hj).1
      exact (mnemonicOf_eq_of_descriptorOf_eq hdesc).trans hr.symm
    · rw [decode_descriptorOf]
      exact i.decodeAs_ne_reserved op d

/-- Settles O4: each is the descriptor of an operation, by `decode_descriptorOf`. -/
theorem writtenDescriptors : Obligations.WrittenDescriptors := fun op =>
  ⟨decode_descriptorOf (.read32 op.addr) op, fun _ => decode_write16 rfl, decode_descriptorOf .tick op,
    decode_descriptorOf .resetAll op, decode_descriptorOf (.iack 6) op, decode_descriptorOf .isRegWindowRelocated op,
    decode_descriptorOf .setLowPowerStop op, decode_descriptorOf .busFaultPrv op,
    decode_descriptorOf (.extIrq .emiq true) { op with source := .emiq }⟩

/-! Operands out of range -/

/-- A WRITE8 or WRITE16 whose value has bits above its 8 or 16 is refused (log 15). -/
theorem decode_of_valueTooWide {d : Byte} {op : Operand}
    (h : ¬((d = 0x10 → op.value.toNat < 2 ^ 8) ∧ (d = 0x11 → op.value.toNat < 2 ^ 16))) :
    decode ⟨d, op⟩ = .error .valueTooWide := by
  rcases not_and_or.1 h with h | h
  · obtain ⟨rfl, hv⟩ := Classical.not_imp.1 h
    refine (decode_descriptorOf (.write8 op.addr 0) op).trans ?_
    rw [Instr.decodeAs, (op.valueOf?_eq_none 8).2 hv]
    rfl
  · obtain ⟨rfl, hv⟩ := Classical.not_imp.1 h
    refine (decode_descriptorOf (.write16 op.addr 0) op).trans ?_
    rw [Instr.decodeAs, (op.valueOf?_eq_none 16).2 hv]
    rfl

/-- A record is a full one exactly if it lacks no field (R308). -/
theorem InputsRecord.full?_eq_none_iff (r : InputsRecord) :
    r.full? = none ↔ ¬(r.sdCardInserted ≠ none ∧ r.keyRow0 ≠ none ∧ r.keyRow1 ≠ none ∧ r.keyRow2 ≠ none ∧
      r.dockConnected ≠ none) := by
  unfold InputsRecord.full?
  split
  · simp_all
  · next h =>
    simp only [true_iff, Option.ne_none_iff_exists']
    rintro ⟨⟨sd, hsd⟩, ⟨k0, hk0⟩, ⟨k1, hk1⟩, ⟨k2, hk2⟩, dock, hdock⟩
    exact h sd k0 k1 k2 dock hsd hk0 hk1 hk2 hdock

theorem timeInRange_iff {h m s : Nat} : timeInRange h m s = true ↔ h < 24 ∧ m < 60 ∧ s < 60 := by
  simp [timeInRange, and_assoc]

end Sys2Proof

namespace Sys2Proof.Machine

open Sys2Proof.Claims

theorem State.rtcInRange_iff {s : State} {d h m sec : Nat} :
    s.rtcInRange d h m sec = true ↔ h < 24 ∧ m < 60 ∧ sec < 60 ∧ d < 2 ^ s.params.dayBits := by
  simp [State.rtcInRange, timeInRange_iff, and_assoc]

/-- A name has an external-request source exactly if some row of that name has that owner, since no two rows share a name
(R28, R135). -/
theorem Sources.external?_isSome_iff (t : Sources) (x : Source) :
    (t.external? x).isSome ↔ ∃ e ∈ t.rows, e.name = x ∧ e.owner = .external := by
  constructor
  · intro h
    obtain ⟨e, he⟩ := Option.isSome_iff_exists.1 h
    obtain ⟨hrow, howner⟩ := Option.filter_eq_some_iff.1 he
    exact ⟨e, List.mem_of_find?_eq_some hrow, by simpa using List.find?_some hrow,
      by simpa [SourceRow.isExternal] using howner⟩
  · rintro ⟨e, he, hname, howner⟩
    cases hrow : t.named? x with
    | none => exact absurd (List.find?_eq_none.1 hrow e he) (by simp [hname])
    | some y =>
      have hy : y.name = x := by simpa using List.find?_some hrow
      have hye : y = e := t.row_inj (List.mem_of_find?_eq_some hrow) he (.inr (.inl (hy.trans hname.symm)))
      simp [Sources.external?, hrow, SourceRow.isExternal, hye, howner]

/-- The external-request sources of the default table (log 2). -/
theorem Sources.default_external_iff (x : Source) :
    (∃ e ∈ Sources.default.rows, e.name = x ∧ e.owner = .external) ↔
      x ∈ [Source.spi2, .uart1, .pwm1, .uart2, .pwm2, .irq5, .spi1, .emiq] := by
  simp [Sources.default, defaultSourceRows, eq_comm]

/-! What a step refuses, and what it performs -/

theorem step_of_decode_error {s : State} {q : Request} {rest : List Request} {e : DecodeError}
    (h : s.requests = q :: rest) (he : decode q = .error e) : step s = .refused (Refusal.ofDecodeError e) := by
  simp only [step, State.fetch_of_cons h, he]

/-- The request of an operation's descriptor is performed as that operation with the record's operands (R91, R92). -/
theorem step_of_decodeAs {s : State} {i j : Instr} {op : Operand} {rest : List Request}
    (h : s.requests = ⟨descriptorOf i, op⟩ :: rest) (hj : i.decodeAs op = .ok j) :
    step s = exec j { s with requests := rest } :=
  step_of_decode h ((decode_descriptorOf i op).trans hj)

/-- A time of day out of range is refused by the decoder, a day count by the operation (R236). -/
theorem step_setRtc_outOfRange {s : State} {op : Operand} {rest : List Request} (h : s.requests = ⟨0x60, op⟩ :: rest)
    (hrange : ¬(op.hours < 24 ∧ op.minutes < 60 ∧ op.seconds < 60 ∧ op.days < 2 ^ s.params.dayBits)) :
    step s = .refused .rtcOutOfRange := by
  by_cases ht : timeInRange op.hours op.minutes op.seconds = true
  · refine (step_of_decodeAs (i := .setRtc 0 0 0 0) h (if_pos ht)).trans ?_
    exact if_neg fun hin => hrange (State.rtcInRange_iff.1 hin)
  · have hd : decode ⟨0x60, op⟩ = _ := (decode_descriptorOf (.setRtc 0 0 0 0) op).trans (if_neg ht)
    exact step_of_decode_error h hd

theorem step_inputChange_incomplete {s : State} {op : Operand} {rest : List Request}
    (h : s.requests = ⟨0x70, op⟩ :: rest) (hinputs : op.inputs.full? = none) : step s = .refused .incompleteInputs := by
  have hd : decode ⟨0x70, op⟩ = .error .incompleteInputs := by
    refine (decode_descriptorOf (.inputChange noInputs) op).trans ?_
    rw [Instr.decodeAs, hinputs]
    rfl
  exact step_of_decode_error h hd

/-- EXT_IRQ of a name that is no external-request source is refused, whatever its line value (R135). -/
theorem step_extIrq_notExternal {s : State} {d : Byte} {op : Operand} {rest : List Request}
    (h : s.requests = ⟨d, op⟩ :: rest) (hd : d = 0xA0 ∨ d = 0xA1)
    (hsource : ¬∃ e ∈ s.params.sources.rows, e.name = op.source ∧ e.owner = .external) :
    step s = .refused (.notExternalRequest op.source) := by
  have hnone : s.params.sources.external? op.source = none := by
    rwa [← Sources.external?_isSome_iff, Option.not_isSome_iff_eq_none] at hsource
  obtain ⟨line, rfl⟩ := (descriptorOf_extIrq_iff d op.source).2 hd
  refine (step_of_decodeAs h rfl).trans ?_
  change execExtIrq op.source line _ = _
  simp only [execExtIrq, hnone]

/-- The request of an operation is performed, if the operands that its row checks are in range (R92, R94). -/
theorem step_performs {s : State} {i : Instr} {op : Operand} {rest : List Request}
    (h : s.requests = ⟨descriptorOf i, op⟩ :: rest)
    (hbyte : descriptorOf i = 0x10 → op.value.toNat < 2 ^ 8) (hhalf : descriptorOf i = 0x11 → op.value.toNat < 2 ^ 16)
    (hrtc : descriptorOf i = 0x60 → s.rtcInRange op.days op.hours op.minutes op.seconds = true)
    (hinputs : descriptorOf i = 0x70 → op.inputs.full? ≠ none)
    (hsource : descriptorOf i = 0xA0 ∨ descriptorOf i = 0xA1 → (s.params.sources.external? op.source).isSome) :
    ∃ t, step s = .next t := by
  cases i with
  | write8 a v =>
    have hj : (Instr.write8 a v).decodeAs op = .ok (.write8 op.addr (op.value.setWidth 8)) := by
      rw [Instr.decodeAs, Operand.valueOf?, if_pos (hbyte rfl)]
      rfl
    exact ⟨_, step_of_decodeAs h hj⟩
  | write16 a v =>
    have hj : (Instr.write16 a v).decodeAs op = .ok (.write16 op.addr (op.value.setWidth 16)) := by
      rw [Instr.decodeAs, Operand.valueOf?, if_pos (hhalf rfl)]
      rfl
    exact ⟨_, step_of_decodeAs h hj⟩
  | setRtc d hr m sec =>
    obtain ⟨hh, hm, hs, -⟩ := State.rtcInRange_iff.1 (hrtc rfl)
    exact ⟨_, (step_of_decodeAs h (if_pos (timeInRange_iff.2 ⟨hh, hm, hs⟩))).trans (if_pos (hrtc rfl))⟩
  | inputChange x =>
    obtain ⟨y, hy⟩ := Option.ne_none_iff_exists'.1 (hinputs rfl)
    have hj : (Instr.inputChange x).decodeAs op = .ok (.inputChange y) := by
      rw [Instr.decodeAs, hy]
      rfl
    exact ⟨_, step_of_decodeAs h hj⟩
  | extIrq x line =>
    obtain ⟨e, he⟩ := Option.isSome_iff_exists.1 (hsource ((descriptorOf_extIrq_iff _ x).1 ⟨line, rfl⟩))
    rw [step_of_decodeAs h rfl]
    change ∃ t, execExtIrq op.source line _ = .next t
    simp only [execExtIrq, he]
    exact ⟨_, rfl⟩
  | _ => exact ⟨_, step_of_decodeAs h rfl⟩

end Sys2Proof.Machine

namespace Sys2Proof

open Sys2Proof.Machine Sys2Proof.Claims

/-- Settles O3: a refusal is the decoder's, or that of SET_RTC or EXT_IRQ, whose limits are the parameters'; every other
request is that of an operation, by `exists_descriptorOf`, and is performed. -/
theorem refusedRequests : Obligations.RefusedRequests := by
  rintro s ⟨d, op⟩ rest hreq
  refine ⟨fun hdefault => ?_, fun hd => ?_, fun hvalue => ?_, ?_, ?_, fun hd hsource => ?_,
    fun hd hvalue hrtc hinputs hsource => ?_⟩
  · rw [hdefault]
    exact Sources.default_external_iff op.source
  · exact step_of_decode_error hreq (decode_of_reserved hd)
  · exact step_of_decode_error hreq (decode_of_valueTooWide hvalue)
  · rintro rfl hrange
    exact step_setRtc_outOfRange hreq hrange
  · rintro rfl hlacks
    exact step_inputChange_incomplete hreq (op.inputs.full?_eq_none_iff.2 hlacks)
  · exact step_extIrq_notExternal hreq hd hsource
  · obtain ⟨i, rfl⟩ := exists_descriptorOf hd
    exact step_performs hreq hvalue.1 hvalue.2 (fun h => State.rtcInRange_iff.2 (hrtc h))
      (fun h hnone => op.inputs.full?_eq_none_iff.1 hnone (hinputs h))
      (fun h => (Sources.external?_isSome_iff _ _).2 (hsource h))

end Sys2Proof
end

section
/-! PROOFS. The statements of 40_bus_access: what a read returns and notes (O30), and the plain write of a register (O34). -/

namespace Sys2Proof.Machine

open Sys2Proof.Claims

/-! Reads that reach the register file -/

/-- Bit by bit, the port-D inputs are what the board drives (R302). -/
theorem getLsbD_rawPortD (p : InputPins) (x : Inputs) (k : Nat) : (rawPortD p x).getLsbD k = portDInput p x k := by
  simp only [rawPortD, portDInput, BitVec.getLsbD_or, getLsbD_bitIf _ _ _ (Fin.isLt _), Bool.true_and]

theorem State.getLsbD_reg8 (s : State) (r : Reg) {k : Nat} (hk : k < 8) : (s.reg8 r).getLsbD k = s.bit r k := by
  rw [State.reg8, BitVec.getLsbD_setWidth, decide_eq_true hk, Bool.true_and, State.bit]

/-- A bit of PDDATA reads as the data where the direction is output, and else as the corrected input (R302). -/
theorem State.getLsbD_readPddata (s : State) {k : Nat} (hk : k < 8) :
    s.readPddata.getLsbD k =
      if s.bit .pddir k then s.bit .pddata k else portDInput s.params.pins s.inputs k != s.bit .pdpol k := by
  simp only [State.readPddata, State.pinD, BitVec.getLsbD_or, BitVec.getLsbD_and, BitVec.getLsbD_not,
    BitVec.getLsbD_xor, getLsbD_rawPortD, s.getLsbD_reg8 _ hk, decide_eq_true hk]
  cases s.bit .pddir k <;> simp

/-- A bit of PKDATA reads as the data where the direction is output, and else as the dock's input (R303). -/
theorem State.getLsbD_readPkdata (s : State) {k : Nat} (hk : k < 8) :
    s.readPkdata.getLsbD k =
      if s.bit .pkdir k then s.bit .pkdata k else decide (k = s.params.pins.dock) && s.inputs.dockConnected := by
  simp only [State.readPkdata, rawPortK, BitVec.getLsbD_or, BitVec.getLsbD_and, BitVec.getLsbD_not,
    getLsbD_bitIf _ _ _ (Fin.isLt _), s.getLsbD_reg8 _ hk, decide_eq_true hk]
  cases s.bit .pkdir k <;> simp [Bool.and_comm]

/-- A one-byte register owns the byte at its offset and no other. -/
theorem RegMap.regAt_eq_some_one (k : RegMap) {r : Reg} (h : r.classBytes = 1) {p : Nat} :
    k.regAt p = some r ↔ p = k.offset r := by
  rw [RegMap.regAt_eq_some, k.bytes_one h]
  omega

/-- Bit by bit, the byte that an access reads at an offset (R110, R302, R303). -/
theorem State.getLsbD_readByteAt (s : State) (p : Nat) {k : Nat} (hk : k < 8) :
    (s.readByteAt p).getLsbD k = readBit s p k := by
  unfold readBit
  split
  case isTrue hpd => rw [hpd, s.readByteAt_pddata, s.getLsbD_readPddata hk]
  case isFalse hpd =>
    split
    case isTrue hkd => rw [hkd, s.readByteAt_pkdata, s.getLsbD_readPkdata hk]
    case isFalse hkd =>
      rw [s.readByteAt_stored (mt (RegMap.regAt_eq_some_one _ rfl).1 hpd) (mt (RegMap.regAt_eq_some_one _ rfl).1 hkd)]

section Reached

variable {s : State} {a : Word} (h : s.reaches a = true) {n : Nat}
include h

/-- Bit by bit, the value of a read that reaches the register file: the first byte of the span is the most significant, and
the span wraps (R72, R73, R110). -/
theorem State.getLsbD_memReadValue (hn : n ≤ 4) {k : Nat} (hk : k < 8 * n) :
    (s.memReadValue a n).getLsbD k = readBit s ((offsetOf a + (n - 1 - k / 8)) % 4096) (k % 8) := by
  rw [State.memReadValue, if_pos h, s.getLsbD_readWindow _ _ _ hn hk, s.getLsbD_readByteAt _ (Nat.mod_lt _ (by decide))]
  rfl

/-- The same of the value as the operation returns it, cut to the width of the access (R111, R112, R113). -/
theorem State.getLsbD_setWidth_memReadValue (hn : n ≤ 4) {k : Nat} (hk : k < 8 * n) :
    ((s.memReadValue a n).setWidth (8 * n)).getLsbD k =
      readBit s ((offsetOf a + (n - 1 - k / 8)) % 4096) (k % 8) := by
  rw [BitVec.getLsbD_setWidth, decide_eq_true hk, Bool.true_and, State.getLsbD_memReadValue h hn hk]

/-- A read that reaches the register file notes the status of the TSTATn it touches, and returns its value (R80, R196). -/
theorem State.afterRead_memReadState (v : Returned) :
    AfterRead s ((s.startOp.memReadState a n).give v) a n v := by
  have hnote : s.startOp.memReadState a n = s.startOp.noteWindow (offsetOf a) n := if_pos h
  obtain ⟨seen1, kept1, seen2, kept2, rest⟩ := s.startOp.noteWindow_spec (offsetOf a) n
  simp only [AfterRead, touches_iff, hnote]
  refine ⟨seen1, kept1, seen2, kept2, ?_⟩
  rw [rest]
  rfl

end Reached

/-! Writes inside one register -/

/-- The bytes a state change leaves alone, in the words of the statements. -/
theorem TouchesOnly.bytesKept {rs : List Reg} {s t : State} (h : TouchesOnly rs s t) : BytesKept rs s t :=
  fun p hp => h.1 p fun r hr => by
    have hout := hp r hr
    unfold Owns at hout
    omega

/-- With no event emitted before, the delivery of the level is the only one (R134). -/
theorem State.delivered_checkInterrupts {s : State} (h : s.events = []) : Delivered s.checkInterrupts :=
  ⟨rfl, by rw [State.events_checkInterrupts, h]; rfl⟩

/-- A write is of at least one byte (R92). -/
theorem writeParts_pos {i : Instr} {a : Word} {n : Nat} {v : Word} (h : writeParts i = some (a, n, v)) : 1 ≤ n := by
  cases i <;> cases h <;> decide

/-- A write inside a register runs its handler on the written lane, and then delivers the level (R86, R114). -/
theorem exec_of_inside {i : Instr} {s : State} {a : Word} {n : Nat} {v : Word} {r : Reg}
    (hi : writeParts i = some (a, n, v)) (h : Inside s r a n) :
    exec i s = .next (s.startOp.writeHandler r (laneValue s r a n v &&& laneMask s r a n)
      (laneMask s r a n)).checkInterrupts := by
  obtain ⟨hreach, hlo, hhi⟩ := h
  rw [exec_of_writeParts hi]
  exact congrArg _ (s.startOp.memWrite_inside v hreach hlo hhi (writeParts_pos hi))

/-- Bits outside the byte enables do not matter to a masked store (R79). -/
theorem mergeBits_and_enable (old v mask be : Word) : mergeBits old (v &&& be) mask be = mergeBits old v mask be := by
  refine BitVec.eq_of_getLsbD_eq fun b _ => ?_
  simp only [getLsbD_mergeBits, BitVec.getLsbD_and]
  cases be.getLsbD b <;> simp

/-- The handler of a plain register is the plain write: a pull-up register is a port register that triggers nothing
(R118, R119, R309). -/
theorem State.writeHandler_plain (s : State) {r : Reg} (hr : r ∈ plainRegs) (v be : Word) :
    s.writeHandler r v be = s.plainWrite r v be := by
  fin_cases hr <;> rfl

end Sys2Proof.Machine

namespace Sys2Proof

open Sys2Proof.Machine Sys2Proof.Claims

/-- Settles O30: each byte of the span reads as `readBit` says (`State.getLsbD_readByteAt`), and only the status of a
touched TSTATn is noted (`State.noteWindow_spec`). -/
theorem readValue : Obligations.ReadValue := by
  intro a s ha
  refine ⟨⟨_, _, rfl, State.afterRead_memReadState ha _, fun k hk => ?_⟩,
    ⟨_, _, rfl, State.afterRead_memReadState ha _, fun k hk => ?_⟩,
    ⟨_, _, rfl, State.afterRead_memReadState ha _, fun k hk => ?_⟩⟩
  · have hbyte : (offsetOf a + (1 - 1 - k / 8)) % 4096 = offsetOf a := by
      have := offsetOf_lt a
      omega
    rw [State.getLsbD_setWidth_memReadValue ha (n := 1) (by decide) hk, hbyte, Nat.mod_eq_of_lt hk]
  · exact State.getLsbD_setWidth_memReadValue ha (n := 2) (by decide) hk
  · exact State.getLsbD_memReadValue ha (n := 4) (by decide) hk

/-- Settles O34: the handler is the plain write, which touches its register alone, and then the level is delivered. -/
theorem plainWrite : Obligations.PlainWrite := by
  intro i s a n v r hr hi hin
  have stores := s.startOp.reg_plainWrite r (laneValue s r a n v &&& laneMask s r a n) (laneMask s r a n)
  have touches := s.startOp.plainWrite_touchesOnly r (laneValue s r a n v &&& laneMask s r a n) (laneMask s r a n)
  rw [mergeBits_and_enable] at stores
  refine ⟨_, exec_of_inside hi hin, ?_⟩
  rw [State.writeHandler_plain _ hr]
  exact ⟨stores, touches.bytesKept, State.delivered_checkInterrupts rfl, rfl⟩

end Sys2Proof
end

section
/-! PROOFS. The statements of 41_interrupt_controller: what changes a pending flag (O9, O15), the delivered level (O13), the
read-only registers (O20), EXT_IRQ (O25), the writes of IMR and ISR (O35, O36), and IACK (O24). -/

namespace Sys2Proof.Machine

open Sys2Proof.Claims

/-! Raises, in the words of the statements -/

theorem wakeTicks_eq_wakeLength (k : Nat) : wakeTicks k = wakeLength k := by
  unfold wakeTicks wakeLength
  split <;> simp_all

/-- The two ways to say that a raise of a source wakes (R131, R137). -/
theorem State.wakes_iff (s : State) (x : SourceRow) : s.wakes x = true ↔ Wakes s x := by
  unfold State.wakes State.wakeCapable Wakes
  rw [Bool.and_eq_true, and_comm, Bool.not_eq_true']
  refine and_congr_right fun _ => ?_
  cases x.wake with
  | always => simp
  | never => simp
  | edgeOnly => cases x.owner <;> simp

/-- The countdown that an asked wake arms is the one that the statements give (R167). -/
theorem State.wakeAfter_armed (s : State) {b : Bool} {wakes : Prop} (h : b = true ↔ wakes) :
    WakeAfter s wakes (s.armed b) := by
  have harmed : (b && s.flag .displl && s.wakeCountdown == -1) = true ↔
      wakes ∧ s.field .displl = 1 ∧ s.wakeCountdown = -1 := by
    simp only [Bool.and_eq_true, beq_iff_eq, h, s.flag_eq_true, and_assoc]
  refine ⟨fun hc => ?_, fun hc => ?_⟩ <;> rw [State.armed]
  · rw [if_pos (harmed.2 hc), wakeTicks_eq_wakeLength]
  · rw [if_neg (mt harmed.1 hc)]

/-! EXT_IRQ -/

/-- EXT_IRQ drives its source's line (R135). -/
def State.driveSource (s : State) (x : SourceRow) (line : Bool) : State :=
  if line then s.raiseSource x else s.clearSource x

theorem State.driveSource_true (s : State) (x : SourceRow) : s.driveSource x true = s.raiseSource x :=
  if_pos rfl

theorem State.driveSource_false (s : State) (x : SourceRow) : s.driveSource x false = s.clearSource x :=
  if_neg (by decide)

/-- Everything the drive of a source can do (R131, R132). -/
theorem State.driveSource_spec (s : State) (x : SourceRow) (line : Bool) :
    TouchesOnly [.ipr, .isr] s (s.driveSource x line) ∧
      (∀ n, (s.driveSource x line).bit .ipr n = if n = x.bit.val then line else s.bit .ipr n) ∧
      (s.driveSource x line).isrConsistent ∧
      (s.driveSource x line).wakeCountdown = s.armed (line && s.wakes x) := by
  cases line with
  | false =>
    rw [State.driveSource_false]
    exact ⟨(s.clearSource_spec x).1, fun n => (s.bit_ipr_clearSource x n).trans (by split <;> simp [*]),
      s.isr_clearSource x, (s.clearSource_spec x).2.2.2.trans s.armed_false.symm⟩
  | true =>
    rw [State.driveSource_true]
    exact ⟨(s.raiseSource_spec x).1, fun n => (s.bit_ipr_raiseSource x n).trans (by split <;> simp [*]),
      s.isr_raiseSource x, s.wakeCountdown_raiseSource x⟩

/-- An external-request source is a row of the table under its name (R135). -/
theorem Sources.external?_eq_some_iff {t : Sources} {name : Source} {x : SourceRow} :
    t.external? name = some x ↔ x ∈ t.rows ∧ x.name = name ∧ x.owner = .external := by
  have spec : ∀ y, t.external? name = some y → y ∈ t.rows ∧ y.name = name ∧ y.owner = .external := by
    intro y hy
    obtain ⟨hrow, howner⟩ := Option.filter_eq_some_iff.1 hy
    exact ⟨List.mem_of_find?_eq_some hrow, by simpa using List.find?_some hrow,
      by simpa [SourceRow.isExternal] using howner⟩
  refine ⟨spec x, fun ⟨hx, hname, howner⟩ => ?_⟩
  obtain ⟨y, hy⟩ := Option.isSome_iff_exists.1 ((t.external?_isSome_iff name).2 ⟨x, hx, hname, howner⟩)
  obtain ⟨hrow, hyname, -⟩ := spec y hy
  rw [hy, t.row_inj hrow hx (.inr (.inl (hyname.trans hname.symm)))]

theorem exec_extIrq_external {s : State} {name : Source} {x : SourceRow} (line : Bool)
    (hx : s.params.sources.external? name = some x) :
    exec (.extIrq name line) s = .next (s.startOp.driveSource x line).checkInterrupts := by
  change execExtIrq name line s = _
  simp only [execExtIrq, hx, State.driveSource]

theorem exec_extIrq_notExternal {s : State} {name : Source} (line : Bool)
    (hnone : s.params.sources.external? name = none) :
    exec (.extIrq name line) s = .refused (.notExternalRequest name) := by
  change execExtIrq name line s = _
  simp only [execExtIrq, hnone]

/-! Edge-sensitive pins, in the words of the statements -/

theorem State.pinEdge_iff (s : State) {p : Nat} : s.pinEdge p = true ↔ PinEdge s p := by
  unfold State.pinEdge PinEdge Field.pinEt
  split
  · rfl
  · rw [s.flag_eq_true]
    split <;> simp_all

/-- The edge-clearable sources are those of the edge-sensitive pins (R143). -/
theorem State.edgeClearable_iff (s : State) {x : SourceRow} (hx : x ∈ s.params.sources.rows) :
    s.edgeClearable x = true ↔ ∃ p < 8, x = s.pinSource p ∧ PinEdge s p := by
  constructor
  · intro h
    unfold State.edgeClearable at h
    split at h
    case h_1 k hk =>
      have hne : x.owner ≠ .external := by simp [hk]
      refine ⟨k, k.isLt, ?_, s.pinEdge_iff.1 h⟩
      rw [State.pinSource, Owner.ofPin, Fin.ofNat_val_eq_self, ← hk, s.source_eq hx hne]
    case h_2 => cases h
  · rintro ⟨p, hp, rfl, hedge⟩
    simp only [State.edgeClearable, s.owner_pinSource hp]
    exact s.pinEdge_iff.2 hedge

/-- The pending bits that an ISR write may clear are those of the edge-sensitive pins (R143). -/
theorem State.exists_edgeClearable_iff (s : State) (b : Nat) (written : Prop) :
    (∃ x ∈ s.params.sources.rows, x.bit.val = b ∧ s.edgeClearable x = true ∧ written) ↔
      ∃ p < 8, b = (s.pinSource p).bit.val ∧ PinEdge s p ∧ written := by
  constructor
  · rintro ⟨x, hx, rfl, hclear, hw⟩
    obtain ⟨p, hp, rfl, hedge⟩ := (s.edgeClearable_iff hx).1 hclear
    exact ⟨p, hp, rfl, hedge, hw⟩
  · rintro ⟨p, hp, rfl, hedge, hw⟩
    exact ⟨s.pinSource p, s.pinSource_mem p, rfl, (s.edgeClearable_iff (s.pinSource_mem p)).2 ⟨p, hp, rfl, hedge⟩,
      hw⟩

/-! The paths through a TICK -/

/-- A TICK after its once-per-second path, before the level is delivered (R261). -/
def State.tickBody (s : State) : State := (((s.rtiLadder).timerTick .t1).timerTick .t2).pllWakeStep

theorem State.tickTail_eq (s : State) : s.tickTail = s.tickBody.checkInterrupts := rfl

theorem State.rtcSecond_touchesOnly (s : State) :
    TouchesOnly [.rtctime, .dayr, .rtcisr, .ipr, .isr] s s.rtcSecond := by
  unfold State.rtcSecond
  split
  · exact ((s.setTimeOfDay_spec _).1.mono (by simp)).trans ((State.latchRtc_spec _ _ _).1.mono (by simp))
  · exact .refl _ s

/-- The watchdog's expiry is a function of WATCHDOG (R233). -/
theorem State.watchdogResets_congr {s t : State} (hp : t.params = s.params) (h : t.reg .watchdog = s.reg .watchdog) :
    t.watchdogResets = s.watchdogResets := by
  have hflag : ∀ f : Field, f.reg = .watchdog → t.flag f = s.flag f := fun f hf =>
    State.flag_congr (State.field_congr hp (by rw [hf, h]))
  simp only [State.watchdogResets, State.watchdogExpires, State.watchdogValue, hflag .wdtEn rfl, hflag .wdtIsel rfl,
    hp, h]

/-- The step that would abort the TICK, in the words of the statements (R233, R235). -/
theorem State.watchdogResets_iff (s : State) :
    s.watchdogResets = true ↔
      s.field .wdtEn = 1 ∧ watchdogStepped s &&& s.params.wdt.expiry ≠ 0 ∧ s.field .wdtIsel = 0 := by
  have hsel := s.flag_eq_false .wdtIsel (s.params.regMap.len_flag rfl fun _ => rfl)
  simp only [State.watchdogResets, Bool.and_eq_true, Bool.not_eq_true', s.flag_eq_true, hsel, State.watchdogExpires,
    watchdogExpired, bne_iff_ne, and_assoc]
  rfl

theorem State.aborts_iff (s : State) :
    Aborts s ↔ s.secondBoundary = true ∧ s.countTick.rtcSecond.watchdogResets = true := by
  have hrtc := s.countTick.rtcSecond_touchesOnly
  have hreset : s.countTick.rtcSecond.watchdogResets = s.watchdogResets :=
    State.watchdogResets_congr hrtc.params (hrtc.reg (by decide))
  rw [hreset, s.watchdogResets_iff, State.secondBoundary, beq_iff_eq]
  simp only [Aborts, WatchdogExpires, and_assoc]
  rfl

/-- The three paths of a TICK: aborted after the RTC's second, through the whole once-per-second path, or without one
(R260, R262). -/
theorem State.tick_cases (s : State) :
    (Aborts s ∧ s.tick = s.countTick.rtcSecond.emit .systemReset) ∨
      (¬Aborts s ∧ s.tick = s.countTick.rtcSecond.watchdogSecond.tickBody.checkInterrupts) ∨
      (¬Aborts s ∧ s.tick = s.countTick.tickBody.checkInterrupts) := by
  rw [s.aborts_iff, State.tick]
  cases hb : s.secondBoundary with
  | false => exact .inr (.inr ⟨by simp, rfl⟩)
  | true =>
    cases hr : s.countTick.rtcSecond.watchdogResets with
    | false => exact .inr (.inl ⟨by simp, by simp [hr, State.tickTail_eq]⟩)
    | true => exact .inl ⟨⟨rfl, rfl⟩, by simp [hr]⟩

/-! The parts of a write -/

/-- What relates any two states of the same parameters and registers, and a state to what the handler of a touched register
makes of it, relates a state to what a write makes of it (R114). -/
theorem State.memWrite_keeps {Q : State → State → Prop} (htrans : ∀ {s t u}, Q s t → Q t u → Q s u)
    (hsame : ∀ {s t : State}, t.params = s.params → (∀ r, t.reg r = s.reg r) → Q s t) (s : State)
    {a : Word} {n : Nat} (hn : n ≤ 4) (v : Word)
    (handler : s.reaches a = true → ∀ (u : State) r v be, Touches s r a n → Q u (u.writeHandler r v be)) :
    Q s (s.memWrite a n v) := by
  cases ha : s.reaches a with
  | false =>
    rw [State.memWrite_unreached ha]
    exact hsame rfl fun _ => rfl
  | true =>
    rw [State.memWrite_of_reaches ha]
    have store : Q s (s.storeUnowned (offsetOf a) n v) :=
      hsame rfl (splitUpTo_rf s.params.regMap s.rf (offsetOf a) n v n (by omega)).2.2.1
    have run := State.runHandlers_induct (ts := s.touchesOf (offsetOf a) n v) (fun _ => hsame rfl fun _ => rfl) htrans
      fun u t ht => handler ha u t.reg t.v t.be (touches_iff.2 (mem_touches_splitUpTo ht))
    exact htrans (htrans store (run _)) (hsame rfl fun _ => rfl)

/-! Which operations change a pending flag -/

/-- The operation may change the pending flag of a source of this owner (R130). -/
def OwnerMayChange (s : State) (i : Instr) (o : Owner) : Prop :=
  ∀ x : SourceRow, x.owner = o → MayChangePending s i x

/-- A handler acts for its owners when the operation writes its register (R118, R130). -/
theorem ownerMayChange_of_writesTo {s : State} {i : Instr} {r : Reg} {o : Owner} (hw : WritesTo s i r)
    (h : handlerOwns r o = true) : OwnerMayChange s i o := by
  intro x hx
  simp only [MayChangePending, hx]
  cases o with
  | external => cases h
  | timer n => exact .inr (of_decide_eq_true h ▸ hw)
  | watchdog => exact .inr (of_decide_eq_true h ▸ hw)
  | rtcSecond => exact .inr (of_decide_eq_true h ▸ hw)
  | ladder => exact .inr (of_decide_eq_true h ▸ hw)
  | keyboard => exact .inr ⟨r, mem_portDTriggers (by simpa [handlerOwns] using h), hw⟩
  | pin k =>
    rcases (by simpa [handlerOwns] using h : (triggersPortD r = true ∨ r = .icr) ∨ r = .isr) with hr | rfl
    · exact .inr (.inr ⟨r, mem_portDTriggers hr, hw⟩)
    · exact .inr (.inl hw)

/-- The owners whose sources a TICK may raise: TMR1, TMR2, WDT, RTC and RTI (R200, R224, R226, R234). -/
def Owner.ticks : Owner → Bool
  | .timer _ | .watchdog | .rtcSecond | .ladder => true
  | .external | .keyboard | .pin _ => false

theorem ownerMayChange_of_ticks {s : State} {o : Owner} (h : o.ticks = true) : OwnerMayChange s .tick o := by
  intro x hx
  simp only [MayChangePending, hx]
  cases o with
  | timer n => exact .inl trivial
  | watchdog => exact .inl trivial
  | rtcSecond => exact .inl trivial
  | ladder => exact .inl trivial
  | external => cases h
  | keyboard => cases h
  | pin k => cases h

theorem TouchesOnly.pendingKept {P : Owner → Prop} {rs : List Reg} {s t : State} (h : TouchesOnly rs s t)
    (hi : .ipr ∉ rs) : PendingKept P s t := .of_ipr h.params (h.reg hi)

theorem State.checkInterrupts_pendingKept {P : Owner → Prop} (s : State) : PendingKept P s s.checkInterrupts :=
  .of_ipr rfl rfl

theorem State.emit_pendingKept {P : Owner → Prop} (s : State) (e : Event) : PendingKept P s (s.emit e) :=
  .of_ipr rfl rfl

theorem TickPart.pendingKept {P : Owner → Prop} {rs : List Reg} {o : Owner} {raised : Bool} {s t : State}
    (h : TickPart rs (s.source o) raised s t) (ho : o ≠ .external) (hP : P o) : PendingKept P s t := by
  refine ⟨h.params, fun b hb => ⟨o, ho, ?_, hP⟩⟩
  by_contra hne
  rw [h.pending, decide_eq_false (Ne.symm hne), Bool.and_false, Bool.or_false] at hb
  exact hb rfl

section TickOwners

variable {P : Owner → Prop} (hP : ∀ o, o.ticks = true → P o)
include hP

theorem State.rtcSecond_pendingKept (s : State) : PendingKept P s s.rtcSecond := by
  unfold State.rtcSecond
  split
  · exact ((s.setTimeOfDay_spec _).1.pendingKept (by decide)).trans
      ((State.latchRtc_spec _ _ .rtcSecond).2.1.pendingKept (by decide) (hP _ rfl))
  · exact .refl P s

theorem State.tickBody_pendingKept (s : State) : PendingKept P s s.tickBody := by
  have ladder : PendingKept P s s.rtiLadder := (s.latchRtc_spec _ .ladder).2.1.pendingKept (by decide) (hP _ rfl)
  have timer : ∀ u n, PendingKept P u (u.timerTick n) := fun u n =>
    (u.timerTick_spec n).2.1.pendingKept (by simp) (hP _ rfl)
  exact ((ladder.trans (timer _ .t1)).trans (timer _ .t2)).trans
    ((State.pllWakeStep_spec _).1.pendingKept (by decide))

/-- A TICK changes the pending flags of its own owners' sources alone. -/
theorem State.tick_pendingKept (s : State) : PendingKept P s s.tick := by
  have second : PendingKept P s s.countTick.rtcSecond :=
    PendingKept.trans (.of_ipr rfl rfl) (State.rtcSecond_pendingKept hP s.countTick)
  have body := State.tickBody_pendingKept hP
  rcases s.tick_cases with ⟨-, e⟩ | ⟨-, e⟩ | ⟨-, e⟩ <;> rw [e]
  · exact second.trans (State.emit_pendingKept _ _)
  · have watchdog := (s.countTick.rtcSecond).watchdogSecond_spec.2.1.pendingKept (by decide) (hP _ rfl)
    exact ((second.trans watchdog).trans (body _)).trans (State.checkInterrupts_pendingKept _)
  · exact (PendingKept.trans (.of_ipr rfl rfl) (body s.countTick)).trans (State.checkInterrupts_pendingKept _)

end TickOwners

/-- The parameters are kept, and every IPR bit that changes is that of a source satisfying `Q`. -/
def ChangesOwned (Q : SourceRow → Prop) (s t : State) : Prop :=
  t.params = s.params ∧
    ∀ b, t.bit .ipr b ≠ s.bit .ipr b → ∃ x ∈ s.params.sources.rows, x.bit.val = b ∧ Q x

theorem PendingKept.changesOwned {P : Owner → Prop} {Q : SourceRow → Prop} {s t : State} (h : PendingKept P s t)
    (hQ : ∀ x : SourceRow, P x.owner → Q x) : ChangesOwned Q s t := by
  refine ⟨h.1, fun b hb => ?_⟩
  obtain ⟨o, ho, hbit, hP⟩ := h.2 b hb
  exact ⟨s.source o, s.source_mem ho, hbit, hQ _ (by rwa [s.source_owner ho])⟩

theorem PendingKept.mayChange {s t : State} {i : Instr} (h : PendingKept (OwnerMayChange s i) s t) :
    ChangesOwned (MayChangePending s i) s t := h.changesOwned fun x hx => hx x rfl

/-- EXT_IRQ changes the pending flag of its source alone (R135). -/
theorem changesOwned_extIrq {s : State} {name : Source} {x : SourceRow} (line : Bool)
    (hx : s.params.sources.external? name = some x) :
    ChangesOwned (MayChangePending s (.extIrq name line)) s (s.startOp.driveSource x line).checkInterrupts := by
  obtain ⟨hrow, hname, howner⟩ := Sources.external?_eq_some_iff.1 hx
  obtain ⟨htouch, hbit, -⟩ := s.startOp.driveSource_spec x line
  refine ⟨htouch.params, fun b hb => ⟨x, hrow, ?_, ?_⟩⟩
  · by_contra hne
    exact hb ((hbit b).trans (if_neg (Ne.symm hne)))
  · simp only [MayChangePending, howner, hname]
    exact ⟨line, rfl⟩

/-- Every operation but RESET_ALL changes the pending flags of its own sources alone (R130). -/
theorem Performed.changesOwned {i : Instr} {s t : State} (h : Performed s i t) (hi : i ≠ .resetAll) :
    ChangesOwned (MayChangePending s i) s t := by
  have start : PendingKept (OwnerMayChange s i) s s.startOp := .of_ipr rfl rfl
  cases h with
  | read v hi =>
    obtain ⟨x, y, e⟩ := s.startOp.memReadState_eq _ _
    rw [e]
    exact PendingKept.mayChange (.of_ipr rfl rfl)
  | @write _ a n v hi =>
    have write := s.startOp.memWrite_keeps (Q := PendingKept (OwnerMayChange s i)) PendingKept.trans
      (fun hp hr => .of_ipr hp (hr .ipr)) (writeParts_le hi) v fun ha u r v be ht =>
        (u.writeHandler_pendingKept r v be).mono fun _ => ownerMayChange_of_writesTo ⟨a, n, _, hi, ha, ht⟩
    exact (start.trans write).mayChange
  | tick => exact (start.trans (State.tick_pendingKept (fun _ => ownerMayChange_of_ticks) _)).mayChange
  | resetAll => exact absurd rfl hi
  | iack l => exact PendingKept.mayChange (.of_ipr rfl rfl)
  | query b hi => exact PendingKept.mayChange (.of_ipr rfl rfl)
  | setRtc => exact (start.trans ((s.startOp.setTimeOfDay_spec _).1.pendingKept (by decide))).mayChange
  | inputChange x =>
    have inputs : PendingKept (OwnerMayChange s (.inputChange x)) s { s.startOp with inputs := x } := .of_ipr rfl rfl
    have port := State.evalPortD_pendingKept (P := OwnerMayChange s (.inputChange x)) { s.startOp with inputs := x }
      (fun k y hy => by simp [MayChangePending, hy]) (fun y hy => by simp [MayChangePending, hy])
    exact ((inputs.trans port).trans (State.checkInterrupts_pendingKept _)).mayChange
  | lowPowerStop => exact PendingKept.mayChange (.of_ipr rfl rfl)
  | busFault k =>
    have hf := start.trans ((s.startOp.setFault_touchesOnly k).pendingKept (by decide))
    rcases s.startOp.busFault_eq k with e | e <;> rw [e]
    · exact hf.mayChange
    · exact (hf.trans (State.emit_pendingKept _ _)).mayChange
  | extIrq x hx => exact changesOwned_extIrq _ hx

/-! The bits of no source -/

/-- Every pending bit is that of a source (R130). -/
theorem State.pendingBitsOwned_iff (s : State) :
    s.pendingBitsOwned ↔ ∀ b, s.bit .ipr b = true → ∃ x ∈ s.params.sources.rows, x.bit.val = b := by
  simp only [← Sources.getLsbD_allMask]
  constructor
  · intro h b hb
    have hlt : b < 32 := by
      by_contra hge
      rw [s.bit_ge _ (by omega)] at hb
      cases hb
    have e := congrArg (fun w : Word => w.getLsbD b) h
    rw [State.bit] at hb
    simpa [hb, hlt] using e
  · intro h
    refine BitVec.eq_of_getLsbD_eq fun b hlt => ?_
    rw [BitVec.getLsbD_and, BitVec.getLsbD_not]
    cases hb : (s.reg .ipr).getLsbD b with
    | false => simp
    | true => simp [h b hb]

theorem ChangesOwned.pendingBitsOwned {Q : SourceRow → Prop} {s t : State} (h : ChangesOwned Q s t)
    (hs : s.pendingBitsOwned) : t.pendingBitsOwned := by
  rw [State.pendingBitsOwned_iff] at hs ⊢
  intro b hb
  rw [h.1]
  by_cases hc : t.bit .ipr b = s.bit .ipr b
  · exact hs b (hc ▸ hb)
  · obtain ⟨x, hx, hbit, -⟩ := h.2 b hc
    exact ⟨x, hx, hbit⟩

/-- RESET_ALL ends with the port-D evaluation and the delivery of the level, on a state that has the reset image with
ISR recomputed (R440). -/
theorem State.resetAll_eq (s : State) :
    ∃ u : State, s.resetAll = u.evalPortD.checkInterrupts ∧
      u.rf = ({ s with rf := s.params.resetMemory }.recomputeIsr).rf ∧ u.params = s.params ∧
      ∃ c, u.events = s.events ++ [.mapChanged c] :=
  ⟨_, rfl, rfl, rfl, _, rfl⟩

/-- The image sets no IPR bit of no source, and the port-D evaluation raises and clears sources only (R130, R440;
log 3). -/
theorem State.resetAll_pendingBitsOwned (s : State) : s.resetAll.pendingBitsOwned := by
  obtain ⟨u, e, hrf, hparams, -⟩ := s.resetAll_eq
  have himage : u.pendingBitsOwned := by
    have hipr : u.reg .ipr = { s with rf := s.params.resetMemory }.reg .ipr := by
      rw [State.reg, hrf, hparams]
      exact (State.recomputeIsr_spec { s with rf := s.params.resetMemory }).1.reg (by decide)
    rw [State.pendingBitsOwned, hipr, hparams]
    exact s.params.imageOwned
  rw [e]
  have hport := (u.evalPortD_pendingKept (P := fun _ => True) (fun _ => trivial) trivial).trans
    (State.checkInterrupts_pendingKept _)
  exact (hport.changesOwned fun _ => id).pendingBitsOwned himage

/-- Every operation keeps the bits of no source 0 (R130). -/
theorem pendingBitsOwned_of_exec {i : Instr} {s t : State} (h : exec i s = .next t) (hs : s.pendingBitsOwned) :
    t.pendingBitsOwned := by
  by_cases hi : i = .resetAll
  · subst hi
    cases h
    exact s.startOp.resetAll_pendingBitsOwned
  · exact ((performed_of_exec h).changesOwned hi).pendingBitsOwned hs

/-- A bit of no source is 0 in IPR, and with it in ISR (R130). -/
theorem State.bit_unowned {s : State} (hs : s.pendingBitsOwned) (hisr : s.isrConsistent) {n : Nat}
    (hn : ∀ x ∈ s.params.sources.rows, x.bit.val ≠ n) : s.bit .ipr n = false ∧ s.bit .isr n = false := by
  have hipr : s.bit .ipr n = false := by
    rw [Bool.eq_false_iff]
    intro hb
    obtain ⟨x, hx, hbit⟩ := s.pendingBitsOwned_iff.1 hs n hb
    exact hn x hx hbit
  refine ⟨hipr, ?_⟩
  rw [State.bit] at hipr
  rw [State.bit, hisr, BitVec.getLsbD_and, hipr, Bool.false_and]

/-- No operation changes the parameters (log 4). -/
theorem params_of_exec {i : Instr} {s t : State} (h : exec i s = .next t) : t.params = s.params := by
  by_cases hi : i = .resetAll
  · subst hi
    cases h
    obtain ⟨u, e, -, hparams, -⟩ := s.startOp.resetAll_eq
    rw [e]
    exact u.evalPortD_spec.1.params.trans hparams
  · exact ((performed_of_exec h).changesOwned hi).1

theorem params_of_step {s t : State} (h : step s = .next t) : t.params = s.params :=
  step_keeps (P := fun u => u.params = s.params) (fun _ _ => id)
    (fun _ _ _ hs hi => (params_of_exec hi).trans hs) rfl h

/-! The delivered level -/

/-- `t` has the events and the delivered level of `s`. -/
def Quiet (s t : State) : Prop := t.events = s.events ∧ t.cpuIpl = s.cpuIpl

theorem Quiet.trans {s t u : State} (h : Quiet s t) (g : Quiet t u) : Quiet s u :=
  ⟨g.1.trans h.1, g.2.trans h.2⟩

theorem TouchesOnly.quiet {rs : List Reg} {s t : State} (h : TouchesOnly rs s t) : Quiet s t := by
  rw [h.2]
  exact ⟨rfl, rfl⟩

theorem PortTouches.quiet {s t : State} (h : PortTouches s t) : Quiet s t := by
  rw [h.2]
  exact ⟨rfl, rfl⟩

/-- With the level delivered, an operation that touches registers and the countdown alone has done all that it does. -/
theorem TouchesOnly.checkInterrupts_eq {rs : List Reg} {s u : State} (h : TouchesOnly rs s.startOp u) :
    u.checkInterrupts = { s with
      rf := u.checkInterrupts.rf, wakeCountdown := u.wakeCountdown, cpuIpl := u.checkInterrupts.cpuIpl,
      returned := .nothing, events := u.checkInterrupts.events } := by
  obtain ⟨rf, wake, rfl⟩ : ∃ rf wake, u = { s.startOp with rf := rf, wakeCountdown := wake } := ⟨_, _, h.2⟩
  rfl

theorem TouchesOnly.delivered {rs : List Reg} {s u : State} (h : TouchesOnly rs s.startOp u) :
    Delivered u.checkInterrupts := State.delivered_checkInterrupts h.quiet.1

theorem State.timerTick_quiet (s : State) (n : TimerId) : Quiet s (s.timerTick n) := by
  obtain ⟨⟨u, hu, e⟩, -⟩ := s.timerTick_spec n
  rw [e]
  exact hu.quiet.trans ⟨State.events_setTimerAcc u n _, State.cpuIpl_setTimerAcc u n _⟩

theorem State.tickBody_quiet (s : State) : Quiet s s.tickBody :=
  (((s.latchRtc_spec _ .ladder).1.quiet.trans (State.timerTick_quiet _ .t1)).trans (State.timerTick_quiet _ .t2)).trans
    (State.pllWakeStep_spec _).1.quiet

/-- The state's level has just been delivered, by the last event and no other (R134). -/
def DeliveredLast (t : State) : Prop :=
  ∃ u : State, t = u.checkInterrupts ∧ ∀ l, Event.setIpl l ∉ u.events

/-- No level has been delivered, and the last one of `s` stands. -/
def NotDelivered (s t : State) : Prop := (∀ l, Event.setIpl l ∉ t.events) ∧ t.cpuIpl = s.cpuIpl

theorem Quiet.deliveredLast {s t : State} (h : Quiet s t) (hs : s.events = []) : DeliveredLast t.checkInterrupts :=
  ⟨t, rfl, by simp [h.1, hs]⟩

theorem Quiet.notDelivered {s t : State} (h : Quiet s t) (hs : s.events = []) : NotDelivered s t :=
  ⟨by simp [h.1, hs], h.2⟩

/-- A TICK delivers the level last, unless it is aborted (R262). -/
theorem State.tick_delivery {s : State} (hs : s.events = []) :
    (Aborts s ∧ NotDelivered s s.tick) ∨ (¬Aborts s ∧ DeliveredLast s.tick) := by
  have count : Quiet s s.countTick := ⟨rfl, rfl⟩
  have second := count.trans s.countTick.rtcSecond_touchesOnly.quiet
  rcases s.tick_cases with ⟨ha, e⟩ | ⟨ha, e⟩ | ⟨ha, e⟩ <;> rw [e]
  · exact .inl ⟨ha, by simp [second.1, hs], second.2⟩
  · have path := (second.trans (State.watchdogSecond_spec _).1.quiet).trans (State.tickBody_quiet _)
    exact .inr ⟨ha, path.deliveredLast hs⟩
  · exact .inr ⟨ha, (count.trans (State.tickBody_quiet _)).deliveredLast hs⟩

/-- A write that reaches the register file delivers the level last: its handlers emit ShortenBudget and MapChanged alone
(R114, R166, R277). -/
theorem State.memWrite_delivery {s : State} {a : Word} (ha : s.reaches a = true) (hs : s.events = []) (n : Nat)
    (v : Word) :
    DeliveredLast (s.memWrite a n v) := by
  rw [State.memWrite_of_reaches ha]
  obtain ⟨es, hes, hkind⟩ := (s.memWrite_window (a := a) (n := n) v).events
  refine ⟨_, rfl, fun l hl => ?_⟩
  rw [hes] at hl
  change Event.setIpl l ∈ s.events ++ es at hl
  rw [hs, List.nil_append] at hl
  rcases hkind _ hl with ⟨_, e⟩ | ⟨_, e⟩ <;> cases e

theorem State.resetAll_delivery {s : State} (hs : s.events = []) : DeliveredLast s.resetAll := by
  obtain ⟨u, e, -, -, c, hevents⟩ := s.resetAll_eq
  rw [e]
  exact ⟨_, rfl, by simp [u.evalPortD_spec.1.quiet.1, hevents, hs]⟩

/-- An operation that ends with `checkInterrupts()` delivers the level last; every other one delivers none (R134). -/
theorem Performed.delivery {i : Instr} {s t : State} (h : Performed s i t) :
    (Delivers i s ∧ DeliveredLast t) ∨ (¬Delivers i s ∧ NotDelivered s t) := by
  cases h with
  | read v hi =>
    obtain ⟨x, y, e⟩ := s.startOp.memReadState_eq _ _
    rw [e]
    refine .inr ⟨?_, by simp [NotDelivered]⟩
    cases i <;> cases hi <;> simp [Delivers, writeParts]
  | @write _ a n v hi =>
    cases ha : s.reaches a with
    | true => exact .inl ⟨.inl ⟨a, n, v, hi, ha⟩, State.memWrite_delivery (s := s.startOp) ha rfl n v⟩
    | false =>
      rw [State.memWrite_unreached (s := s.startOp) ha]
      refine .inr ⟨?_, by simp [NotDelivered]⟩
      cases i <;> cases hi <;> simp [Delivers, writeParts, ha]
  | tick =>
    rcases State.tick_delivery (s := s.startOp) rfl with ⟨(ha : Aborts s), hd⟩ | ⟨ha, hd⟩
    · exact .inr ⟨by simpa [Delivers, writeParts] using ha, hd⟩
    · exact .inl ⟨.inr (.inl ⟨rfl, ha⟩), hd⟩
  | resetAll => exact .inl ⟨.inr (.inr (.inl rfl)), State.resetAll_delivery rfl⟩
  | iack l => exact .inr ⟨by simp [Delivers, writeParts], by simp [NotDelivered]⟩
  | query b hi =>
    refine .inr ⟨?_, by simp [NotDelivered]⟩
    rcases hi with rfl | rfl <;> simp [Delivers, writeParts]
  | setRtc =>
    exact .inr ⟨by simp [Delivers, writeParts], (s.startOp.setTimeOfDay_spec _).1.quiet.notDelivered rfl⟩
  | inputChange x =>
    exact .inl ⟨.inr (.inr (.inr (.inl ⟨x, rfl⟩))), (State.evalPortD_spec _).1.quiet.deliveredLast rfl⟩
  | lowPowerStop => exact .inr ⟨by simp [Delivers, writeParts], by simp [NotDelivered]⟩
  | busFault k =>
    have hf := (s.startOp.setFault_touchesOnly k).quiet
    refine .inr ⟨by cases k <;> simp [Delivers, writeParts, faultOp], ?_⟩
    rcases s.startOp.busFault_eq k with e | e <;> rw [e]
    · exact hf.notDelivered rfl
    · exact ⟨by simp, hf.2⟩
  | @extIrq name line x hx =>
    refine .inl ⟨.inr (.inr (.inr (.inr ⟨name, line, rfl⟩))), ?_⟩
    exact (s.startOp.driveSource_spec x line).1.quiet.deliveredLast rfl

/-- The ILCR fields of the default map are the three bits from 12, 8, 4 and 0 up (R27). -/
theorem State.field_lvl_default {s : State} (h : s.params.regMap = .default) {k : Fin 5} {lo : Nat}
    (hlo : RegMap.default.lo (.lvl k) = lo) (hlen : RegMap.default.len (.lvl k) = 3) :
    s.field (.lvl k) = (s.reg .ilcr).toNat / 2 ^ lo % 8 := by
  rw [State.field_eq, h, hlo, hlen, getBits, BitVec.toNat_ushiftRight, Nat.shiftRight_eq_div_pow]
  rfl

/-- The levels of the default tables, row by row (R28; logs 1 and 2). -/
theorem sourceLevel_default {s : State} (hmap : s.params.regMap = .default) {x : SourceRow}
    (hx : x ∈ Sources.default.rows) : sourceLevel s x = defaultLevel s x.name := by
  have spi1 := s.field_lvl_default hmap (k := 0) (lo := 12) (by decide +kernel) (by decide +kernel)
  have uart2 := s.field_lvl_default hmap (k := 1) (lo := 8) (by decide +kernel) (by decide +kernel)
  have pwm2 := s.field_lvl_default hmap (k := 2) (lo := 4) (by decide +kernel) (by decide +kernel)
  have tmr2 := s.field_lvl_default hmap (k := 3) (lo := 0) (by decide +kernel) (by decide +kernel)
  rw [Nat.pow_zero, Nat.div_one] at tmr2
  revert x
  simp [Sources.default, defaultSourceRows, sourceLevel, defaultLevel, spi1, uart2, pwm2, tmr2]

/-! The timers' counters -/

/-- The parameters and the counter of timer `m` are as before. -/
def CounterKept (m : TimerId) (s t : State) : Prop := t.params = s.params ∧ t.reg (Reg.tcn m) = s.reg (Reg.tcn m)

theorem CounterKept.trans {m : TimerId} {s t u : State} (h : CounterKept m s t) (g : CounterKept m t u) :
    CounterKept m s u := ⟨g.1.trans h.1, g.2.trans h.2⟩

theorem TouchesOnly.counterKept {m : TimerId} {rs : List Reg} {s t : State} (h : TouchesOnly rs s t)
    (hm : Reg.tcn m ∉ rs) : CounterKept m s t := ⟨h.params, h.reg hm⟩

theorem PortTouches.counterKept {s t : State} (h : PortTouches s t) (m : TimerId) : CounterKept m s t :=
  ⟨h.params, h.reg (by cases m <;> decide) (by cases m <;> decide)⟩

theorem State.checkInterrupts_counterKept (m : TimerId) (s : State) : CounterKept m s s.checkInterrupts :=
  ⟨rfl, rfl⟩

theorem State.emit_counterKept (m : TimerId) (s : State) (e : Event) : CounterKept m s (s.emit e) := ⟨rfl, rfl⟩

/-- No handler stores into a counter: its own ignores the write, and every other one leaves it (R118, R195). -/
theorem State.writeHandler_counterKept (s : State) (m : TimerId) (r : Reg) (v be : Word) :
    CounterKept m s (s.writeHandler r v be) := by
  by_cases hr : r = Reg.tcn m
  · subst hr
    cases m <;> exact ⟨rfl, rfl⟩
  · have frame := s.writeHandler_frame r v be
    exact ⟨frame.params, frame.reg (by cases m <;> simp_all [Reg.tcn, eq_comm])⟩

/-- Only TICK and RESET_ALL change a timer's counter (R195). -/
theorem Performed.counterKept {i : Instr} {s t : State} (h : Performed s i t) (htick : i ≠ .tick)
    (hreset : i ≠ .resetAll) (m : TimerId) : CounterKept m s t := by
  have start : CounterKept m s s.startOp := ⟨rfl, rfl⟩
  cases h with
  | read v hi =>
    obtain ⟨x, y, e⟩ := s.startOp.memReadState_eq _ _
    rw [e]
    exact ⟨rfl, rfl⟩
  | write hi =>
    exact start.trans (s.startOp.memWrite_keeps (Q := CounterKept m) CounterKept.trans (fun hp hr => ⟨hp, hr _⟩)
      (writeParts_le hi) _ fun _ u r v be _ => u.writeHandler_counterKept m r v be)
  | tick => exact absurd rfl htick
  | resetAll => exact absurd rfl hreset
  | iack l => exact ⟨rfl, rfl⟩
  | query b hi => exact ⟨rfl, rfl⟩
  | setRtc => exact start.trans ((s.startOp.setTimeOfDay_spec _).1.counterKept (by cases m <;> decide))
  | inputChange x =>
    have inputs : CounterKept m s { s.startOp with inputs := x } := ⟨rfl, rfl⟩
    exact (inputs.trans ((State.evalPortD_spec _).1.counterKept m)).trans (State.checkInterrupts_counterKept m _)
  | lowPowerStop => exact ⟨rfl, rfl⟩
  | busFault k =>
    have hf := start.trans ((s.startOp.setFault_touchesOnly k).counterKept (by cases m <;> decide))
    rcases s.startOp.busFault_eq k with e | e <;> rw [e]
    · exact hf
    · exact hf.trans (State.emit_counterKept m _ _)
  | @extIrq name line x hx =>
    exact (start.trans ((s.startOp.driveSource_spec x line).1.counterKept (by cases m <;> decide))).trans
      (State.checkInterrupts_counterKept m _)

end Sys2Proof.Machine

namespace Sys2Proof

open Sys2Proof.Machine Sys2Proof.Claims

/-- Settles O24: the descriptor's low bits are the level, and the rest is the rule of IACK written out. -/
theorem iack : Obligations.Iack :=
  ⟨fun l op => decode_descriptorOf (.iack l) op, fun _ _ => rfl⟩

/-- Settles O25: EXT_IRQ looks its source up by name and drives it (`State.driveSource_spec`). -/
theorem extIrq : Obligations.ExtIrq := by
  refine ⟨fun x op => ⟨decode_descriptorOf (.extIrq x false) _, decode_descriptorOf (.extIrq x true) _⟩,
    fun x line s => ⟨fun hnot => ?_, fun y hy hname howner => ?_⟩⟩
  · refine exec_extIrq_notExternal line (Option.eq_none_iff_forall_ne_some.2 fun y hsome => ?_)
    obtain ⟨hy, hname, howner⟩ := Sources.external?_eq_some_iff.1 hsome
    exact hnot y hy hname howner
  · obtain ⟨htouch, hbit, hisr, hwake⟩ := s.startOp.driveSource_spec y line
    refine ⟨_, exec_extIrq_external line (Sources.external?_eq_some_iff.2 ⟨hy, hname, howner⟩), hbit, hisr, ?_,
      htouch.delivered, htouch.bytesKept, htouch.checkInterrupts_eq⟩
    rw [State.wakeCountdown_checkInterrupts, hwake]
    exact State.wakeAfter_armed s.startOp (by rw [Bool.and_eq_true, State.wakes_iff]; rfl)

/-- Settles O35: IMR is stored as a plain write, and ISR recomputed (`State.writeImr_spec`). -/
theorem imrWrite : Obligations.ImrWrite := by
  intro i s a n v hi hin
  obtain ⟨himr, -, hisr⟩ :=
    s.startOp.writeImr_spec (laneValue s .imr a n v &&& laneMask s .imr a n) (laneMask s .imr a n)
  have touches :=
    s.startOp.writeImr_touchesOnly (laneValue s .imr a n v &&& laneMask s .imr a n) (laneMask s .imr a n)
  rw [mergeBits_and_enable] at himr
  exact ⟨_, exec_of_inside hi hin, himr, hisr, touches.bytesKept, State.delivered_checkInterrupts rfl, rfl⟩

/-- Settles O36: the handler clears the edge-clearable sources written 1 (`State.writeIsr_spec`), which are those of the
edge-sensitive pins. -/
theorem isrWrite : Obligations.IsrWrite := by
  intro i s a n v hcons hi hin
  obtain ⟨touches, hwake, hbits, -⟩ :=
    s.startOp.writeIsr_spec (laneValue s .isr a n v &&& laneMask s .isr a n) (laneMask s .isr a n)
  have hisr := (s.startOp.writeHandler_isrKept .isr (laneValue s .isr a n v &&& laneMask s .isr a n)
    (laneMask s .isr a n)).consistent hcons
  have heq := touches.checkInterrupts_eq
  rw [hwake] at heq
  refine ⟨_, exec_of_inside hi hin, fun b => ?_, hisr, touches.bytesKept, touches.delivered, heq⟩
  refine (hbits b).trans (and_congr_right fun _ => not_congr ?_)
  rw [BitVec.and_assoc, BitVec.and_self]
  exact s.startOp.exists_edgeClearable_iff b _

/-- Settles O20: the handlers of IPR and TCNn are empty, and `Performed.counterKept` for every operation. -/
theorem readOnlyRegisters : Obligations.ReadOnlyRegisters := by
  refine ⟨fun i s a n v r hr hi hin => ?_, fun i s t m h htick hreset =>
    ((performed_of_exec h).counterKept htick hreset m).2⟩
  have hsame : ∀ u v be, State.writeHandler u r v be = u := by
    rcases hr with rfl | rfl | rfl <;> exact fun _ _ _ => rfl
  refine ⟨_, exec_of_inside hi hin, ?_⟩
  rw [hsame]
  exact ⟨State.delivered_checkInterrupts rfl, rfl⟩

/-- Settles O13: what ends with `checkInterrupts()` delivers last and once (`Performed.delivery`), and the level is the
maximum by `State.level_spec`. -/
theorem levelIsTheMaximum : Obligations.LevelIsTheMaximum := by
  intro i s t h
  have hparams := params_of_exec h
  rcases (performed_of_exec h).delivery with ⟨hd, u, rfl, hu⟩ | ⟨hd, hn⟩
  · refine ⟨fun _ => ⟨⟨u.events, rfl, hu⟩, ?_⟩, fun hnot => absurd hd hnot⟩
    obtain ⟨hle, hattained⟩ := u.level_spec
    rw [← hparams, State.cpuIpl_checkInterrupts, u.toNat_level]
    refine ⟨hle, hattained.imp_left fun h0 => by rw [h0]; rfl, fun hmap hsources x hx => ?_⟩
    exact sourceLevel_default hmap (hsources ▸ hx)
  · exact ⟨fun hdel => absurd hdel hd, fun _ => hn⟩

/-- Settles O15: a changed IPR bit is that of a source whose flag the operation may change, and no other source has that
bit. -/
theorem pendingChangesByOwner : Obligations.PendingChangesByOwner := by
  intro i s t x hx h hne
  refine or_iff_not_imp_left.2 fun hi => ?_
  obtain ⟨y, hy, hbit, hmay⟩ := ((performed_of_exec h).changesOwned hi).2 x.bit hne
  rwa [s.params.sources.row_inj hx hy (.inl (Fin.ext hbit.symm))]

/-- Settles O9: an operation changes the IPR bits of sources alone (`Performed.changesOwned`), RESET_ALL loads an image
without others, and ISR has no bit that IPR has not. -/
theorem stepKeepsUnownedBitsClear : Obligations.StepKeepsUnownedBitsClear := by
  intro s t hs hisr h
  have howned : t.pendingBitsOwned :=
    step_keeps (P := State.pendingBitsOwned) (fun _ _ => id) (fun _ _ _ hu hi => pendingBitsOwned_of_exec hi hu) hs h
  have hcons : t.isrConsistent := stepKeepsIsr.2.1 s t hisr h
  exact ⟨howned, fun n hn => State.bit_unowned howned hcons (by rwa [params_of_step h])⟩

end Sys2Proof
end

section
/-! PROOFS. The statements of 42_pll_clock: the protected PLLFSR (O19), the queries (O28), the writes of PLLFSR and PLLCR
(O38, O39), the wake countdown in a TICK and in a run of them (O55, O56), and the rates (O59). -/

namespace Sys2Proof

/-! Exact quotients -/

/-- A quotient by a small integer that a binary64 number holds exactly is that number (R11, R162). -/
theorem F64.div_ofNat_exact {a : F64} {m n : Nat} (ha : a.units = m * n) (hm : F64.Fits m) (hn : 0 < n)
    (hlt : n < 2 ^ 53) : (F64.div a (F64.ofNat n)).units = m := by
  have hdiv : (F64.div a (F64.ofNat n)).units = F64.roundQuot (F64.one * (m * n)) (F64.one * n) := by
    rw [F64.div, F64.ofNat_exact hlt, ha, Nat.mul_comm F64.one, Nat.mul_comm F64.one]
  rw [hdiv, F64.roundQuot_mul_left _ _ _ F64.one_pos, F64.roundQuot_exact hm hn]

/-- A number of `2 ^ 1074` units is that many times one, whichever way the power is cut. -/
theorem F64.mul_two_pow_eq_mul_one (c : Nat) {e p : Nat} (h : e + p = 1074) : c * 2 ^ e * 2 ^ p = c * F64.one := by
  rw [F64.one, ← h, Nat.pow_add, Nat.mul_assoc]

/-- The division of a number of at most 53 significant bits by a small power of two is exact (R11). -/
theorem F64.div_two_pow {a : F64} {c e p : Nat} (ha : a.units = c * 2 ^ (p + e)) (hc : c < 2 ^ 53) (hp : p < 53) :
    (F64.div a (F64.ofNat (2 ^ p))).units = c * 2 ^ e := by
  refine F64.div_ofNat_exact ?_ ⟨c, e, hc, rfl⟩ (Nat.two_pow_pos p) (Nat.pow_lt_pow_right (by decide) hp)
  rw [ha, Nat.pow_add, Nat.mul_assoc, Nat.mul_comm (2 ^ p)]

/-- A positive integer does not round to zero (R11). -/
theorem F64.ofNat_pos {n : Nat} (hn : 0 < n) : 0 < (F64.ofNat n).units := by
  have hpos : 0 < n * F64.one := Nat.mul_pos hn F64.one_pos
  obtain ⟨sig, rest, r, hnum, hrest, -, hsig, hround, hr⟩ := F64.roundQuot_spec (n * F64.one) 1 Nat.one_pos
  have hunits : (F64.ofNat n).units = r * 2 ^ F64.drop (n * F64.one) 1 := hround
  have hrpos : 0 < r := by
    by_cases hd : F64.drop (n * F64.one) 1 = 0
    · rw [hd] at hnum hrest
      omega
    · have := hsig (Nat.pos_of_ne_zero hd)
      omega
  rw [hunits]
  exact Nat.mul_pos hrpos (Nat.two_pow_pos _)

end Sys2Proof

namespace Sys2Proof.Machine

open Sys2Proof.Claims

/-! The rates -/

/-- `14 * (P + 1) + Q + 1`, doubled: the PLL's output cycles per tick before the prescaler (R162). -/
def State.pllCycles (s : State) : Nat := 2 * (14 * (s.field .pcnt + 1) + s.field .qcnt + 1)

/-- A field that every map lists has at most the 32 bits of a register. -/
theorem State.field_lt_word (s : State) {f : Field} (h : f.mayLack = false) : s.field f < 2 ^ 32 := by
  have hin := (s.params.regMap.field_spec h).2.1
  have hbytes := s.params.regMap.bytes_le f.reg
  exact Nat.lt_of_lt_of_le (s.field_lt f) (Nat.pow_le_pow_right (by decide) (by omega))

theorem State.pllCycles_lt (s : State) : s.pllCycles < 2 ^ 53 := by
  have hp := s.field_lt_word (f := .pcnt) rfl
  have hq := s.field_lt_word (f := .qcnt) rfl
  unfold State.pllCycles
  omega

theorem State.dmaclkPerTick_eq (s : State) :
    s.dmaclkPerTick = F64.div (F64.ofNat s.pllCycles) (F64.ofNat (s.params.presc1Div.ofField (s.field .presc1))) := rfl

/-- `PLLCR.SYSCLKSEL`'s divisor, written out (R163; log 5). -/
theorem SysclkDivisors.ofCode_eq (d : SysclkDivisors) (c : Nat) :
    d.ofCode c =
      if c = 0 then d.code0.val else if c = 1 then d.code1.val else if c = 2 then d.code2.val
      else if c = 3 then d.code3.val else 1 := by
  unfold SysclkDivisors.ofCode
  split <;> simp_all

theorem SysclkDivisors.ofCode_pos (d : SysclkDivisors) (c : Nat) : 0 < d.ofCode c := by
  unfold SysclkDivisors.ofCode
  split <;> simp

/-- The default divisors of the system clock are powers of two (R163). -/
theorem SysclkDivisors.ofCode_default (c : Nat) :
    Params.default.sysclkDiv.ofCode c = if c < 4 then 2 * 2 ^ c else 1 := by
  match c with
  | 0 | 1 | 2 | 3 => rfl
  | c + 4 => rw [if_neg (by omega)]; rfl

/-- With a power of two as the prescaler, `dmaclkPerTick` is exact (R162). -/
theorem State.units_dmaclkPerTick (s : State) {p e : Nat} (hp : s.params.presc1Div.ofField (s.field .presc1) = 2 ^ p)
    (hlt : p < 53) (he : p + e = 1074) : s.dmaclkPerTick.units = s.pllCycles * 2 ^ e := by
  rw [State.dmaclkPerTick_eq, hp]
  refine F64.div_two_pow ?_ s.pllCycles_lt hlt
  rw [F64.ofNat_exact s.pllCycles_lt, F64.one, he]

/-- With powers of two as both divisors, `sysclkPerTick` is exact (R163). -/
theorem State.units_sysclkPerTick (s : State) {p q e : Nat}
    (hp : s.params.presc1Div.ofField (s.field .presc1) = 2 ^ p)
    (hq : s.params.sysclkDiv.ofCode (s.field .sysclksel) = 2 ^ q) (hlt : p < 53) (hlt' : q < 53)
    (he : p + (q + e) = 1074) : s.sysclkPerTick.units = s.pllCycles * 2 ^ e := by
  rw [State.sysclkPerTick, hq]
  exact F64.div_two_pow (s.units_dmaclkPerTick hp hlt he) s.pllCycles_lt hlt'

/-- Under the default divisors PRESC1 has one bit, and its code is the exponent of its divisor (R162; log 5). -/
theorem State.presc1_default (s : State) (h : s.params.presc1Div = Params.default.presc1Div) :
    s.field .presc1 < 2 ∧ s.params.presc1Div.ofField (s.field .presc1) = 2 ^ s.field .presc1 := by
  have hlt : s.field .presc1 < 2 := by
    have hcovered := s.params.presc1Covered
    rw [h] at hcovered
    exact Nat.lt_of_lt_of_le (s.field_lt .presc1) hcovered
  refine ⟨hlt, ?_⟩
  rw [h]
  generalize s.field .presc1 = v at hlt
  interval_cases v <;> rfl

/-- Under the default divisors the system clock's divisor is a power of two up to 16 (R163; log 5). -/
theorem SysclkDivisors.ofCode_default_two_pow (c : Nat) :
    ∃ q ≤ 4, Params.default.sysclkDiv.ofCode c = 2 ^ q := by
  rw [SysclkDivisors.ofCode_default]
  split
  · next h => exact ⟨c + 1, h, (Nat.pow_succ' ..).symm⟩
  · exact ⟨0, by decide, rfl⟩

/-! The PLL's registers -/

/-- The PLL is on while DISPLL is 0 (R164). -/
theorem State.pllOn_eq (s : State) : s.pllOn = decide (s.field .displl = 0) := by
  have h := s.flag_eq_false .displl (s.params.regMap.len_flag rfl fun _ => rfl)
  rw [State.pllOn, Bool.eq_iff_iff, Bool.not_eq_true', h, decide_eq_true_iff]

/-- A one-bit field as a Bool is its value 1. -/
theorem State.flag_eq_decide (s : State) (f : Field) : s.flag f = decide (s.field f = 1) := by
  rw [Bool.eq_iff_iff, s.flag_eq_true, decide_eq_true_iff]

theorem State.writePllfsr_of_prot {s : State} (h : s.field .prot = 1) (v be : Word) : s.writePllfsr v be = s :=
  if_pos ((s.flag_eq_true .prot).2 h)

theorem State.writePllfsr_of_not_prot {s : State} (h : s.field .prot ≠ 1) (v be : Word) :
    s.writePllfsr v be = s.plainWrite .pllfsr v be :=
  if_neg (mt (s.flag_eq_true .prot).1 h)

/-- Everything the PLLFSR write can do (R165). -/
theorem State.writePllfsr_spec (s : State) (v be : Word) :
    TouchesOnly [.pllfsr] s (s.writePllfsr v be) ∧ (s.writePllfsr v be).wakeCountdown = s.wakeCountdown ∧
      (s.writePllfsr v be).reg .pllfsr =
        if s.field .prot = 1 then s.reg .pllfsr else mergeBits (s.reg .pllfsr) v (s.params.regMap.wmask .pllfsr) be := by
  by_cases h : s.field .prot = 1
  · rw [State.writePllfsr_of_prot h, if_pos h]
    exact ⟨.refl _ s, rfl, rfl⟩
  · rw [State.writePllfsr_of_not_prot h, if_neg h]
    exact ⟨s.plainWrite_touchesOnly .pllfsr v be, rfl, s.reg_plainWrite .pllfsr v be⟩

/-- A one-bit field of a written word is its bit. -/
theorem RegMap.ofWord_flag (k : RegMap) {f : Field} (h : f.mayLack = false) (h1 : ∀ n, f.widthOk n = (n == 1))
    (w : Word) : k.ofWord f w = 1 ↔ w.getLsbD (k.lo f) = true := by
  rw [RegTable.ofWord, k.len_flag h h1, getBits_one, Bool.toNat_eq_one]

/-- The PLLCR write is the plain write and, with the disable bit written 1, the event (R166). -/
theorem State.writePllcr_eq (s : State) (v be : Word) :
    s.writePllcr v be =
      { s.plainWrite .pllcr v be with
        events := s.events ++
          if (v &&& be).getLsbD (bitOf s .displl) then [.shortenBudget 30] else [] } := by
  have hbit := s.params.regMap.ofWord_flag (f := .displl) rfl (fun _ => rfl) (v &&& be)
  unfold State.writePllcr
  by_cases h : (v &&& be).getLsbD (bitOf s .displl) = true
  · rw [if_pos h]
    exact if_pos (hbit.2 h)
  · rw [if_neg h, List.append_nil]
    exact if_neg (mt hbit.1 h)

/-! PLLFSR under protection -/

/-- The parameters and the register `q` are as before. -/
def RegKept (q : Reg) (s t : State) : Prop := t.params = s.params ∧ t.reg q = s.reg q

theorem RegKept.trans {q : Reg} {s t u : State} (h : RegKept q s t) (g : RegKept q t u) : RegKept q s u :=
  ⟨g.1.trans h.1, g.2.trans h.2⟩

theorem TouchesOnly.regKept {q : Reg} {rs : List Reg} {s t : State} (h : TouchesOnly rs s t) (hq : q ∉ rs) :
    RegKept q s t := ⟨h.params, h.reg hq⟩

theorem TickPart.regKept {q : Reg} {rs : List Reg} {x : SourceRow} {raised : Bool} {s t : State}
    (h : TickPart rs x raised s t) (hq : q ∉ Reg.ipr :: .isr :: rs) : RegKept q s t := ⟨h.params, h.reg hq⟩

/-- No part of a TICK stores into PLLFSR (R261). -/
theorem State.tick_pllfsrKept (s : State) : RegKept .pllfsr s s.tick :=
  State.tick_keeps (P := RegKept .pllfsr s)
    (count := fun _ h => h.trans ⟨rfl, rfl⟩)
    (time := fun u d h => h.trans ((u.setTimeOfDay_spec d).1.regKept (by decide)))
    (latch := fun u bits o h => h.trans ((u.latchRtc_spec bits o).1.regKept (by decide)))
    (watchdog := fun u h => h.trans (u.watchdogSecond_spec.1.regKept (by decide)))
    (timer := fun u n h => h.trans ((u.timerTick_spec n).2.1.regKept (by cases n <;> decide)))
    (pll := fun u h => h.trans (u.pllWakeStep_spec.1.regKept (by decide)))
    (check := fun _ h => h.trans ⟨rfl, rfl⟩)
    (abort := fun _ h => h.trans ⟨rfl, rfl⟩) ⟨rfl, rfl⟩

/-- While PROT is 1, PLLFSR is as before (R165). -/
def FrequencyKept (s t : State) : Prop := t.params = s.params ∧ (s.field .prot = 1 → t.reg .pllfsr = s.reg .pllfsr)

theorem RegKept.frequencyKept {s t : State} (h : RegKept .pllfsr s t) : FrequencyKept s t := ⟨h.1, fun _ => h.2⟩

/-- PROT is a field of PLLFSR, so it stays 1. -/
theorem FrequencyKept.trans {s t u : State} (h : FrequencyKept s t) (g : FrequencyKept t u) : FrequencyKept s u :=
  ⟨g.1.trans h.1, fun hs => (g.2 ((State.field_congr (f := .prot) h.1 (h.2 hs)).trans hs)).trans (h.2 hs)⟩

/-- The handler of PLLFSR drops the write, and every other handler leaves PLLFSR (R118, R165). -/
theorem State.writeHandler_frequencyKept (s : State) (r : Reg) (v be : Word) :
    FrequencyKept s (s.writeHandler r v be) := by
  have frame := s.writeHandler_frame r v be
  refine ⟨frame.params, fun hs => ?_⟩
  by_cases hr : r = .pllfsr
  · subst hr
    exact congrArg (fun u : State => u.reg .pllfsr) (State.writePllfsr_of_prot hs v be)
  · exact frame.reg (by simp [Ne.symm hr])

/-- Every operation but RESET_ALL keeps a protected PLLFSR (R165). -/
theorem Performed.frequencyKept {i : Instr} {s t : State} (h : Performed s i t) (hi : i ≠ .resetAll) :
    FrequencyKept s t := by
  have start : RegKept .pllfsr s s.startOp := ⟨rfl, rfl⟩
  have check : ∀ u : State, RegKept .pllfsr u u.checkInterrupts := fun _ => ⟨rfl, rfl⟩
  cases h with
  | read v hi =>
    obtain ⟨x, y, e⟩ := s.startOp.memReadState_eq _ _
    rw [e]
    exact RegKept.frequencyKept ⟨rfl, rfl⟩
  | write hi =>
    exact start.frequencyKept.trans (s.startOp.memWrite_keeps (Q := FrequencyKept) FrequencyKept.trans
      (fun hp hr => ⟨hp, fun _ => hr _⟩) (writeParts_le hi) _ fun _ u r v be _ => u.writeHandler_frequencyKept r v be)
  | tick => exact (start.trans s.startOp.tick_pllfsrKept).frequencyKept
  | resetAll => exact absurd rfl hi
  | iack l => exact RegKept.frequencyKept ⟨rfl, rfl⟩
  | query b hi => exact RegKept.frequencyKept ⟨rfl, rfl⟩
  | setRtc => exact (start.trans ((s.startOp.setTimeOfDay_spec _).1.regKept (by decide))).frequencyKept
  | inputChange x =>
    have port := (State.evalPortD_spec { s.startOp with inputs := x }).1
    have kept : RegKept .pllfsr s { s.startOp with inputs := x }.evalPortD :=
      ⟨port.params, port.reg (by decide) (by decide)⟩
    exact (kept.trans (check _)).frequencyKept
  | lowPowerStop => exact RegKept.frequencyKept ⟨rfl, rfl⟩
  | busFault k =>
    have hf := start.trans ((s.startOp.setFault_touchesOnly k).regKept (by decide))
    rcases s.startOp.busFault_eq k with e | e <;> rw [e]
    · exact hf.frequencyKept
    · exact RegKept.frequencyKept (hf.trans ⟨rfl, rfl⟩)
  | @extIrq name line x hx =>
    exact RegKept.frequencyKept
      ((start.trans ((s.startOp.driveSource_spec x line).1.regKept (by decide))).trans (check _))

/-! What a TICK raises, in the words of the statements -/

/-- The words have a one in common. -/
theorem and_ne_zero_iff (a b : Word) : a &&& b ≠ 0 ↔ ∃ n, a.getLsbD n = true ∧ b.getLsbD n = true := by
  constructor
  · intro h
    by_contra hnone
    refine h (BitVec.eq_of_getLsbD_eq fun n _ => ?_)
    have hn : ¬(a.getLsbD n = true ∧ b.getLsbD n = true) := fun hn => hnone ⟨n, hn⟩
    simpa [BitVec.getLsbD_and] using hn
  · rintro ⟨n, ha, hb⟩ h
    have hn := congrArg (fun w : Word => w.getLsbD n) h
    simp [ha, hb] at hn

theorem State.secondsRoll_iff (s : State) : s.timeOfDay.secondsRoll = true ↔ SecondsRoll s := by
  rw [TimeOfDay.secondsRoll, fieldRolls, decide_eq_true_iff]
  rfl

theorem State.minutesRoll_iff (s : State) : s.timeOfDay.minutesRoll = true ↔ MinutesRoll s := by
  rw [TimeOfDay.minutesRoll, fieldRolls_iff, s.secondsRoll_iff]
  rfl

theorem State.hoursRoll_iff (s : State) : s.timeOfDay.hoursRoll = true ↔ HoursRoll s := by
  rw [TimeOfDay.hoursRoll, fieldRolls_iff, s.minutesRoll_iff]
  rfl

/-- The event bits of a second are the events of the statements (R223, R224). -/
theorem State.secondEvent_iff (s : State) (n : Nat) : SecondEvent s n ↔ RtcRuns s ∧ s.timeEvents.getLsbD n = true := by
  have flag := fun {f : Field} (h : f.mayLack = false) (h1 : ∀ n, f.widthOk n = (n == 1)) =>
    s.params.regMap.getLsbD_mask_flag h h1 n
  have gated : ∀ (c : Bool) (w : Word), (if c then w else 0).getLsbD n = (c && w.getLsbD n) := by
    intro c w
    cases c <;> simp
  rw [State.timeEvents, RegTable.timeEvents, SecondEvent]
  simp only [BitVec.getLsbD_or, gated, flag (f := .sec) rfl fun _ => rfl, flag (f := .min) rfl fun _ => rfl,
    flag (f := .hr) rfl fun _ => rfl, flag (f := .day) rfl fun _ => rfl, Bool.or_eq_true, Bool.and_eq_true,
    decide_eq_true_iff, s.secondsRoll_iff, s.minutesRoll_iff, s.hoursRoll_iff, or_assoc, bitOf, and_comm]

/-- A bit that a list of conditions collects is that of one of them. -/
theorem getLsbD_foldl_or {α : Type} (p : α → Prop) [DecidablePred p] (g : α → Word) (l : List α) (w : Word)
    (n : Nat) :
    (l.foldl (fun w x => if p x then w ||| g x else w) w).getLsbD n = true ↔
      w.getLsbD n = true ∨ ∃ x ∈ l, p x ∧ (g x).getLsbD n = true := by
  induction l generalizing w with
  | nil => simp
  | cons x l ih =>
    rw [List.foldl_cons, ih]
    by_cases hp : p x <;> simp [hp, or_assoc]

/-- The ladder's periods in ticks: every 8192 down to every 64 (R226, R227). -/
theorem ladder_period (i : Fin 8) : Config.crystalHz / ladderHz i.val = 8192 / 2 ^ i.val := by
  revert i
  decide

/-- The ladder bits of a count are the members whose period divides it (R226). -/
theorem RegMap.getLsbD_ladderFired (k : RegMap) (count n : Nat) :
    (k.ladderFired count).getLsbD n = true ↔ ∃ i : Fin 8, n = k.lo (.sam i) ∧ count % (8192 / 2 ^ i.val) = 0 := by
  rw [RegTable.ladderFired, getLsbD_foldl_or (fun i : Fin 8 => count % (Config.crystalHz / ladderHz i.val) = 0)]
  simp [ladder_period, k.getLsbD_mask_flag (f := .sam _) rfl fun _ => rfl, and_comm]

/-- A match, in the words of the statements (R12, R200). -/
theorem State.timerCrosses_iff (s : State) (n : TimerId) : s.timerCrosses n = true ↔ Matches s n := by
  rw [State.timerCrosses, Bool.and_eq_true, s.flag_eq_true, crossed, Bool.and_eq_true, decide_eq_true_iff,
    decide_eq_true_iff]
  rfl

/-- The registers that decide whether a timer crosses its compare value in a tick (R162, R163, R190, R192). -/
def timerInputs (n : TimerId) : List Reg := [.tctl n, .tprer n, .tcmp n, .tcn n, .pllcr, .pllfsr]

/-- Whether a timer crosses its compare value depends on those registers and its accumulator. -/
theorem State.timerCrosses_congr {s t : State} {n : TimerId} (hp : t.params = s.params)
    (hr : ∀ q ∈ timerInputs n, t.reg q = s.reg q) (ha : t.timerAcc n = s.timerAcc n) :
    t.timerCrosses n = s.timerCrosses n := by
  have hf : ∀ f : Field, f.reg ∈ timerInputs n → t.field f = s.field f := fun f hf => State.field_congr hp (hr _ hf)
  have hflag : ∀ f : Field, f.reg ∈ timerInputs n → t.flag f = s.flag f := fun f h => State.flag_congr (hf f h)
  have hrate : t.sysclkPerTick = s.sysclkPerTick := by
    simp only [State.sysclkPerTick, State.dmaclkPerTick, hp, hf .pcnt (by simp [timerInputs, Field.reg]),
      hf .qcnt (by simp [timerInputs, Field.reg]), hf .presc1 (by simp [timerInputs, Field.reg]),
      hf .sysclksel (by simp [timerInputs, Field.reg])]
  have hdelta : t.timerDelta n = s.timerDelta n := by
    unfold State.timerDelta State.prescaler State.pllOn
    rw [hp, hrate, hf (.prescaler n) (by simp [timerInputs, Field.reg]),
      hf (.clksource n) (by simp [timerInputs, Field.reg]), hflag .displl (by simp [timerInputs, Field.reg])]
  simp only [State.timerCrosses, State.timerNew, State.timerSum, ha, hdelta,
    hflag (.ten n) (by simp [timerInputs, Field.reg]), hf (.count n) (by simp [timerInputs, Field.reg]),
    hf (.compare n) (by simp [timerInputs, Field.reg])]

/-! The parts of a TICK together -/

/-- The registers besides IPR and ISR that the part of a TICK of an owner may store into. -/
def Owner.tickRegs : Owner → List Reg
  | .rtcSecond => [.rtctime, .dayr, .rtcisr]
  | .watchdog => [.watchdog]
  | .ladder => [.rtcisr]
  | .timer n => timerRegs n
  | .external | .keyboard | .pin _ => []

/-- `t` is reached from `s` in a TICK, after the parts of the owners `os`: each has stored into its own registers and raised
its source exactly if the TICK does, and those raises may have armed the wake countdown. -/
structure TickPath (s : State) (os : List Owner) (t : State) : Prop where
  params : t.params = s.params
  counter : t.tickCounter = nextCounter s
  acc : ∀ n, .timer n ∉ os → t.timerAcc n = s.timerAcc n
  reg : ∀ q, q ≠ .ipr → q ≠ .isr → (∀ o ∈ os, q ∉ o.tickRegs) → t.reg q = s.reg q
  wake : ∃ armed, t.wakeCountdown = s.armed armed ∧
    (armed = true ↔ ∃ o ∈ os, TickRaises s (s.source o) ∧ Wakes s (s.source o))

theorem TickPath.source {s t : State} {os : List Owner} (h : TickPath s os t) (o : Owner) : t.source o = s.source o := by
  rw [State.source, h.params, State.source]

/-- No part of a TICK before the wake step stores into a register that decides what wakes (R131, R137, R167). -/
theorem Owner.not_mem_tickRegs (o : Owner) {q : Reg} (h : q ∈ [Reg.imr, .pdirqeg, .pllcr]) : q ∉ o.tickRegs := by
  cases o with
  | timer n => cases n <;> fin_cases h <;> decide
  | _ => fin_cases h <;> simp [Owner.tickRegs]

theorem TickPath.wakeReg {s t : State} {os : List Owner} (h : TickPath s os t) {q : Reg}
    (hq : q ∈ [Reg.imr, .pdirqeg, .pllcr]) : t.reg q = s.reg q :=
  h.reg q (by fin_cases hq <;> decide) (by fin_cases hq <;> decide) fun o _ => o.not_mem_tickRegs hq

theorem TickPath.wakes_iff {s t : State} {os : List Owner} (h : TickPath s os t) (x : SourceRow) :
    t.wakes x = true ↔ Wakes s x := by
  rw [← s.wakes_iff, State.wakes, State.wakeCapable, State.masked, State.bit, h.wakeReg (by simp)]
  simp only [State.bit, h.wakeReg (q := .pdirqeg) (by simp)]
  rfl

/-- The start of a TICK: its counter has stepped (R221). -/
theorem TickPath.start (s : State) : TickPath s [] s.countTick where
  params := rfl
  counter := by
    rw [State.tickCounter_countTick]
    simp [State.secondBoundary, nextCounter, Config.crystalHz]
  acc n _ := by cases n <;> rfl
  reg _ _ _ _ := rfl
  wake := ⟨false, s.armed_false.symm, by simp⟩

/-- The next part of a TICK. -/
theorem TickPath.part {s t u : State} {os : List Owner} {o : Owner} {raised : Bool} (h : TickPath s os t)
    (hp : TickPart o.tickRegs (t.source o) raised t u) (hr : raised = true ↔ TickRaises s (s.source o))
    (hc : u.tickCounter = t.tickCounter) (ha : ∀ n, .timer n ≠ o → u.timerAcc n = t.timerAcc n) :
    TickPath s (o :: os) u where
  params := hp.params.trans h.params
  counter := hc.trans h.counter
  acc n hn := by
    rw [List.mem_cons, not_or] at hn
    exact (ha n hn.1).trans (h.acc n hn.2)
  reg q h1 h2 hq := by
    rw [List.forall_mem_cons] at hq
    exact (hp.reg (by simp [h1, h2, hq.1])).trans (h.reg q h1 h2 hq.2)
  wake := by
    obtain ⟨armed, hw, harmed⟩ := h.wake
    have hpllcr := h.wakeReg (q := .pllcr) (by simp)
    have hd : t.flag .displl = s.flag .displl := State.flag_congr (State.field_congr h.params hpllcr)
    have hk : t.field .wksel = s.field .wksel := State.field_congr h.params hpllcr
    refine ⟨armed || (raised && t.wakes (t.source o)), hp.wake.trans (State.armed_or hd hk hw), ?_⟩
    rw [Bool.or_eq_true, Bool.and_eq_true, harmed, hr, h.wakes_iff, h.source, or_comm]
    simp only [List.mem_cons, exists_eq_or_imp]

/-- A part of a TICK that does not run: it would raise nothing. -/
theorem TickPath.skip {s t : State} {os : List Owner} (h : TickPath s os t) {o : Owner}
    (hr : ¬TickRaises s (s.source o)) : TickPath s (o :: os) t :=
  h.part (raised := false)
    (.of_touchesOnly _ (.refl _ t) rfl (by cases o with | timer n => cases n <;> decide | _ => simp [Owner.tickRegs])
      (by cases o with | timer n => cases n <;> decide | _ => simp [Owner.tickRegs]))
    (by simpa using hr) rfl fun _ _ => rfl

/-- A part of a TICK that stores into registers and the countdown alone. -/
theorem TickPath.part_of_touchesOnly {s t u : State} {os : List Owner} {o : Owner} {rs : List Reg} {raised : Bool}
    (h : TickPath s os t) (htouch : TouchesOnly rs t u) (hp : TickPart o.tickRegs (t.source o) raised t u)
    (hr : raised = true ↔ TickRaises s (s.source o)) : TickPath s (o :: os) u :=
  h.part hp hr (by rw [htouch.2]) fun n _ => by rw [htouch.2]; cases n <;> rfl

/-! Each part of a TICK -/

/-- A store into registers that decide neither what is pending nor what wakes may come before a part of a TICK. -/
theorem TickPart.after_touchesOnly {rs rs' : List Reg} {x : SourceRow} {raised : Bool} {s t u : State}
    (h : TouchesOnly rs s t) (hw : t.wakeCountdown = s.wakeCountdown) (hp : TickPart rs' x raised t u)
    (hrs : ∀ q ∈ [Reg.ipr, .isr, .imr, .pllcr, .pdirqeg], q ∉ rs) : TickPart (rs ++ rs') x raised s u where
  params := hp.params.trans h.params
  bytes := by
    have hbytes := hp.bytes
    rw [h.params] at hbytes
    exact (h.1.mono (by simp +contextual)).trans (hbytes.mono (by simp +contextual))
  pending b := by rw [hp.pending, h.bit (hrs .ipr (by simp))]
  wake := by
    have hwakes : t.wakes x = s.wakes x := by
      simp only [State.wakes, State.wakeCapable, State.masked, h.bit (hrs .imr (by simp)),
        h.bit (hrs .pdirqeg (by simp))]
    rw [hp.wake, hwakes, State.armed, State.armed, hw, h.flag (f := .displl) (hrs .pllcr (by simp)),
      h.field (f := .wksel) (hrs .pllcr (by simp))]
  isr := by
    rw [← h.reg (hrs .isr (by simp))]
    exact hp.isr

/-- Everything the RTC's second can do (R223, R224). -/
theorem State.rtcSecond_part (s : State) :
    TickPart [.rtctime, .dayr, .rtcisr] (s.source .rtcSecond)
      (s.flag .rtcEn && decide (s.timeEvents &&& s.reg .rtcienr ≠ 0)) s s.rtcSecond := by
  obtain ⟨htime, hwake, -⟩ := s.setTimeOfDay_spec s.nextTime
  have latch := ((s.setTimeOfDay s.nextTime).latchRtc_spec s.timeEvents .rtcSecond).2.1
  rw [htime.source, htime.reg (q := .rtcienr) (by decide)] at latch
  unfold State.rtcSecond
  cases s.flag .rtcEn with
  | false => exact .of_touchesOnly _ (.refl _ s) rfl (by decide) (by decide)
  | true => exact .after_touchesOnly htime hwake latch (by decide)

theorem tickRaises_rtcSecond (s : State) :
    TickRaises s (s.source .rtcSecond) ↔ ∃ n, SecondEvent s n ∧ s.bit .rtcienr n = true := by
  rw [TickRaises, s.source_owner (by decide)]

theorem tickRaises_watchdog (s : State) :
    TickRaises s (s.source .watchdog) ↔ WatchdogExpires s ∧ s.field .wdtIsel = 1 := by
  rw [TickRaises, s.source_owner (by decide)]

theorem tickRaises_ladder (s : State) :
    TickRaises s (s.source .ladder) ↔ ∃ n, LadderEvent s n ∧ s.bit .rtcienr n = true := by
  rw [TickRaises, s.source_owner (by decide)]

theorem tickRaises_timer (s : State) (n : TimerId) :
    TickRaises s (s.source (.timer n)) ↔ Matches s n ∧ s.field (.irqen n) = 1 := by
  rw [TickRaises, s.source_owner (by simp)]

/-- The RTC's part, on a second boundary. -/
theorem TickPath.rtc {s : State} (hb : Boundary s) : TickPath s [.rtcSecond] s.countTick.rtcSecond := by
  refine (TickPath.start s).part_of_touchesOnly s.countTick.rtcSecond_touchesOnly s.countTick.rtcSecond_part ?_
  change (s.flag .rtcEn && decide (s.timeEvents &&& s.reg .rtcienr ≠ 0)) = true ↔ _
  rw [tickRaises_rtcSecond, Bool.and_eq_true, decide_eq_true_iff, and_ne_zero_iff, s.flag_eq_true]
  simp only [s.secondEvent_iff, RtcRuns, hb, true_and, and_assoc, exists_and_left]
  rfl

/-- The watchdog's part, on a second boundary at which it does not abort the TICK. -/
theorem TickPath.watchdog {s t : State} (h : TickPath s [.rtcSecond] t) (hb : Boundary s) (ha : ¬Aborts s) :
    TickPath s [.watchdog, .rtcSecond] t.watchdogSecond := by
  obtain ⟨htouch, hpart, -⟩ := t.watchdogSecond_spec
  refine h.part_of_touchesOnly htouch hpart ?_
  have hreg : t.reg .watchdog = s.reg .watchdog := h.reg _ (by decide) (by decide) (by decide)
  have hen : t.field .wdtEn = s.field .wdtEn := State.field_congr h.params hreg
  have hsel := s.params.regMap.len_flag (f := .wdtIsel) rfl fun _ => rfl
  have hexpires : (t.flag .wdtEn && t.watchdogExpires) = true ↔ WatchdogExpires s := by
    rw [Bool.and_eq_true, t.flag_eq_true, hen, State.watchdogExpires, State.watchdogValue, hreg, h.params,
      watchdogExpired, bne_iff_ne, WatchdogExpires, and_iff_right hb]
    rfl
  rw [hexpires, tickRaises_watchdog, iff_self_and]
  intro hx
  have hne : s.field .wdtIsel ≠ 0 := fun h0 => ha ⟨hx, h0⟩
  rwa [ne_eq, ← s.flag_eq_false _ hsel, Bool.not_eq_false, s.flag_eq_true] at hne

/-- The ladder's part (R226). -/
theorem TickPath.ladder {s t : State} (h : TickPath s [.watchdog, .rtcSecond] t) :
    TickPath s [.ladder, .watchdog, .rtcSecond] t.rtiLadder := by
  obtain ⟨htouch, hpart, -⟩ := t.latchRtc_spec (t.params.regMap.ladderFired t.tickCounter) .ladder
  refine h.part_of_touchesOnly htouch hpart ?_
  rw [tickRaises_ladder, decide_eq_true_iff, and_ne_zero_iff, h.params, h.counter,
    h.reg .rtcienr (by decide) (by decide) (by decide)]
  simp only [RegMap.getLsbD_ladderFired]
  rfl

/-- A timer's part, before which nothing that decides it has changed (R198, R200). -/
theorem TickPath.timer {s t : State} {os : List Owner} (h : TickPath s os t) (n : TimerId) (hn : .timer n ∉ os)
    (hos : ∀ o ∈ os, ∀ q ∈ timerInputs n, q ∉ o.tickRegs) : TickPath s (.timer n :: os) (t.timerTick n) := by
  obtain ⟨⟨u, hu, e⟩, hpart, -⟩ := t.timerTick_spec n
  have hreg : ∀ q ∈ timerInputs n, t.reg q = s.reg q := fun q hq =>
    h.reg q (by rintro rfl; cases n <;> exact absurd hq (by decide))
      (by rintro rfl; cases n <;> exact absurd hq (by decide)) fun o ho => hos o ho q hq
  have hirq : t.field (.irqen n) = s.field (.irqen n) :=
    State.field_congr h.params (hreg _ (by simp [timerInputs, Field.reg]))
  refine h.part hpart ?_ ?_ fun m hm => ?_
  · rw [Bool.and_eq_true, State.timerCrosses_congr h.params hreg (h.acc n hn), s.timerCrosses_iff, t.flag_eq_true, hirq,
      tickRaises_timer]
  · rw [e, State.tickCounter_setTimerAcc, hu.2]
  · rw [e, State.timerAcc_setTimerAcc_ne u _ fun h => hm (congrArg Owner.timer h), hu.2]
    cases m <;> rfl

/-! The whole TICK -/

/-- The owners whose parts make a TICK, the last one first (R261). -/
def tickOwners : List Owner := [.timer .t2, .timer .t1, .ladder, .watchdog, .rtcSecond]

/-- A TICK that is not aborted runs the parts of its owners, then the wake step, and delivers the level (R260, R261). -/
theorem State.tick_path (s : State) (ha : ¬Aborts s) :
    ∃ t, TickPath s tickOwners t ∧ s.tick = t.pllWakeStep.checkInterrupts := by
  have tail : ∀ t, TickPath s [.watchdog, .rtcSecond] t →
      TickPath s tickOwners ((t.rtiLadder.timerTick .t1).timerTick .t2) := fun t h =>
    (h.ladder.timer .t1 (by decide) (by decide)).timer .t2 (by decide) (by decide)
  cases hb : s.secondBoundary with
  | true =>
    have hbound : Boundary s := beq_iff_eq.1 hb
    have hr : s.countTick.rtcSecond.watchdogResets = false :=
      Bool.eq_false_iff.2 fun hr => ha (s.aborts_iff.2 ⟨hb, hr⟩)
    refine ⟨_, tail _ ((TickPath.rtc hbound).watchdog hbound ha), ?_⟩
    rw [State.tick, if_pos hb]
    simp only [hr, Bool.false_eq_true, if_false]
    rfl
  | false =>
    have hbound : ¬Boundary s := beq_eq_false_iff_ne.1 hb
    have hrtc : ¬TickRaises s (s.source .rtcSecond) := by
      rw [tickRaises_rtcSecond]
      exact fun ⟨_, hev, _⟩ => hbound hev.1.1
    have hwatchdog : ¬TickRaises s (s.source .watchdog) := by
      rw [tickRaises_watchdog]
      exact fun hx => hbound hx.1.1
    refine ⟨_, tail _ (((TickPath.start s).skip hrtc).skip hwatchdog), ?_⟩
    rw [State.tick, hb]
    rfl

theorem mem_tickOwners {o : Owner} : o ∈ tickOwners ↔ o.ticks = true := by
  cases o with
  | timer n => cases n <;> decide
  | _ => simp [tickOwners, Owner.ticks]

/-- A TICK raises sources of its own owners alone. -/
theorem ticks_of_tickRaises {s : State} {x : SourceRow} (h : TickRaises s x) : x.owner.ticks = true := by
  unfold TickRaises at h
  revert h
  cases x.owner <;> simp [Owner.ticks]

/-- The sources that a TICK raises, by their owners and by their rows (R28). -/
theorem exists_tickOwners_iff (s : State) (P : SourceRow → Prop) :
    (∃ o ∈ tickOwners, TickRaises s (s.source o) ∧ P (s.source o)) ↔
      ∃ x ∈ s.params.sources.rows, TickRaises s x ∧ P x := by
  have ne : ∀ {o : Owner}, o.ticks = true → o ≠ .external := by
    rintro o h rfl
    cases h
  constructor
  · rintro ⟨o, ho, hraised, hP⟩
    exact ⟨s.source o, s.source_mem (ne (mem_tickOwners.1 ho)), hraised, hP⟩
  · rintro ⟨x, hx, hraised, hP⟩
    have ht := ticks_of_tickRaises hraised
    refine ⟨x.owner, mem_tickOwners.2 ht, ?_⟩
    rw [s.source_eq hx (ne ht)]
    exact ⟨hraised, hP⟩

/-- The wake countdown and PLLCR after a TICK that is not aborted: the raises may arm the countdown, and then it steps
(R168). -/
theorem State.tick_wake (s : State) (ha : ¬Aborts s) :
    ∃ w, WakeAfter s (∃ x ∈ s.params.sources.rows, TickRaises s x ∧ Wakes s x) w ∧
      (w = -1 → s.tick.wakeCountdown = -1 ∧ s.tick.reg .pllcr = s.reg .pllcr) ∧
      (w = 1 → s.tick.wakeCountdown = -1 ∧ s.tick.reg .pllcr = s.reg .pllcr &&& ~~~s.params.regMap.mask .displl) ∧
      (w ≠ -1 → w ≠ 1 → s.tick.wakeCountdown = w - 1 ∧ s.tick.reg .pllcr = s.reg .pllcr) := by
  obtain ⟨t, hpath, e⟩ := s.tick_path ha
  obtain ⟨armed, hw, harmed⟩ := hpath.wake
  obtain ⟨htouch, hidle, hlast, hcounts⟩ := t.pllWakeStep_spec
  have hpllcr : t.reg .pllcr = s.reg .pllcr := hpath.wakeReg (by simp)
  rw [hpllcr, hpath.params] at hlast
  refine ⟨t.wakeCountdown, ?_, fun h => ?_, fun h => ?_, fun h h' => ?_⟩
  · rw [hw]
    exact s.wakeAfter_armed (harmed.trans (exists_tickOwners_iff s _))
  · rw [e, hidle h]
    exact ⟨h, hpllcr⟩
  · rw [e]
    exact hlast h
  · obtain ⟨hstep, hrf⟩ := hcounts h h'
    rw [e]
    refine ⟨hstep, Eq.trans ?_ hpllcr⟩
    change t.pllWakeStep.rf.reg t.pllWakeStep.params.regMap .pllcr = t.rf.reg t.params.regMap .pllcr
    rw [hrf, htouch.params]

/-! A run of TICKs -/

/-- A TICK leaves a disabled watchdog disabled (R233). -/
theorem watchdogOff_of_tick {s t : State} (h : exec .tick s = .next t) (hs : s.field .wdtEn = 0) :
    t.field .wdtEn = 0 := by
  cases h
  exact State.tick_keeps (P := fun u => u.field .wdtEn = 0)
    (count := fun _ => id)
    (time := fun u d hu => ((u.setTimeOfDay_spec d).1.field (by decide)).trans hu)
    (latch := fun u bits o hu => ((u.latchRtc_spec bits o).1.field (by decide)).trans hu)
    (watchdog := fun u hu => by
      have hoff := (u.flag_eq_false .wdtEn (u.params.regMap.len_flag rfl fun _ => rfl)).2 hu
      rwa [State.watchdogSecond_eq, hoff, if_neg (by decide)])
    (timer := fun u n hu =>
      (State.field_congr (u.timerTick_spec n).2.1.params
        ((u.timerTick_spec n).2.1.reg (by cases n <;> decide))).trans hu)
    (pll := fun u hu => (u.pllWakeStep_spec.1.field (by decide)).trans hu)
    (check := fun _ => id)
    (abort := fun _ => id) (s := s.startOp) hs

/-- Raises do not touch a countdown that runs (R167, R171). -/
theorem wakeAfter_of_armed {s : State} {wakes : Prop} {w : Int} (h : WakeAfter s wakes w) (hs : s.wakeCountdown ≠ -1) :
    w = s.wakeCountdown := h.2 fun hc => hs hc.2.2

/-- DISPLL reads 0 once its bit is cleared (R164, R168). -/
theorem State.field_displl_of_cleared {s t : State} (hp : t.params = s.params)
    (h : t.reg .pllcr = s.reg .pllcr &&& ~~~s.params.regMap.mask .displl) : t.field .displl = 0 := by
  have hlen := s.params.regMap.len_flag (f := .displl) rfl fun _ => rfl
  have hbit : t.bit .pllcr (s.params.regMap.lo .displl) = false := by
    rw [State.bit, h, BitVec.getLsbD_and, BitVec.getLsbD_not, RegMap.getLsbD_mask_flag _ rfl fun _ => rfl]
    simp
  rw [← hp] at hlen hbit
  rw [t.field_one _ hlen, Field.reg, hbit]
  rfl

/-- One TICK of an armed countdown with the watchdog off: at 1 the PLL goes on, before that the countdown steps (R168). -/
theorem tick_countdown {s t : State} (h : exec .tick s = .next t) (hoff : s.field .wdtEn = 0)
    (hs : s.wakeCountdown ≠ -1) :
    (s.wakeCountdown = 1 → t.wakeCountdown = -1 ∧ t.field .displl = 0) ∧
      (s.wakeCountdown ≠ 1 → t.wakeCountdown = s.wakeCountdown - 1 ∧ t.field .displl = s.field .displl) := by
  have hp := params_of_exec h
  have ha : ¬Aborts s := fun ha => absurd (hoff.symm.trans ha.1.2.1) (by decide)
  cases h
  obtain ⟨w, hw, -, hlast, hcounts⟩ := s.startOp.tick_wake ha
  cases wakeAfter_of_armed hw hs
  refine ⟨fun h1 => ?_, fun h1 => ?_⟩
  · obtain ⟨hidle, hcleared⟩ := hlast h1
    exact ⟨hidle, State.field_displl_of_cleared (s := s.startOp) hp hcleared⟩
  · obtain ⟨hstep, hkept⟩ := hcounts hs h1
    exact ⟨hstep, State.field_congr (s := s.startOp) (f := .displl) hp hkept⟩

/-- While an armed countdown runs, with the watchdog off. -/
theorem countdown_run {f : Nat → State} {k : Nat} (hrun : Ticks f) (hk : (f 0).wakeCountdown = k)
    (hpll : (f 0).field .displl = 1) (hoff : (f 0).field .wdtEn = 0) :
    ∀ j < k, (f j).field .displl = 1 ∧ (f j).wakeCountdown = (k : Int) - j ∧ (f j).field .wdtEn = 0 := by
  intro j
  induction j with
  | zero => exact fun _ => ⟨hpll, by simpa using hk, hoff⟩
  | succ j ih =>
    intro hj
    obtain ⟨hd, hw, he⟩ := ih (by omega)
    obtain ⟨hstep, hkept⟩ := (tick_countdown (hrun j) he (by omega)).2 (by omega)
    exact ⟨hkept.trans hd, by push_cast; omega, watchdogOff_of_tick (hrun j) he⟩

end Sys2Proof.Machine

namespace Sys2Proof

open Sys2Proof.Machine Sys2Proof.Claims

/-- Settles O28: the descriptors are those of the two queries, whose values are DISPLL and DMAP. -/
theorem queries : Obligations.Queries := by
  refine ⟨fun op => ⟨decode_descriptorOf .isSysclkRunning op, decode_descriptorOf .isRegWindowRelocated op⟩,
    fun s => ⟨?_, ?_⟩⟩
  · rw [← s.pllOn_eq]
    rfl
  · rw [← s.flag_eq_decide]
    rfl

/-- Settles O19: no operation but RESET_ALL stores into a protected PLLFSR (`Performed.frequencyKept`). -/
theorem protectedFrequencyStays : Obligations.ProtectedFrequencyStays :=
  fun _ _ _ hi hprot h => ((performed_of_exec h).frequencyKept hi).2 hprot

/-- Settles O38: the handler drops the write or stores it (`State.writePllfsr_spec`). -/
theorem pllfsrWrite : Obligations.PllfsrWrite := by
  intro i s a n v hi hin
  obtain ⟨touches, hwake, stores⟩ :=
    s.startOp.writePllfsr_spec (laneValue s .pllfsr a n v &&& laneMask s .pllfsr a n) (laneMask s .pllfsr a n)
  rw [mergeBits_and_enable] at stores
  have heq := touches.checkInterrupts_eq
  rw [hwake] at heq
  exact ⟨_, exec_of_inside hi hin, stores, touches.bytesKept, touches.delivered, heq⟩

/-- Settles O39: the handler is the plain write, with the event before the level's (`State.writePllcr_eq`). -/
theorem pllcrWrite : Obligations.PllcrWrite := by
  intro i s a n v hi hin
  have stores :=
    s.startOp.reg_plainWrite .pllcr (laneValue s .pllcr a n v &&& laneMask s .pllcr a n) (laneMask s .pllcr a n)
  rw [mergeBits_and_enable] at stores
  refine ⟨_, exec_of_inside hi hin, ?_⟩
  rw [State.writeHandler, State.writePllcr_eq, BitVec.and_assoc, BitVec.and_self]
  exact ⟨stores, rfl, rfl, (s.startOp.plainWrite_touchesOnly .pllcr _ _).bytesKept, rfl⟩

/-- Settles O55: `w` is the countdown after the raises of the TICK's parts, and the wake step follows them
(`State.tick_wake`). -/
theorem tickWake : Obligations.TickWake := by
  intro s t ha h
  cases h
  exact s.startOp.tick_wake ha

/-- Settles O56: by induction on the TICKs done, the countdown is `k` less them, and the last step turns the PLL on. -/
theorem wakeCountdownRun : Obligations.WakeCountdownRun := by
  intro f k hrun hk hpos hpll hoff
  have before := countdown_run hrun hk hpll hoff
  refine ⟨fun j hj => ?_, ?_⟩
  · obtain ⟨hd, hw, -⟩ := before j hj
    exact ⟨hd, hw⟩
  · obtain ⟨j, rfl⟩ : ∃ j, k = j + 1 := ⟨k - 1, by omega⟩
    obtain ⟨-, hw, he⟩ := before j (by omega)
    obtain ⟨hidle, hon⟩ := (tick_countdown (hrun j) he (by omega)).1 (by omega)
    exact ⟨hon, hidle⟩

/-- Settles O59: both rates are one rounding of their quotient, and exact where the divisors are powers of two. -/
theorem pllRates : Obligations.PllRates := by
  intro s cycles d e c div
  obtain ⟨presc, hpresc, hof⟩ := s.presc1_spec
  have hdiv : s.params.sysclkDiv.ofCode c = div := SysclkDivisors.ofCode_eq _ _
  refine ⟨presc, hpresc, ?_, ?_, fun hd he => ?_⟩
  · have hnum : (F64.ofNat cycles).units = cycles * F64.one := F64.ofNat_exact s.pllCycles_lt
    rw [State.dmaclkPerTick_eq, hof, ← hnum]
    exact F64.nearest_roundQuot _ _ (F64.ofNat_pos presc.pos)
  · rw [← hdiv]
    exact F64.nearest_roundQuot _ _ (F64.ofNat_pos (SysclkDivisors.ofCode_pos _ _))
  · obtain ⟨hlt, hp⟩ := s.presc1_default hd
    obtain ⟨q, hq, hcode⟩ := SysclkDivisors.ofCode_default_two_pow c
    rw [← he] at hcode
    have hdma := s.units_dmaclkPerTick (e := 1074 - s.field .presc1) hp (by omega) (by omega)
    have hsys := s.units_sysclkPerTick (e := 1074 - s.field .presc1 - q) hp hcode (by omega) (by omega) (by omega)
    rw [hdma, hsys, ← hdiv, hcode, ← hof, hp]
    refine ⟨?_, ?_, ?_, ?_⟩
    · generalize s.field .presc1 = v at hlt
      interval_cases v <;> rfl
    · rw [← hcode]
      exact he ▸ SysclkDivisors.ofCode_default c
    · exact F64.mul_two_pow_eq_mul_one _ (by omega)
    · rw [← Nat.pow_add]
      exact F64.mul_two_pow_eq_mul_one _ (by omega)

end Sys2Proof
end

section
/-! PROOFS. The statements of 43_timers: the write of TSTATn (O40), a timer in a TICK (O53), the pending flags that a TICK
raises (O54), and a timer's increment (O60). -/

namespace Sys2Proof

/-- A quotient by a small integer is rounded once (R11). -/
theorem F64.div_ofNat (a : F64) {n : Nat} (hlt : n < 2 ^ 53) :
    (F64.div a (F64.ofNat n)).units = F64.roundQuot a.units n := by
  rw [F64.div, F64.ofNat_exact hlt, Nat.mul_comm a.units, Nat.mul_comm n, F64.roundQuot_mul_left _ _ _ F64.one_pos]

/-- Where the first of two divisions is exact, the two round once together (R11, R192). -/
theorem F64.roundQuot_roundQuot {num m d : Nat} (hnum : num = m * d) (hm : F64.Fits m) (hd : 0 < d) (den : Nat) :
    F64.roundQuot (F64.roundQuot num d) den = F64.roundQuot num (d * den) := by
  rw [hnum, F64.roundQuot_exact hm hd, Nat.mul_comm m, F64.roundQuot_mul_left _ _ _ hd]

end Sys2Proof

namespace Sys2Proof.Machine

open Sys2Proof.Claims

/-! The increment -/

/-- The source kind that a timer's CLKSOURCE selects (R192). -/
def State.timerKind (s : State) (n : TimerId) : TimerClock := s.params.timerSrc.ofCode (s.field (.clksource n))

theorem State.prescaler_lt (s : State) (n : TimerId) : s.prescaler n < 2 ^ 53 := by
  have h := s.field_lt_word (f := .prescaler n) rfl
  unfold State.prescaler
  omega

theorem State.units_timerDelta_unclocked {s : State} {n : TimerId} (h : s.timerKind n = .stop ∨ s.timerKind n = .tin) :
    (s.timerDelta n).units = 0 := by
  unfold State.timerKind at h
  rcases h with h | h <;> simp only [State.timerDelta, h] <;> rfl

theorem State.units_timerDelta_pllOff {s : State} {n : TimerId}
    (h : s.timerKind n = .sysclk ∨ s.timerKind n = .sysclk16) (hoff : s.field .displl = 1) :
    (s.timerDelta n).units = 0 := by
  have hpll : s.pllOn = false := by simp [s.pllOn_eq, hoff]
  unfold State.timerKind at h
  rcases h with h | h <;> simp only [State.timerDelta, h, hpll] <;> rfl

theorem State.units_timerDelta_sysclk {s : State} {n : TimerId} (h : s.timerKind n = .sysclk)
    (hon : s.field .displl = 0) :
    (s.timerDelta n).units = F64.roundQuot s.sysclkPerTick.units (s.prescaler n) := by
  have hpll : s.pllOn = true := by simp [s.pllOn_eq, hon]
  unfold State.timerKind at h
  simp only [State.timerDelta, h, hpll, if_true]
  exact F64.div_ofNat _ (s.prescaler_lt n)

theorem State.units_timerDelta_sysclk16 {s : State} {n : TimerId} (h : s.timerKind n = .sysclk16)
    (hon : s.field .displl = 0) :
    (s.timerDelta n).units = F64.roundQuot (F64.roundQuot s.sysclkPerTick.units 16) (s.prescaler n) := by
  have hpll : s.pllOn = true := by simp [s.pllOn_eq, hon]
  unfold State.timerKind at h
  simp only [State.timerDelta, h, hpll, if_true]
  rw [F64.div_ofNat _ (s.prescaler_lt n), F64.div_ofNat _ (by decide)]

theorem State.units_timerDelta_clk32 {s : State} {n : TimerId} (h : s.timerKind n = .clk32) :
    (s.timerDelta n).units = F64.roundQuot F64.one (s.prescaler n) := by
  unfold State.timerKind at h
  simp only [State.timerDelta, h]
  rw [F64.div_ofNat _ (s.prescaler_lt n), F64.ofNat_exact (by decide), Nat.one_mul]

/-- Under the default TIMER_SRC the codes of CLKSOURCE have three bits (log 6). -/
theorem State.clksource_lt_default (s : State) (n : TimerId) (h : s.params.timerSrc = Params.default.timerSrc) :
    s.field (.clksource n) < 8 := by
  have hcovered := s.params.timerSrcCovered n (by cases n <;> decide)
  rw [h] at hcovered
  exact Nat.lt_of_lt_of_le (s.field_lt _) hcovered

/-- Under the default parameters the division of the system clock by 16 is exact (R163, R192; logs 5 and 6). -/
theorem State.sysclkPerTick_div16 (s : State) (h : s.params = Params.default) :
    ∃ m, s.sysclkPerTick.units = m * 16 ∧ F64.Fits m := by
  obtain ⟨hlt, hp⟩ := s.presc1_default (congrArg Params.presc1Div h)
  obtain ⟨q, hq, hcode⟩ := SysclkDivisors.ofCode_default_two_pow (s.field .sysclksel)
  rw [← congrArg Params.sysclkDiv h] at hcode
  obtain ⟨e, he⟩ : ∃ e, s.field .presc1 + (q + (e + 4)) = 1074 := ⟨1070 - s.field .presc1 - q, by omega⟩
  refine ⟨s.pllCycles * 2 ^ e, ?_, ⟨s.pllCycles, e, s.pllCycles_lt, rfl⟩⟩
  rw [s.units_sysclkPerTick hp hcode (by omega) (by omega) he, Nat.pow_add, ← Nat.mul_assoc]

/-! The TSTATn write -/

/-- The status bits that a TSTATn write clears, bit by bit: covered, written 0, and seen set by an earlier read (R197). -/
theorem RegMap.getLsbD_tstatCleared (k : RegMap) (n : TimerId) (v be ack : Word) (b : Nat) :
    (k.tstatCleared n v be ack).getLsbD b = true ↔
      (b = k.lo (.comp n) ∨ b = k.lo (.capt n)) ∧ be.getLsbD b = true ∧ v.getLsbD b = false ∧ ack.getLsbD b = true := by
  have hstatus : (k.tstatStatusBits n).getLsbD b = true ↔ b = k.lo (.comp n) ∨ b = k.lo (.capt n) := by
    rw [RegTable.tstatStatusBits, RegTable.getLsbD_masks]
    simp [k.getLsbD_mask_flag (f := .comp n) rfl fun _ => rfl, k.getLsbD_mask_flag (f := .capt n) rfl fun _ => rfl]
  have hlt : be.getLsbD b = true → b < 32 := BitVec.lt_of_getLsbD
  simp only [RegTable.tstatCleared, BitVec.getLsbD_and, BitVec.getLsbD_not, Bool.and_eq_true, decide_eq_true_iff,
    Bool.not_eq_true', hstatus]
  tauto

/-- `clr` of R197 on a state: what a TSTATn write clears. -/
def State.tstatCleared (s : State) (n : TimerId) (v be : Word) : Word :=
  s.params.regMap.tstatCleared n v be ((s.timerReadAck n).setWidth 32)

/-- `clr`, in the words of the statements: the write reaches its handler with the bits outside `be` cleared. -/
theorem State.getLsbD_tstatCleared (s : State) (n : TimerId) (v be : Word) (b : Nat) :
    (s.tstatCleared n (v &&& be) be).getLsbD b = true ↔
      (b = bitOf s (.comp n) ∨ b = bitOf s (.capt n)) ∧ be.getLsbD b = true ∧ v.getLsbD b = false ∧
        (s.timerReadAck n).getLsbD b = true := by
  rw [State.tstatCleared, RegMap.getLsbD_tstatCleared, BitVec.getLsbD_and, BitVec.getLsbD_setWidth]
  refine and_congr_right fun _ => and_congr_right fun hbe => ?_
  rw [hbe, Bool.and_true]
  refine and_congr_right fun _ => ?_
  rw [Bool.and_eq_true, decide_eq_true_iff]
  exact and_iff_right_of_imp fun hexposed => Nat.lt_trans (BitVec.lt_of_getLsbD hexposed) (by decide)

/-- The status after a TSTATn write (R197). -/
def State.storeTstat (s : State) (n : TimerId) (v be : Word) : State :=
  s.setReg (Reg.tstat n) (s.reg (Reg.tstat n) &&& ~~~s.tstatCleared n v be)

/-- TMRn's pending flag is cleared if COMP is 0 (R197). -/
def State.settleTimer (s : State) (n : TimerId) : State :=
  if s.flag (.comp n) then s else s.clearSource (s.source (.timer n))

/-- A TSTATn write stores the status, settles the pending flag, and notes the bits as not exposed any more. -/
theorem State.writeTstat_eq_settleTimer (s : State) (n : TimerId) (v be : Word) :
    s.writeTstat n v be = ((s.storeTstat n v be).settleTimer n).setTimerReadAck n
      (s.timerReadAck n &&& ~~~(s.tstatCleared n v be).setWidth 16) := by
  rw [State.writeTstat_eq, State.settleTimer, apply_ite fun u : State => u.setTimerReadAck n _]
  cases n <;> rfl

/-- The bits of a word without those of a mask. -/
theorem getLsbD_and_not {w : Nat} (x y : BitVec w) (b : Nat) :
    (x &&& ~~~y).getLsbD b = true ↔ x.getLsbD b = true ∧ ¬y.getLsbD b = true := by
  have hlt : x.getLsbD b = true → b < w := BitVec.lt_of_getLsbD
  rw [BitVec.getLsbD_and, BitVec.getLsbD_not, Bool.and_eq_true, Bool.and_eq_true, decide_eq_true_iff, Bool.not_eq_true',
    Bool.not_eq_true]
  exact and_congr_right fun hx => and_iff_right (hlt hx)

theorem State.storeTstat_spec (s : State) (n : TimerId) (v be : Word) :
    TouchesOnly [Reg.tstat n] s (s.storeTstat n v be) ∧
      (s.storeTstat n v be).reg (Reg.tstat n) = s.reg (Reg.tstat n) &&& ~~~s.tstatCleared n v be := by
  refine ⟨TouchesOnly.setReg s _ (by simp), ?_⟩
  rw [State.storeTstat, State.reg_setReg_same, BitVec.and_assoc, BitVec.and_comm (~~~_), ← BitVec.and_assoc,
    s.and_fullMask]

/-- Everything the settling of the pending flag can do (R132, R197). -/
theorem State.settleTimer_spec (s : State) (n : TimerId) :
    TouchesOnly [.ipr, .isr] s (s.settleTimer n) ∧ (s.settleTimer n).wakeCountdown = s.wakeCountdown ∧
      ∀ b, (s.settleTimer n).bit .ipr b = true ↔
        s.bit .ipr b = true ∧ (b = (s.source (.timer n)).bit.val → s.field (.comp n) = 1) := by
  unfold State.settleTimer
  by_cases hcomp : s.flag (.comp n) = true
  · rw [if_pos hcomp]
    exact ⟨.refl _ s, rfl, fun b => by simp [(s.flag_eq_true _).1 hcomp]⟩
  · rw [if_neg hcomp]
    obtain ⟨htouch, -, -, hwake⟩ := s.clearSource_spec (s.source (.timer n))
    refine ⟨htouch, hwake, fun b => ?_⟩
    rw [s.flag_eq_true] at hcomp
    simp [State.bit_ipr_clearSource, hcomp]

/-- Everything a TSTATn write can do (R197): a store into the registers, and the note of the bits exposed. -/
theorem State.writeTstat_spec (s : State) (n : TimerId) (v be : Word) :
    ∃ u ack, s.writeTstat n v be = u.setTimerReadAck n ack ∧
      TouchesOnly [Reg.tstat n, .ipr, .isr] s u ∧ u.wakeCountdown = s.wakeCountdown ∧
      (∀ b, ack.getLsbD b = true ↔
        (s.timerReadAck n).getLsbD b = true ∧ ¬(s.tstatCleared n v be).getLsbD b = true) ∧
      (∀ b, u.bit (Reg.tstat n) b = true ↔
        s.bit (Reg.tstat n) b = true ∧ ¬(s.tstatCleared n v be).getLsbD b = true) ∧
      ∀ b, u.bit .ipr b = true ↔
        s.bit .ipr b = true ∧ (b = (s.source (.timer n)).bit.val → u.field (.comp n) = 1) := by
  obtain ⟨hstore, hstatus⟩ := s.storeTstat_spec n v be
  obtain ⟨hsettle, hwake, hipr⟩ := (s.storeTstat n v be).settleTimer_spec n
  refine ⟨_, _, s.writeTstat_eq_settleTimer n v be, (hstore.mono (by simp)).trans (hsettle.mono (by simp)), hwake,
    fun b => ?_, fun b => ?_, fun b => ?_⟩
  · rw [getLsbD_and_not, BitVec.getLsbD_setWidth]
    refine and_congr_right fun hack => ?_
    rw [decide_eq_true (BitVec.lt_of_getLsbD hack), Bool.true_and]
  · rw [hsettle.bit (by cases n <;> decide), State.bit, hstatus, getLsbD_and_not]
    rfl
  · rw [hipr, hstore.bit (by cases n <;> decide), hstore.source, hsettle.field (f := .comp n) (by cases n <;> decide)]

@[simp] theorem State.reg_setTimerReadAck (s : State) (n : TimerId) (x : Half) (q : Reg) :
    (s.setTimerReadAck n x).reg q = s.reg q := by
  cases n <;> rfl

/-! The sources that the parts of a TICK raise -/

/-- In a TICK from `s`, after the parts of the owners `os`: besides the flags pending before, those of the sources that these
parts raise are. -/
def PendingRaised (s : State) (os : List Owner) (t : State) : Prop :=
  ∀ b, t.bit .ipr b = true ↔
    s.bit .ipr b = true ∨ ∃ o ∈ os, TickRaises s (s.source o) ∧ (s.source o).bit.val = b

theorem PendingRaised.start (s : State) : PendingRaised s [] s.countTick := fun b => by
  simp only [List.not_mem_nil, false_and, exists_false, or_false]
  rfl

/-- The next part of a TICK. -/
theorem PendingRaised.part {s t u : State} {os : List Owner} {o : Owner} {rs : List Reg} {raised : Bool}
    (h : PendingRaised s os t) (hsource : t.source o = s.source o) (hp : TickPart rs (t.source o) raised t u)
    (hr : raised = true ↔ TickRaises s (s.source o)) : PendingRaised s (o :: os) u := by
  intro b
  rw [hp.pending, Bool.or_eq_true, h b, Bool.and_eq_true, hr, decide_eq_true_iff, hsource, eq_comm (a := b), or_assoc,
    or_comm (a := ∃ _, _)]
  simp only [List.mem_cons, exists_eq_or_imp]

/-- A part of a TICK that does not run: it would raise nothing. -/
theorem PendingRaised.skip {s t : State} {os : List Owner} {o : Owner} (h : PendingRaised s os t)
    (hr : ¬TickRaises s (s.source o)) : PendingRaised s (o :: os) t := by
  intro b
  simp only [h b, List.mem_cons, exists_eq_or_imp, hr, false_and, false_or]

/-! What each part of a TICK raises -/

/-- What the RTC's second raises on a second boundary (R224). -/
theorem State.rtcSecond_raised_iff {s : State} (hb : Boundary s) :
    (s.countTick.flag .rtcEn && decide (s.countTick.timeEvents &&& s.countTick.reg .rtcienr ≠ 0)) = true ↔
      TickRaises s (s.source .rtcSecond) := by
  change (s.flag .rtcEn && decide (s.timeEvents &&& s.reg .rtcienr ≠ 0)) = true ↔ _
  simp only [tickRaises_rtcSecond, Bool.and_eq_true, decide_eq_true_iff, and_ne_zero_iff, s.flag_eq_true,
    s.secondEvent_iff, RtcRuns, hb, true_and, and_assoc, exists_and_left, State.bit]

/-- What the watchdog's second raises where it does not abort the TICK (R234). -/
theorem TickPath.watchdog_raised_iff {s t : State} (h : TickPath s [.rtcSecond] t) (hb : Boundary s) (ha : ¬Aborts s) :
    (t.flag .wdtEn && t.watchdogExpires) = true ↔ TickRaises s (s.source .watchdog) := by
  have hreg : t.reg .watchdog = s.reg .watchdog := h.reg _ (by decide) (by decide) (by decide)
  have hen : t.field .wdtEn = s.field .wdtEn := State.field_congr h.params hreg
  have hsel := s.flag_eq_false .wdtIsel (s.params.regMap.len_flag rfl fun _ => rfl)
  have hexpires : (t.flag .wdtEn && t.watchdogExpires) = true ↔ WatchdogExpires s := by
    rw [Bool.and_eq_true, t.flag_eq_true, hen, State.watchdogExpires, State.watchdogValue, hreg, h.params,
      watchdogExpired, bne_iff_ne, WatchdogExpires, and_iff_right hb]
    rfl
  rw [hexpires, tickRaises_watchdog, iff_self_and, ← s.flag_eq_true, ← Bool.not_eq_false, hsel]
  exact fun hx h0 => ha ⟨hx, h0⟩

/-- What the ladder raises (R226). -/
theorem TickPath.ladder_raised_iff {s t : State} (h : TickPath s [.watchdog, .rtcSecond] t) :
    decide (t.params.regMap.ladderFired t.tickCounter &&& t.reg .rtcienr ≠ 0) = true ↔
      TickRaises s (s.source .ladder) := by
  simp only [tickRaises_ladder, decide_eq_true_iff, and_ne_zero_iff, h.params, h.counter,
    h.reg .rtcienr (by decide) (by decide) (by decide), RegMap.getLsbD_ladderFired]
  rfl

/-! What a timer finds in a TICK -/

/-- A timer finds in the TICK what its increment and its match depend on as it was before (R198). -/
structure TimerReady (n : TimerId) (s t : State) : Prop where
  params : t.params = s.params
  acc : t.timerAcc n = s.timerAcc n
  inputs : ∀ q ∈ timerInputs n, t.reg q = s.reg q
  status : t.reg (Reg.tstat n) = s.reg (Reg.tstat n)

theorem timerInputs_ne {n : TimerId} {q : Reg} (hq : q ∈ timerInputs n) : q ≠ .ipr ∧ q ≠ .isr := by
  cases n <;> fin_cases hq <;> decide

/-- Before the part of timer `n`, no part of a TICK stores into the registers that it reads. -/
theorem TickPath.timerReady {s t : State} {os : List Owner} (h : TickPath s os t) {n : TimerId} (hn : .timer n ∉ os)
    (hos : ∀ o ∈ os, ∀ q ∈ Reg.tstat n :: timerInputs n, q ∉ o.tickRegs) : TimerReady n s t where
  params := h.params
  acc := h.acc n hn
  inputs q hq := h.reg q (timerInputs_ne hq).1 (timerInputs_ne hq).2 fun o ho => hos o ho q (List.mem_cons_of_mem _ hq)
  status := h.reg _ (by cases n <;> decide) (by cases n <;> decide) fun o ho => hos o ho _ List.mem_cons_self

theorem TimerReady.field {s t : State} {n : TimerId} (h : TimerReady n s t) (f : Field)
    (hf : f.reg ∈ timerInputs n := by simp [timerInputs, Field.reg]) : t.field f = s.field f :=
  State.field_congr h.params (h.inputs _ hf)

theorem TimerReady.flag {s t : State} {n : TimerId} (h : TimerReady n s t) (f : Field)
    (hf : f.reg ∈ timerInputs n := by simp [timerInputs, Field.reg]) : t.flag f = s.flag f :=
  State.flag_congr (h.field f hf)

theorem TimerReady.crosses {s t : State} {n : TimerId} (h : TimerReady n s t) : t.timerCrosses n = s.timerCrosses n :=
  State.timerCrosses_congr h.params h.inputs h.acc

theorem TimerReady.timerDelta {s t : State} {n : TimerId} (h : TimerReady n s t) : t.timerDelta n = s.timerDelta n := by
  have hrate : t.sysclkPerTick = s.sysclkPerTick := by
    simp only [State.sysclkPerTick, State.dmaclkPerTick, h.params, h.field .pcnt, h.field .qcnt, h.field .presc1,
      h.field .sysclksel]
  unfold State.timerDelta State.prescaler State.pllOn
  rw [h.params, hrate, h.field (.prescaler n), h.field (.clksource n), h.flag .displl]

theorem TimerReady.timerSum {s t : State} {n : TimerId} (h : TimerReady n s t) : t.timerSum n = s.timerSum n := by
  rw [State.timerSum, h.acc, h.timerDelta, State.timerSum]

theorem TimerReady.timerNew {s t : State} {n : TimerId} (h : TimerReady n s t) : t.timerNew n = s.timerNew n := by
  rw [State.timerNew, h.timerSum, h.field (.count n), State.timerNew]

/-- What a timer's part raises (R200). -/
theorem TimerReady.raised_iff {s t : State} {n : TimerId} (h : TimerReady n s t) :
    (t.timerCrosses n && t.flag (.irqen n)) = true ↔ TickRaises s (s.source (.timer n)) := by
  rw [h.crosses, h.flag (.irqen n), Bool.and_eq_true, s.timerCrosses_iff, s.flag_eq_true, tickRaises_timer]

/-! The whole TICK, with the pending flags -/

/-- A TICK that is not aborted runs its once-per-second path, if it is on a boundary, and then the rest (R260, R261). -/
theorem State.tick_second (s : State) (ha : ¬Aborts s) :
    ∃ t, TickPath s [.watchdog, .rtcSecond] t ∧ PendingRaised s [.watchdog, .rtcSecond] t ∧
      s.tick = t.tickBody.checkInterrupts := by
  cases hb : s.secondBoundary with
  | true =>
    have hbound : Boundary s := beq_iff_eq.1 hb
    have hr : s.countTick.rtcSecond.watchdogResets = false :=
      Bool.eq_false_iff.2 fun hr => ha (s.aborts_iff.2 ⟨hb, hr⟩)
    have hrtc := TickPath.rtc hbound
    have raised := (PendingRaised.start s).part rfl s.countTick.rtcSecond_part (State.rtcSecond_raised_iff hbound)
    refine ⟨_, hrtc.watchdog hbound ha,
      raised.part (hrtc.source _) (State.watchdogSecond_spec _).2.1 (hrtc.watchdog_raised_iff hbound ha), ?_⟩
    rw [State.tick, if_pos hb]
    simp only [hr, Bool.false_eq_true, if_false]
    rfl
  | false =>
    have hbound : ¬Boundary s := beq_eq_false_iff_ne.1 hb
    have hrtc : ¬TickRaises s (s.source .rtcSecond) := by
      rw [tickRaises_rtcSecond]
      exact fun ⟨_, hev, _⟩ => hbound hev.1.1
    have hwatchdog : ¬TickRaises s (s.source .watchdog) := by
      rw [tickRaises_watchdog]
      exact fun hx => hbound hx.1.1
    refine ⟨_, ((TickPath.start s).skip hrtc).skip hwatchdog, ((PendingRaised.start s).skip hrtc).skip hwatchdog, ?_⟩
    rw [State.tick, hb]
    rfl

/-- A timer's part raises its source exactly if the TICK does. -/
theorem PendingRaised.timer {s t : State} {os : List Owner} (h : PendingRaised s os t) {n : TimerId}
    (hready : TimerReady n s t) : PendingRaised s (.timer n :: os) (t.timerTick n) :=
  h.part (by rw [State.source, hready.params, State.source]) (t.timerTick_spec n).2.1 hready.raised_iff

/-- The rest of a TICK, part by part: what each timer finds, and what is pending at the end (R261). -/
theorem TickPath.tickBody {s t : State} (h : TickPath s [.watchdog, .rtcSecond] t)
    (hraised : PendingRaised s [.watchdog, .rtcSecond] t) :
    TimerReady .t1 s t.rtiLadder ∧ TimerReady .t2 s (t.rtiLadder.timerTick .t1) ∧
      PendingRaised s tickOwners t.tickBody := by
  have ladder := h.ladder
  have ready1 := ladder.timerReady (n := .t1) (by decide) (by decide)
  have ready2 := (ladder.timer .t1 (by decide) (by decide)).timerReady (n := .t2) (by decide) (by decide)
  have raised := ((hraised.part (h.source _) (State.latchRtc_spec _ _ .ladder).2.1 h.ladder_raised_iff).timer
    ready1).timer ready2
  refine ⟨ready1, ready2, fun b => ?_⟩
  rw [State.tickBody, (State.pllWakeStep_spec _).1.bit (by decide)]
  exact raised b

@[simp] theorem State.bit_checkInterrupts (s : State) (q : Reg) (b : Nat) : s.checkInterrupts.bit q b = s.bit q b := rfl

/-- The pending flags after a TICK that is not aborted. -/
theorem State.tick_pending (s : State) (ha : ¬Aborts s) (b : Nat) :
    s.tick.bit .ipr b = true ↔
      s.bit .ipr b = true ∨ ∃ x ∈ s.params.sources.rows, x.bit.val = b ∧ TickRaises s x := by
  obtain ⟨t, hpath, hraised, e⟩ := s.tick_second ha
  obtain ⟨-, -, hbody⟩ := hpath.tickBody hraised
  rw [e, State.bit_checkInterrupts, hbody b, exists_tickOwners_iff s fun x => x.bit.val = b]
  simp only [and_comm]

/-! A timer in a TICK -/

/-- The accumulator, the counter and the status of timer `n` are as before. -/
structure TimerKept (n : TimerId) (s t : State) : Prop where
  params : t.params = s.params
  acc : t.timerAcc n = s.timerAcc n
  count : t.reg (Reg.tcn n) = s.reg (Reg.tcn n)
  status : t.reg (Reg.tstat n) = s.reg (Reg.tstat n)

theorem TimerKept.trans {n : TimerId} {s t u : State} (h : TimerKept n s t) (g : TimerKept n t u) : TimerKept n s u :=
  ⟨g.params.trans h.params, g.acc.trans h.acc, g.count.trans h.count, g.status.trans h.status⟩

theorem TimerReady.kept {n : TimerId} {s t : State} (h : TimerReady n s t) : TimerKept n s t :=
  ⟨h.params, h.acc, h.inputs _ (by simp [timerInputs]), h.status⟩

theorem timerRegs_apart {n m : TimerId} (h : n ≠ m) : ∀ q ∈ timerRegs n, q ∉ Reg.ipr :: .isr :: timerRegs m := by
  match n, m with
  | .t1, .t2 | .t2, .t1 => decide
  | .t1, .t1 | .t2, .t2 => exact absurd rfl h

/-- The part of one timer leaves the other. -/
theorem State.timerTick_timerKept (s : State) {n m : TimerId} (h : n ≠ m) : TimerKept n s (s.timerTick m) := by
  obtain ⟨⟨u, hu, e⟩, hpart, -⟩ := s.timerTick_spec m
  refine ⟨hpart.params, ?_, hpart.reg (timerRegs_apart h _ (by simp [timerRegs])),
    hpart.reg (timerRegs_apart h _ (by simp [timerRegs]))⟩
  rw [e, State.timerAcc_setTimerAcc_ne _ _ h, hu.2]
  cases n <;> rfl

theorem TouchesOnly.timerKept {rs : List Reg} {s t : State} (h : TouchesOnly rs s t) {n : TimerId}
    (hcount : Reg.tcn n ∉ rs) (hstatus : Reg.tstat n ∉ rs) : TimerKept n s t :=
  ⟨h.params, by rw [h.2]; cases n <;> rfl, h.reg hcount, h.reg hstatus⟩

theorem State.pllWakeStep_timerKept (s : State) (n : TimerId) : TimerKept n s s.pllWakeStep :=
  s.pllWakeStep_spec.1.timerKept (by cases n <;> decide) (by cases n <;> decide)

theorem State.checkInterrupts_timerKept (s : State) (n : TimerId) : TimerKept n s s.checkInterrupts :=
  ⟨rfl, by cases n <;> rfl, rfl, rfl⟩

/-- The part of a disabled timer leaves it (R198). -/
theorem TimerReady.stopped {s t : State} {n : TimerId} (h : TimerReady n s t) (hten : s.field (.ten n) = 0) :
    TimerKept n s (t.timerTick n) := by
  obtain ⟨-, -, hstopped, -⟩ := t.timerTick_spec n
  have hoff := (s.flag_eq_false (.ten n) (s.params.regMap.len_flag rfl fun _ => rfl)).2 hten
  rw [hstopped ((h.flag (.ten n)).trans hoff)]
  exact h.kept

/-- The part of an enabled timer, by whether it crosses its compare value (R198 to R201). -/
theorem TimerReady.runs {s t : State} {n : TimerId} (h : TimerReady n s t) (hten : s.field (.ten n) = 1) :
    (t.timerTick n).timerAcc n = ⟨(sum s n).units % F64.one⟩ ∧
      (Matches s n → (t.timerTick n).field (.count n) =
        if s.field (.frr n) = 0 then advanced s n - s.field (.compare n) else advanced s n) ∧
      (¬Matches s n → (t.timerTick n).field (.count n) = advanced s n) ∧
      ∀ b, (t.timerTick n).bit (Reg.tstat n) b = true ↔
        s.bit (Reg.tstat n) b = true ∨ (b = bitOf s (.comp n) ∧ Matches s n) := by
  obtain ⟨-, -, -, hruns⟩ := t.timerTick_spec n
  obtain ⟨hacc, hcount, hstatus⟩ := hruns ((h.flag (.ten n)).trans ((s.flag_eq_true _).2 hten))
  have hfrr := s.flag_eq_false (.frr n) (s.params.regMap.len_flag rfl fun _ => rfl)
  rw [h.timerSum] at hacc
  rw [h.crosses, h.timerNew, h.field (.compare n), h.flag (.frr n)] at hcount
  refine ⟨hacc, fun hm => ?_, fun hm => ?_, fun b => ?_⟩
  · simp only [(s.timerCrosses_iff n).2 hm, Bool.true_and, Bool.not_eq_true', hfrr] at hcount
    exact hcount
  · rwa [Bool.eq_false_iff.2 (mt (s.timerCrosses_iff n).1 hm), Bool.false_and, if_neg (by decide)] at hcount
  · rw [hstatus, h.crosses, h.params, State.bit, h.status, Bool.or_eq_true, Bool.and_eq_true, decide_eq_true_iff,
      s.timerCrosses_iff]
    rfl

/-- A TICK that is not aborted does to a timer what the timer's part does. -/
theorem State.tick_timer (s : State) (ha : ¬Aborts s) (n : TimerId) :
    ∃ t, TimerReady n s t ∧ TimerKept n (t.timerTick n) s.tick := by
  obtain ⟨t, hpath, hraised, e⟩ := s.tick_second ha
  obtain ⟨ready1, ready2, -⟩ := hpath.tickBody hraised
  have rest : ∀ u : State, TimerKept n u u.pllWakeStep.checkInterrupts := fun u =>
    (u.pllWakeStep_timerKept n).trans (State.checkInterrupts_timerKept _ n)
  rw [e, State.tickBody]
  cases n with
  | t1 => exact ⟨_, ready1, (State.timerTick_timerKept _ (by decide)).trans (rest _)⟩
  | t2 => exact ⟨_, ready2, rest _⟩

end Sys2Proof.Machine

namespace Sys2Proof

open Sys2Proof.Machine Sys2Proof.Claims

/-- Settles O60: every code has a source kind (`State.timerSrc_spec`), and by it the increment is one quotient, rounded
once by the prescaler. -/
theorem timerIncrement : Obligations.TimerIncrement := by
  intro s n c p cycles
  refine ⟨s.timerKind n, s.timerSrc_spec n, State.units_timerDelta_unclocked, State.units_timerDelta_pllOff,
    State.units_timerDelta_sysclk, State.units_timerDelta_sysclk16, State.units_timerDelta_clk32, fun hsrc => ?_,
    fun hparams hc hon => ?_⟩
  · have hlt : c < 8 := s.clksource_lt_default n hsrc
    have hkind : s.timerKind n = Params.default.timerSrc.ofCode c := by rw [State.timerKind, hsrc]
    rw [hkind]
    clear_value c
    interval_cases c <;> decide
  · have hkind : s.timerKind n = .sysclk16 := by
      rw [State.timerKind, hparams]
      exact congrArg Params.default.timerSrc.ofCode hc
    obtain ⟨m, hm, hfits⟩ := s.sysclkPerTick_div16 hparams
    rw [State.units_timerDelta_sysclk16 hkind hon]
    exact F64.roundQuot_roundQuot hm hfits (by decide) _

/-- Settles O40: the handler clears the exposed bits written 0 and then settles TMRn's flag (`State.writeTstat_spec`). -/
theorem tstatWrite : Obligations.TstatWrite := by
  intro i s a n v m hcons hi hin
  have hexec := exec_of_inside hi hin
  generalize laneValue s (Reg.tstat m) a n v = w, laneMask s (Reg.tstat m) a n = be at hexec ⊢
  have hisr := (s.startOp.writeHandler_isrKept (Reg.tstat m) (w &&& be) be).consistent hcons
  have hhandler : s.startOp.writeHandler (Reg.tstat m) (w &&& be) be = s.startOp.writeTstat m (w &&& be) be := by
    cases m <;> rfl
  obtain ⟨u, ack, e, touches, hwake, hack, hstatus, hipr⟩ := s.startOp.writeTstat_spec m (w &&& be) be
  have hreg : ∀ q, (u.setTimerReadAck m ack).checkInterrupts.reg q = u.reg q := u.reg_setTimerReadAck m ack
  have hfield : ∀ f, (u.setTimerReadAck m ack).checkInterrupts.field f = u.field f := fun f =>
    State.field_congr (u.params_setTimerReadAck m ack) (hreg _)
  have hnoted : (u.setTimerReadAck m ack).checkInterrupts.timerReadAck m = ack := by
    cases m <;> rfl
  simp only [State.getLsbD_tstatCleared] at hack hstatus
  rw [hhandler, e] at hexec hisr
  refine ⟨_, hexec, fun b => ?_, fun b => ?_, fun b => ?_, hisr, fun p hp => ?_, ?_, ?_⟩
  · rw [State.bit, hreg]
    exact hstatus b
  · rw [hnoted, hack]
    exact and_congr_right fun hexposed => not_congr
      (and_congr_right fun _ => and_congr_right fun _ => and_iff_left hexposed)
  · rw [State.bit, hreg, hfield]
    exact hipr b
  · rw [State.rf_checkInterrupts, State.rf_setTimerReadAck]
    exact touches.bytesKept p hp
  · refine State.delivered_checkInterrupts ?_
    rw [State.events_setTimerReadAck, touches.quiet.1]
    rfl
  · obtain ⟨rf, wake, rfl⟩ : ∃ rf wake, u = { s.startOp with rf := rf, wakeCountdown := wake } := ⟨_, _, touches.2⟩
    cases hwake
    cases m <;> rfl

/-- Settles O53: the timer's part finds the timer as the TICK found it (`State.tick_timer`), and does what
`TimerReady.runs` says. -/
theorem tickTimer : Obligations.TickTimer := by
  intro s t n ha h
  cases h
  obtain ⟨u, ready, kept⟩ := s.startOp.tick_timer ha n
  refine ⟨fun hten => ?_, fun hten => ?_⟩
  · have hkept := (ready.stopped hten).trans kept
    exact ⟨hkept.acc, hkept.count, hkept.status⟩
  · rw [kept.acc, State.field_congr (f := .count n) kept.params kept.count]
    simp only [State.bit, kept.status]
    exact ready.runs hten

/-- Settles O54: every part of the TICK raises its own source, and the rows that a TICK raises are those of its owners
(`State.tick_pending`). -/
theorem tickPending : Obligations.TickPending := by
  intro s t ha h
  cases h
  exact s.startOp.tick_pending ha

end Sys2Proof
end

section
/-! PROOFS. The statements of 44_rtc_watchdog: SET_RTC (O26), the writes of RTCISR and WATCHDOG (O41, O42), what a TICK can
change (O48), the time of day, RTCISR and WATCHDOG after a TICK (O50, O51, O52), and a watchdog in reset mode in a run of
TICKs (O57). -/

namespace Sys2Proof.Machine

open Sys2Proof.Claims

/-! Flags of a register -/

/-- Some of the listed flags of a register is 1. -/
theorem State.reg_and_masks_ne_zero_iff (s : State) {r : Reg} {fs : List Field}
    (h : ∀ f ∈ fs, f.reg = r ∧ f.mayLack = false ∧ ∀ n, f.widthOk n = (n == 1)) :
    s.reg r &&& s.params.regMap.masks fs ≠ 0 ↔ ∃ f ∈ fs, s.field f = 1 := by
  have hbit : ∀ f ∈ fs, (s.field f = 1 ↔ ∃ b, (s.reg r).getLsbD b = true ∧
      (s.params.regMap.mask f).getLsbD b = true) := by
    intro f hf
    obtain ⟨rfl, hlack, hwidth⟩ := h f hf
    rw [s.field_one f (s.params.regMap.len_flag hlack hwidth), Bool.toNat_eq_one]
    simp [s.params.regMap.getLsbD_mask_flag hlack hwidth, State.bit]
  simp only [and_ne_zero_iff, RegTable.getLsbD_masks]
  constructor
  · rintro ⟨b, hb, f, hf, hm⟩
    exact ⟨f, hf, (hbit f hf).2 ⟨b, hb, hm⟩⟩
  · rintro ⟨f, hf, h1⟩
    obtain ⟨b, hb, hm⟩ := (hbit f hf).1 h1
    exact ⟨b, hb, f, hf, hm⟩

/-- A store of 0 in a field clears its bits and leaves the others (R96). -/
theorem State.getLsbD_reg_clearField (s : State) {f : Field} (h : f.mayLack = false) (b : Nat) :
    ((s.setField f 0).reg f.reg).getLsbD b =
      (!(s.params.regMap.mask f).getLsbD b && (s.reg f.reg).getLsbD b) := by
  have hin := (s.params.regMap.field_spec h).2.1
  have hbytes := s.params.regMap.bytes_le f.reg
  have hmask : (s.params.regMap.mask f).getLsbD b = true ↔ s.params.regMap.lo f ≤ b ∧
      b < s.params.regMap.lo f + s.params.regMap.len f ∧ b < 8 * s.params.regMap.bytes f.reg := by
    rw [RegTable.getLsbD_mask]
    simp only [Bool.and_eq_true, decide_eq_true_iff]
    omega
  rw [State.getLsbD_reg_setField]
  split
  · next hb => rw [hmask.2 hb, Nat.zero_testBit, Bool.not_true, Bool.false_and]
  · next hb => rw [Bool.eq_false_iff.2 (mt hmask.1 hb), Bool.not_false, Bool.true_and]

/-! SET_RTC -/

theorem exec_setRtc_inRange {s : State} {d h m sec : Nat} (hin : s.rtcInRange d h m sec = true) :
    exec (.setRtc d h m sec) s = .next (s.startOp.setTimeOfDay ⟨d, h, m, sec⟩) := if_pos hin

theorem exec_setRtc_outOfRange {s : State} {d h m sec : Nat} (hout : ¬s.rtcInRange d h m sec = true) :
    exec (.setRtc d h m sec) s = .refused .rtcOutOfRange := if_neg hout

/-- The two ways to write the bits of RTCTIME that hold the time of day (R220). -/
theorem masks_timeFields (s : State) : s.params.regMap.masks timeFields = timeMask s := by
  simp [RegTable.masks, timeFields, timeMask]

/-- The default map holds every time of day as it is (R27, R96). -/
theorem fits_default {s : State} (hmap : s.params.regMap = .default) {h m sec : Nat} (hh : h < 24) (hm : m < 60)
    (hsec : sec < 60) : fits s .hours h = h ∧ fits s .minutes m = m ∧ fits s .seconds sec = sec := by
  have lenH : RegMap.default.len .hours = 5 := by decide +kernel
  have lenM : RegMap.default.len .minutes = 6 := by decide +kernel
  have lenS : RegMap.default.len .seconds = 6 := by decide +kernel
  simp only [fits, hmap, lenH, lenM, lenS]
  omega

/-! The RTCISR write -/

/-- RTC's pending flag stands while one of its four bits of RTCISR does (R228, R230). -/
theorem State.rtcBits_ne_zero_iff (s : State) :
    s.reg .rtcisr &&& s.params.regMap.rtcBits ≠ 0 ↔
      s.field .sec = 1 ∨ s.field .min = 1 ∨ s.field .hr = 1 ∨ s.field .day = 1 := by
  rw [RegTable.rtcBits, s.reg_and_masks_ne_zero_iff (by simp [Field.reg, Field.mayLack, Field.widthOk])]
  simp

/-- RTI's pending flag stands while a ladder bit of RTCISR does (R228, R230). -/
theorem State.ladderBits_ne_zero_iff (s : State) :
    s.reg .rtcisr &&& s.params.regMap.ladderBits ≠ 0 ↔ ∃ k, s.field (.sam k) = 1 := by
  rw [RegTable.ladderBits,
    s.reg_and_masks_ne_zero_iff (by simp [Field.ladder, Field.reg, Field.mayLack, Field.widthOk])]
  simp [Field.ladder]

/-! The WATCHDOG write -/

/-- INTF is written 1 by the covered bits of `v` (R231). -/
def State.intfWritten (s : State) (v be : Word) : Bool := (v &&& be).getLsbD (bitOf s .wdtIntf)

theorem State.writeWatchdog_of_written {s : State} {v be : Word} (h : s.intfWritten v be = true) :
    s.writeWatchdog v be = ((s.restartWatchdog v be).setField .wdtIntf 0).clearSource (s.source .watchdog) := by
  rw [State.writeWatchdog_eq, if_pos ((s.params.regMap.ofWord_flag (f := .wdtIntf) rfl (fun _ => rfl) _).2 h)]

theorem State.writeWatchdog_of_not_written {s : State} {v be : Word} (h : s.intfWritten v be = false) :
    s.writeWatchdog v be = s.restartWatchdog v be := by
  rw [State.writeWatchdog_eq,
    if_neg (mt (s.params.regMap.ofWord_flag (f := .wdtIntf) rfl (fun _ => rfl) _).1 (Bool.eq_false_iff.1 h))]

/-- The bits of WATCHDOG that a write stores are EN and ISEL (R231). -/
theorem State.getLsbD_watchdogPlain (s : State) (b : Nat) :
    s.params.regMap.watchdogPlain.getLsbD b = decide (b = bitOf s .wdtEn ∨ b = bitOf s .wdtIsel) := by
  rw [Bool.eq_iff_iff, decide_eq_true_iff, RegTable.watchdogPlain, RegTable.getLsbD_masks]
  simp [s.params.regMap.getLsbD_mask_flag (f := .wdtEn) rfl fun _ => rfl,
    s.params.regMap.getLsbD_mask_flag (f := .wdtIsel) rfl fun _ => rfl, bitOf]

/-- WATCHDOG with EN and ISEL stored and the count restarted, bit by bit (R231). -/
theorem State.bit_restartWatchdog (s : State) (v be : Word) (b : Nat) :
    (s.restartWatchdog v be).bit .watchdog b =
      (!(s.params.regMap.mask .wdtCntr).getLsbD b &&
        if (b = bitOf s .wdtEn ∨ b = bitOf s .wdtIsel) ∧ be.getLsbD b = true then v.getLsbD b
        else s.bit .watchdog b) := by
  have hplain : s.params.regMap.watchdogPlain &&& s.params.regMap.fullMask .watchdog =
      s.params.regMap.watchdogPlain := s.params.regMap.masks_and_fullMask (by simp [Field.reg, Field.mayLack])
  refine (State.getLsbD_reg_clearField _ (f := .wdtCntr) rfl b).trans ?_
  simp only [Field.reg, State.params_maskedWrite, s.reg_maskedWrite .watchdog v be hplain, getLsbD_mergeBits,
    s.getLsbD_watchdogPlain, Bool.and_eq_true, decide_eq_true_iff]
  rfl

/-- Everything the WATCHDOG write can do (R231). -/
theorem State.writeWatchdog_spec (s : State) (v be : Word) :
    (s.writeWatchdog v be).wakeCountdown = s.wakeCountdown ∧
      (∀ b, (s.writeWatchdog v be).bit .watchdog b =
        (!(s.intfWritten v be && decide (b = bitOf s .wdtIntf)) && (s.restartWatchdog v be).bit .watchdog b)) ∧
      ∀ b, (s.writeWatchdog v be).bit .ipr b =
        (s.bit .ipr b && !(decide (b = (s.source .watchdog).bit.val) && s.intfWritten v be)) := by
  have hrestart := s.restartWatchdog_touchesOnly v be
  cases h : s.intfWritten v be with
  | false =>
    rw [State.writeWatchdog_of_not_written h]
    exact ⟨rfl, fun b => by simp, fun b => by simp [hrestart.bit (q := .ipr) (by decide)]⟩
  | true =>
    have hintf := (s.restartWatchdog v be).setField_touchesOnly .wdtIntf 0
    rw [State.writeWatchdog_of_written h]
    refine ⟨(State.clearSource_spec _ _).2.2.2, fun b => ?_, fun b => ?_⟩
    · rw [(State.clearSource_spec _ _).1.bit (by decide)]
      refine (State.getLsbD_reg_clearField _ (f := .wdtIntf) rfl b).trans ?_
      rw [RegMap.getLsbD_mask_flag _ rfl fun _ => rfl, Bool.true_and]
      rfl
    · rw [State.bit_ipr_clearSource, hintf.bit (by decide), hrestart.bit (by decide), Bool.and_true]

/-- INTF has another bit than EN and ISEL. -/
theorem bitOf_intf_ne (s : State) : bitOf s .wdtIntf ≠ bitOf s .wdtEn ∧ bitOf s .wdtIntf ≠ bitOf s .wdtIsel := by
  have hintf := s.params.regMap.len_flag (f := .wdtIntf) rfl fun _ => rfl
  have hen := s.params.regMap.fields_apart (f := .wdtIntf) (g := .wdtEn) rfl rfl (by decide) rfl
  have hisel := s.params.regMap.fields_apart (f := .wdtIntf) (g := .wdtIsel) rfl rfl (by decide) rfl
  rw [hintf, s.params.regMap.len_flag (f := .wdtEn) rfl fun _ => rfl] at hen
  rw [hintf, s.params.regMap.len_flag (f := .wdtIsel) rfl fun _ => rfl] at hisel
  unfold bitOf
  omega

/-- Bits of the value outside the byte enables do not matter to a WATCHDOG write (R231). -/
theorem State.writeWatchdog_and_enable (s : State) (v be : Word) :
    s.writeWatchdog (v &&& be) be = s.writeWatchdog v be := by
  simp only [State.writeWatchdog_eq, State.restartWatchdog, State.maskedWrite, mergeBits_and_enable, BitVec.and_assoc,
    BitVec.and_self]

/-- WATCHDOG after a write to it, bit by bit (R231). -/
theorem State.bit_writeWatchdog (s : State) (v be : Word) (b : Nat) :
    (s.writeWatchdog v be).bit .watchdog b =
      if (s.params.regMap.mask .wdtCntr).getLsbD b then false
      else if be.getLsbD b then
        if b = bitOf s .wdtEn ∨ b = bitOf s .wdtIsel then v.getLsbD b
        else if b = bitOf s .wdtIntf then s.bit .watchdog b && !v.getLsbD b
        else s.bit .watchdog b
      else s.bit .watchdog b := by
  obtain ⟨-, hbits, -⟩ := s.writeWatchdog_spec v be
  obtain ⟨hen, hisel⟩ := bitOf_intf_ne s
  rw [hbits, State.bit_restartWatchdog, State.intfWritten]
  cases (s.params.regMap.mask .wdtCntr).getLsbD b with
  | true => simp
  | false =>
    by_cases hintf : b = bitOf s .wdtIntf
    · subst hintf
      cases hbe : be.getLsbD (bitOf s .wdtIntf) <;> simp [hbe, hen, hisel, Bool.and_comm]
    · cases hbe : be.getLsbD b <;> simp [hintf]

/-! The paths of a TICK -/

/-- A TICK after its once-per-second path, where that does not abort it: on a second boundary the RTC and then the watchdog
have run (R260, R261). -/
def State.secondDone (s : State) : State :=
  if s.secondBoundary then s.countTick.rtcSecond.watchdogSecond else s.countTick

theorem State.secondDone_of_boundary {s : State} (hb : Boundary s) :
    s.secondDone = s.countTick.rtcSecond.watchdogSecond := if_pos (beq_iff_eq.2 hb)

theorem State.secondDone_of_not_boundary {s : State} (hb : ¬Boundary s) : s.secondDone = s.countTick :=
  if_neg (mt beq_iff_eq.1 hb)

theorem State.rtcSecond_of_enabled {s : State} (h : s.flag .rtcEn = true) :
    s.rtcSecond = (s.setTimeOfDay s.nextTime).latchRtc s.timeEvents .rtcSecond := if_pos h

theorem State.rtcSecond_of_disabled {s : State} (h : s.flag .rtcEn = false) : s.rtcSecond = s :=
  if_neg (Bool.eq_false_iff.1 h)

theorem State.tick_of_aborts {s : State} (ha : Aborts s) : s.tick = s.countTick.rtcSecond.emit .systemReset := by
  obtain ⟨hb, hr⟩ := s.aborts_iff.1 ha
  simp [State.tick, hb, hr]

theorem State.tick_of_not_aborts {s : State} (ha : ¬Aborts s) : s.tick = s.secondDone.tickTail := by
  rw [s.aborts_iff] at ha
  unfold State.tick State.secondDone
  cases hb : s.secondBoundary with
  | false => rfl
  | true =>
    have hr : s.countTick.rtcSecond.watchdogResets = false := Bool.eq_false_iff.2 fun hr => ha ⟨hb, hr⟩
    simp [hr]

/-- The once-per-second path runs the parts of its two owners, or raises nothing (R221). -/
theorem State.secondDone_path {s : State} (ha : ¬Aborts s) : TickPath s [.watchdog, .rtcSecond] s.secondDone := by
  by_cases hb : Boundary s
  · rw [State.secondDone_of_boundary hb]
    exact (TickPath.rtc hb).watchdog hb ha
  · rw [State.secondDone_of_not_boundary hb]
    refine ((TickPath.start s).skip fun h => ?_).skip fun h => ?_
    · obtain ⟨n, hev, -⟩ := (tickRaises_rtcSecond s).1 h
      exact hb hev.1.1
    · exact hb ((tickRaises_watchdog s).1 h).1.1

/-- The registers that the rest of a TICK may store into (R261). -/
def tickTailRegs : List Reg := [.rtcisr, .ipr, .isr, .tcn1, .tcn2, .tstat1, .tstat2, .pllcr]

theorem State.checkInterrupts_regKept (s : State) (q : Reg) : RegKept q s s.checkInterrupts := ⟨rfl, rfl⟩

theorem State.tickTail_regKept (s : State) {q : Reg} (hq : q ∉ tickTailRegs) : RegKept q s s.tickTail := by
  have part : ∀ rs : List Reg, (∀ r ∈ rs, r ∈ tickTailRegs) → q ∉ rs := fun rs hrs h => hq (hrs q h)
  have ladder : RegKept q s s.rtiLadder := (s.latchRtc_spec _ .ladder).1.regKept (part _ (by decide))
  have timer : ∀ u n, RegKept q u (State.timerTick u n) := fun u n =>
    (u.timerTick_spec n).2.1.regKept (part _ (by cases n <;> decide))
  have body : RegKept q s s.tickBody := ((ladder.trans (timer _ .t1)).trans (timer _ .t2)).trans
    ((State.pllWakeStep_spec _).1.regKept (part _ (by decide)))
  exact body.trans (State.checkInterrupts_regKept _ q)

/-! What a TICK can change -/

/-- The registers that a TICK may store into (R261). -/
def tickStores : List Reg :=
  [.rtctime, .dayr, .rtcisr, .watchdog, .ipr, .isr, .tcn1, .tcn2, .tstat1, .tstat2, .pllcr]

/-- `t` is `s` but for what a TICK may change (R261 to R263). -/
def TickTouches (s t : State) : Prop :=
  SameBytesBut s.params.regMap tickStores s.rf t.rf ∧
    t = { s with
      rf := t.rf, wakeCountdown := t.wakeCountdown, timerAcc1 := t.timerAcc1, timerAcc2 := t.timerAcc2,
      tickCounter := t.tickCounter, cpuIpl := t.cpuIpl, events := t.events }

theorem TickTouches.trans {s t u : State} (h : TickTouches s t) (g : TickTouches t u) : TickTouches s u := by
  obtain ⟨hbytes, hrest⟩ := h
  obtain ⟨gbytes, grest⟩ := g
  rw [hrest] at gbytes grest
  exact ⟨hbytes.trans gbytes, grest⟩

theorem TouchesOnly.tickTouches {rs : List Reg} {s t : State} (h : TouchesOnly rs s t)
    (hrs : ∀ r ∈ rs, r ∈ tickStores) : TickTouches s t := by
  refine ⟨h.1.mono hrs, ?_⟩
  rw [h.2]

theorem State.timerTick_tickTouches (s : State) (n : TimerId) : TickTouches s (s.timerTick n) := by
  obtain ⟨⟨u, hu, e⟩, -⟩ := s.timerTick_spec n
  rw [e]
  refine (hu.tickTouches (by cases n <;> decide)).trans ?_
  cases n <;> exact ⟨.refl _ _ _, rfl⟩

theorem State.tick_touches (s : State) : TickTouches s s.tick :=
  State.tick_keeps (P := TickTouches s)
    (count := fun _ h => h.trans ⟨.refl _ _ _, rfl⟩)
    (time := fun u d h => h.trans ((u.setTimeOfDay_spec d).1.tickTouches (by decide)))
    (latch := fun u bits o h => h.trans ((u.latchRtc_spec bits o).1.tickTouches (by decide)))
    (watchdog := fun u h => h.trans (u.watchdogSecond_spec.1.tickTouches (by decide)))
    (timer := fun u n h => h.trans (u.timerTick_tickTouches n))
    (pll := fun u h => h.trans (u.pllWakeStep_spec.1.tickTouches (by decide)))
    (check := fun _ h => h.trans ⟨.refl _ _ _, rfl⟩)
    (abort := fun _ h => h.trans ⟨.refl _ _ _, rfl⟩) ⟨.refl _ _ _, rfl⟩

theorem TouchesOnly.tickCounter {rs : List Reg} {s t : State} (h : TouchesOnly rs s t) :
    t.tickCounter = s.tickCounter := by
  rw [h.2]

theorem State.params_tick (s : State) : s.tick.params = s.params := by
  rw [s.tick_touches.2]

/-- No part of a TICK but its start steps the counter (R221). -/
theorem State.tickCounter_tickTail (s : State) : s.tickTail.tickCounter = s.tickCounter := by
  have timer : ∀ u n, (State.timerTick u n).tickCounter = u.tickCounter := fun u n => by
    obtain ⟨⟨w, hw, e⟩, -⟩ := u.timerTick_spec n
    rw [e, State.tickCounter_setTimerAcc, hw.tickCounter]
  rw [State.tickTail, State.tickCounter_checkInterrupts, (State.pllWakeStep_spec _).1.tickCounter, timer, timer,
    State.rtiLadder, (State.latchRtc_spec _ _ _).1.tickCounter]

theorem State.tickCounter_tick (s : State) : s.tick.tickCounter = nextCounter s := by
  by_cases ha : Aborts s
  · rw [State.tick_of_aborts ha]
    exact (TickPath.rtc ha.1.1).counter
  · rw [State.tick_of_not_aborts ha, State.tickCounter_tickTail, (State.secondDone_path ha).counter]

theorem State.secondDone_quiet (s : State) : Quiet s s.secondDone := by
  have count : Quiet s s.countTick := ⟨rfl, rfl⟩
  unfold State.secondDone
  split
  · exact (count.trans s.countTick.rtcSecond_touchesOnly.quiet).trans (State.watchdogSecond_spec _).1.quiet
  · exact count

theorem State.tick_delivered {s : State} (ha : ¬Aborts s) (hs : s.events = []) : Delivered s.tick := by
  rw [State.tick_of_not_aborts ha, State.tickTail_eq]
  exact State.delivered_checkInterrupts ((s.secondDone_quiet.trans s.secondDone.tickBody_quiet).1.trans hs)

theorem TickTouches.bytesKept {s t : State} (h : TickTouches s t) : BytesKept tickStores s t :=
  TouchesOnly.bytesKept (t := { s with rf := t.rf }) ⟨h.1, rfl⟩

/-! The time of day -/

/-- A time field after a second, as a field of `w` bits holds it (R223, R225). -/
theorem fieldNext_mod {limit v w : Nat} {c : Bool} {carry roll : Prop} (hc : c = true ↔ carry)
    (hr : fieldRolls limit v c = true ↔ roll) (hv : v < 2 ^ w) :
    (roll → fieldNext limit v c % 2 ^ w = 0) ∧
      (¬roll → carry → fieldNext limit v c % 2 ^ w = (v + 1) % 2 ^ w) ∧
      (¬roll → ¬carry → fieldNext limit v c % 2 ^ w = v) := by
  obtain ⟨hrolls, hcounts⟩ := fieldNext_spec limit v c
  refine ⟨fun h => ?_, fun h hcarry => ?_, fun h hcarry => ?_⟩
  · rw [hrolls (hr.2 h), Nat.zero_mod]
  · rw [hcounts (Bool.eq_false_iff.2 (mt hr.1 h)), hc.2 hcarry, Bool.toNat_true]
  · rw [hcounts (Bool.eq_false_iff.2 (mt hr.1 h)), Bool.eq_false_iff.2 (mt hc.1 hcarry), Bool.toNat_false, Nat.add_zero,
      Nat.mod_eq_of_lt hv]

/-- The stored next second is the time of day after a TICK in which the RTC counts (R223, R225). -/
theorem State.timeOfDayAfter_nextTime {s : State} (hruns : RtcRuns s) : TimeOfDayAfter s (s.setTimeOfDay s.nextTime) := by
  obtain ⟨-, -, days, hours, minutes, seconds, time, day⟩ := s.setTimeOfDay_spec s.nextTime
  rw [masks_timeFields] at time
  obtain ⟨s0, s1, -⟩ := fieldNext_mod (c := true) (carry := True) (by simp) s.secondsRoll_iff (s.field_lt .seconds)
  obtain ⟨m0, m1, m2⟩ := fieldNext_mod s.secondsRoll_iff s.minutesRoll_iff (s.field_lt .minutes)
  obtain ⟨h0, h1, h2⟩ := fieldNext_mod s.minutesRoll_iff s.hoursRoll_iff (s.field_lt .hours)
  refine ⟨fun h => absurd hruns h, fun _ => ⟨fun h => seconds.trans (s0 h), fun h => seconds.trans (s1 h trivial),
    fun h => minutes.trans (m0 h), fun h hc => minutes.trans (m1 h hc), fun h hc => minutes.trans (m2 h hc),
    fun h => hours.trans (h0 h), fun h hc => hours.trans (h1 h hc), fun h hc => hours.trans (h2 h hc),
    fun h => ?_, fun h => ?_, time, day⟩⟩
  · rw [days, State.nextTime, TimeOfDay.next, if_pos (s.hoursRoll_iff.2 h), Nat.mod_mod]
    rfl
  · rw [days, State.nextTime, TimeOfDay.next, if_neg (mt s.hoursRoll_iff.1 h)]
    exact Nat.mod_eq_of_lt (s.field_lt .days)

theorem State.timeOfDayAfter_self {s : State} (hstops : ¬RtcRuns s) : TimeOfDayAfter s s :=
  ⟨fun _ => ⟨rfl, rfl⟩, fun h => absurd h hstops⟩

/-- The time of day is a function of RTCTIME and DAYR (R220). -/
theorem timeOfDayAfter_of_regKept {s t u : State} (h : TimeOfDayAfter s t) (htime : RegKept .rtctime t u)
    (hday : RegKept .dayr t u) : TimeOfDayAfter s u := by
  unfold TimeOfDayAfter at h ⊢
  rwa [State.field_congr (f := .seconds) htime.1 htime.2, State.field_congr (f := .minutes) htime.1 htime.2,
    State.field_congr (f := .hours) htime.1 htime.2, State.field_congr (f := .days) hday.1 hday.2, htime.2, hday.2]

/-- The RTC's second leaves the time of day of the TICK (R223). -/
theorem State.timeOfDayAfter_rtcSecond {s : State} (hb : Boundary s) : TimeOfDayAfter s s.countTick.rtcSecond := by
  cases hen : s.flag .rtcEn with
  | true =>
    have hruns : RtcRuns s := ⟨hb, (s.flag_eq_true _).1 hen⟩
    rw [State.rtcSecond_of_enabled (s := s.countTick) hen]
    have stored : TimeOfDayAfter s (s.countTick.setTimeOfDay s.countTick.nextTime) :=
      State.timeOfDayAfter_nextTime hruns
    have latch := ((s.countTick.setTimeOfDay s.countTick.nextTime).latchRtc_spec s.countTick.timeEvents .rtcSecond).1
    exact timeOfDayAfter_of_regKept stored (latch.regKept (by decide)) (latch.regKept (by decide))
  | false =>
    have hstops : ¬RtcRuns s := fun hruns => Bool.eq_false_iff.1 hen ((s.flag_eq_true _).2 hruns.2)
    rw [State.rtcSecond_of_disabled (s := s.countTick) hen]
    exact State.timeOfDayAfter_self hstops

theorem State.timeOfDayAfter_tick (s : State) : TimeOfDayAfter s s.tick := by
  have rest : ∀ t, TimeOfDayAfter s t → TimeOfDayAfter s t.tickTail := fun t ht =>
    timeOfDayAfter_of_regKept ht (t.tickTail_regKept (by decide)) (t.tickTail_regKept (by decide))
  by_cases ha : Aborts s
  · rw [State.tick_of_aborts ha]
    exact State.timeOfDayAfter_rtcSecond ha.1.1
  · rw [State.tick_of_not_aborts ha]
    by_cases hb : Boundary s
    · have watchdog := s.countTick.rtcSecond.watchdogSecond_spec.1
      rw [State.secondDone_of_boundary hb]
      exact rest _ (timeOfDayAfter_of_regKept (State.timeOfDayAfter_rtcSecond hb) (watchdog.regKept (by decide))
        (watchdog.regKept (by decide)))
    · rw [State.secondDone_of_not_boundary hb]
      exact rest _ (State.timeOfDayAfter_self fun hruns => hb hruns.1)

/-! RTCISR in a TICK -/

/-- The bits that a part of a TICK latches in RTCISR (R224, R226). -/
theorem State.bit_rtcisr_latchRtc (s : State) (bits : Word) (o : Owner) (b : Nat) :
    (s.latchRtc bits o).bit .rtcisr b = true ↔
      s.bit .rtcisr b = true ∨ (bits.getLsbD b = true ∧ s.bit .rtcienr b = true) := by
  rw [State.bit, (s.latchRtc_spec bits o).2.2, BitVec.getLsbD_or, BitVec.getLsbD_and, Bool.or_eq_true, Bool.and_eq_true]
  rfl

/-- The RTC's second latches its enabled events (R224). -/
theorem State.bit_rtcisr_rtcSecond {s : State} (hb : Boundary s) (b : Nat) :
    s.countTick.rtcSecond.bit .rtcisr b = true ↔
      s.bit .rtcisr b = true ∨ (SecondEvent s b ∧ s.bit .rtcienr b = true) := by
  rw [s.secondEvent_iff, RtcRuns, and_iff_right hb, ← s.flag_eq_true]
  cases hen : s.flag .rtcEn with
  | true =>
    have time := (s.countTick.setTimeOfDay_spec s.countTick.nextTime).1
    rw [State.rtcSecond_of_enabled (s := s.countTick) hen, State.bit_rtcisr_latchRtc, time.bit (by decide),
      time.bit (by decide), and_iff_right rfl]
    rfl
  | false =>
    rw [State.rtcSecond_of_disabled (s := s.countTick) hen]
    simp only [Bool.false_eq_true, false_and, or_false]
    rfl

/-- Without a second boundary there is no second event, and the watchdog leaves RTCISR (R224). -/
theorem State.bit_rtcisr_secondDone {s : State} (b : Nat) :
    s.secondDone.bit .rtcisr b = true ↔
      s.bit .rtcisr b = true ∨ (SecondEvent s b ∧ s.bit .rtcienr b = true) := by
  by_cases hb : Boundary s
  · rw [State.secondDone_of_boundary hb, (State.watchdogSecond_spec _).1.bit (by decide), State.bit_rtcisr_rtcSecond hb]
  · have hnone : ¬SecondEvent s b := fun h => hb h.1.1
    rw [State.secondDone_of_not_boundary hb]
    simp only [hnone, false_and, or_false]
    rfl

/-- The rest of a TICK latches the enabled ladder members of the count (R226). -/
theorem State.bit_rtcisr_tickTail (s : State) (b : Nat) :
    s.tickTail.bit .rtcisr b = true ↔
      s.bit .rtcisr b = true ∨
        ((s.params.regMap.ladderFired s.tickCounter).getLsbD b = true ∧ s.bit .rtcienr b = true) := by
  have timer : ∀ u n, (State.timerTick u n).bit .rtcisr b = u.bit .rtcisr b := fun u n => by
    rw [State.bit, (u.timerTick_spec n).2.1.reg (by cases n <;> decide)]
    rfl
  rw [State.tickTail, State.bit_checkInterrupts, (State.pllWakeStep_spec _).1.bit (by decide), timer, timer,
    State.rtiLadder, State.bit_rtcisr_latchRtc]

/-- RTCISR after a TICK that is not aborted. -/
theorem State.bit_rtcisr_tick {s : State} (ha : ¬Aborts s) (b : Nat) :
    s.tick.bit .rtcisr b = true ↔
      s.bit .rtcisr b = true ∨ ((SecondEvent s b ∨ LadderEvent s b) ∧ s.bit .rtcienr b = true) := by
  have path := State.secondDone_path ha
  have enabled : s.secondDone.bit .rtcienr b = s.bit .rtcienr b :=
    congrArg (fun w : Word => w.getLsbD b) (path.reg .rtcienr (by decide) (by decide) (by decide))
  rw [State.tick_of_not_aborts ha, State.bit_rtcisr_tickTail, State.bit_rtcisr_secondDone,
    RegMap.getLsbD_ladderFired, path.params, path.counter, enabled, or_and_right, or_assoc]
  rfl

/-! WATCHDOG in a TICK -/

/-- The watchdog's second where it is enabled: the stepped value, with INTF on expiry (R233, R234). -/
theorem State.reg_watchdog_watchdogSecond {s : State} (h : s.flag .wdtEn = true) :
    s.watchdogSecond.reg .watchdog =
      (s.watchdogValue.setWidth 32 &&& s.params.regMap.fullMask .watchdog) |||
        if s.watchdogExpires then s.params.regMap.mask .wdtIntf else 0 := by
  obtain ⟨-, -, hbits⟩ := s.watchdogSecond_spec
  have hlo := s.params.regMap.lo_flag (f := .wdtIntf) rfl fun _ => rfl
  refine BitVec.eq_of_getLsbD_eq fun b hlt => (hbits b).trans ?_
  rw [if_pos h, BitVec.getLsbD_or, BitVec.getLsbD_and, BitVec.getLsbD_setWidth, RegTable.fullMask, getLsbD_fieldMask,
    apply_ite (fun w : Word => w.getLsbD b), RegMap.getLsbD_mask_flag _ rfl fun _ => rfl]
  have hwidth : s.params.regMap.lo .wdtIntf < 8 * s.params.regMap.bytes .watchdog := hlo
  by_cases hb : b = s.params.regMap.lo .wdtIntf
  · subst hb
    cases s.watchdogExpires <;> simp [hlt, hwidth]
  · simp [hb, hlt, Bool.and_comm]

theorem State.watchdogSecond_of_disabled {s : State} (h : s.flag .wdtEn = false) : s.watchdogSecond = s := by
  rw [State.watchdogSecond_eq, h, if_neg (by decide)]

theorem State.watchdogExpires_iff (s : State) :
    s.watchdogExpires = true ↔ watchdogStepped s &&& s.params.wdt.expiry ≠ 0 := bne_iff_ne

/-- The watchdog's second depends on WATCHDOG alone (R233). -/
theorem RegKept.watchdogValue {s t : State} (h : RegKept .watchdog s t) :
    t.watchdogValue = s.watchdogValue ∧ t.watchdogExpires = s.watchdogExpires := by
  obtain ⟨hp, hreg⟩ := h
  simp only [State.watchdogExpires, State.watchdogValue, hp, hreg, and_self]

/-- The RTC's second leaves WATCHDOG and its fields. -/
theorem State.rtcSecond_watchdogKept (s : State) :
    RegKept .watchdog s s.countTick.rtcSecond ∧ s.countTick.rtcSecond.flag .wdtEn = s.flag .wdtEn := by
  have kept : RegKept .watchdog s s.countTick.rtcSecond :=
    RegKept.trans ⟨rfl, rfl⟩ (s.countTick.rtcSecond_touchesOnly.regKept (by decide))
  exact ⟨kept, State.flag_congr (State.field_congr kept.1 kept.2)⟩

/-- A TICK that is not aborted stores what the watchdog's second of its boundary does (R233). -/
theorem State.reg_watchdog_tick {s : State} (ha : ¬Aborts s) :
    s.tick.reg .watchdog = s.secondDone.reg .watchdog := by
  rw [State.tick_of_not_aborts ha, (s.secondDone.tickTail_regKept (by decide)).2]

/-- Without a second boundary, or with the watchdog disabled, WATCHDOG is as before (R233). -/
theorem State.reg_watchdog_tick_idle {s : State} (ha : ¬Aborts s) (hidle : ¬(Boundary s ∧ s.field .wdtEn = 1)) :
    s.tick.reg .watchdog = s.reg .watchdog := by
  rw [State.reg_watchdog_tick ha]
  by_cases hb : Boundary s
  · obtain ⟨kept, hen⟩ := s.rtcSecond_watchdogKept
    have hoff : s.flag .wdtEn = false := Bool.eq_false_iff.2 fun h => hidle ⟨hb, (s.flag_eq_true _).1 h⟩
    rw [State.secondDone_of_boundary hb, State.watchdogSecond_of_disabled (hen.trans hoff), kept.2]
  · rw [State.secondDone_of_not_boundary hb]
    rfl

/-- On a second boundary an enabled watchdog stores its stepped value, with INTF on expiry (R233, R234). -/
theorem State.reg_watchdog_tick_step {s : State} (ha : ¬Aborts s) (hb : Boundary s) (hen : s.field .wdtEn = 1) :
    s.tick.reg .watchdog =
      (s.watchdogValue.setWidth 32 &&& s.params.regMap.fullMask .watchdog) |||
        if s.watchdogExpires then s.params.regMap.mask .wdtIntf else 0 := by
  obtain ⟨kept, hkept⟩ := s.rtcSecond_watchdogKept
  obtain ⟨hvalue, hexpires⟩ := kept.watchdogValue
  rw [State.reg_watchdog_tick ha, State.secondDone_of_boundary hb,
    State.reg_watchdog_watchdogSecond (hkept.trans ((s.flag_eq_true _).2 hen)), hvalue, hexpires, kept.1]

/-! WATCHDOG under the default map and constants -/

/-- A two-bit field is its two bits. -/
theorem getBits_two (v : Word) (lo : Nat) :
    getBits v lo 2 = (v.getLsbD lo).toNat + 2 * (v.getLsbD (lo + 1)).toNat := by
  have h0 : v.getLsbD lo = (v >>> lo).toNat.testBit 0 := by simp [BitVec.getLsbD]
  have h1 : v.getLsbD (lo + 1) = (v >>> lo).toNat.testBit 1 := by simp [BitVec.getLsbD]
  rw [getBits, h0, h1, Nat.toNat_testBit, Nat.toNat_testBit]
  omega

/-- The fields of WATCHDOG under the default map (R27). -/
theorem State.watchdogFields_default {s : State} (hmap : s.params.regMap = .default) :
    s.field .wdtEn = (s.bit .watchdog 0).toNat ∧ s.field .wdtIsel = (s.bit .watchdog 1).toNat ∧
      s.field .wdtCntr = (s.bit .watchdog 8).toNat + 2 * (s.bit .watchdog 9).toNat := by
  have lo : RegMap.default.lo .wdtEn = 0 ∧ RegMap.default.lo .wdtIsel = 1 ∧ RegMap.default.lo .wdtCntr = 8 := by
    decide +kernel
  have len : RegMap.default.len .wdtEn = 1 ∧ RegMap.default.len .wdtIsel = 1 ∧ RegMap.default.len .wdtCntr = 2 := by
    decide +kernel
  obtain ⟨lo0, lo1, lo8⟩ := lo
  obtain ⟨len0, len1, len8⟩ := len
  simp only [State.field_eq, hmap, lo0, lo1, lo8, len0, len1, len8, getBits_one, getBits_two, Field.reg, State.bit,
    and_self]

/-- The default watchdog expires where its count goes to 2 or 3 (R233). -/
theorem State.watchdogExpires_default {s : State} (hwdt : s.params.wdt = Params.default.wdt)
    (hmap : s.params.regMap = .default) :
    s.watchdogExpires = true ↔ s.field .wdtCntr = 1 ∨ s.field .wdtCntr = 2 := by
  rw [s.watchdogExpires_eq hwdt, (State.watchdogFields_default hmap).2.2]
  cases s.bit .watchdog 8 <;> cases s.bit .watchdog 9 <;> simp

/-- WATCHDOG after a TICK that steps the default watchdog, bit by bit (R233, R234). -/
theorem State.bit_watchdog_tick_default {s : State} (ha : ¬Aborts s) (hb : Boundary s) (hen : s.field .wdtEn = 1)
    (hwdt : s.params.wdt = Params.default.wdt) (hmap : s.params.regMap = .default) (b : Nat) :
    s.tick.bit .watchdog b =
      if b = 8 then !s.bit .watchdog 8
      else if b = 9 then s.bit .watchdog 9 != s.bit .watchdog 8
      else (s.bit .watchdog b && decide (b = 0 ∨ b = 1 ∨ b = 7)) || (decide (b = 7) && s.watchdogExpires) := by
  have hbytes : RegMap.default.bytes .watchdog = 2 := by decide +kernel
  have hlo : RegMap.default.lo .wdtIntf = 7 := by decide +kernel
  have hvalue := s.getLsbD_watchdogValue hwdt b
  have hfull : (s.params.regMap.fullMask .watchdog).getLsbD b = decide (b < 16) := by
    rw [hmap, RegTable.fullMask, hbytes, getLsbD_fieldMask, Bool.eq_iff_iff]
    simp only [Bool.and_eq_true, decide_eq_true_iff]
    omega
  rw [State.bit, State.reg_watchdog_tick_step ha hb hen, BitVec.getLsbD_or, BitVec.getLsbD_and, hfull,
    BitVec.getLsbD_setWidth, hvalue, apply_ite (fun w : Word => w.getLsbD b),
    RegMap.getLsbD_mask_flag _ rfl fun _ => rfl, hmap, hlo]
  by_cases h8 : b = 8
  · subst h8
    simp
  · by_cases h9 : b = 9
    · subst h9
      simp
    · simp only [h8, h9, if_false]
      by_cases hlow : b = 0 ∨ b = 1 ∨ b = 7
      · have hlt : b < 16 ∧ b < 32 := by omega
        simp [hlow, hlt, Bool.and_comm]
      · have h7 : b ≠ 7 := fun h => hlow (.inr (.inr h))
        rw [decide_eq_false hlow, decide_eq_false h7]
        simp

/-- The count after a TICK that steps the default watchdog (R233). -/
theorem State.field_wdtCntr_tick_default {s : State} (ha : ¬Aborts s) (hb : Boundary s) (hen : s.field .wdtEn = 1)
    (hwdt : s.params.wdt = Params.default.wdt) (hmap : s.params.regMap = .default) :
    s.tick.field .wdtCntr = (s.field .wdtCntr + 1) % 4 := by
  obtain ⟨-, -, before⟩ := State.watchdogFields_default hmap
  obtain ⟨-, -, after⟩ := State.watchdogFields_default (s.params_tick ▸ hmap)
  have hbit := State.bit_watchdog_tick_default ha hb hen hwdt hmap
  rw [before, after, hbit 8, hbit 9]
  cases s.bit .watchdog 8 <;> cases s.bit .watchdog 9 <;> simp

/-! A watchdog in reset mode -/

theorem nextCounter_of_boundary {s : State} (hb : Boundary s) : nextCounter s = 0 := if_pos hb

theorem nextCounter_of_not_boundary {s : State} (hb : ¬Boundary s) : nextCounter s = s.tickCounter + 1 := if_neg hb

/-- A watchdog with the default constants and map is enabled in reset mode, `c` ticks after a second boundary and at
count `n`. -/
structure ResetWatchdog (s : State) (c n : Nat) : Prop where
  wdt : s.params.wdt = Params.default.wdt
  map : s.params.regMap = .default
  ticks : s.tickCounter = c
  enabled : s.field .wdtEn = 1
  reset : s.field .wdtIsel = 0
  count : s.field .wdtCntr = n

theorem ResetWatchdog.startOp {s : State} {c n : Nat} (h : ResetWatchdog s c n) : ResetWatchdog s.startOp c n :=
  ⟨h.wdt, h.map, h.ticks, h.enabled, h.reset, h.count⟩

/-- It aborts the TICK of a second boundary at count 1 or 2 (R233, R235). -/
theorem ResetWatchdog.aborts_iff {s : State} {c n : Nat} (h : ResetWatchdog s c n) :
    Aborts s ↔ c = 32767 ∧ (n = 1 ∨ n = 2) := by
  have hb : Boundary s ↔ c = 32767 := by
    rw [Boundary, h.ticks]
    omega
  rw [Aborts, WatchdogExpires, and_iff_right h.enabled, and_iff_left h.reset, hb, ← s.watchdogExpires_iff,
    State.watchdogExpires_default h.wdt h.map, h.count]

/-- Before a second boundary a TICK only counts (R221). -/
theorem ResetWatchdog.tick {s : State} {c n : Nat} (h : ResetWatchdog s c n) (hc : c < 32767) :
    ResetWatchdog s.tick (c + 1) n := by
  have hb : ¬Boundary s := by
    rw [Boundary, h.ticks]
    omega
  have hreg := State.reg_watchdog_tick_idle (fun ha => hb ha.1.1) fun hstep => hb hstep.1
  have kept : ∀ f : Field, f.reg = .watchdog → s.tick.field f = s.field f := fun f hf =>
    State.field_congr s.params_tick (hf ▸ hreg)
  refine ⟨s.params_tick ▸ h.wdt, s.params_tick ▸ h.map, ?_, (kept _ rfl).trans h.enabled, (kept _ rfl).trans h.reset,
    (kept _ rfl).trans h.count⟩
  rw [s.tickCounter_tick, nextCounter_of_not_boundary hb, h.ticks]

/-- The first second boundary takes the count from 0 to 1 (R233). -/
theorem ResetWatchdog.second {s : State} (h : ResetWatchdog s 32767 0) : ResetWatchdog s.tick 0 1 := by
  have hb : Boundary s := by rw [Boundary, h.ticks]
  have ha : ¬Aborts s := by simp [h.aborts_iff]
  have hmap : s.tick.params.regMap = .default := s.params_tick ▸ h.map
  have hbit := State.bit_watchdog_tick_default ha hb h.enabled h.wdt h.map
  obtain ⟨en, isel, -⟩ := State.watchdogFields_default h.map
  obtain ⟨en', isel', -⟩ := State.watchdogFields_default hmap
  refine ⟨s.params_tick ▸ h.wdt, hmap, ?_, ?_, ?_, ?_⟩
  · rw [s.tickCounter_tick, nextCounter_of_boundary hb]
  · rw [en', hbit, ← h.enabled, en]
    simp
  · rw [isel', hbit, ← h.reset, isel]
    simp
  · rw [State.field_wdtCntr_tick_default ha hb h.enabled h.wdt h.map, h.count]

theorem eq_tick_of_exec {s t : State} (h : exec .tick s = .next t) : t = s.startOp.tick := by
  cases h
  rfl

/-- The first 65536 states of a run (R237). -/
theorem resetWatchdog_run {f : Nat → State} (hrun : Ticks f) (h0 : ResetWatchdog (f 0) 0 0) :
    ∀ j < 65536, ResetWatchdog (f j) (j % 32768) (j / 32768) := by
  intro j
  induction j with
  | zero => exact fun _ => h0
  | succ j ih =>
    intro hj
    have h := (ih (by omega)).startOp
    rw [eq_tick_of_exec (hrun j)]
    by_cases hb : j = 32767
    · subst hb
      exact h.second
    · have hlt : j % 32768 < 32767 := by omega
      have hmod : (j + 1) % 32768 = j % 32768 + 1 := by omega
      have hdiv : (j + 1) / 32768 = j / 32768 := by omega
      rw [hmod, hdiv]
      exact h.tick hlt

end Sys2Proof.Machine

namespace Sys2Proof

open Sys2Proof.Machine Sys2Proof.Claims

/-- Settles O26: in range the four fields are stored (`State.setTimeOfDay_spec`), and the range of the days is that of the
field. -/
theorem setRtc : Obligations.SetRtc := by
  intro d h m sec s
  rw [← State.rtcInRange_iff]
  refine ⟨exec_setRtc_outOfRange, fun hin op => ?_, fun hin => ?_⟩
  · obtain ⟨hh, hm, hsec, -⟩ := State.rtcInRange_iff.1 hin
    exact (decode_descriptorOf (.setRtc d h m sec) _).trans (if_pos (timeInRange_iff.2 ⟨hh, hm, hsec⟩))
  · obtain ⟨hh, hm, hsec, hd⟩ := State.rtcInRange_iff.1 hin
    obtain ⟨touches, hwake, days, hours, minutes, seconds, time, day⟩ :=
      s.startOp.setTimeOfDay_spec ⟨d, h, m, sec⟩
    rw [masks_timeFields] at time
    refine ⟨_, exec_setRtc_inRange hin, days.trans (Nat.mod_eq_of_lt hd), hours, minutes, seconds,
      fun hmap => fits_default hmap hh hm hsec, time, day, touches.bytesKept, ?_⟩
    have heq := touches.2
    rw [hwake] at heq
    exact heq

/-- Settles O41: the handler clears the bits written 1, and then the flags of the sources that have none left
(`State.writeRtcisr_spec`). -/
theorem rtcisrWrite : Obligations.RtcisrWrite := by
  intro i s a n v hcons hi hin
  have hexec := exec_of_inside hi hin
  generalize laneValue s .rtcisr a n v = w, laneMask s .rtcisr a n = be at hexec ⊢
  have hisr := (s.startOp.writeHandler_isrKept .rtcisr (w &&& be) be).consistent hcons
  obtain ⟨touches, hwake, hbits, hipr, -⟩ := s.startOp.writeRtcisr_spec (w &&& be) be
  have heq := touches.checkInterrupts_eq
  rw [hwake] at heq
  rw [BitVec.and_assoc, BitVec.and_self] at hbits
  refine ⟨_, hexec, hbits, fun b => ?_, hisr, touches.bytesKept, touches.delivered, heq⟩
  have hrtc := (s.startOp.writeRtcisr (w &&& be) be).rtcBits_ne_zero_iff
  have hladder := (s.startOp.writeRtcisr (w &&& be) be).ladderBits_ne_zero_iff
  rw [touches.params] at hrtc hladder
  rw [State.bit_checkInterrupts, State.writeHandler, hipr]
  simp only [Bool.and_eq_true, Bool.not_eq_true', Bool.and_eq_false_imp, decide_eq_true_iff, decide_eq_false_iff_not,
    and_assoc]
  exact and_congr_right fun _ => and_congr (imp_congr_right fun _ => hrtc) (imp_congr_right fun _ => hladder)

/-- Settles O42: EN and ISEL are stored and the count is restarted, and INTF and WDT's flag are cleared where INTF is written
1 (`State.writeWatchdog_spec`). -/
theorem watchdogWrite : Obligations.WatchdogWrite := by
  intro i s a n v hcons hi hin
  have hexec := exec_of_inside hi hin
  generalize laneValue s .watchdog a n v = w, laneMask s .watchdog a n = be at hexec ⊢
  have hisr := (s.startOp.writeHandler_isrKept .watchdog (w &&& be) be).consistent hcons
  have hhandler : s.startOp.writeHandler .watchdog (w &&& be) be = s.startOp.writeWatchdog w be :=
    s.startOp.writeWatchdog_and_enable w be
  rw [hhandler] at hexec hisr
  have touches := s.startOp.writeWatchdog_touchesOnly w be
  obtain ⟨hwake, -, hipr⟩ := s.startOp.writeWatchdog_spec w be
  have heq := touches.checkInterrupts_eq
  rw [hwake] at heq
  refine ⟨_, hexec, s.startOp.bit_writeWatchdog w be, fun b => ?_, hisr, touches.bytesKept, touches.delivered, heq⟩
  rw [State.bit_checkInterrupts, hipr, Bool.and_eq_true, Bool.not_eq_true', ← Bool.not_eq_true, Bool.and_eq_true,
    decide_eq_true_iff]
  rfl

/-- Settles O48: every part of a TICK touches only what a TICK may change (`State.tick_touches`), only its start steps the
counter (`State.tickCounter_tick`), and no part emits an event before the level's (`State.tick_delivered`). -/
theorem tickFrame : Obligations.TickFrame := by
  intro s
  have touches := s.startOp.tick_touches
  exact ⟨_, rfl, s.startOp.tickCounter_tick, fun ha => State.tick_delivered (s := s.startOp) ha rfl, touches.bytesKept,
    touches.2⟩

/-- Settles O50: the RTC's second stores the next time of day (`State.timeOfDayAfter_nextTime`), and nothing after it stores
into RTCTIME or DAYR. -/
theorem tickTimeOfDay : Obligations.TickTimeOfDay := by
  intro s t h
  cases h
  exact s.startOp.timeOfDayAfter_tick

/-- Settles O51: the RTC's second and the ladder latch their enabled events, and no other part stores into RTCISR
(`State.bit_rtcisr_tick`). -/
theorem tickRtcEvents : Obligations.TickRtcEvents := by
  intro s t ha h b
  cases h
  exact State.bit_rtcisr_tick (s := s.startOp) ha b

/-- Settles O52: the register is that of the watchdog's second (`State.reg_watchdog_tick_step`), read bit by bit under the
default map and constants (`State.bit_watchdog_tick_default`). -/
theorem tickWatchdog : Obligations.TickWatchdog := by
  intro s t ha h
  cases h
  refine ⟨State.reg_watchdog_tick_idle (s := s.startOp) ha, fun ⟨hb, hen⟩ => ?_⟩
  have hreg := State.reg_watchdog_tick_step (s := s.startOp) ha hb hen
  have hexpires : s.startOp.watchdogExpires = true ↔ WatchdogExpires s := by
    rw [State.watchdogExpires_iff, WatchdogExpires, and_iff_right hb, and_iff_right hen]
    rfl
  refine ⟨fun hx => ?_, fun hx => ?_, fun hwdt hmap => ?_⟩
  · rw [hreg, if_pos (hexpires.2 hx)]
    rfl
  · rw [hreg, if_neg (mt hexpires.1 hx)]
    exact BitVec.or_zero
  · have hbits := State.bit_watchdog_tick_default (s := s.startOp) ha hb hen hwdt hmap
    refine ⟨State.field_wdtCntr_tick_default (s := s.startOp) ha hb hen hwdt hmap, ?_, fun b h8 h9 => ?_⟩
    · rw [← hexpires]
      exact State.watchdogExpires_default (s := s.startOp) hwdt hmap
    · rw [hbits b, if_neg h8, if_neg h9, ← hexpires, Bool.or_eq_true, Bool.and_eq_true, Bool.and_eq_true,
        decide_eq_true_iff, decide_eq_true_iff]
      rfl

/-- Settles O57: along the run the watchdog is at count `j / 32768`, `j % 32768` ticks after a boundary (`resetWatchdog_run`), and
it aborts the first boundary TICK at count 1. -/
theorem watchdogRun : Obligations.WatchdogRun := by
  intro f hrun hwdt hmap hticks hen hreset hcount
  have run := resetWatchdog_run hrun ⟨hwdt, hmap, hticks, hen, hreset, hcount⟩
  refine ⟨fun j hpos hj => ?_, ?_⟩
  · obtain ⟨j, rfl⟩ : ∃ i, j = i + 1 := ⟨j - 1, by omega⟩
    have ha : ¬Aborts (f j).startOp := by
      rw [(run j (by omega)).startOp.aborts_iff]
      omega
    rw [eq_tick_of_exec (hrun j), (State.tick_delivered ha rfl).2]
    simp
  · have ha : Aborts (f 65535).startOp := (run 65535 (by decide)).startOp.aborts_iff.2 (by decide)
    rw [eq_tick_of_exec (hrun 65535), State.tick_of_aborts ha, State.events_emit,
      (f 65535).startOp.countTick.rtcSecond_touchesOnly.quiet.1]
    rfl

end Sys2Proof
end

section
/-! PROOFS. The statements of 45_tick: TICK and the board inputs (O21), and an aborted TICK (O49). -/

namespace Sys2Proof.Machine

open Sys2Proof.Claims

/-! The board inputs in a TICK -/

/-- The state with other board inputs (R29). -/
def State.withInputs (s : State) (x : Inputs) : State := { s with inputs := x }

section WithInputs

variable (s : State) (x : Inputs)

theorem State.ite_withInputs (c : Prop) [Decidable c] (t u : State) :
    (if c then t else u).withInputs x = if c then t.withInputs x else u.withInputs x :=
  apply_ite (fun w : State => w.withInputs x) c t u

theorem State.pllWakeIfOff_withInputs : (s.withInputs x).pllWakeIfOff = s.pllWakeIfOff.withInputs x := by
  rw [State.pllWakeIfOff, State.pllWakeIfOff, State.ite_withInputs]
  rfl

/-- What a raise reads is not the inputs (R131). -/
theorem State.raiseSource_withInputs (y : SourceRow) :
    (s.withInputs x).raiseSource y = (s.raiseSource y).withInputs x := by
  rw [State.raiseSource, State.raiseSource, State.ite_withInputs, ← State.pllWakeIfOff_withInputs]
  rfl

theorem State.latchRtc_withInputs (bits : Word) (o : Owner) :
    (s.withInputs x).latchRtc bits o = (s.latchRtc bits o).withInputs x := by
  rw [State.latchRtc_eq, State.latchRtc_eq, State.ite_withInputs, ← State.raiseSource_withInputs]
  rfl

theorem State.rtcSecond_withInputs : (s.withInputs x).rtcSecond = s.rtcSecond.withInputs x := by
  rw [State.rtcSecond, State.rtcSecond, State.ite_withInputs, ← State.latchRtc_withInputs]
  rfl

theorem State.watchdogSecond_withInputs : (s.withInputs x).watchdogSecond = s.watchdogSecond.withInputs x := by
  rw [State.watchdogSecond_eq, State.watchdogSecond_eq, State.ite_withInputs, State.ite_withInputs,
    ← State.raiseSource_withInputs]
  rfl

theorem State.timerMatch_withInputs (n : TimerId) : (s.withInputs x).timerMatch n = (s.timerMatch n).withInputs x := by
  rw [State.timerMatch, State.timerMatch, State.ite_withInputs, ← State.raiseSource_withInputs]
  rfl

theorem State.setTimerAcc_withInputs (n : TimerId) (a : F64) :
    (s.withInputs x).setTimerAcc n a = (s.setTimerAcc n a).withInputs x := by
  cases n <;> rfl

/-- What a timer computes is not of the inputs (R198). -/
theorem State.timerReady_withInputs (n : TimerId) : TimerReady n s (s.withInputs x) where
  params := rfl
  acc := by cases n <;> rfl
  inputs _ _ := rfl
  status := rfl

theorem State.timerTick_withInputs (n : TimerId) : (s.withInputs x).timerTick n = (s.timerTick n).withInputs x := by
  have ready := s.timerReady_withInputs x n
  rw [State.timerTick_eq, State.timerTick_eq, ready.timerSum, ready.timerNew, ready.crosses,
    State.setTimerAcc_withInputs, State.ite_withInputs]
  dsimp only
  rw [State.timerMatch_withInputs, State.ite_withInputs]
  rfl

theorem State.pllWakeStep_withInputs : (s.withInputs x).pllWakeStep = s.pllWakeStep.withInputs x := by
  rw [State.pllWakeStep, State.pllWakeStep, State.ite_withInputs, State.ite_withInputs]
  rfl

theorem State.checkInterrupts_withInputs : (s.withInputs x).checkInterrupts = s.checkInterrupts.withInputs x := rfl

theorem State.tickTail_withInputs : (s.withInputs x).tickTail = s.tickTail.withInputs x := by
  have ladder : (s.withInputs x).rtiLadder = s.rtiLadder.withInputs x := s.latchRtc_withInputs x _ .ladder
  rw [State.tickTail, ladder, State.timerTick_withInputs, State.timerTick_withInputs, State.pllWakeStep_withInputs,
    State.checkInterrupts_withInputs, State.tickTail]

/-- A TICK does the same under any inputs, and keeps them (R264). -/
theorem State.tick_withInputs : (s.withInputs x).tick = s.tick.withInputs x := by
  have count : (s.withInputs x).countTick = s.countTick.withInputs x := rfl
  rw [State.tick, State.tick, count, State.rtcSecond_withInputs, State.tickTail_withInputs, State.ite_withInputs]
  dsimp only
  rw [State.watchdogSecond_withInputs, State.tickTail_withInputs, State.ite_withInputs]
  rfl

end WithInputs

/-! The board inputs in the other operations -/

theorem TouchesOnly.inputs {rs : List Reg} {s t : State} (h : TouchesOnly rs s t) : t.inputs = s.inputs := by
  rw [h.2]

theorem WindowFrame.inputs {P : Reg → Prop} {s t : State} (h : WindowFrame P s t) : t.inputs = s.inputs := by
  rw [h.rest]

theorem TickTouches.inputs {s t : State} (h : TickTouches s t) : t.inputs = s.inputs := by
  rw [h.2]

theorem State.inputs_memReadState (s : State) (a : Word) (n : Nat) : (s.memReadState a n).inputs = s.inputs := by
  obtain ⟨x, y, e⟩ := s.memReadState_eq a n
  rw [e]

theorem State.inputs_memWrite (s : State) (a : Word) (n : Nat) (v : Word) : (s.memWrite a n v).inputs = s.inputs := by
  cases ha : s.reaches a with
  | true =>
    rw [State.memWrite_of_reaches ha]
    exact (s.memWrite_window (a := a) (n := n) v).inputs
  | false => rw [State.memWrite_unreached ha]

/-- RESET_ALL sets everything again but the inputs (R440). -/
theorem State.inputs_resetAll (s : State) : s.resetAll.inputs = s.inputs := by
  rw [State.resetAll, State.inputs_checkInterrupts, (State.evalPortD_spec _).1.inputs]
  rfl

theorem State.inputs_busFault (s : State) (k : FaultKind) : (s.busFault k).inputs = s.inputs := by
  rcases s.busFault_eq k with e | e <;> rw [e]
  · rfl
  · rfl

/-- Only INPUT_CHANGE changes the inputs (R308). -/
theorem Performed.inputs {i : Instr} {s t : State} (h : Performed s i t) (hi : ∀ x, i ≠ .inputChange x) :
    t.inputs = s.inputs := by
  cases h with
  | read v _ => exact s.startOp.inputs_memReadState _ _
  | write _ => exact s.startOp.inputs_memWrite _ _ _
  | tick => exact s.startOp.tick_touches.inputs
  | resetAll => exact s.startOp.inputs_resetAll
  | iack l => rfl
  | query b _ => rfl
  | setRtc => exact (s.startOp.setTimeOfDay_spec _).1.inputs
  | inputChange x => exact absurd rfl (hi x)
  | lowPowerStop => rfl
  | busFault k => exact s.startOp.inputs_busFault k
  | @extIrq _ line x _ => exact (s.startOp.driveSource_spec x line).1.inputs

/-! An aborted TICK -/

/-- The RTC's second raises its own source alone, if one of its events is enabled (R224). -/
theorem State.bit_ipr_rtcSecond {s : State} (hb : Boundary s) (b : Nat) :
    s.countTick.rtcSecond.bit .ipr b = true ↔
      s.bit .ipr b = true ∨ (TickRaises s (s.source .rtcSecond) ∧ (s.source .rtcSecond).bit.val = b) := by
  have raised : PendingRaised s [.rtcSecond] s.countTick.rtcSecond :=
    (PendingRaised.start s).part rfl s.countTick.rtcSecond_part (State.rtcSecond_raised_iff hb)
  rw [raised b]
  simp only [List.mem_singleton, exists_eq_left]

/-- The row that has the bit of a rule's source is the one that the rule owns (R28). -/
theorem State.source_bit_eq_iff (s : State) {x : SourceRow} (hx : x ∈ s.params.sources.rows) {o : Owner}
    (ho : o ≠ .external) : (s.source o).bit.val = x.bit.val ↔ x.owner = o := by
  constructor
  · intro h
    rw [← s.params.sources.row_inj (s.source_mem ho) hx (.inl (Fin.ext h))]
    exact s.source_owner ho
  · rintro rfl
    rw [s.source_eq hx ho]

/-- The pending flags after the RTC's second, row by row (R224). -/
theorem State.pending_rtcSecond {s : State} (hb : Boundary s) {x : SourceRow} (hx : x ∈ s.params.sources.rows) :
    s.countTick.rtcSecond.pending x = true ↔
      s.pending x = true ∨ (x.owner = .rtcSecond ∧ TickRaises s x) := by
  have hsource (ho : x.owner = .rtcSecond) : s.source .rtcSecond = x := ho ▸ s.source_eq hx (by simp [ho])
  rw [State.pending, State.bit_ipr_rtcSecond hb, s.source_bit_eq_iff hx (by decide), and_comm]
  exact or_congr_right (and_congr_right fun ho => by rw [hsource ho])

/-- The wake countdown after the RTC's second: its raise may have armed it (R131, R167). -/
theorem State.wakeAfter_rtcSecond {s : State} (hb : Boundary s) :
    WakeAfter s (TickRaises s (s.source .rtcSecond) ∧ Wakes s (s.source .rtcSecond))
      s.countTick.rtcSecond.wakeCountdown := by
  obtain ⟨armed, hw, harmed⟩ := (TickPath.rtc hb).wake
  simp only [List.mem_singleton, exists_eq_left] at harmed
  rw [hw]
  exact s.wakeAfter_armed harmed

end Sys2Proof.Machine

namespace Sys2Proof

open Sys2Proof.Machine Sys2Proof.Claims

/-- Settles O21: every part of a TICK commutes with a change of the inputs (`State.tick_withInputs`), a TICK touches neither
the inputs nor the pins' activity (`State.tick_touches`), and no rule but INPUT_CHANGE's sets them (`Performed.inputs`). -/
theorem tickIgnoresInputs : Obligations.TickIgnoresInputs := by
  refine ⟨fun s t x h => ?_, fun s t h => ?_, fun i s t h => (performed_of_exec h).inputs⟩
  · cases h
    exact congrArg Host.Outcome.next (s.startOp.tick_withInputs x)
  · cases h
    rw [s.startOp.tick_touches.2]
    rfl

/-- Settles O49: an aborted TICK is its count, the RTC's second and the event (`State.tick_of_aborts`), and each clause is what
the RTC's second does: to the time of day, to RTCISR, to the pending flags (`State.pending_rtcSecond`) and to the wake
countdown (`State.wakeAfter_rtcSecond`). -/
theorem tickAborted : Obligations.TickAborted := by
  intro s ha
  have hb : Boundary s.startOp := ha.1.1
  have rtc := s.startOp.countTick.rtcSecond_touchesOnly
  have hcount : s.startOp.countTick.tickCounter = 0 := (TickPath.start _).counter.trans (nextCounter_of_boundary hb)
  refine ⟨s.startOp.tick, rfl, ?_⟩
  rw [State.tick_of_aborts (s := s.startOp) ha]
  refine ⟨?_, State.timeOfDayAfter_rtcSecond hb, State.bit_rtcisr_rtcSecond hb, fun x hx => State.pending_rtcSecond hb hx,
    State.wakeAfter_rtcSecond hb, rtc.bytesKept, ?_⟩
  · rw [State.events_emit, rtc.quiet.1]
    rfl
  · obtain ⟨rf, wake, e⟩ : ∃ rf wake, s.startOp.countTick.rtcSecond =
        { s.startOp.countTick with rf := rf, wakeCountdown := wake } := ⟨_, _, rtc.2⟩
    rw [e, ← hcount]
    rfl

end Sys2Proof
end

section
/-! PROOFS. The statements of 46_chip_select: what every step keeps of the derived state (O11), boot mode (O17), a chip-select
write (O44), the formulas of a bank's descriptor (O45), and the address decode (O46). -/

namespace Sys2Proof.Machine

open Sys2Proof.Claims

/-! The derived state under the operations that do not recompute it -/

/-- The registers that the bank descriptors or the status flags are computed from (R271, R304). -/
def Reg.derives (r : Reg) : Bool := Reg.chipSelectRegs.contains r || triggersStatusFlags r

theorem Reg.derives_of_mem_chipSelectRegs {r : Reg} (h : r ∈ Reg.chipSelectRegs) : r.derives = true := by
  rw [Reg.derives, List.contains_iff_mem.2 h, Bool.true_or]

theorem Reg.derives_of_triggersStatusFlags {r : Reg} (h : triggersStatusFlags r = true) : r.derives = true := by
  rw [Reg.derives, h, Bool.or_true]

/-- The derived state is as before, and so is all that it is computed from: the parameters, boot mode and the registers that
derive it (R270, R304). -/
structure DerivedKept (s t : State) : Prop where
  params : t.params = s.params
  bootMode : t.bootMode = s.bootMode
  chips : t.chips = s.chips
  status : t.statusFlags = s.statusFlags
  reg : ∀ r : Reg, r.derives = true → t.rf.reg s.params.regMap r = s.rf.reg s.params.regMap r

theorem DerivedKept.trans {s t u : State} (h : DerivedKept s t) (g : DerivedKept t u) : DerivedKept s u where
  params := g.params.trans h.params
  bootMode := g.bootMode.trans h.bootMode
  chips := g.chips.trans h.chips
  status := g.status.trans h.status
  reg r hr := by
    have hg := g.reg r hr
    rw [h.params] at hg
    exact hg.trans (h.reg r hr)

theorem DerivedKept.chipsCurrent {s t : State} (h : DerivedKept s t) (hs : s.chipsCurrent) : t.chipsCurrent := by
  rw [State.chipsCurrent, h.chips, h.params, h.bootMode, hs]
  exact (describeChips_congr (fun r hr => h.reg r (Reg.derives_of_mem_chipSelectRegs hr)) _).symm

theorem DerivedKept.statusCurrent {s t : State} (h : DerivedKept s t) (hs : s.statusCurrent) : t.statusCurrent := by
  rw [State.statusCurrent, h.status, h.params, hs]
  exact (describeStatus_congr fun r hr => h.reg r (Reg.derives_of_triggersStatusFlags hr)).symm

/-- A change of other registers keeps the registers that derive something. -/
theorem SameBytesBut.reg_of_derives {k : RegMap} {rs : List Reg} {m m' : Memory} (h : SameBytesBut k rs m m')
    (hrs : ∀ r ∈ rs, r.derives = false) (r : Reg) (hr : r.derives = true) : m'.reg k r = m.reg k r :=
  h.reg fun hmem => by simp [hrs r hmem] at hr

theorem TouchesOnly.derivedKept {rs : List Reg} {s t : State} (h : TouchesOnly rs s t)
    (hrs : ∀ r ∈ rs, r.derives = false) : DerivedKept s t where
  params := h.params
  bootMode := by rw [h.2]
  chips := by rw [h.2]
  status := by rw [h.2]
  reg := h.1.reg_of_derives hrs

theorem PortTouches.derivedKept {s t : State} (h : PortTouches s t) : DerivedKept s t where
  params := h.params
  bootMode := by rw [h.2]
  chips := by rw [h.2]
  status := by rw [h.2]
  reg := h.1.reg_of_derives (by decide)

theorem TickTouches.derivedKept {s t : State} (h : TickTouches s t) : DerivedKept s t where
  params := by rw [h.2]
  bootMode := by rw [h.2]
  chips := by rw [h.2]
  status := by rw [h.2]
  reg := h.1.reg_of_derives (by decide)

theorem State.startOp_derivedKept (s : State) : DerivedKept s s.startOp := ⟨rfl, rfl, rfl, rfl, fun _ _ => rfl⟩

theorem State.checkInterrupts_derivedKept (s : State) : DerivedKept s s.checkInterrupts :=
  ⟨rfl, rfl, rfl, rfl, fun _ _ => rfl⟩

/-- The bytes that no register owns derive nothing (R76). -/
theorem State.storeUnowned_derivedKept (s : State) (o : Nat) {n : Nat} (hn : n ≤ 4) (v : Word) :
    DerivedKept s (s.storeUnowned o n v) :=
  ⟨rfl, rfl, rfl, rfl, fun r _ => (splitUpTo_rf s.params.regMap s.rf o n v n (by omega)).2.2.1 r⟩

/-- Only RESET_ALL and the writes recompute derived state; every other operation keeps it, and what it is computed from. -/
theorem Performed.derivedKept {i : Instr} {s t : State} (h : Performed s i t) (hreset : i ≠ .resetAll)
    (hwrite : writeParts i = none) : DerivedKept s t := by
  have start := s.startOp_derivedKept
  cases h with
  | read v _ =>
    obtain ⟨x, y, e⟩ := s.startOp.memReadState_eq _ _
    rw [e]
    exact ⟨rfl, rfl, rfl, rfl, fun _ _ => rfl⟩
  | write hi =>
    rw [hi] at hwrite
    cases hwrite
  | tick => exact start.trans s.startOp.tick_touches.derivedKept
  | resetAll => exact absurd rfl hreset
  | iack l => exact ⟨rfl, rfl, rfl, rfl, fun _ _ => rfl⟩
  | query b _ => exact ⟨rfl, rfl, rfl, rfl, fun _ _ => rfl⟩
  | setRtc => exact start.trans ((s.startOp.setTimeOfDay_spec _).1.derivedKept (by decide))
  | inputChange x =>
    have input : DerivedKept s { s.startOp with inputs := x } := ⟨rfl, rfl, rfl, rfl, fun _ _ => rfl⟩
    exact (input.trans (State.evalPortD_spec _).1.derivedKept).trans (State.checkInterrupts_derivedKept _)
  | lowPowerStop => exact ⟨rfl, rfl, rfl, rfl, fun _ _ => rfl⟩
  | busFault k =>
    have fault := start.trans ((s.startOp.setFault_touchesOnly k).derivedKept (by decide))
    rcases s.startOp.busFault_eq k with e | e <;> rw [e]
    · exact fault
    · exact fault.trans ⟨rfl, rfl, rfl, rfl, fun _ _ => rfl⟩
  | @extIrq _ line x _ =>
    exact (start.trans ((s.startOp.driveSource_spec x line).1.derivedKept (by decide))).trans
      (State.checkInterrupts_derivedKept _)

/-- RESET_ALL recomputes the descriptors, in boot mode, and the status flags, after which the port-D evaluation and the
delivery of the level keep them (R440). -/
theorem State.resetAll_derived (s : State) :
    ∃ u : State, DerivedKept u s.resetAll ∧ u.chipsCurrent ∧ u.statusCurrent ∧ u.bootMode = true :=
  ⟨_, (State.evalPortD_spec _).1.derivedKept.trans (State.checkInterrupts_derivedKept _), rfl, rfl, rfl⟩

/-- A property of the derived state that every write handler keeps, every write keeps (R114). -/
theorem State.memWrite_keeps_derived {P : State → Prop} (kept : ∀ {s t}, DerivedKept s t → P s → P t)
    (handler : ∀ (s : State) r v be, P s → P (s.writeHandler r v be)) {s : State} (a : Word) {n : Nat} (hn : n ≤ 4)
    (v : Word) (hs : P s) : P (s.memWrite a n v) := by
  cases ha : s.reaches a with
  | false =>
    rw [State.memWrite_unreached ha]
    exact hs
  | true =>
    rw [State.memWrite_of_reaches ha]
    have run := State.runHandlers_induct (Q := fun s t => P s → P t) (ts := s.touchesOf (offsetOf a) n v)
      (fun _ => id) (fun f g hp => g (f hp)) fun u t _ => handler u t.reg t.v t.be
    exact kept (State.checkInterrupts_derivedKept _) (run _ (kept (s.storeUnowned_derivedKept _ hn v) hs))

/-- An operation is RESET_ALL, or a write, or it keeps the derived state. -/
theorem derived_cases_of_exec {i : Instr} {s t : State} (h : exec i s = .next t) :
    (i = .resetAll ∧ t = s.startOp.resetAll) ∨
      (∃ a n v, writeParts i = some (a, n, v) ∧ t = s.startOp.memWrite a n v) ∨
      (i ≠ .resetAll ∧ writeParts i = none ∧ DerivedKept s t) := by
  by_cases hreset : i = .resetAll
  · subst hreset
    cases h
    exact .inl ⟨rfl, rfl⟩
  · cases hwrite : writeParts i with
    | none => exact .inr (.inr ⟨hreset, rfl, (performed_of_exec h).derivedKept hreset hwrite⟩)
    | some p =>
      obtain ⟨a, n, v⟩ := p
      rw [exec_of_writeParts hwrite] at h
      cases h
      exact .inr (.inl ⟨a, n, v, rfl, rfl⟩)

/-- A property of the derived state that RESET_ALL sets up and every write handler keeps, every operation keeps. -/
theorem exec_keeps_derived {P : State → Prop} (kept : ∀ {s t}, DerivedKept s t → P s → P t)
    (handler : ∀ (s : State) r v be, P s → P (s.writeHandler r v be)) (reset : ∀ s : State, P s.resetAll)
    {i : Instr} {s t : State} (hs : P s) (h : exec i s = .next t) : P t := by
  rcases derived_cases_of_exec h with ⟨-, rfl⟩ | ⟨a, n, v, hwrite, rfl⟩ | ⟨-, -, hkept⟩
  · exact reset _
  · exact State.memWrite_keeps_derived kept handler a (writeParts_le hwrite) v (kept s.startOp_derivedKept hs)
  · exact kept hkept hs

theorem State.resetAll_chipsCurrent (s : State) : s.resetAll.chipsCurrent := by
  obtain ⟨u, hkept, hchips, -⟩ := s.resetAll_derived
  exact hkept.chipsCurrent hchips

theorem State.resetAll_statusCurrent (s : State) : s.resetAll.statusCurrent := by
  obtain ⟨u, hkept, -, hstatus, -⟩ := s.resetAll_derived
  exact hkept.statusCurrent hstatus

/-! The chip-select write -/

/-- Boot mode ends where the register is CSA and CSA.EN is then 1 (R276). -/
theorem State.endBootMode_eq (s : State) (r : Reg) :
    s.endBootMode r = { s with bootMode := s.bootMode && !(decide (r = .csa) && s.flag (.csEn .rom)) } := by
  unfold State.endBootMode
  split
  · next h =>
    obtain ⟨hr, hen⟩ := h
    simp [hr, hen]
  · next h =>
    have hstay : (decide (r = .csa) && s.flag (.csEn .rom)) = false := by simpa using h
    rw [hstay, Bool.not_false, Bool.and_true]

/-- The handler is the plain write, the end of boot mode, and the descriptors of what these leave (R277). -/
theorem State.writeChipSelect_eq (s : State) (r : Reg) (v be : Word) :
    s.writeChipSelect r v be =
      State.recomputeChips { s.plainWrite r v be with
        bootMode := s.bootMode && !(decide (r = .csa) && (s.plainWrite r v be).flag (.csEn .rom)) } := by
  rw [State.writeChipSelect, State.endBootMode_eq]
  rfl

/-- Boot mode after the handler, by CSA.EN as the handler leaves it (R276). -/
theorem State.bootMode_writeChipSelect (s : State) (r : Reg) (v be : Word) :
    (s.writeChipSelect r v be).bootMode =
      (s.bootMode && !(decide (r = .csa) && (s.writeChipSelect r v be).flag (.csEn .rom))) := by
  rw [State.writeChipSelect_eq]
  rfl

theorem State.bootMode_writeChipSelect_iff (s : State) (r : Reg) (v be : Word) :
    (s.writeChipSelect r v be).bootMode = true ↔
      s.bootMode = true ∧ ¬(r = .csa ∧ (s.writeChipSelect r v be).field (.csEn .rom) = 1) := by
  rw [State.bootMode_writeChipSelect, ← State.flag_eq_true]
  simp [imp_iff_not_or]

/-- The handler of a chip-select register (R118). -/
theorem State.writeHandler_chipSelect (s : State) {r : Reg} (hr : r ∈ Reg.chipSelectRegs) (v be : Word) :
    s.writeHandler r v be = s.writeChipSelect r v be := by
  fin_cases hr <;> rfl

/-! The touches of a write, register by register -/

/-- A lane that is added to the touches of a register not touched yet puts it last; otherwise the registers stay. -/
theorem map_reg_addTouch (ts : List Touch) (r : Reg) (v be : Word) :
    (addTouch ts r v be).map Touch.reg =
      if r ∈ ts.map Touch.reg then ts.map Touch.reg else ts.map Touch.reg ++ [r] := by
  induction ts with
  | nil => simp [addTouch]
  | cons t ts ih =>
    by_cases ht : t.reg = r
    · simp [addTouch, ht]
    · rw [addTouch, if_neg ht, List.map_cons, ih]
      by_cases hmem : r ∈ ts.map Touch.reg
      · simp [hmem]
      · simp [hmem, Ne.symm ht]

theorem mem_map_reg_addTouch {ts : List Touch} {q r : Reg} {v be : Word} :
    q ∈ (addTouch ts r v be).map Touch.reg ↔ q ∈ ts.map Touch.reg ∨ q = r := by
  rw [map_reg_addTouch]
  split
  · next hmem => exact ⟨.inl, fun h => h.elim id fun e => e ▸ hmem⟩
  · rw [List.mem_append, List.mem_singleton]

theorem nodup_map_reg_addTouch {ts : List Touch} (h : (ts.map Touch.reg).Nodup) (r : Reg) (v be : Word) :
    ((addTouch ts r v be).map Touch.reg).Nodup := by
  rw [map_reg_addTouch]
  split
  · exact h
  · next hmem => exact List.nodup_append_comm.1 (List.nodup_cons.2 ⟨hmem, h⟩)

/-- A write touches no register twice (R86). -/
theorem State.nodup_touchesOf (s : State) (o n : Nat) (v : Word) : ((s.touchesOf o n v).map Touch.reg).Nodup := by
  suffices h : ∀ k, ((splitUpTo s.params.regMap s.rf o n v k).touches.map Touch.reg).Nodup from h n
  intro k
  induction k with
  | zero => exact List.nodup_nil
  | succ k ih =>
    cases hk : s.params.regMap.regAt (spanOffset o k) with
    | none => rwa [touches_splitUpTo_none hk]
    | some q =>
      rw [touches_splitUpTo_some hk]
      exact nodup_map_reg_addTouch ih _ _ _

/-- A write touches every register that owns a byte of its span (R86). -/
theorem State.mem_touchesOf (s : State) {o n : Nat} (v : Word) {r : Reg} (h : SpanTouches s.params.regMap o n r) :
    r ∈ (s.touchesOf o n v).map Touch.reg := by
  obtain ⟨i, hi, hr⟩ := h
  suffices h : ∀ k, i < k → r ∈ (splitUpTo s.params.regMap s.rf o n v k).touches.map Touch.reg from h n hi
  intro k hik
  induction k with
  | zero => exact absurd hik (Nat.not_lt_zero i)
  | succ k ih =>
    rcases Nat.lt_succ_iff_lt_or_eq.1 hik with hik | rfl
    · cases hk : s.params.regMap.regAt (spanOffset o k) with
      | none =>
        rw [touches_splitUpTo_none hk]
        exact ih hik
      | some q =>
        rw [touches_splitUpTo_some hk]
        exact mem_map_reg_addTouch.2 (.inl (ih hik))
    · rw [touches_splitUpTo_some hr]
      exact mem_map_reg_addTouch.2 (.inr rfl)

/-! Boot mode -/

/-- Boot mode and CSA are as before. -/
def CsaKept (s t : State) : Prop := t.bootMode = s.bootMode ∧ RegKept .csa s t

theorem CsaKept.trans {s t u : State} (h : CsaKept s t) (g : CsaKept t u) : CsaKept s u :=
  ⟨g.1.trans h.1, h.2.trans g.2⟩

theorem CsaKept.flag_csEn {s t : State} (h : CsaKept s t) : t.flag (.csEn .rom) = s.flag (.csEn .rom) :=
  State.flag_congr (State.field_congr (f := .csEn .rom) h.2.1 h.2.2)

/-- The handlers of the other registers leave CSA and boot mode (R118, R276). -/
theorem State.runHandlers_csaKept (s : State) {ts : List Touch} (h : .csa ∉ ts.map Touch.reg) :
    CsaKept s (s.runHandlers ts) := by
  refine State.runHandlers_induct (Q := CsaKept) (fun _ => ⟨rfl, rfl, rfl⟩) CsaKept.trans (fun u t ht => ?_) s
  have hne : t.reg ≠ .csa := fun e => h (e ▸ List.mem_map_of_mem ht)
  have frame := u.writeHandler_frame t.reg t.v t.be
  exact ⟨frame.boot hne, frame.params, frame.reg (by simp [Ne.symm hne])⟩

/-- Where CSA is touched, once, boot mode ends by CSA.EN as all the handlers leave it (R276). -/
theorem State.bootMode_runHandlers (s : State) {ts : List Touch} (hnodup : (ts.map Touch.reg).Nodup)
    (hmem : .csa ∈ ts.map Touch.reg) :
    (s.runHandlers ts).bootMode = (s.bootMode && !(s.runHandlers ts).flag (.csEn .rom)) := by
  obtain ⟨t, ht, hcsa⟩ := List.mem_map.1 hmem
  obtain ⟨before, after, rfl⟩ := List.append_of_mem ht
  rw [List.map_append, List.map_cons, hcsa, List.nodup_middle, List.nodup_cons, List.mem_append, not_or] at hnodup
  obtain ⟨⟨hbefore, hafter⟩, -⟩ := hnodup
  have first := s.runHandlers_csaKept hbefore
  have last := ((s.runHandlers before).writeChipSelect .csa t.v t.be).runHandlers_csaKept hafter
  have run : s.runHandlers (before ++ t :: after) =
      ((s.runHandlers before).writeChipSelect .csa t.v t.be).runHandlers after := by
    rw [State.runHandlers_append, ← State.writeHandler_chipSelect _ (by decide), ← hcsa]
    rfl
  rw [run, last.1, last.flag_csEn, State.bootMode_writeChipSelect, first.1, decide_eq_true rfl, Bool.true_and]

/-- A write ends boot mode exactly if it touches CSA and leaves CSA.EN 1 (R276). -/
theorem State.bootMode_memWrite (s : State) (a : Word) (n : Nat) (v : Word) :
    (s.memWrite a n v).bootMode = true ↔ s.bootMode = true ∧
      ¬((s.reaches a = true ∧ Touches s .csa a n) ∧ (s.memWrite a n v).field (.csEn .rom) = 1) := by
  cases ha : s.reaches a with
  | false => simp [State.memWrite_unreached ha]
  | true =>
    by_cases htouch : Touches s .csa a n
    · have run := (s.storeUnowned (offsetOf a) n v).bootMode_runHandlers (s.nodup_touchesOf (offsetOf a) n v)
        (s.mem_touchesOf v (touches_iff.1 htouch))
      have ends : (s.memWrite a n v).bootMode = (s.bootMode && !(s.memWrite a n v).flag (.csEn .rom)) := by
        rw [State.memWrite_of_reaches ha]
        exact run
      simp [ends, htouch, ← State.flag_eq_true]
    · have stays : (s.memWrite a n v).bootMode = s.bootMode := by
        rw [State.memWrite_of_reaches ha]
        exact (s.memWrite_window v).boot (mt touches_iff.2 htouch)
      simp [stays, htouch]

/-- RESET_ALL sets boot mode (R276, R440). -/
theorem State.bootMode_resetAll (s : State) : s.resetAll.bootMode = true := by
  obtain ⟨u, hkept, -, -, hboot⟩ := s.resetAll_derived
  exact hkept.bootMode.trans hboot

/-! The formulas of a descriptor -/

theorem bank_describeChips (p : Params) (m : Memory) (boot : Bool) (b : Bank) :
    (describeChips p m boot).bank b = describeBank p m b := by cases b <;> rfl

theorem protectable_of_ne_rom {b : Bank} (h : b ≠ .rom) : protectable b = true := by
  cases b with
  | rom => exact absurd rfl h
  | sed => rfl
  | usb => rfl
  | ram => rfl

/-- A base register has at most 16 bits (R26). -/
theorem State.bit_csgb_of_ge (s : State) (b : Bank) {k : Nat} (hk : 16 ≤ k) : s.bit (Reg.csgb b) k = false := by
  have hbytes := (s.params.regMap.size_spec (Reg.csgb b)).2.1
  have hclass : (Reg.csgb b).classBytes = 2 := by cases b <;> rfl
  exact Memory.getLsbD_reg_of_ge _ _ _ _ (by omega)

/-- The default base, bit by bit: bits 15 to 1 of the base register from bit 14 up, and above them the bank's field of CSUGBA
where UGEN is set (R272). -/
theorem State.getLsbD_csBase_default (s : State) (h : s.params.csBase = .default) (b : Bank) {k : Nat} (hk : k < 32) :
    (csBase s.params s.rf b).getLsbD k =
      if k < 14 then false
      else if k < 29 then s.bit (Reg.csgb b) (k - 13)
      else decide (s.field .ugen = 1) && (s.field (.ugba b)).testBit (k - 29) := by
  have hlow : ((s.reg (Reg.csgb b) >>> 1) <<< 14).getLsbD k = (!decide (k < 14) && s.bit (Reg.csgb b) (k - 13)) := by
    rw [BitVec.getLsbD_shiftLeft, BitVec.getLsbD_ushiftRight, decide_eq_true hk, Bool.true_and]
    by_cases h14 : k < 14
    · simp [h14]
    · rw [show 1 + (k - 14) = k - 13 by omega]
      rfl
  have hhigh : (if s.flag .ugen then BitVec.ofNat 32 (s.field (.ugba b)) <<< 29 else 0).getLsbD k =
      (!decide (k < 29) && (decide (s.field .ugen = 1) && (s.field (.ugba b)).testBit (k - 29))) := by
    rw [s.flag_eq_decide]
    by_cases hen : s.field .ugen = 1
    · simp only [hen, decide_true, if_true, BitVec.getLsbD_shiftLeft, BitVec.getLsbD_ofNat, hk,
        show k - 29 < 32 by omega, Bool.true_and]
    · simp [hen]
  have hbase : csBase s.params s.rf b = ((s.reg (Reg.csgb b) >>> 1) <<< 14) |||
      (if s.flag .ugen then BitVec.ofNat 32 (s.field (.ugba b)) <<< 29 else 0) := by
    rw [csBase, h]
    rfl
  rw [hbase, BitVec.getLsbD_or, hlow, hhigh]
  split
  · next h14 => simp [h14, show k < 29 by omega]
  · next h14 =>
    split
    · next h29 => simp [h14, h29]
    · next h29 => simp [h14, h29, s.bit_csgb_of_ge b (show 16 ≤ k - 13 by omega)]

theorem csBase_other {p : Params} {id : Nat} (h : p.csBase = .other id) (m : Memory) (b : Bank) :
    csBase p m b =
      Config.csBaseOther id b ((m.reg p.regMap (.csgb b)).setWidth 16) ((m.reg p.regMap .csugba).setWidth 16) := by
  rw [csBase, h]

/-- RAM's alternate unit is on where RAM8M is set, and the bit of CSD with it if the map has one (R273; log 10). -/
theorem State.ramAlternate_iff (s : State) :
    ramAlternate s.params.regMap s.rf = true ↔
      s.field .ram8m = 1 ∧ (s.params.regMap.lists .ramAlt = true → s.field .ramAlt = 1) := by
  have hunfold : ramAlternate s.params.regMap s.rf =
      (s.flag .ram8m && (!s.params.regMap.lists .ramAlt || s.flag .ramAlt)) := rfl
  rw [hunfold, Bool.and_eq_true, Bool.or_eq_true, Bool.not_eq_true', s.flag_eq_true, s.flag_eq_true, ← Bool.not_eq_true,
    imp_iff_not_or]

/-- RAM's unit is 8 MiB in its alternate mode, and else 32 KiB (R273). -/
theorem State.csUnit_ram (s : State) :
    csUnit s.params.regMap s.rf .ram =
      if s.field .ram8m = 1 ∧ (s.params.regMap.lists .ramAlt = true → s.field .ramAlt = 1) then 8 * 1024 * 1024
      else 32 * 1024 :=
  if_congr s.ramAlternate_iff rfl rfl

/-- The size is the unit times a power of two (R273). -/
theorem State.size_describeBank (s : State) (b : Bank) :
    (describeBank s.params s.rf b).size = csUnit s.params.regMap s.rf b * 2 ^ s.field (.csSiz b) :=
  Nat.shiftLeft_eq _ _

/-- The protection flags of the three banks that have them (R274). -/
theorem State.supervisorOnly_describeBank (s : State) {b : Bank} (hb : b ≠ .rom) :
    (describeBank s.params s.rf b).supervisorOnly = true ↔ s.field (.csSop b) = 1 ∧ s.field .pgate = 1 := by
  have hunfold : (describeBank s.params s.rf b).supervisorOnly =
      (protectable b && s.flag (.csSop b) && s.flag .pgate) := rfl
  rw [hunfold, protectable_of_ne_rom hb, Bool.true_and, Bool.and_eq_true, s.flag_eq_true, s.flag_eq_true]

@[inherit_doc State.supervisorOnly_describeBank]
theorem State.readOnlyProtected_describeBank (s : State) {b : Bank} (hb : b ≠ .rom) :
    (describeBank s.params s.rf b).readOnlyProtected = true ↔ s.field (.csRdop b) = 1 ∧ s.field .pgate = 1 := by
  have hunfold : (describeBank s.params s.rf b).readOnlyProtected =
      (protectable b && s.flag (.csRdop b) && s.flag .pgate) := rfl
  rw [hunfold, protectable_of_ne_rom hb, Bool.true_and, Bool.and_eq_true, s.flag_eq_true, s.flag_eq_true]

/-- The unprotected size of these banks is the parameter (R275; log 9). -/
theorem State.unprotectedSize_describeBank (s : State) {b : Bank} (hb : b ≠ .rom) :
    (describeBank s.params s.rf b).unprotectedSize =
      Config.csUnprotSize b ((s.reg (Reg.cs b)).setWidth 16) ((s.reg .csctrl2).setWidth 16) :=
  if_pos (protectable_of_ne_rom hb)

/-! The address decode -/

/-- The bank is enabled and its range holds the address (R270, R278). -/
def Chips.inRange (c : Chips) (a : Word) (b : Bank) : Prop :=
  (c.bank b).enabled = true ∧ (c.bank b).base.toNat ≤ a.toNat ∧ a.toNat < (c.bank b).base.toNat + (c.bank b).size

/-- In boot mode the ROM claims every address (R276). -/
theorem Chips.claims_rom_of_bootMode {c : Chips} (h : c.romBootMode = true) (a : Word) : c.claims .rom a = true := by
  simp [Chips.claims, h]

/-- Out of boot mode a bank claims the addresses of its range (R278). -/
theorem Chips.claims_iff {c : Chips} (h : c.romBootMode = false) (a : Word) (b : Bank) :
    c.claims b a = true ↔ c.inRange a b := by
  simp [Chips.claims, Chips.inRange, BankDescriptor.covers, h]

/-- The outcomes of the decode, which asks the banks in their order (R278). -/
theorem Chips.decodeAddr_cases (c : Chips) (a : Word) :
    (c.claims .rom a = true ∧ c.decodeAddr a = some .rom) ∨
      (¬c.claims .rom a = true ∧ c.claims .sed a = true ∧ c.decodeAddr a = some .sed) ∨
      (¬c.claims .rom a = true ∧ ¬c.claims .sed a = true ∧ c.claims .usb a = true ∧ c.decodeAddr a = some .usb) ∨
      (¬c.claims .rom a = true ∧ ¬c.claims .sed a = true ∧ ¬c.claims .usb a = true ∧ c.claims .ram a = true ∧
        c.decodeAddr a = some .ram) ∨
      (¬c.claims .rom a = true ∧ ¬c.claims .sed a = true ∧ ¬c.claims .usb a = true ∧ ¬c.claims .ram a = true ∧
        c.decodeAddr a = none) := by
  have decode : c.decodeAddr a = [Bank.rom, .sed, .usb, .ram].find? fun b => c.claims b a := rfl
  by_cases hrom : c.claims .rom a = true
  · simp [decode, hrom]
  · by_cases hsed : c.claims .sed a = true
    · simp [decode, hrom, hsed]
    · by_cases husb : c.claims .usb a = true
      · simp [decode, hrom, hsed, husb]
      · by_cases hram : c.claims .ram a = true
        · simp [decode, hrom, hsed, husb, hram]
        · simp [decode, hrom, hsed, husb, hram]

theorem Bank.forall_iff {P : Bank → Prop} : (∀ b, P b) ↔ P .rom ∧ P .sed ∧ P .usb ∧ P .ram :=
  ⟨fun h => ⟨h _, h _, h _, h _⟩, fun ⟨hrom, hsed, husb, hram⟩ b => by cases b <;> assumption⟩

end Sys2Proof.Machine

namespace Sys2Proof

open Sys2Proof.Machine Sys2Proof.Claims

/-- Settles O11: RESET_ALL and the writes recompute what they change (`State.writeHandler_chipsCurrent`,
`State.writeHandler_statusCurrent`), and every other operation keeps it with all that it is computed from
(`Performed.derivedKept`). -/
theorem stepKeepsDerivedState : Obligations.StepKeepsDerivedState :=
  ⟨fun _ _ => step_keeps (P := State.chipsCurrent) (fun _ _ => id) fun _ _ _ =>
      exec_keeps_derived DerivedKept.chipsCurrent State.writeHandler_chipsCurrent State.resetAll_chipsCurrent,
    fun _ _ => step_keeps (P := State.statusCurrent) (fun _ _ => id) fun _ _ _ =>
      exec_keeps_derived DerivedKept.statusCurrent State.writeHandler_statusCurrent State.resetAll_statusCurrent⟩

/-- Settles O17: RESET_ALL sets boot mode, a write ends it by CSA.EN as it leaves that field (`State.bootMode_memWrite`), and
every other operation keeps it. -/
theorem bootModeOneWay : Obligations.BootModeOneWay := by
  intro i s t h
  rcases derived_cases_of_exec h with ⟨rfl, rfl⟩ | ⟨a, n, v, hwrite, rfl⟩ | ⟨hreset, hwrite, hkept⟩
  · simp [State.bootMode_resetAll]
  · have hreset : i ≠ .resetAll := by
      rintro rfl
      cases hwrite
    have hwrites : WritesTo s i .csa ↔ s.reaches a = true ∧ Touches s .csa a n := by
      simp [WritesTo, hwrite]
    rw [or_iff_right hreset, hwrites]
    exact s.startOp.bootMode_memWrite a n v
  · have hwrites : ¬WritesTo s i .csa := by simp [WritesTo, hwrite]
    simp [hreset, hwrites, hkept.bootMode]

/-- Settles O44: the handler is the plain write, the end of boot mode and the descriptors of what these leave
(`State.writeChipSelect_eq`), and then the level is delivered. -/
theorem chipSelectWrite : Obligations.ChipSelectWrite := by
  intro i s a n v r hr hi hin
  have stores := s.startOp.reg_plainWrite r (laneValue s r a n v &&& laneMask s r a n) (laneMask s r a n)
  have touches := s.startOp.plainWrite_touchesOnly r (laneValue s r a n v &&& laneMask s r a n) (laneMask s r a n)
  have boots :=
    s.startOp.bootMode_writeChipSelect_iff r (laneValue s r a n v &&& laneMask s r a n) (laneMask s r a n)
  rw [mergeBits_and_enable] at stores
  rw [State.writeChipSelect_eq] at boots
  refine ⟨_, exec_of_inside hi hin, ?_⟩
  rw [State.writeHandler_chipSelect _ hr, State.writeChipSelect_eq]
  exact ⟨stores, boots, rfl, rfl, rfl, touches.bytesKept, rfl⟩

/-- Settles O45: each clause is the definition of its part of the descriptor, in the state's fields; the default base is
`State.getLsbD_csBase_default`. -/
theorem bankFormulas : Obligations.BankFormulas := by
  intro s hs b
  have hc : s.chips.bank b = describeBank s.params s.rf b := by rw [hs, bank_describeChips]
  simp only [hc]
  refine ⟨s.flag_eq_true _, s.flag_eq_true _, ?_, fun h k hk => s.getLsbD_csBase_default h b hk,
    fun id h => csBase_other h s.rf b, ?_, fun hb => ?_⟩
  · rw [s.size_describeBank]
    cases b with
    | rom => rfl
    | sed => rfl
    | usb => rfl
    | ram => rw [s.csUnit_ram]
  · rintro rfl
    exact ⟨rfl, rfl, rfl⟩
  · exact ⟨s.supervisorOnly_describeBank hb, s.readOnlyProtected_describeBank hb, s.unprotectedSize_describeBank hb⟩

/-- Settles O46: the decode asks the banks in their order (`Chips.decodeAddr_cases`), and a bank claims the addresses of its
range (`Chips.claims_iff`), but in boot mode, where the ROM claims all. -/
theorem bankDecodeOrder : Obligations.BankDecodeOrder := by
  intro c a inRange
  have outcomes := c.decodeAddr_cases a
  refine ⟨fun hboot => ?_, fun hboot => ?_⟩
  · simpa [Chips.claims_rom_of_bootMode hboot] using outcomes
  · have hrange : ∀ b, inRange b ↔ c.claims b a = true := fun b => (Chips.claims_iff hboot a b).symm
    simp only [hrange, Bank.forall_iff]
    rcases outcomes with ⟨hrom, e⟩ | ⟨hrom, hsed, e⟩ | ⟨hrom, hsed, husb, e⟩ | ⟨hrom, hsed, husb, hram, e⟩ |
      ⟨hrom, hsed, husb, hram, e⟩
    · simp [e, hrom]
    · simp [e, hrom, hsed]
    · simp [e, hrom, hsed, husb]
    · simp [e, hrom, hsed, husb, hram]
    · simp [e, hrom, hsed, husb, hram]

end Sys2Proof
end

section
/-! PROOFS. The statements of 47_gpio: INPUT_CHANGE (O27), and a write inside ICR or a port register (O37). Both run the
port-D evaluation, which is put once into the words of the statements (`State.portDEvaluated_evalPortD`). -/

namespace Sys2Proof.Machine

open Sys2Proof.Claims

/-! The port-D evaluation, in the words of the statements -/

theorem State.pinPolarity_eq (s : State) (i : Nat) : s.pinPolarity i = pinPol s i := by
  unfold State.pinPolarity pinPol Field.pinPol
  split
  · rfl
  · split <;> simp_all

theorem State.pinActive_iff (s : State) (i : Nat) : s.pinActive i = true ↔ PinActive s i := by
  simp only [State.pinActive, PinActive, s.pinPolarity_eq, getLsbD_rawPortD, Bool.and_eq_true, Bool.not_eq_true',
    bne_iff_ne, and_assoc]

theorem State.pinRaises_iff (s : State) (i : Nat) : s.pinRaises i = true ↔ PinRaised s i := by
  simp only [State.pinRaises, PinRaised, Bool.and_eq_true, Bool.or_eq_true, Bool.not_eq_true', s.pinActive_iff,
    ← s.pinEdge_iff, imp_iff_not_or, Bool.not_eq_true]

/-- A byte is not 0 exactly if one of its bits is 1. -/
theorem byte_ne_zero_iff (b : Byte) : b ≠ 0 ↔ ∃ i < 8, b.getLsbD i = true := by
  constructor
  · intro h
    by_contra hno
    refine h (BitVec.eq_of_getLsbD_eq fun i hi => ?_)
    simpa using fun hb => hno ⟨i, hi, hb⟩
  · rintro ⟨i, -, hb⟩ rfl
    simp at hb

theorem State.keyboardLow_iff (s : State) : s.keyboardLow = true ↔ KeyboardLow s := by
  rw [State.keyboardLow, bne_iff_ne, byte_ne_zero_iff]
  refine exists_congr fun i => and_congr_right fun hi => ?_
  simp only [State.pinD, BitVec.getLsbD_and, BitVec.getLsbD_not, BitVec.getLsbD_xor, getLsbD_rawPortD,
    s.getLsbD_reg8 _ hi, decide_eq_true hi, Bool.true_and, Bool.and_eq_true, Bool.not_eq_true', bne_eq_false_iff_eq]
  tauto

/-- The raises that arm the wake countdown are those of the keyboard and of the pins (R131). -/
theorem State.portDWakes_iff (s : State) :
    (((List.range 8).any fun i => s.pinRaises i && s.wakes (s.pinSource i)) ||
      (s.keyboardLow && s.wakes (s.source .keyboard))) = true ↔
      (KeyboardLow s ∧ Wakes s (s.source .keyboard)) ∨ ∃ i < 8, PinRaised s i ∧ Wakes s (s.pinSource i) := by
  rw [or_comm]
  simp only [Bool.or_eq_true, List.any_eq_true, List.mem_range, Bool.and_eq_true, s.pinRaises_iff, s.wakes_iff,
    s.keyboardLow_iff]

theorem PortTouches.bytesKept {s t : State} (h : PortTouches s t) : BytesKept [.ipr, .isr] s t :=
  fun p hp => h.1 p fun r hr => by
    have hout := hp r hr
    unfold Owns at hout
    omega

/-- `evalPortD()` does what the statements say of it (R306, R307). -/
theorem State.portDEvaluated_evalPortD (s : State) : PortDEvaluated s s.evalPortD := by
  obtain ⟨touches, pins, keyboard, others, previous, wake, active⟩ := s.evalPortD_spec
  refine ⟨fun i hi => ?_, ?_, others, active, fun i hi => ?_, ?_, touches.bytesKept⟩
  · rw [State.pending, pins i hi, Bool.or_eq_true, Bool.and_eq_true, s.pinRaises_iff, s.pinEdge_iff]
    rfl
  · rw [State.pending, keyboard, s.keyboardLow_iff]
  · rw [previous i hi, s.pinActive_iff]
  · rw [wake]
    exact s.wakeAfter_armed s.portDWakes_iff

/-- The delivery of the level after the evaluation changes nothing that the evaluation is about (R134). -/
theorem portDEvaluated_checkInterrupts {s t : State} (h : PortDEvaluated s t) : PortDEvaluated s t.checkInterrupts :=
  ⟨h.pins, h.keyboard, h.others, h.active, h.previous, h.wake, h.bytes⟩

/-- The evaluation reads neither the status flags nor what the operation returned and emitted. -/
theorem portDEvaluated_of_unread {s t : State} {f : StatusFlags} {v : Returned} {es : List Event}
    (h : PortDEvaluated { s with statusFlags := f, returned := v, events := es } t) : PortDEvaluated s t :=
  ⟨h.pins, h.keyboard, h.others, h.active, h.previous, h.wake, h.bytes⟩

/-- The port-D evaluation and the delivery of the level change only what the two may change. -/
theorem PortTouches.checkInterrupts_eq {s t : State} (h : PortTouches s t) :
    t.checkInterrupts = { s with
      rf := t.rf, wakeCountdown := t.wakeCountdown, portDPrevActive := t.portDPrevActive,
      cpuIpl := t.checkInterrupts.cpuIpl, events := t.checkInterrupts.events } := by
  obtain ⟨rf, wake, prev, rfl⟩ :
      ∃ rf wake prev, t = { s with rf := rf, wakeCountdown := wake, portDPrevActive := prev } := ⟨_, _, _, h.2⟩
  rfl

theorem PortTouches.delivered {s t : State} (h : PortTouches s t) (hs : s.events = []) : Delivered t.checkInterrupts :=
  State.delivered_checkInterrupts (h.quiet.1.trans hs)

/-! A write to ICR or a port register -/

/-- The plain write of a port register, and the status flags where it recomputes them (R305, R309). -/
def State.storePort (s : State) (r : Reg) (v be : Word) : State :=
  { s.plainWrite r v be with
    statusFlags :=
      if r ∈ statusTriggers then describeStatus s.params.regMap (s.plainWrite r v be).rf else s.statusFlags }

/-- Bits of the value outside the byte enables do not matter to the store. -/
theorem State.storePort_and_enable (s : State) (r : Reg) (v be : Word) :
    s.storePort r (v &&& be) be = s.storePort r v be := by
  simp only [State.storePort, State.plainWrite, State.maskedWrite, mergeBits_and_enable]

/-- The handlers of ICR and the port registers: the store, and the port-D evaluation where the register runs it
(R146, R305, R309). -/
theorem State.writeHandler_port (s : State) {r : Reg} (hr : r ∈ Reg.icr :: Reg.portRegs) (v be : Word) :
    s.writeHandler r v be = if r ∈ portDTriggers then (s.storePort r v be).evalPortD else s.storePort r v be := by
  fin_cases hr <;> rfl

end Sys2Proof.Machine

namespace Sys2Proof

open Sys2Proof.Machine Sys2Proof.Claims

/-- Settles O27: the inputs are replaced, port D is evaluated (`State.portDEvaluated_evalPortD`), and the level is
delivered. -/
theorem inputChange : Obligations.InputChange := by
  refine ⟨fun x op => decode_descriptorOf (.inputChange x) _, fun op hop => ?_, fun x s => ?_⟩
  · refine (decode_descriptorOf (.inputChange noInputs) op).trans ?_
    rw [Instr.decodeAs, hop]
    rfl
  · have touches : PortTouches { s.startOp with inputs := x } _ := (State.evalPortD_spec _).1
    have evaluated : PortDEvaluated { s with inputs := x } { s.startOp with inputs := x }.evalPortD :=
      portDEvaluated_of_unread (State.portDEvaluated_evalPortD { s.startOp with inputs := x })
    exact ⟨_, rfl, portDEvaluated_checkInterrupts evaluated, touches.delivered rfl, touches.checkInterrupts_eq⟩

/-- Settles O37: the handler stores the register, recomputes the status flags and evaluates port D, the last two where R309
asks for them (`State.writeHandler_port`), and then the level is delivered. -/
theorem portWrite : Obligations.PortWrite := by
  intro i s a n v r hr hi hin
  have stores := s.reg_plainWrite r (laneValue s r a n v) (laneMask s r a n)
  have touches := s.plainWrite_touchesOnly r (laneValue s r a n v) (laneMask s r a n)
  refine ⟨_, s.plainWrite r (laneValue s r a n v) (laneMask s r a n), exec_of_inside hi hin, stores, touches.bytesKept,
    rfl, ?_⟩
  rw [State.writeHandler_port _ hr, State.storePort_and_enable]
  generalize laneValue s r a n v = w
  generalize laneMask s r a n = be
  by_cases hport : r ∈ portDTriggers
  · have port := (s.startOp.storePort r w be).evalPortD_spec.1
    have evaluated : PortDEvaluated (s.plainWrite r w be) (s.startOp.storePort r w be).evalPortD :=
      portDEvaluated_of_unread (State.portDEvaluated_evalPortD (s.startOp.storePort r w be))
    have rest := port.checkInterrupts_eq
    rw [if_pos hport]
    refine ⟨fun _ => portDEvaluated_checkInterrupts evaluated, fun hnot => absurd hport hnot, ?_, port.delivered rfl,
      ?_⟩
    · rw [rest]
      rfl
    · rw [rest]
      rfl
  · rw [if_neg hport]
    exact ⟨fun h => absurd h hport, fun _ => ⟨rfl, rfl, rfl⟩, rfl, State.delivered_checkInterrupts rfl, rfl⟩

end Sys2Proof
end

section
/-! PROOFS. The statements of 48_host_control: BUS_FAULT (O29), the byte write of SCR (O43), what sets and clears a fault
flag (O16), the low-power stop (O18), and where BusError and SystemReset come from (O14). -/

namespace Sys2Proof.Machine

open Sys2Proof.Claims

/-! The fault flags -/

theorem Field.reg_ofFault (k : FaultKind) : (Field.ofFault k).reg = .scr := by cases k <;> rfl

theorem Field.mayLack_ofFault (k : FaultKind) : (Field.ofFault k).mayLack = false := by cases k <;> rfl

theorem Field.widthOk_ofFault (k : FaultKind) (n : Nat) : (Field.ofFault k).widthOk n = (n == 1) := by cases k <;> rfl

theorem Field.ofFault_inj {k l : FaultKind} : Field.ofFault k = Field.ofFault l ↔ k = l := by
  cases k <;> cases l <;> decide

/-- The bits of SCR after a fault flag was latched (R332, R333). -/
theorem State.bit_setFault (s : State) (k : FaultKind) (b : Nat) :
    (s.setField (Field.ofFault k) 1).bit .scr b = (decide (b = faultBit s k) || s.bit .scr b) := by
  have hbits := s.getLsbD_setField_flag (Field.mayLack_ofFault k) (Field.widthOk_ofFault k) 1 b
  rw [Field.reg_ofFault] at hbits
  refine hbits.trans ?_
  by_cases hb : b = s.params.regMap.lo (Field.ofFault k)
  · simp [hb, faultBit, bitOf]
  · simp [hb, faultBit, bitOf, State.bit]

/-- A bus fault latches its flag and, with BETEN 1, emits its event (R332, R337): BETEN is another field than the flag. -/
theorem State.busFault_eq_withEvents (s : State) (k : FaultKind) :
    s.busFault k = { s.setField (Field.ofFault k) 1 with
      events := s.events ++ if s.field .beten = 1 then [.busError k] else [] } := by
  have hbeten : (s.setField (Field.ofFault k) 1).flag .beten = true ↔ s.field .beten = 1 := by
    rw [State.flag_eq_true, s.field_setField_ne 1 (Field.mayLack_ofFault k) rfl (by cases k <;> decide)]
  unfold State.busFault
  by_cases h : s.field .beten = 1
  · rw [if_pos h]
    exact if_pos (hbeten.2 h)
  · rw [if_neg h, List.append_nil]
    exact if_neg (mt hbeten.1 h)

theorem exec_faultOp (k : FaultKind) (s : State) : exec (faultOp k) s = .next (s.startOp.busFault k) := by
  cases k <;> rfl

theorem decode_faultOp (k : FaultKind) (op : Operand) : decode ⟨0x90 ||| faultCode k, op⟩ = .ok (faultOp k) := by
  cases k with
  | wpv => exact decode_descriptorOf .busFaultWpv op
  | beto => exact decode_descriptorOf .busFaultBeto op
  | prv => exact decode_descriptorOf .busFaultPrv op

/-- The bit that latches a fault is its field's mask. -/
theorem faultBit_mask (s : State) (k : FaultKind) :
    s.params.regMap.mask (Field.ofFault k) = (1 : Word) <<< faultBit s k := by
  rw [RegTable.mask, s.params.regMap.len_flag (Field.mayLack_ofFault k) (Field.widthOk_ofFault k)]
  rfl

/-- SCR is one byte, and every flag of it is one of its eight bits (R26). -/
theorem faultBit_lt (s : State) (k : FaultKind) : faultBit s k < 8 := by
  have hlo := s.params.regMap.lo_flag (Field.mayLack_ofFault k) (Field.widthOk_ofFault k)
  rwa [Field.reg_ofFault, s.params.regMap.bytes_one rfl] at hlo

theorem faultBit_inj (s : State) {k l : FaultKind} : faultBit s k = faultBit s l ↔ k = l := by
  refine ⟨fun h => by_contra fun hne => ?_, fun h => h ▸ rfl⟩
  have apart := s.params.regMap.fields_apart (Field.mayLack_ofFault k) (Field.mayLack_ofFault l)
    (mt Field.ofFault_inj.1 hne) (by rw [Field.reg_ofFault, Field.reg_ofFault])
  rw [s.params.regMap.len_flag (Field.mayLack_ofFault k) (Field.widthOk_ofFault k),
    s.params.regMap.len_flag (Field.mayLack_ofFault l) (Field.widthOk_ofFault l)] at apart
  unfold faultBit bitOf at h
  omega

theorem faultOp_inj {k l : FaultKind} : faultOp k = faultOp l ↔ k = l := by
  cases k <;> cases l <;> decide

/-- A fault flag after a bus fault: its own is set, and the others are kept (R333). -/
theorem State.bit_busFault (s : State) (k l : FaultKind) :
    (s.busFault l).bit .scr (faultBit s k) = true ↔
      faultOp l = faultOp k ∨ s.bit .scr (faultBit s k) = true := by
  rw [s.busFault_eq_withEvents, faultOp_inj, eq_comm (a := l), ← faultBit_inj s]
  refine (Bool.eq_iff_iff.1 (s.bit_setFault l (faultBit s k))).trans ?_
  rw [Bool.or_eq_true, decide_eq_true_iff]

/-! The SCR write -/

/-- The masks of one-bit fields are their bits. -/
theorem RegMap.getLsbD_masks_flags (m : RegMap) {fs : List Field}
    (h : ∀ f ∈ fs, f.mayLack = false ∧ ∀ n, f.widthOk n = (n == 1)) (b : Nat) :
    (m.masks fs).getLsbD b = true ↔ ∃ f ∈ fs, b = m.lo f := by
  rw [RegTable.getLsbD_masks]
  refine exists_congr fun f => and_congr_right fun hf => ?_
  rw [m.getLsbD_mask_flag (h f hf).1 (h f hf).2, decide_eq_true_iff]

theorem State.getLsbD_faultFlags (s : State) (b : Nat) :
    s.params.regMap.faultFlags.getLsbD b = decide (b = bitOf s .beto ∨ b = bitOf s .wpv ∨ b = bitOf s .prv) := by
  rw [Bool.eq_iff_iff, decide_eq_true_iff, RegTable.faultFlags,
    RegMap.getLsbD_masks_flags _ (by simp [Field.mayLack, Field.widthOk])]
  simp [bitOf]

theorem State.getLsbD_scrPlain (s : State) (b : Nat) :
    s.params.regMap.scrPlain.getLsbD b =
      decide (b = bitOf s .beten ∨ b = bitOf s .so ∨ b = bitOf s .dmap ∨ b = bitOf s .wdth8) := by
  rw [Bool.eq_iff_iff, decide_eq_true_iff, RegTable.scrPlain,
    RegMap.getLsbD_masks_flags _ (by simp [Field.mayLack, Field.widthOk])]
  simp [bitOf]

/-- A fault flag that the write covers is cleared by a 1 and kept by a 0 (R336). -/
theorem State.bit_writeScr_fault (s : State) {v be : Word} (k : FaultKind) (hbe : be.getLsbD (faultBit s k) = true) :
    (s.writeScr v be).bit .scr (faultBit s k) = (s.bit .scr (faultBit s k) && !v.getLsbD (faultBit s k)) := by
  have hflag : s.params.regMap.faultFlags.getLsbD (faultBit s k) = true := by
    rw [s.getLsbD_faultFlags]
    cases k <;> simp [faultBit, Field.ofFault]
  rw [s.bit_writeScr, if_pos hbe, if_pos hflag]

/-- A byte write at SCR's offset has SCR's eight bits as its lane (R86). -/
theorem lane_scr {s : State} {a : Word} (ha : s.reaches a = true) (hoff : offsetOf a = s.params.regMap.offset .scr) :
    Inside s .scr a 1 ∧ laneLo s .scr a 1 = 0 := by
  have hbytes := s.params.regMap.bytes_one (r := .scr) rfl
  refine ⟨⟨ha, by omega, by omega⟩, ?_⟩
  unfold laneLo
  omega

/-! A register of one byte in a write -/

/-- The touch of a one-byte register is the byte of the span at its offset, with all its bits enabled (R86). -/
theorem touch_of_one_byte {km : RegMap} {rf : Memory} {o n k : Nat} {v : Word} {t : Touch}
    (h1 : t.reg.classBytes = 1) (hk : k ≤ 4096) (ht : t ∈ (splitUpTo km rf o n v k).touches) :
    ∃ j < k, spanOffset o j = km.offset t.reg ∧ t.v = (spanByte v n j).setWidth 32 ∧ t.be = 0xFF := by
  induction k generalizing t with
  | zero => simp [splitUpTo] at ht
  | succ k ih =>
    have old : ∀ u ∈ (splitUpTo km rf o n v k).touches, u.reg.classBytes = 1 →
        ∃ j < k + 1, spanOffset o j = km.offset u.reg ∧ u.v = (spanByte v n j).setWidth 32 ∧ u.be = 0xFF := by
      intro u hu hone
      obtain ⟨j, hj, rest⟩ := ih hone (by omega) hu
      exact ⟨j, by omega, rest⟩
    cases hr : km.regAt (spanOffset o k) with
    | none =>
      rw [touches_splitUpTo_none hr] at ht
      exact old t ht h1
    | some r =>
      rw [touches_splitUpTo_some hr] at ht
      rcases mem_addTouch_cases ht with ht | rfl | ⟨u, hu, hur, rfl⟩
      · exact old t ht h1
      · have hat := (km.regAt_eq_some_one h1).1 hr
        have hshift : km.laneShift r (spanOffset o k) = 0 := by
          rw [RegTable.laneShift, km.bytes_one h1]
          omega
        exact ⟨k, by omega, hat, by simp [hshift], by simp [hshift]⟩
      · obtain ⟨j, hj, hoff, -⟩ := ih (t := u) (by rwa [hur]) (by omega) hu
        rw [hur, ← (km.regAt_eq_some_one h1).1 hr] at hoff
        have := spanOffset_inj (by omega) (by omega) hoff
        omega

/-- The handlers of the other registers leave a register that is neither IPR nor ISR (R118). -/
theorem State.runHandlers_regKept (s : State) {r : Reg} (hr : r ∉ [Reg.ipr, .isr]) {ts : List Touch}
    (h : r ∉ ts.map Touch.reg) : RegKept r s (s.runHandlers ts) := by
  refine State.runHandlers_induct (Q := RegKept r) (fun _ => ⟨rfl, rfl⟩) RegKept.trans (fun u t ht => ?_) s
  have hne : r ≠ t.reg := fun e => h (e ▸ List.mem_map_of_mem ht)
  have frame := u.writeHandler_frame t.reg t.v t.be
  exact ⟨frame.params, frame.reg (by simpa [hne] using hr)⟩

/-- Where a register is touched, once, its handler alone makes its value (R86, R114). -/
theorem State.runHandlers_of_touch (s : State) {ts : List Touch} (hnodup : (ts.map Touch.reg).Nodup) {t : Touch}
    (ht : t ∈ ts) (hr : t.reg ∉ [Reg.ipr, .isr]) :
    ∃ u, RegKept t.reg s u ∧ RegKept t.reg (u.writeHandler t.reg t.v t.be) (s.runHandlers ts) := by
  obtain ⟨before, after, rfl⟩ := List.append_of_mem ht
  rw [List.map_append, List.map_cons, List.nodup_middle, List.nodup_cons, List.mem_append, not_or] at hnodup
  obtain ⟨⟨hbefore, hafter⟩, -⟩ := hnodup
  refine ⟨_, s.runHandlers_regKept hr hbefore, ?_⟩
  rw [State.runHandlers_append]
  exact State.runHandlers_regKept _ hr hafter

theorem RegKept.bit {r : Reg} {s t : State} (h : RegKept r s t) (b : Nat) : t.bit r b = s.bit r b := by
  rw [State.bit, h.2, State.bit]

theorem RegKept.faultBit {s t : State} (h : RegKept .scr s t) (k : FaultKind) : faultBit t k = faultBit s k := by
  rw [Claims.faultBit, bitOf, h.1]
  rfl

/-- The byte of the span at SCR's offset has a 1 at the fault flag's bit (R336). -/
def FaultWritten (s : State) (a : Word) (n : Nat) (v : Word) (k : FaultKind) : Prop :=
  ∃ j < n, spanOffset (offsetOf a) j = s.params.regMap.offset .scr ∧
    v.getLsbD (8 * (n - 1 - j) + faultBit s k) = true

theorem exists_faultWritten_iff {s : State} {i : Instr} {a : Word} {n : Nat} {v : Word} {k : FaultKind}
    (hwrite : writeParts i = some (a, n, v)) :
    (∃ a n v j, writeParts i = some (a, n, v) ∧ s.reaches a = true ∧ j < n ∧
      (offsetOf a + j) % 4096 = s.params.regMap.offset .scr ∧ v.getLsbD (8 * (n - 1 - j) + faultBit s k) = true) ↔
      s.reaches a = true ∧ FaultWritten s a n v k := by
  constructor
  · rintro ⟨a', n', v', j, hparts, hreach, hj, hoff, hb⟩
    rw [hwrite] at hparts
    cases hparts
    exact ⟨hreach, j, hj, hoff, hb⟩
  · rintro ⟨hreach, j, hj, hoff, hb⟩
    exact ⟨a, n, v, j, hwrite, hreach, hj, hoff, hb⟩

/-- A write clears the fault flags that it writes 1, and leaves the others (R336). -/
theorem State.bit_memWrite_fault (s : State) {a : Word} {n : Nat} (hn : n ≤ 4) (v : Word) (k : FaultKind) :
    (s.memWrite a n v).bit .scr (faultBit s k) = true ↔
      s.bit .scr (faultBit s k) = true ∧ ¬(s.reaches a = true ∧ FaultWritten s a n v k) := by
  cases ha : s.reaches a with
  | false => simp [State.memWrite_unreached ha]
  | true =>
    have store : RegKept .scr s (s.storeUnowned (offsetOf a) n v) :=
      ⟨rfl, (splitUpTo_rf s.params.regMap s.rf (offsetOf a) n v n (by omega)).2.2.1 .scr⟩
    have run : (s.memWrite a n v).bit .scr (faultBit s k) =
        ((s.storeUnowned (offsetOf a) n v).runHandlers (s.touchesOf (offsetOf a) n v)).bit .scr (faultBit s k) := by
      rw [State.memWrite_of_reaches ha]
      rfl
    by_cases hmem : .scr ∈ (s.touchesOf (offsetOf a) n v).map Touch.reg
    · obtain ⟨t, ht, hscr⟩ := List.mem_map.1 hmem
      obtain ⟨j, hj, hoff, hv, hbe⟩ := touch_of_one_byte (by rw [hscr]; rfl) (by omega) ht
      obtain ⟨u, hbefore, hafter⟩ := (s.storeUnowned (offsetOf a) n v).runHandlers_of_touch
        (s.nodup_touchesOf (offsetOf a) n v) ht (by rw [hscr]; decide)
      rw [hscr] at hoff hbefore hafter
      have hkept := store.trans hbefore
      have hlt := faultBit_lt s k
      have written : FaultWritten s a n v k ↔ t.v.getLsbD (faultBit s k) = true := by
        have hbyte : t.v.getLsbD (faultBit s k) = v.getLsbD (8 * (n - 1 - j) + faultBit s k) := by
          rw [hv, BitVec.getLsbD_setWidth, getLsbD_spanByte]
          simp [hlt, show faultBit s k < 32 by omega]
        rw [hbyte]
        refine ⟨fun ⟨i, hi, hio, hb⟩ => ?_, fun hb => ⟨j, hj, hoff, hb⟩⟩
        rwa [spanOffset_inj (by omega) (by omega) (hio.trans hoff.symm)] at hb
      have handler : (u.writeScr t.v t.be).bit .scr (faultBit s k) =
          (s.bit .scr (faultBit s k) && !t.v.getLsbD (faultBit s k)) := by
        rw [← hkept.faultBit k, u.bit_writeScr_fault k (by rw [hbe, getLsbD_byteMask, hkept.faultBit]; simp [hlt]),
          hkept.bit]
      rw [run, hafter.bit]
      refine (Bool.eq_iff_iff.1 handler).trans ?_
      simp [written]
    · have hkept := store.trans (State.runHandlers_regKept _ (by decide) hmem)
      have hnot : ¬FaultWritten s a n v k := fun ⟨j, hj, hoff, _⟩ =>
        hmem (s.mem_touchesOf v ⟨j, hj, (RegMap.regAt_eq_some_one _ rfl).2 hoff⟩)
      rw [run, hkept.bit]
      simp [hnot]

/-! SCR in the other operations -/

/-- But for RESET_ALL, the writes and the bus faults, no operation stores into SCR. -/
theorem Performed.scrKept {i : Instr} {s t : State} (h : Performed s i t) (hreset : i ≠ .resetAll)
    (hwrite : writeParts i = none) (hfault : ∀ k, i ≠ faultOp k) : RegKept .scr s t := by
  have start : RegKept .scr s s.startOp := ⟨rfl, rfl⟩
  cases h with
  | read v _ =>
    obtain ⟨x, y, e⟩ := s.startOp.memReadState_eq _ _
    rw [e]
    exact ⟨rfl, rfl⟩
  | write hi =>
    rw [hi] at hwrite
    cases hwrite
  | tick =>
    have touches := s.startOp.tick_touches
    have hparams : s.startOp.tick.params = s.params := by rw [touches.2]; rfl
    refine ⟨hparams, ?_⟩
    rw [State.reg, hparams]
    exact touches.1.reg (by decide)
  | resetAll => exact absurd rfl hreset
  | iack l => exact ⟨rfl, rfl⟩
  | query b _ => exact ⟨rfl, rfl⟩
  | setRtc => exact start.trans ((s.startOp.setTimeOfDay_spec _).1.regKept (by decide))
  | inputChange x =>
    have port := (State.evalPortD_spec { s.startOp with inputs := x }).1
    have kept : RegKept .scr s { s.startOp with inputs := x }.evalPortD :=
      ⟨port.params, port.reg (by decide) (by decide)⟩
    exact kept.trans (State.checkInterrupts_regKept _ _)
  | lowPowerStop => exact ⟨rfl, rfl⟩
  | busFault k => exact absurd rfl (hfault k)
  | @extIrq _ line x _ =>
    exact (start.trans ((s.startOp.driveSource_spec x line).1.regKept (by decide))).trans
      (State.checkInterrupts_regKept _ _)

/-- RESET_ALL loads the image into every register but IPR and ISR, which the port-D evaluation may change (R440). -/
theorem State.reg_resetAll (s : State) {r : Reg} (hr : r ∉ [Reg.ipr, .isr]) :
    s.resetAll.reg r = s.params.resetMemory.reg s.params.regMap r := by
  simp only [List.mem_cons, List.not_mem_nil, or_false, not_or] at hr
  obtain ⟨u, e, hrf, hparams, -⟩ := s.resetAll_eq
  have hport : s.resetAll.reg r = u.reg r := by
    rw [e]
    exact u.evalPortD_spec.1.reg hr.1 hr.2
  rw [hport, State.reg, hrf, hparams]
  exact (State.recomputeIsr_spec { s with rf := s.params.resetMemory }).1.reg (by simpa using hr.2)

/-! The low-power stop -/

theorem State.lowPowerStop_memWrite (s : State) (a : Word) (n : Nat) (v : Word) :
    (s.memWrite a n v).lowPowerStop = s.lowPowerStop := by
  cases ha : s.reaches a with
  | true =>
    rw [State.memWrite_of_reaches ha, State.lowPowerStop_checkInterrupts, (s.memWrite_window v).rest]
    rfl
  | false => rw [State.memWrite_unreached ha]

theorem PortTouches.lowPowerStop {s t : State} (h : PortTouches s t) : t.lowPowerStop = s.lowPowerStop := by
  rw [h.2]

theorem TouchesOnly.lowPowerStop {rs : List Reg} {s t : State} (h : TouchesOnly rs s t) :
    t.lowPowerStop = s.lowPowerStop := by
  rw [h.2]

theorem State.lowPowerStop_resetAll (s : State) : s.resetAll.lowPowerStop = false := by
  rw [State.resetAll, State.lowPowerStop_checkInterrupts, (State.evalPortD_spec _).1.lowPowerStop]
  rfl

/-- The low-power stop is set by its operation and cleared by IACK and RESET_ALL, and every other operation keeps it
(R138, R331, R440). -/
theorem Performed.lowPowerStop_iff {i : Instr} {s t : State} (h : Performed s i t) :
    t.lowPowerStop = true ↔
      i = .setLowPowerStop ∨ (s.lowPowerStop = true ∧ i ≠ .resetAll ∧ ∀ l, i ≠ .iack l) := by
  cases h with
  | read v hi =>
    obtain ⟨x, y, e⟩ := s.startOp.memReadState_eq _ _
    rw [e]
    cases i <;> cases hi <;> simp
  | write hi =>
    rw [State.lowPowerStop_memWrite]
    cases i <;> cases hi <;> simp
  | tick =>
    rw [s.startOp.tick_touches.2]
    simp
  | resetAll =>
    rw [State.lowPowerStop_resetAll]
    simp
  | iack l => simp
  | query b hi => rcases hi with rfl | rfl <;> simp
  | setRtc =>
    rw [(s.startOp.setTimeOfDay_spec _).1.lowPowerStop]
    simp
  | inputChange x =>
    rw [State.lowPowerStop_checkInterrupts, (State.evalPortD_spec _).1.lowPowerStop]
    simp
  | lowPowerStop => simp
  | busFault k =>
    rw [State.busFault_eq_withEvents]
    cases k <;> simp [faultOp]
  | @extIrq _ line x _ =>
    change (s.startOp.driveSource x line).checkInterrupts.lowPowerStop = true ↔ _
    rw [State.lowPowerStop_checkInterrupts, (s.startOp.driveSource_spec x line).1.lowPowerStop]
    simp

/-! The errors among the events -/

/-- The event is one of the two that report an error (R337, R262). -/
def Event.isError : Event → Bool
  | .busError _ | .systemReset => true
  | .setIpl _ | .shortenBudget _ | .mapChanged _ => false

/-- The operation has emitted no error. -/
def ErrorFree (t : State) : Prop := ∀ e ∈ t.events, e.isError = false

theorem errorFree_of_events_nil {t : State} (h : t.events = []) : ErrorFree t := by simp [ErrorFree, h]

theorem Quiet.errorFree {s t : State} (h : Quiet s t) (hs : s.events = []) : ErrorFree t :=
  errorFree_of_events_nil (h.1.trans hs)

theorem ErrorFree.emit {s : State} (h : ErrorFree s) {e : Event} (he : e.isError = false) : ErrorFree (s.emit e) := by
  intro e' he'
  rcases List.mem_append.1 he' with hmem | hmem
  · exact h e' hmem
  · rw [List.mem_singleton.1 hmem, he]

/-- The delivery of the level is no error (R134). -/
theorem ErrorFree.checkInterrupts {s : State} (h : ErrorFree s) : ErrorFree s.checkInterrupts :=
  ErrorFree.emit (s := { s with cpuIpl := BitVec.ofNat 3 s.level }) h rfl

/-- The handlers of a write emit ShortenBudget and MapChanged alone (R166, R277). -/
theorem State.errorFree_memWrite {s : State} (hs : s.events = []) (a : Word) (n : Nat) (v : Word) :
    ErrorFree (s.memWrite a n v) := by
  cases ha : s.reaches a with
  | false =>
    rw [State.memWrite_unreached ha]
    exact errorFree_of_events_nil hs
  | true =>
    rw [State.memWrite_of_reaches ha]
    refine ErrorFree.checkInterrupts fun e he => ?_
    obtain ⟨es, hes, hkind⟩ := (s.memWrite_window (a := a) (n := n) v).events
    have hstart : (s.storeUnowned (offsetOf a) n v).events = [] := hs
    rw [hes, hstart, List.nil_append] at he
    rcases hkind e he with ⟨_, rfl⟩ | ⟨_, rfl⟩ <;> rfl

theorem State.errorFree_resetAll {s : State} (hs : s.events = []) : ErrorFree s.resetAll := by
  obtain ⟨u, e, -, -, c, hevents⟩ := s.resetAll_eq
  rw [e]
  refine ErrorFree.checkInterrupts ?_
  simp [ErrorFree, u.evalPortD_spec.1.quiet.1, hevents, hs, Event.isError]

/-- A TICK emits no error, or it is aborted and emits SystemReset alone (R262). -/
theorem State.tick_errors {s : State} (hs : s.events = []) :
    ErrorFree s.tick ∨ (Aborts s ∧ s.tick.events = [.systemReset]) := by
  have count : Quiet s s.countTick := ⟨rfl, rfl⟩
  have second := count.trans s.countTick.rtcSecond_touchesOnly.quiet
  rcases s.tick_cases with ⟨ha, e⟩ | ⟨-, e⟩ | ⟨-, e⟩ <;> rw [e]
  · refine .inr ⟨ha, ?_⟩
    rw [State.events_emit, second.1, hs]
    rfl
  · have path := (second.trans (State.watchdogSecond_spec _).1.quiet).trans (State.tickBody_quiet _)
    exact .inl (path.errorFree hs).checkInterrupts
  · exact .inl ((count.trans (State.tickBody_quiet _)).errorFree hs).checkInterrupts

/-- What errors an operation can emit: none, or it is a bus fault with BETEN 1 or an aborted TICK, and the error is its
only event (R262, R337). -/
theorem Performed.errors {i : Instr} {s t : State} (h : Performed s i t) :
    ErrorFree t ∨ (∃ k, i = faultOp k ∧ s.field .beten = 1 ∧ t.events = [.busError k]) ∨
      (i = .tick ∧ Aborts s ∧ t.events = [.systemReset]) := by
  cases h with
  | read v _ =>
    obtain ⟨x, y, e⟩ := s.startOp.memReadState_eq _ _
    rw [e]
    exact .inl (errorFree_of_events_nil rfl)
  | write _ => exact .inl (State.errorFree_memWrite (s := s.startOp) rfl _ _ _)
  | tick =>
    rcases State.tick_errors (s := s.startOp) rfl with hfree | ⟨(ha : Aborts s), hevents⟩
    · exact .inl hfree
    · exact .inr (.inr ⟨rfl, ha, hevents⟩)
  | resetAll => exact .inl (State.errorFree_resetAll rfl)
  | iack l => exact .inl (errorFree_of_events_nil rfl)
  | query b _ => exact .inl (errorFree_of_events_nil rfl)
  | setRtc => exact .inl ((s.startOp.setTimeOfDay_spec _).1.quiet.errorFree rfl)
  | inputChange x => exact .inl ((State.evalPortD_spec _).1.quiet.errorFree rfl).checkInterrupts
  | lowPowerStop => exact .inl (errorFree_of_events_nil rfl)
  | busFault k =>
    rw [State.busFault_eq_withEvents]
    by_cases hbeten : s.field .beten = 1
    · exact .inr (.inl ⟨k, rfl, hbeten, if_pos hbeten⟩)
    · exact .inl (errorFree_of_events_nil (if_neg hbeten))
  | @extIrq _ line x _ => exact .inl ((s.startOp.driveSource_spec x line).1.quiet.errorFree rfl).checkInterrupts

end Sys2Proof.Machine

namespace Sys2Proof

open Sys2Proof.Machine Sys2Proof.Claims

/-- Settles O29: the fault's flag is set in SCR (`State.bit_setFault`), and the event is BETEN's
(`State.busFault_eq_withEvents`). -/
theorem busFault : Obligations.BusFault := by
  refine ⟨decode_faultOp, fun k s => ?_⟩
  have touches := s.startOp.setFault_touchesOnly k
  refine ⟨_, exec_faultOp k s, ?_⟩
  rw [State.busFault_eq_withEvents]
  refine ⟨BitVec.eq_of_getLsbD_eq fun b hb => ?_, rfl, touches.bytesKept, rfl⟩
  refine (s.startOp.bit_setFault k b).trans ?_
  rw [BitVec.getLsbD_or, ← faultBit_mask,
    RegMap.getLsbD_mask_flag _ (Field.mayLack_ofFault k) (Field.widthOk_ofFault k)]
  exact Bool.or_comm _ _

/-- Settles O43: the handler's bits (`State.bit_writeScr`) on a lane that is the whole of SCR. -/
theorem scrWrite : Obligations.ScrWrite := by
  intro a v s ha hoff
  obtain ⟨hin, hlane⟩ := lane_scr ha hoff
  have hmask : ∀ b < 8, (laneMask s .scr a 1).getLsbD b = true := fun b hb => by
    rw [laneMask, hlane, getLsbD_fieldMask]
    simp [hb, show b < 32 by omega]
  have hvalue : ∀ b < 8, (laneValue s .scr a 1 (v.setWidth 32)).getLsbD b = v.getLsbD b := fun b hb => by
    simp [laneValue, hlane, hb, show b < 32 by omega]
  refine ⟨_, exec_of_inside (i := .write8 a v) rfl hin, fun b hb => ?_,
    (TouchesOnly.setReg s.startOp _ List.mem_cons_self).bytesKept, State.delivered_checkInterrupts rfl, rfl⟩
  refine (s.startOp.bit_writeScr _ _ b).trans ?_
  rw [if_pos (hmask b hb), BitVec.getLsbD_and, hmask b hb, hvalue b hb, Bool.and_true]
  simp only [State.getLsbD_faultFlags, State.getLsbD_scrPlain, decide_eq_true_iff]
  rfl

/-- Settles O16: RESET_ALL loads SCR (`State.reg_resetAll`), a write clears the flags that it writes 1
(`State.bit_memWrite_fault`), a bus fault sets its own (`State.bit_setFault`), and nothing else stores into SCR
(`Performed.scrKept`). -/
theorem faultFlagsSticky : Obligations.FaultFlagsSticky := by
  intro i s t k h
  by_cases hreset : i = .resetAll
  · subst hreset
    cases h
    have himage := s.startOp.reg_resetAll (r := .scr) (by decide)
    rw [State.bit, himage]
    cases k <;> simp [faultOp]
  · rw [or_iff_right (a := i = .resetAll ∧ _) fun e => hreset e.1, and_iff_right hreset]
    by_cases hwrite : writeParts i = none
    · have hnone : ¬∃ a n v j, writeParts i = some (a, n, v) ∧ s.reaches a = true ∧ j < n ∧
          (offsetOf a + j) % 4096 = s.params.regMap.offset .scr ∧
          v.getLsbD (8 * (n - 1 - j) + faultBit s k) = true := by simp [hwrite]
      rw [and_iff_left hnone]
      by_cases hfault : ∃ l, i = faultOp l
      · obtain ⟨l, rfl⟩ := hfault
        rw [exec_faultOp] at h
        cases h
        exact s.startOp.bit_busFault k l
      · have kept := (performed_of_exec h).scrKept hreset hwrite fun l e => hfault ⟨l, e⟩
        rw [kept.bit, or_iff_right fun e => hfault ⟨k, e⟩]
    · obtain ⟨⟨a, n, v⟩, hwrite⟩ := Option.ne_none_iff_exists'.1 hwrite
      have hfault : i ≠ faultOp k := by
        rintro rfl
        cases k <;> cases hwrite
      rw [exec_of_writeParts hwrite] at h
      cases h
      rw [or_iff_right hfault, exists_faultWritten_iff hwrite]
      exact s.startOp.bit_memWrite_fault (writeParts_le hwrite) v k

/-- Settles O18: the operation's rule is the flag, and `Performed.lowPowerStop_iff` for every operation. -/
theorem lowPowerStopFlag : Obligations.LowPowerStopFlag :=
  ⟨decode_descriptorOf .setLowPowerStop, fun _ => rfl, fun _ _ _ h => (performed_of_exec h).lowPowerStop_iff⟩

/-- Settles O14: an operation emits no error, or its one error alone (`Performed.errors`). -/
theorem errorEvents : Obligations.ErrorEvents := by
  intro i s t h
  rcases (performed_of_exec h).errors with hfree | ⟨k, rfl, hbeten, hevents⟩ | ⟨rfl, ha, hevents⟩
  · exact ⟨fun k hk => absurd (hfree _ hk) (by simp [Event.isError]),
      fun hr => absurd (hfree _ hr) (by simp [Event.isError])⟩
  · simp [hevents, hbeten]
  · simp [hevents, ha]

end Sys2Proof
end

section
/-! PROOFS. The statements of 70_reset_and_hazards: RESET_ALL (O22), and the PLL's rates after it (O23). -/

namespace Sys2Proof.Machine

open Sys2Proof.Claims

/-! An all-zero register file -/

theorem Memory.readSpan_nil (o n : Nat) : Memory.readSpan [] o n = 0#32 := by
  induction n with
  | zero => rfl
  | succ n ih => simp [Memory.readSpan, ih, Memory.read, unlistedByte]

/-- A store of 0 lists no byte (log 3). -/
theorem Memory.writeSpan_nil_zero (o n : Nat) : Memory.writeSpan [] o 0#32 n = [] := by
  induction n with
  | zero => rfl
  | succ n ih => simp [Memory.writeSpan, ih, Memory.write, Memory.erase, unlistedByte]

/-- Without a listed byte every register is 0 (R33). -/
theorem State.reg_of_rf_nil {s : State} (h : s.rf = []) (r : Reg) : s.reg r = 0 := by
  rw [State.reg, h]
  exact Memory.readSpan_nil _ _

theorem State.bit_of_rf_nil {s : State} (h : s.rf = []) (r : Reg) (n : Nat) : s.bit r n = false := by
  rw [State.bit, State.reg_of_rf_nil h]
  exact BitVec.getLsbD_zero

theorem State.field_of_rf_nil {s : State} (h : s.rf = []) (f : Field) : s.field f = 0 := by
  rw [State.field_eq, State.reg_of_rf_nil h]
  simp [getBits]

theorem State.setReg_zero_of_rf_nil {s : State} (h : s.rf = []) (r : Reg) : s.setReg r 0#32 = s := by
  have hrf : s.rf.setReg s.params.regMap r 0#32 = s.rf := by
    rw [h]
    exact Memory.writeSpan_nil_zero _ _
  rw [State.setReg, hrf]

theorem State.recomputeIsr_of_rf_nil {s : State} (h : s.rf = []) : s.recomputeIsr = s := by
  have hzero : (0 : Word) &&& ~~~s.reg .imr = 0#32 := BitVec.zero_and
  rw [State.recomputeIsr, State.reg_of_rf_nil h, hzero, State.setReg_zero_of_rf_nil h]

theorem State.clearSource_of_rf_nil {s : State} (h : s.rf = []) (x : SourceRow) : s.clearSource x = s := by
  have hclear : s.setReg .ipr (s.reg .ipr &&& ~~~x.mask) = s := by
    have hzero : (0 : Word) &&& ~~~x.mask = 0#32 := BitVec.zero_and
    rw [State.reg_of_rf_nil h, hzero, State.setReg_zero_of_rf_nil h]
  rw [State.clearSource, hclear, State.recomputeIsr_of_rf_nil h]

/-- No pin is enabled, so none is active, and none is edge-sensitive (R306). -/
theorem State.evalPin_of_rf_nil {s : State} (h : s.rf = []) (hprev : s.portDPrevActive = 0) (i : Nat) :
    s.evalPin i = s := by
  have hedge : s.pinEdge i = false := by
    unfold State.pinEdge
    split
    · exact State.bit_of_rf_nil h _ _
    · simp [s.flag_eq_decide, State.field_of_rf_nil h]
  have hactive : s.pinActive i = false := by simp [State.pinActive, State.bit_of_rf_nil h]
  have hstay : s.setPrevActive i false = s := by
    cases s
    simp_all [State.setPrevActive, bitIf]
  simp [State.evalPin, hedge, hactive, State.clearSource_of_rf_nil h, hstay]

/-- With no pin and no keyboard row enabled the port-D evaluation changes nothing (R306, R307). -/
theorem State.evalPortD_of_rf_nil {s : State} (h : s.rf = []) (hprev : s.portDPrevActive = 0) : s.evalPortD = s := by
  have hpins : ∀ l : List Nat, l.foldl State.evalPin s = s := by
    intro l
    induction l with
    | nil => rfl
    | cons i l ih => rw [List.foldl_cons, State.evalPin_of_rf_nil h hprev, ih]
  have hkeys : s.keyboardLow = false := by simp [State.keyboardLow, State.reg8, State.reg_of_rf_nil h]
  rw [State.evalPortD, hpins, State.evalKeyboard, hkeys]
  exact State.clearSource_of_rf_nil h _

/-- The delivered level is 0 (R134). -/
theorem State.level_of_rf_nil {s : State} (h : s.rf = []) : s.level = 0 :=
  State.level_of_isr_zero (State.reg_of_rf_nil h .isr)

/-! RESET_ALL before the port-D evaluation -/

/-- The first part of RESET_ALL: the image, ISR and all that is derived, and the reset values of the rest (R440). -/
def State.resetState (s : State) : State :=
  let s := { s with rf := s.params.resetMemory }.recomputeIsr
  let s := { s with
    bootMode := true
    wakeCountdown := -1
    timerAcc1 := F64.zero
    timerAcc2 := F64.zero
    timerReadAck1 := 0
    timerReadAck2 := 0
    tickCounter := 0
    lowPowerStop := false
    portDPrevActive := 0 }
  s.recomputeChips.recomputeStatusFlags

theorem State.resetAll_eq_resetState (s : State) : s.resetAll = s.resetState.evalPortD.checkInterrupts := rfl

theorem State.rf_resetState (s : State) :
    s.resetState.rf = ({ s with rf := s.params.resetMemory }.recomputeIsr).rf := rfl

/-- The registers after the first part of RESET_ALL: the image's bytes but for ISR's, which is computed (R440). -/
theorem State.resetState_registers (s : State) :
    (∀ p, ¬Owns s .isr p → s.resetState.rf.read p = s.params.resetMemory.read p) ∧ s.resetState.isrConsistent := by
  obtain ⟨touches, hisr⟩ := State.recomputeIsr_spec { s with rf := s.params.resetMemory }
  have reg : ∀ r, s.resetState.reg r = ({ s with rf := s.params.resetMemory }.recomputeIsr).reg r := fun _ => rfl
  refine ⟨fun p hp => touches.bytesKept p fun r hr => List.mem_singleton.1 hr ▸ hp, ?_⟩
  rw [State.isrConsistent, reg, reg, reg, hisr, touches.reg (by decide), touches.reg (by decide)]

/-- The rest of the state after the first part of RESET_ALL, written out (R440). -/
theorem State.resetState_startOp_eq (s : State) :
    s.startOp.resetState = { s with
      rf := s.startOp.resetState.rf, bootMode := true
      chips := describeChips s.params s.startOp.resetState.rf true, wakeCountdown := -1, timerAcc1 := ⟨0⟩
      timerAcc2 := ⟨0⟩, timerReadAck1 := 0, timerReadAck2 := 0, tickCounter := 0, lowPowerStop := false
      portDPrevActive := 0, statusFlags := describeStatus s.params.regMap s.startOp.resetState.rf
      returned := .nothing
      events := [.mapChanged (describeChips s.params s.startOp.resetState.rf true)] } := rfl

/-- With the all-zero image no byte is listed after it (R33; log 3). -/
theorem State.rf_resetState_of_image_nil {s : State} (h : s.params.resetImage = []) : s.resetState.rf = [] := by
  have himage : ({ s with rf := s.params.resetMemory } : State).rf = [] := Params.resetMemory_nil h
  rw [State.rf_resetState, State.recomputeIsr_of_rf_nil himage]
  exact himage

/-- With the all-zero image the port-D evaluation of RESET_ALL changes nothing, and the level is 0 (R33, R440). -/
theorem State.resetAll_of_image_nil {s : State} (h : s.params.resetImage = []) :
    s.resetAll = { s.resetState with cpuIpl := 0, events := s.resetState.events ++ [.setIpl 0] } := by
  have hrf := State.rf_resetState_of_image_nil h
  rw [State.resetAll_eq_resetState, State.evalPortD_of_rf_nil hrf rfl, State.checkInterrupts_eq,
    State.level_of_rf_nil hrf]
  rfl

/-- Under the default parameters RESET_ALL gives the reset state, but for the inputs and the waiting requests (R33, R440;
logs 3 and 12 to 14). -/
theorem State.resetAll_default {s : State} (h : s.params = Params.default) :
    s.startOp.resetAll = { State.reset with inputs := s.inputs, requests := s.requests } := by
  have himage : s.startOp.params.resetImage = [] := congrArg Params.resetImage h
  rw [State.resetAll_of_image_nil himage, s.resetState_startOp_eq, State.rf_resetState_of_image_nil himage, h]
  rfl

/-! The rates after it -/

/-- With PCNT, QCNT and both divider codes 0 the default rates are 30 and 15 (R162, R163, R441). -/
theorem State.rates_reset {s : State} (h : s.params = Params.default) (hrf : s.rf = []) :
    s.dmaclkPerTick = F64.ofNat 30 ∧ s.sysclkPerTick = F64.ofNat 15 := by
  have hcycles : s.pllCycles = 30 := by simp [State.pllCycles, State.field_of_rf_nil hrf]
  have hpresc : s.params.presc1Div.ofField (s.field .presc1) = 2 ^ 0 := by
    rw [State.field_of_rf_nil hrf, h]
    rfl
  have hsys : s.params.sysclkDiv.ofCode (s.field .sysclksel) = 2 ^ 1 := by
    rw [State.field_of_rf_nil hrf, h]
    rfl
  have hdma := s.units_dmaclkPerTick hpresc (by decide) (e := 1074) rfl
  have hsysclk := s.units_sysclkPerTick hpresc hsys (by decide) (by decide) (e := 1073) rfl
  rw [hcycles] at hdma hsysclk
  refine ⟨congrArg F64.mk (?_ : s.dmaclkPerTick.units = (F64.ofNat 30).units),
    congrArg F64.mk (?_ : s.sysclkPerTick.units = (F64.ofNat 15).units)⟩
  · rw [hdma, F64.ofNat_exact (by decide), F64.one]
  · rw [hsysclk, F64.ofNat_exact (by decide), F64.one, Nat.pow_succ 2 1073]
    omega

end Sys2Proof.Machine

namespace Sys2Proof

open Sys2Proof.Machine Sys2Proof.Claims

/-- The IEEE 754 patterns of 30.0 and 15.0 (R441). -/
theorem F64.bits_thirty : (F64.ofNat 30).bits = 0x403E000000000000 := by decide +kernel

@[inherit_doc F64.bits_thirty]
theorem F64.bits_fifteen : (F64.ofNat 15).bits = 0x402E000000000000 := by decide +kernel

/-- Settles O22: the first part is `State.resetState`, written out by `State.resetState_startOp_eq`; the port-D evaluation
follows it; and with the all-zero image it changes nothing (`State.resetAll_of_image_nil`). -/
theorem resetAll : Obligations.ResetAll := by
  refine ⟨decode_descriptorOf .resetAll, fun s => ?_⟩
  obtain ⟨hbytes, hisr⟩ := s.startOp.resetState_registers
  have port := s.startOp.resetState.evalPortD_spec.1
  refine ⟨_, s.startOp.resetState, rfl, hbytes, hisr, s.resetState_startOp_eq,
    portDEvaluated_checkInterrupts (State.portDEvaluated_evalPortD _), rfl, ?_, port.checkInterrupts_eq,
    fun himage => ?_, State.resetAll_default⟩
  · rw [State.resetAll_eq_resetState, State.events_checkInterrupts, port.quiet.1]
    rfl
  · rw [State.resetAll_of_image_nil (s := s.startOp) himage]
    refine ⟨fun p => ?_, rfl, rfl, rfl⟩
    rw [State.rf_resetState_of_image_nil (s := s.startOp) himage]
    rfl

/-- Settles O23: the state is the reset state (`State.resetAll_default`), whose registers are all 0. -/
theorem resetRates : Obligations.ResetRates := by
  intro s t h ht
  cases ht
  rw [State.resetAll_default h]
  obtain ⟨hdma, hsys⟩ := State.rates_reset
    (s := { State.reset with inputs := s.inputs, requests := s.requests }) rfl rfl
  rw [hdma, hsys]
  exact ⟨State.field_of_rf_nil rfl _, rfl, rfl, F64.bits_thirty, F64.bits_fifteen⟩

end Sys2Proof
end
